-- ==== Sys2Proof/Word.lean ====
section
/-! DEFINITION. The word types of the 68000 and the operand sizes (00_scope.md R10, R12, R16). -/

namespace Sys2Proof

/-- An 8-bit byte (R16). -/
abbrev Byte := BitVec 8
/-- A 16-bit word (R16). -/
abbrev Word := BitVec 16
/-- A 32-bit longword (R16): every data, address and stack pointer register and the program counter. -/
abbrev Long := BitVec 32

/-- The three operand sizes (R16). -/
inductive Size where
  | byte | word | long
  deriving DecidableEq, Repr

/-- `n = 8*size`, the width of an operand in bits (R16). -/
@[reducible] def Size.bits : Size → Nat
  | .byte => 8
  | .word => 16
  | .long => 32

/-- The width of an operand in bytes (R16). -/
@[reducible] def Size.bytes : Size → Nat
  | .byte => 1
  | .word => 2
  | .long => 4

end Sys2Proof
end

