-- ==== Sys2Proof/Syntax.lean ====
section
/-! DEFINITION. The instructions of the 68000: one constructor per row of spec/opcode_table.json, and their operands
(30_encoding.md R91 to R104, 40_addressing_modes.md R140 to R153). -/

namespace Sys2Proof

/-- The number of a data or address register (10_state.md R20, R21). -/
abbrev RegNum := Fin 8

/-- A data or an address register, where either may stand (an index register, an item of MOVEM's list). -/
inductive XReg where
  | d (n : RegNum)
  | a (n : RegNum)
  deriving DecidableEq, Repr

/-- Word or long: the one-bit size of MOVEM and MOVEP (R96 c). -/
inductive WordLong where
  | word | long
  deriving DecidableEq, Repr

/-- The operand size that a one-bit size names. -/
@[reducible] def WordLong.size : WordLong → Size
  | .word => .word
  | .long => .long

/-- The index extension word (R95): index register, `long` for `.L` (else the low word, sign-extended), displacement. -/
structure Index where
  reg : XReg
  long : Bool
  disp : BitVec 8
  deriving DecidableEq, Repr

/-- The twelve effective-address modes with their extension words (R94, R140 to R152). An immediate is held
zero-extended to 32 bits. -/
inductive EA where
  | dReg (n : RegNum)
  | aReg (n : RegNum)
  | ind (n : RegNum)
  | postInc (n : RegNum)
  | preDec (n : RegNum)
  | disp (n : RegNum) (d : Word)
  | index (n : RegNum) (x : Index)
  | absW (w : Word)
  | absL (l : Long)
  | pcDisp (d : Word)
  | pcIndex (x : Index)
  | imm (v : Long)
  deriving DecidableEq, Repr

/-- The sixteen conditions, in the order of their codes (10_state.md R38). -/
inductive Cond where
  | t | f | hi | ls | cc | cs | ne | eq | vc | vs | pl | mi | ge | lt | gt | le
  deriving DecidableEq, Repr

/-- A branch displacement: the opword's byte, or the extension word (R98). -/
inductive BranchDisp where
  | short (d : BitVec 8)
  | long (d : Word)
  deriving DecidableEq, Repr

/-- A register shift's count: the 3-bit field of the opword (0 means 8) or the register that holds it (R99,
44_shift_rotate.md R277). -/
inductive Count where
  | imm (q : Fin 8)
  | reg (n : RegNum)
  deriving DecidableEq, Repr

/-- MOVEP's direction (41_data_movement.md R191). -/
inductive MovepDir where
  | memToReg | regToMem
  deriving DecidableEq, Repr

/-- The instructions. Immediates (`imm`) are zero-extended to 32 bits; `q : Fin 8` is a quick-data field, in which 0
stands for 8 (R99). Where an instruction has two registers its own rule says which is the source. -/
inductive Instr where
  | oriToCcr (imm : BitVec 8)
  | oriToSr (imm : Word)
  | ori (sz : Size) (imm : Long) (ea : EA)
  | andiToCcr (imm : BitVec 8)
  | andiToSr (imm : Word)
  | andi (sz : Size) (imm : Long) (ea : EA)
  | subi (sz : Size) (imm : Long) (ea : EA)
  | addi (sz : Size) (imm : Long) (ea : EA)
  | eoriToCcr (imm : BitVec 8)
  | eoriToSr (imm : Word)
  | eori (sz : Size) (imm : Long) (ea : EA)
  | cmpi (sz : Size) (imm : Long) (ea : EA)
  | btstImm (bit : BitVec 8) (ea : EA)
  | bchgImm (bit : BitVec 8) (ea : EA)
  | bclrImm (bit : BitVec 8) (ea : EA)
  | bsetImm (bit : BitVec 8) (ea : EA)
  | btstReg (dn : RegNum) (ea : EA)
  | bchgReg (dn : RegNum) (ea : EA)
  | bclrReg (dn : RegNum) (ea : EA)
  | bsetReg (dn : RegNum) (ea : EA)
  | movep (dir : MovepDir) (sz : WordLong) (dn : RegNum) (an : RegNum) (d : Word)
  | moveB (src dst : EA)
  | moveL (src dst : EA)
  | moveW (src dst : EA)
  | moveaL (src : EA) (an : RegNum)
  | moveaW (src : EA) (an : RegNum)
  | negx (sz : Size) (ea : EA)
  | moveFromSr (ea : EA)
  | chk (ea : EA) (dn : RegNum)
  | lea (ea : EA) (an : RegNum)
  | clr (sz : Size) (ea : EA)
  | neg (sz : Size) (ea : EA)
  | moveToCcr (ea : EA)
  | not (sz : Size) (ea : EA)
  | moveToSr (ea : EA)
  | nbcd (ea : EA)
  | swap (dn : RegNum)
  | pea (ea : EA)
  | extW (dn : RegNum)
  | extL (dn : RegNum)
  | movemToMem (sz : WordLong) (mask : Word) (ea : EA)
  | movemToRegs (sz : WordLong) (mask : Word) (ea : EA)
  | tst (sz : Size) (ea : EA)
  | tas (ea : EA)
  | illegal
  | trap (v : Fin 16)
  | link (an : RegNum) (d : Word)
  | unlk (an : RegNum)
  | moveToUsp (an : RegNum)
  | moveFromUsp (an : RegNum)
  | reset
  | nop
  | stop (imm : Word)
  | rte
  | rts
  | trapv
  | rtr
  | jsr (ea : EA)
  | jmp (ea : EA)
  | addq (sz : Size) (q : Fin 8) (ea : EA)
  | subq (sz : Size) (q : Fin 8) (ea : EA)
  | scc (cond : Cond) (ea : EA)
  | dbcc (cond : Cond) (dn : RegNum) (d : Word)
  | bra (d : BranchDisp)
  | bsr (d : BranchDisp)
  | bcc (cond : Cond) (d : BranchDisp)
  | moveq (data : BitVec 8) (dn : RegNum)
  | orToReg (sz : Size) (ea : EA) (dn : RegNum)
  | orToEa (sz : Size) (dn : RegNum) (ea : EA)
  | divu (ea : EA) (dn : RegNum)
  | divs (ea : EA) (dn : RegNum)
  | sbcdReg (dy dx : RegNum)
  | sbcdMem (ay ax : RegNum)
  | subToReg (sz : Size) (ea : EA) (dn : RegNum)
  | subToEa (sz : Size) (dn : RegNum) (ea : EA)
  | subaW (ea : EA) (an : RegNum)
  | subaL (ea : EA) (an : RegNum)
  | subxReg (sz : Size) (dx dy : RegNum)
  | subxMem (sz : Size) (ax ay : RegNum)
  | cmp (sz : Size) (ea : EA) (dn : RegNum)
  | cmpaW (ea : EA) (an : RegNum)
  | cmpaL (ea : EA) (an : RegNum)
  | eor (sz : Size) (dn : RegNum) (ea : EA)
  | cmpm (sz : Size) (ay ax : RegNum)
  | andToReg (sz : Size) (ea : EA) (dn : RegNum)
  | andToEa (sz : Size) (dn : RegNum) (ea : EA)
  | mulu (ea : EA) (dn : RegNum)
  | muls (ea : EA) (dn : RegNum)
  | abcdReg (dy dx : RegNum)
  | abcdMem (ay ax : RegNum)
  | exgDD (dx dy : RegNum)
  | exgAA (ax ay : RegNum)
  | exgDA (dx ay : RegNum)
  | addToReg (sz : Size) (ea : EA) (dn : RegNum)
  | addToEa (sz : Size) (dn : RegNum) (ea : EA)
  | addaW (ea : EA) (an : RegNum)
  | addaL (ea : EA) (an : RegNum)
  | addxReg (sz : Size) (dy dx : RegNum)
  | addxMem (sz : Size) (ay ax : RegNum)
  | asrReg (cnt : Count) (sz : Size) (dn : RegNum)
  | asrMem (ea : EA)
  | aslReg (cnt : Count) (sz : Size) (dn : RegNum)
  | aslMem (ea : EA)
  | lsrReg (cnt : Count) (sz : Size) (dn : RegNum)
  | lsrMem (ea : EA)
  | lslReg (cnt : Count) (sz : Size) (dn : RegNum)
  | lslMem (ea : EA)
  | roxrReg (cnt : Count) (sz : Size) (dn : RegNum)
  | roxrMem (ea : EA)
  | roxlReg (cnt : Count) (sz : Size) (dn : RegNum)
  | roxlMem (ea : EA)
  | rorReg (cnt : Count) (sz : Size) (dn : RegNum)
  | rorMem (ea : EA)
  | rolReg (cnt : Count) (sz : Size) (dn : RegNum)
  | rolMem (ea : EA)
  deriving DecidableEq, Repr

end Sys2Proof
end

