-- ==== Sys2Proof/WellFormed.lean ====
section
/-! DEFINITION. Which instruction terms the encoding can express: permitted addressing modes (40_addressing_modes.md R154,
R159), size restrictions, immediates that fit, conditions and displacements a form admits (30_encoding.md). -/

namespace Sys2Proof

/-- The twelve addressing modes of R94, without their registers and extension words. -/
inductive EaKind where
  | dReg | aReg | ind | postInc | preDec | disp | index | absW | absL | pcDisp | pcIndex | imm
  deriving DecidableEq, Repr

/-- The mode of an effective address. -/
def EA.kind : EA → EaKind
  | .dReg _ => .dReg
  | .aReg _ => .aReg
  | .ind _ => .ind
  | .postInc _ => .postInc
  | .preDec _ => .preDec
  | .disp _ _ => .disp
  | .index _ _ => .index
  | .absW _ => .absW
  | .absL _ => .absL
  | .pcDisp _ => .pcDisp
  | .pcIndex _ => .pcIndex
  | .imm _ => .imm

/-- "data" modes: all but An (R154). -/
def EaKind.isData : EaKind → Bool
  | .aReg => false
  | _ => true

/-- "memory" modes: all but Dn and An (R154). -/
def EaKind.isMemory : EaKind → Bool
  | .dReg | .aReg => false
  | _ => true

/-- "control" modes: a memory address without changing a register (R154). -/
def EaKind.isControl : EaKind → Bool
  | .ind | .disp | .index | .absW | .absL | .pcDisp | .pcIndex => true
  | _ => false

/-- "alterable" modes: all but PC-relative and immediate (R154). -/
def EaKind.isAlterable : EaKind → Bool
  | .pcDisp | .pcIndex | .imm => false
  | _ => true

/-- The sets of modes that the rows of the opcode table accept (R154, R159). -/
inductive EaSet where
  | all | data | dataAlterable | memoryAlterable | alterable | control
  | dataNoImm | movemTo | movemFrom
  deriving DecidableEq, Repr

/-- Membership of a mode in a set (R154, R159). -/
def EaSet.accepts : EaSet → EaKind → Bool
  | .all, _ => true
  | .data, k => k.isData
  | .dataAlterable, k => k.isData && k.isAlterable
  | .memoryAlterable, k => k.isMemory && k.isAlterable
  | .alterable, k => k.isAlterable
  | .control, k => k.isControl
  | .dataNoImm, k => k.isData && k != .imm
  | .movemTo, k => (k.isControl && k.isAlterable) || k == .preDec
  | .movemFrom, k => k.isControl || k == .postInc

/-- An immediate held in 32 bits fits the operand size (R97). -/
def fitsSize (sz : Size) (v : Long) : Bool := v.toNat < 2 ^ sz.bits

/-- An effective address at size `sz`: a mode of the set, An never at byte size (R159), an immediate that fits. -/
def EA.ok (set : EaSet) (sz : Size) (ea : EA) : Bool :=
  set.accepts ea.kind && !(sz == .byte && ea.kind == .aReg) &&
    (match ea with
     | .imm v => fitsSize sz v
     | _ => true)

/-- A branch displacement the encoding can hold: the byte 0 selects the 16-bit form (R98). -/
def BranchDisp.ok : BranchDisp → Bool
  | .short d => d != 0
  | .long _ => true

/-- The instruction term has an encoding (R121, R159). -/
def Instr.wellFormed : Instr → Bool
  | .oriToCcr _ | .oriToSr _ | .andiToCcr _ | .andiToSr _ | .eoriToCcr _ | .eoriToSr _ => true
  | .ori sz imm ea | .andi sz imm ea | .subi sz imm ea | .addi sz imm ea | .eori sz imm ea | .cmpi sz imm ea =>
    fitsSize sz imm && ea.ok .dataAlterable sz
  | .btstImm _ ea => ea.ok .dataNoImm .byte
  | .bchgImm _ ea | .bclrImm _ ea | .bsetImm _ ea => ea.ok .dataAlterable .byte
  | .btstReg _ ea => ea.ok .data .byte
  | .bchgReg _ ea | .bclrReg _ ea | .bsetReg _ ea => ea.ok .dataAlterable .byte
  | .movep _ _ _ _ _ => true
  | .moveB src dst => src.ok .all .byte && dst.ok .dataAlterable .byte
  | .moveL src dst => src.ok .all .long && dst.ok .dataAlterable .long
  | .moveW src dst => src.ok .all .word && dst.ok .dataAlterable .word
  | .moveaL src _ => src.ok .all .long
  | .moveaW src _ => src.ok .all .word
  | .negx sz ea | .clr sz ea | .neg sz ea | .not sz ea | .tst sz ea => ea.ok .dataAlterable sz
  | .moveFromSr ea => ea.ok .dataAlterable .word
  | .chk ea _ => ea.ok .data .word
  | .lea ea _ | .pea ea | .jsr ea | .jmp ea => ea.ok .control .long
  | .moveToCcr ea | .moveToSr ea => ea.ok .data .word
  | .nbcd ea | .tas ea | .scc _ ea => ea.ok .dataAlterable .byte
  | .swap _ | .extW _ | .extL _ => true
  | .movemToMem sz _ ea => ea.ok .movemTo sz.size
  | .movemToRegs sz _ ea => ea.ok .movemFrom sz.size
  | .illegal | .trap _ | .link _ _ | .unlk _ | .moveToUsp _ | .moveFromUsp _ | .reset | .nop | .stop _ | .rte | .rts
  | .trapv | .rtr => true
  | .addq sz _ ea | .subq sz _ ea => ea.ok .alterable sz
  | .dbcc _ _ _ => true
  | .bra d | .bsr d => d.ok
  | .bcc cond d => cond != .t && cond != .f && d.ok
  | .moveq _ _ => true
  | .orToReg sz ea _ | .andToReg sz ea _ => ea.ok .data sz
  | .orToEa sz _ ea | .subToEa sz _ ea | .andToEa sz _ ea | .addToEa sz _ ea => ea.ok .memoryAlterable sz
  | .divu ea _ | .divs ea _ | .mulu ea _ | .muls ea _ => ea.ok .data .word
  | .sbcdReg _ _ | .sbcdMem _ _ | .abcdReg _ _ | .abcdMem _ _ => true
  | .subToReg sz ea _ | .cmp sz ea _ | .addToReg sz ea _ => ea.ok .all sz
  | .subaW ea _ | .cmpaW ea _ | .addaW ea _ => ea.ok .all .word
  | .subaL ea _ | .cmpaL ea _ | .addaL ea _ => ea.ok .all .long
  | .subxReg _ _ _ | .subxMem _ _ _ | .addxReg _ _ _ | .addxMem _ _ _ | .cmpm _ _ _ => true
  | .eor sz _ ea => ea.ok .dataAlterable sz
  | .exgDD _ _ | .exgAA _ _ | .exgDA _ _ => true
  | .asrReg _ _ _ | .aslReg _ _ _ | .lsrReg _ _ _ | .lslReg _ _ _ | .roxrReg _ _ _ | .roxlReg _ _ _ | .rorReg _ _ _
  | .rolReg _ _ _ => true
  | .asrMem ea | .aslMem ea | .lsrMem ea | .lslMem ea | .roxrMem ea | .roxlMem ea | .rorMem ea | .rolMem ea =>
    ea.ok .memoryAlterable .word

end Sys2Proof
end

