-- ==== Sys2Proof/Decode.lean ====
section
/-! DEFINITION. The decoder (30_encoding.md R90 to R126, spec/opcode_table.json), total on any bytes, and after it the
encoder. The opcode table is plain data: one `Row` per row of the table, in its order, grouped by the opword's top four
bits. Every bit position is the spec's own general knowledge (R121, decision D20; log 26). -/

namespace Sys2Proof

/-- Why bytes are not an instruction. Only the opword decides the first three (R123). -/
inductive DecodeError where
  /-- An opword that selects no row: the illegal-instruction exception, vector 4 (R123). -/
  | illegal
  /-- An opword $Axxx: vector 10 (R124). -/
  | lineA
  /-- An opword $Fxxx: vector 11 (R124). -/
  | lineF
  /-- Fewer bytes than the instruction has: not an encoding, only the end of the given list. -/
  | truncated
  deriving DecidableEq, Repr

/-- One name per row of the opcode table: the constructor of `Instr` the row stands for. -/
inductive Tag where
  | oriToCcr | oriToSr | ori | andiToCcr | andiToSr | andi | subi | addi | eoriToCcr | eoriToSr
  | eori | cmpi | btstImm | bchgImm | bclrImm | bsetImm | btstReg | bchgReg | bclrReg | bsetReg
  | movep | moveB | moveL | moveW | moveaL | moveaW | negx | moveFromSr | chk | lea
  | clr | neg | moveToCcr | not | moveToSr | nbcd | swap | pea | extW | extL
  | movemToMem | movemToRegs | tst | tas | illegal | trap | link | unlk | moveToUsp | moveFromUsp
  | reset | nop | stop | rte | rts | trapv | rtr | jsr | jmp | addq
  | subq | scc | dbcc | bra | bsr | bcc | moveq | orToReg | orToEa | divu
  | divs | sbcdReg | sbcdMem | subToReg | subToEa | subaW | subaL | subxReg | subxMem | cmp
  | cmpaW | cmpaL | eor | cmpm | andToReg | andToEa | mulu | muls | abcdReg | abcdMem
  | exgDD | exgAA | exgDA | addToReg | addToEa | addaW | addaL | addxReg | addxMem | asrReg
  | asrMem | aslReg | aslMem | lsrReg | lsrMem | lslReg | lslMem | roxrReg | roxrMem | roxlReg
  | roxlMem | rorReg | rorMem | rolReg | rolMem
  deriving DecidableEq, Repr

/-- A row of the opcode table: `(opword AND mask) = pat` and the row's constraints (R122). -/
structure Row where
  tag : Tag
  mask : Nat
  pat : Nat
  /-- Bits 7..6 are a size field: 11 is not a size, and size byte excludes An (R96 a, R159). -/
  sized : Bool := false
  /-- The modes accepted in bits 5..0. -/
  ea : Option EaSet := none
  /-- The modes accepted in MOVE's destination field, bits 11..6 (R93). -/
  dst : Option EaSet := none
  /-- Bits 11..8 are a branch condition: 0000 and 0001 are BRA and BSR (R121). -/
  bcc : Bool := false
  deriving DecidableEq, Repr

/-- Rows of line 0000 (R121). -/
def rowsLine0 : List Row := [
  { tag := .oriToCcr, mask := 0xFFFF, pat := 0x003C },
  { tag := .oriToSr, mask := 0xFFFF, pat := 0x007C },
  { tag := .ori, mask := 0xFF00, pat := 0x0000, sized := true, ea := some .dataAlterable },
  { tag := .andiToCcr, mask := 0xFFFF, pat := 0x023C },
  { tag := .andiToSr, mask := 0xFFFF, pat := 0x027C },
  { tag := .andi, mask := 0xFF00, pat := 0x0200, sized := true, ea := some .dataAlterable },
  { tag := .subi, mask := 0xFF00, pat := 0x0400, sized := true, ea := some .dataAlterable },
  { tag := .addi, mask := 0xFF00, pat := 0x0600, sized := true, ea := some .dataAlterable },
  { tag := .eoriToCcr, mask := 0xFFFF, pat := 0x0A3C },
  { tag := .eoriToSr, mask := 0xFFFF, pat := 0x0A7C },
  { tag := .eori, mask := 0xFF00, pat := 0x0A00, sized := true, ea := some .dataAlterable },
  { tag := .cmpi, mask := 0xFF00, pat := 0x0C00, sized := true, ea := some .dataAlterable },
  { tag := .btstImm, mask := 0xFFC0, pat := 0x0800, ea := some .dataNoImm },
  { tag := .bchgImm, mask := 0xFFC0, pat := 0x0840, ea := some .dataAlterable },
  { tag := .bclrImm, mask := 0xFFC0, pat := 0x0880, ea := some .dataAlterable },
  { tag := .bsetImm, mask := 0xFFC0, pat := 0x08C0, ea := some .dataAlterable },
  { tag := .btstReg, mask := 0xF1C0, pat := 0x0100, ea := some .data },
  { tag := .bchgReg, mask := 0xF1C0, pat := 0x0140, ea := some .dataAlterable },
  { tag := .bclrReg, mask := 0xF1C0, pat := 0x0180, ea := some .dataAlterable },
  { tag := .bsetReg, mask := 0xF1C0, pat := 0x01C0, ea := some .dataAlterable },
  { tag := .movep, mask := 0xF138, pat := 0x0108 } ]

/-- Rows of line 0001 (R121). -/
def rowsLine1 : List Row := [
  { tag := .moveB, mask := 0xF000, pat := 0x1000, ea := some .data, dst := some .dataAlterable } ]

/-- Rows of line 0010 (R121). -/
def rowsLine2 : List Row := [
  { tag := .moveL, mask := 0xF000, pat := 0x2000, ea := some .all, dst := some .dataAlterable },
  { tag := .moveaL, mask := 0xF1C0, pat := 0x2040, ea := some .all } ]

/-- Rows of line 0011 (R121). -/
def rowsLine3 : List Row := [
  { tag := .moveW, mask := 0xF000, pat := 0x3000, ea := some .all, dst := some .dataAlterable },
  { tag := .moveaW, mask := 0xF1C0, pat := 0x3040, ea := some .all } ]

/-- Rows of line 0100 (R121). -/
def rowsLine4 : List Row := [
  { tag := .negx, mask := 0xFF00, pat := 0x4000, sized := true, ea := some .dataAlterable },
  { tag := .moveFromSr, mask := 0xFFC0, pat := 0x40C0, ea := some .dataAlterable },
  { tag := .chk, mask := 0xF1C0, pat := 0x4180, ea := some .data },
  { tag := .lea, mask := 0xF1C0, pat := 0x41C0, ea := some .control },
  { tag := .clr, mask := 0xFF00, pat := 0x4200, sized := true, ea := some .dataAlterable },
  { tag := .neg, mask := 0xFF00, pat := 0x4400, sized := true, ea := some .dataAlterable },
  { tag := .moveToCcr, mask := 0xFFC0, pat := 0x44C0, ea := some .data },
  { tag := .not, mask := 0xFF00, pat := 0x4600, sized := true, ea := some .dataAlterable },
  { tag := .moveToSr, mask := 0xFFC0, pat := 0x46C0, ea := some .data },
  { tag := .nbcd, mask := 0xFFC0, pat := 0x4800, ea := some .dataAlterable },
  { tag := .swap, mask := 0xFFF8, pat := 0x4840 },
  { tag := .pea, mask := 0xFFC0, pat := 0x4840, ea := some .control },
  { tag := .extW, mask := 0xFFF8, pat := 0x4880 },
  { tag := .extL, mask := 0xFFF8, pat := 0x48C0 },
  { tag := .movemToMem, mask := 0xFF80, pat := 0x4880, ea := some .movemTo },
  { tag := .movemToRegs, mask := 0xFF80, pat := 0x4C80, ea := some .movemFrom },
  { tag := .tst, mask := 0xFF00, pat := 0x4A00, sized := true, ea := some .dataAlterable },
  { tag := .tas, mask := 0xFFC0, pat := 0x4AC0, ea := some .dataAlterable },
  { tag := .illegal, mask := 0xFFFF, pat := 0x4AFC },
  { tag := .trap, mask := 0xFFF0, pat := 0x4E40 },
  { tag := .link, mask := 0xFFF8, pat := 0x4E50 },
  { tag := .unlk, mask := 0xFFF8, pat := 0x4E58 },
  { tag := .moveToUsp, mask := 0xFFF8, pat := 0x4E60 },
  { tag := .moveFromUsp, mask := 0xFFF8, pat := 0x4E68 },
  { tag := .reset, mask := 0xFFFF, pat := 0x4E70 },
  { tag := .nop, mask := 0xFFFF, pat := 0x4E71 },
  { tag := .stop, mask := 0xFFFF, pat := 0x4E72 },
  { tag := .rte, mask := 0xFFFF, pat := 0x4E73 },
  { tag := .rts, mask := 0xFFFF, pat := 0x4E75 },
  { tag := .trapv, mask := 0xFFFF, pat := 0x4E76 },
  { tag := .rtr, mask := 0xFFFF, pat := 0x4E77 },
  { tag := .jsr, mask := 0xFFC0, pat := 0x4E80, ea := some .control },
  { tag := .jmp, mask := 0xFFC0, pat := 0x4EC0, ea := some .control } ]

/-- Rows of line 0101 (R121). -/
def rowsLine5 : List Row := [
  { tag := .addq, mask := 0xF100, pat := 0x5000, sized := true, ea := some .alterable },
  { tag := .subq, mask := 0xF100, pat := 0x5100, sized := true, ea := some .alterable },
  { tag := .scc, mask := 0xF0C0, pat := 0x50C0, ea := some .dataAlterable },
  { tag := .dbcc, mask := 0xF0F8, pat := 0x50C8 } ]

/-- Rows of line 0110 (R121). -/
def rowsLine6 : List Row := [
  { tag := .bra, mask := 0xFF00, pat := 0x6000 },
  { tag := .bsr, mask := 0xFF00, pat := 0x6100 },
  { tag := .bcc, mask := 0xF000, pat := 0x6000, bcc := true } ]

/-- Rows of line 0111 (R121). -/
def rowsLine7 : List Row := [
  { tag := .moveq, mask := 0xF100, pat := 0x7000 } ]

/-- Rows of line 1000 (R121). -/
def rowsLine8 : List Row := [
  { tag := .orToReg, mask := 0xF100, pat := 0x8000, sized := true, ea := some .data },
  { tag := .orToEa, mask := 0xF100, pat := 0x8100, sized := true, ea := some .memoryAlterable },
  { tag := .divu, mask := 0xF1C0, pat := 0x80C0, ea := some .data },
  { tag := .divs, mask := 0xF1C0, pat := 0x81C0, ea := some .data },
  { tag := .sbcdReg, mask := 0xF1F8, pat := 0x8100 },
  { tag := .sbcdMem, mask := 0xF1F8, pat := 0x8108 } ]

/-- Rows of line 1001 (R121). -/
def rowsLine9 : List Row := [
  { tag := .subToReg, mask := 0xF100, pat := 0x9000, sized := true, ea := some .all },
  { tag := .subToEa, mask := 0xF100, pat := 0x9100, sized := true, ea := some .memoryAlterable },
  { tag := .subaW, mask := 0xF1C0, pat := 0x90C0, ea := some .all },
  { tag := .subaL, mask := 0xF1C0, pat := 0x91C0, ea := some .all },
  { tag := .subxReg, mask := 0xF138, pat := 0x9100, sized := true },
  { tag := .subxMem, mask := 0xF138, pat := 0x9108, sized := true } ]

/-- Rows of line 1011 (R121). -/
def rowsLineB : List Row := [
  { tag := .cmp, mask := 0xF100, pat := 0xB000, sized := true, ea := some .all },
  { tag := .cmpaW, mask := 0xF1C0, pat := 0xB0C0, ea := some .all },
  { tag := .cmpaL, mask := 0xF1C0, pat := 0xB1C0, ea := some .all },
  { tag := .eor, mask := 0xF100, pat := 0xB100, sized := true, ea := some .dataAlterable },
  { tag := .cmpm, mask := 0xF138, pat := 0xB108, sized := true } ]

/-- Rows of line 1100 (R121). -/
def rowsLineC : List Row := [
  { tag := .andToReg, mask := 0xF100, pat := 0xC000, sized := true, ea := some .data },
  { tag := .andToEa, mask := 0xF100, pat := 0xC100, sized := true, ea := some .memoryAlterable },
  { tag := .mulu, mask := 0xF1C0, pat := 0xC0C0, ea := some .data },
  { tag := .muls, mask := 0xF1C0, pat := 0xC1C0, ea := some .data },
  { tag := .abcdReg, mask := 0xF1F8, pat := 0xC100 },
  { tag := .abcdMem, mask := 0xF1F8, pat := 0xC108 },
  { tag := .exgDD, mask := 0xF1F8, pat := 0xC140 },
  { tag := .exgAA, mask := 0xF1F8, pat := 0xC148 },
  { tag := .exgDA, mask := 0xF1F8, pat := 0xC188 } ]

/-- Rows of line 1101 (R121). -/
def rowsLineD : List Row := [
  { tag := .addToReg, mask := 0xF100, pat := 0xD000, sized := true, ea := some .all },
  { tag := .addToEa, mask := 0xF100, pat := 0xD100, sized := true, ea := some .memoryAlterable },
  { tag := .addaW, mask := 0xF1C0, pat := 0xD0C0, ea := some .all },
  { tag := .addaL, mask := 0xF1C0, pat := 0xD1C0, ea := some .all },
  { tag := .addxReg, mask := 0xF138, pat := 0xD100, sized := true },
  { tag := .addxMem, mask := 0xF138, pat := 0xD108, sized := true } ]

/-- Rows of line 1110 (R121). -/
def rowsLineE : List Row := [
  { tag := .asrReg, mask := 0xF118, pat := 0xE000, sized := true },
  { tag := .asrMem, mask := 0xFFC0, pat := 0xE0C0, ea := some .memoryAlterable },
  { tag := .aslReg, mask := 0xF118, pat := 0xE100, sized := true },
  { tag := .aslMem, mask := 0xFFC0, pat := 0xE1C0, ea := some .memoryAlterable },
  { tag := .lsrReg, mask := 0xF118, pat := 0xE008, sized := true },
  { tag := .lsrMem, mask := 0xFFC0, pat := 0xE2C0, ea := some .memoryAlterable },
  { tag := .lslReg, mask := 0xF118, pat := 0xE108, sized := true },
  { tag := .lslMem, mask := 0xFFC0, pat := 0xE3C0, ea := some .memoryAlterable },
  { tag := .roxrReg, mask := 0xF118, pat := 0xE010, sized := true },
  { tag := .roxrMem, mask := 0xFFC0, pat := 0xE4C0, ea := some .memoryAlterable },
  { tag := .roxlReg, mask := 0xF118, pat := 0xE110, sized := true },
  { tag := .roxlMem, mask := 0xFFC0, pat := 0xE5C0, ea := some .memoryAlterable },
  { tag := .rorReg, mask := 0xF118, pat := 0xE018, sized := true },
  { tag := .rorMem, mask := 0xFFC0, pat := 0xE6C0, ea := some .memoryAlterable },
  { tag := .rolReg, mask := 0xF118, pat := 0xE118, sized := true },
  { tag := .rolMem, mask := 0xFFC0, pat := 0xE7C0, ea := some .memoryAlterable } ]

/-- The table's rows whose opwords begin with the four bits `line`; lines 1010 and 1111 have none (R121). -/
def rowsOf : Nat → List Row
  | 0x0 => rowsLine0 | 0x1 => rowsLine1 | 0x2 => rowsLine2 | 0x3 => rowsLine3
  | 0x4 => rowsLine4 | 0x5 => rowsLine5 | 0x6 => rowsLine6 | 0x7 => rowsLine7
  | 0x8 => rowsLine8 | 0x9 => rowsLine9 | 0xB => rowsLineB | 0xC => rowsLineC
  | 0xD => rowsLineD | 0xE => rowsLineE | _ => []

/-- The bits of `w` from `lo`, `len` of them, as a number (R12). -/
def field (w lo len : Nat) : Nat := (w >>> lo) % 2 ^ len

/-- The register number in bits `lo+2..lo`. -/
def regField (w lo : Nat) : RegNum := Fin.ofNat 8 (field w lo 3)

/-- The addressing mode that a 3-bit mode and a 3-bit register name; none for 111 with 101, 110, 111 (R94). -/
def eaKindOf (mode reg : Nat) : Option EaKind :=
  match mode with
  | 0 => some .dReg
  | 1 => some .aReg
  | 2 => some .ind
  | 3 => some .postInc
  | 4 => some .preDec
  | 5 => some .disp
  | 6 => some .index
  | _ =>
    match reg with
    | 0 => some .absW
    | 1 => some .absL
    | 2 => some .pcDisp
    | 3 => some .pcIndex
    | 4 => some .imm
    | _ => none

/-- The mode and register fields name a mode of the set. -/
def EaSet.allows (set : EaSet) (mode reg : Nat) : Bool :=
  match eaKindOf mode reg with
  | some k => set.accepts k
  | none => false

/-- An optional constraint on a mode and register field. -/
def eaAllowed (set : Option EaSet) (mode reg : Nat) : Bool :=
  match set with
  | some c => c.allows mode reg
  | none => true

/-- The row is selected by the opword (R122). -/
def Row.selects (r : Row) (w : Nat) : Bool :=
  w &&& r.mask == r.pat
    && (!r.sized || (field w 6 2 != 3 && !(r.ea.isSome && field w 6 2 == 0 && field w 3 3 == 1)))
    && eaAllowed r.ea (field w 3 3) (field w 0 3)
    && eaAllowed r.dst (field w 6 3) (field w 9 3)
    && (!r.bcc || 2 ≤ field w 8 4)

/-- The row that an opword selects, if any: there is at most one (R122). -/
def decodeTag (w : Nat) : Option Tag :=
  ((rowsOf (field w 12 4)).find? (·.selects w)).map (·.tag)

/-- The exception of an opword that selects no row (R123, R124). -/
def undecodable (w : Nat) : DecodeError :=
  match field w 12 4 with
  | 0xA => .lineA
  | 0xF => .lineF
  | _ => .illegal

/-! Extension words (R91, R94, R95, R97) -/

/-- The next extension word. -/
def takeWord : List Word → Option (Word × List Word)
  | [] => none
  | w :: ws => some (w, ws)

/-- Two extension words, the high-order one first (R97). -/
def takeLong : List Word → Option (Long × List Word)
  | h :: l :: ws => some (h ++ l, ws)
  | _ => none

/-- The low byte of an extension word; its high byte is ignored (R126). -/
def takeByte : List Word → Option (Byte × List Word)
  | [] => none
  | w :: ws => some (w.setWidth 8, ws)

/-- An immediate of the size, zero-extended (R97). -/
def takeImm (sz : Size) (ws : List Word) : Option (Long × List Word) :=
  match sz with
  | .byte => (takeByte ws).map fun p => (p.1.setWidth 32, p.2)
  | .word => (takeWord ws).map fun p => (p.1.setWidth 32, p.2)
  | .long => takeLong ws

/-- The index extension word's fields; bits 10..8 are ignored (R95, R126). -/
def indexOf (w : Word) : Index :=
  { reg := if w.getLsbD 15 then .a (regField w.toNat 12) else .d (regField w.toNat 12)
    long := w.getLsbD 11
    disp := w.setWidth 8 }

/-- An effective address from its mode and register fields and extension words (R94). -/
def takeEa (sz : Size) (mode reg : Nat) (ws : List Word) : Option (EA × List Word) :=
  let n : RegNum := Fin.ofNat 8 reg
  match eaKindOf mode reg with
  | none => none
  | some .dReg => some (.dReg n, ws)
  | some .aReg => some (.aReg n, ws)
  | some .ind => some (.ind n, ws)
  | some .postInc => some (.postInc n, ws)
  | some .preDec => some (.preDec n, ws)
  | some .disp => (takeWord ws).map fun p => (.disp n p.1, p.2)
  | some .index => (takeWord ws).map fun p => (.index n (indexOf p.1), p.2)
  | some .absW => (takeWord ws).map fun p => (.absW p.1, p.2)
  | some .absL => (takeLong ws).map fun p => (.absL p.1, p.2)
  | some .pcDisp => (takeWord ws).map fun p => (.pcDisp p.1, p.2)
  | some .pcIndex => (takeWord ws).map fun p => (.pcIndex (indexOf p.1), p.2)
  | some .imm => (takeImm sz ws).map fun p => (.imm p.1, p.2)

/-- The size in bits 7..6 (R96 a). -/
def sizeField (w : Nat) : Size :=
  match field w 6 2 with
  | 0 => .byte
  | 1 => .word
  | _ => .long

/-- The size bit 6 (R96 c). -/
def wordLongField (w : Nat) : WordLong := if w.testBit 6 then .long else .word

/-- The condition with the code (R38). -/
def condOf : Nat → Cond
  | 0 => .t | 1 => .f | 2 => .hi | 3 => .ls | 4 => .cc | 5 => .cs | 6 => .ne | 7 => .eq
  | 8 => .vc | 9 => .vs | 10 => .pl | 11 => .mi | 12 => .ge | 13 => .lt | 14 => .gt | _ => .le

/-- A branch displacement: the opword's byte, or the next word when the byte is 0 (R98). -/
def takeBranch (w : Nat) (ws : List Word) : Option (BranchDisp × List Word) :=
  if field w 0 8 = 0 then (takeWord ws).map fun p => (.long p.1, p.2)
  else some (.short (BitVec.ofNat 8 w), ws)

/-- A register shift's count: bits 11..9, in a register when bit 5 is 1 (R99, R278). -/
def countField (w : Nat) : Count := if w.testBit 5 then .reg (regField w 9) else .imm (regField w 9)

/-- Immediate and effective address of the F_IMM_EA format (R104). -/
def takeImmEa (mk : Size → Long → EA → Instr) (w : Nat) (ws : List Word) : Option (Instr × List Word) := do
  let (imm, ws) ← takeImm (sizeField w) ws
  let (ea, ws) ← takeEa (sizeField w) (field w 3 3) (field w 0 3) ws
  return (mk (sizeField w) imm ea, ws)

/-- Effective address in bits 5..0, read at the size. -/
def takeEa1 (sz : Size) (mk : EA → Instr) (w : Nat) (ws : List Word) : Option (Instr × List Word) := do
  let (ea, ws) ← takeEa sz (field w 3 3) (field w 0 3) ws
  return (mk ea, ws)

/-- Bit number and effective address of the F_BIT_IMM format (R104); the number's high byte is ignored (R126). -/
def takeBitEa (mk : BitVec 8 → EA → Instr) (w : Nat) (ws : List Word) : Option (Instr × List Word) := do
  let (bit, ws) ← takeByte ws
  let (ea, ws) ← takeEa .byte (field w 3 3) (field w 0 3) ws
  return (mk bit ea, ws)

/-- MOVE: source words before destination words, destination register and mode in bits 11..6 (R91, R93). -/
def takeMove (sz : Size) (mk : EA → EA → Instr) (w : Nat) (ws : List Word) : Option (Instr × List Word) := do
  let (src, ws) ← takeEa sz (field w 3 3) (field w 0 3) ws
  let (dst, ws) ← takeEa sz (field w 6 3) (field w 9 3) ws
  return (mk src dst, ws)

/-- MOVEM: the mask word, then the effective address (R91, R102). -/
def takeMovem (mk : WordLong → Word → EA → Instr) (w : Nat) (ws : List Word) : Option (Instr × List Word) := do
  let (mask, ws) ← takeWord ws
  let (ea, ws) ← takeEa (wordLongField w).size (field w 3 3) (field w 0 3) ws
  return (mk (wordLongField w) mask ea, ws)

/-- The instruction of a selected row, with its extension words taken from `ws` (R91, R104, R121). -/
def build (tag : Tag) (w : Nat) (ws : List Word) : Option (Instr × List Word) :=
  let sz := sizeField w
  let hi := regField w 9
  let lo := regField w 0
  match tag with
  | .oriToCcr => (takeByte ws).map fun p => (.oriToCcr p.1, p.2)
  | .oriToSr => (takeWord ws).map fun p => (.oriToSr p.1, p.2)
  | .ori => takeImmEa .ori w ws
  | .andiToCcr => (takeByte ws).map fun p => (.andiToCcr p.1, p.2)
  | .andiToSr => (takeWord ws).map fun p => (.andiToSr p.1, p.2)
  | .andi => takeImmEa .andi w ws
  | .subi => takeImmEa .subi w ws
  | .addi => takeImmEa .addi w ws
  | .eoriToCcr => (takeByte ws).map fun p => (.eoriToCcr p.1, p.2)
  | .eoriToSr => (takeWord ws).map fun p => (.eoriToSr p.1, p.2)
  | .eori => takeImmEa .eori w ws
  | .cmpi => takeImmEa .cmpi w ws
  | .btstImm => takeBitEa .btstImm w ws
  | .bchgImm => takeBitEa .bchgImm w ws
  | .bclrImm => takeBitEa .bclrImm w ws
  | .bsetImm => takeBitEa .bsetImm w ws
  | .btstReg => takeEa1 .byte (.btstReg hi) w ws
  | .bchgReg => takeEa1 .byte (.bchgReg hi) w ws
  | .bclrReg => takeEa1 .byte (.bclrReg hi) w ws
  | .bsetReg => takeEa1 .byte (.bsetReg hi) w ws
  | .movep => (takeWord ws).map fun p =>
      (.movep (if w.testBit 7 then .regToMem else .memToReg) (wordLongField w) hi lo p.1, p.2)
  | .moveB => takeMove .byte .moveB w ws
  | .moveL => takeMove .long .moveL w ws
  | .moveW => takeMove .word .moveW w ws
  | .moveaL => takeEa1 .long (.moveaL · hi) w ws
  | .moveaW => takeEa1 .word (.moveaW · hi) w ws
  | .negx => takeEa1 sz (.negx sz) w ws
  | .moveFromSr => takeEa1 .word .moveFromSr w ws
  | .chk => takeEa1 .word (.chk · hi) w ws
  | .lea => takeEa1 .long (.lea · hi) w ws
  | .clr => takeEa1 sz (.clr sz) w ws
  | .neg => takeEa1 sz (.neg sz) w ws
  | .moveToCcr => takeEa1 .word .moveToCcr w ws
  | .not => takeEa1 sz (.not sz) w ws
  | .moveToSr => takeEa1 .word .moveToSr w ws
  | .nbcd => takeEa1 .byte .nbcd w ws
  | .swap => some (.swap lo, ws)
  | .pea => takeEa1 .long .pea w ws
  | .extW => some (.extW lo, ws)
  | .extL => some (.extL lo, ws)
  | .movemToMem => takeMovem .movemToMem w ws
  | .movemToRegs => takeMovem .movemToRegs w ws
  | .tst => takeEa1 sz (.tst sz) w ws
  | .tas => takeEa1 .byte .tas w ws
  | .illegal => some (.illegal, ws)
  | .trap => some (.trap (Fin.ofNat 16 (field w 0 4)), ws)
  | .link => (takeWord ws).map fun p => (.link lo p.1, p.2)
  | .unlk => some (.unlk lo, ws)
  | .moveToUsp => some (.moveToUsp lo, ws)
  | .moveFromUsp => some (.moveFromUsp lo, ws)
  | .reset => some (.reset, ws)
  | .nop => some (.nop, ws)
  | .stop => (takeWord ws).map fun p => (.stop p.1, p.2)
  | .rte => some (.rte, ws)
  | .rts => some (.rts, ws)
  | .trapv => some (.trapv, ws)
  | .rtr => some (.rtr, ws)
  | .jsr => takeEa1 .long .jsr w ws
  | .jmp => takeEa1 .long .jmp w ws
  | .addq => takeEa1 sz (.addq sz hi) w ws
  | .subq => takeEa1 sz (.subq sz hi) w ws
  | .scc => takeEa1 .byte (.scc (condOf (field w 8 4))) w ws
  | .dbcc => (takeWord ws).map fun p => (.dbcc (condOf (field w 8 4)) lo p.1, p.2)
  | .bra => (takeBranch w ws).map fun p => (.bra p.1, p.2)
  | .bsr => (takeBranch w ws).map fun p => (.bsr p.1, p.2)
  | .bcc => (takeBranch w ws).map fun p => (.bcc (condOf (field w 8 4)) p.1, p.2)
  | .moveq => some (.moveq (BitVec.ofNat 8 w) hi, ws)
  | .orToReg => takeEa1 sz (.orToReg sz · hi) w ws
  | .orToEa => takeEa1 sz (.orToEa sz hi) w ws
  | .divu => takeEa1 .word (.divu · hi) w ws
  | .divs => takeEa1 .word (.divs · hi) w ws
  | .sbcdReg => some (.sbcdReg lo hi, ws)
  | .sbcdMem => some (.sbcdMem lo hi, ws)
  | .subToReg => takeEa1 sz (.subToReg sz · hi) w ws
  | .subToEa => takeEa1 sz (.subToEa sz hi) w ws
  | .subaW => takeEa1 .word (.subaW · hi) w ws
  | .subaL => takeEa1 .long (.subaL · hi) w ws
  | .subxReg => some (.subxReg sz lo hi, ws)
  | .subxMem => some (.subxMem sz lo hi, ws)
  | .cmp => takeEa1 sz (.cmp sz · hi) w ws
  | .cmpaW => takeEa1 .word (.cmpaW · hi) w ws
  | .cmpaL => takeEa1 .long (.cmpaL · hi) w ws
  | .eor => takeEa1 sz (.eor sz hi) w ws
  | .cmpm => some (.cmpm sz lo hi, ws)
  | .andToReg => takeEa1 sz (.andToReg sz · hi) w ws
  | .andToEa => takeEa1 sz (.andToEa sz hi) w ws
  | .mulu => takeEa1 .word (.mulu · hi) w ws
  | .muls => takeEa1 .word (.muls · hi) w ws
  | .abcdReg => some (.abcdReg lo hi, ws)
  | .abcdMem => some (.abcdMem lo hi, ws)
  | .exgDD => some (.exgDD hi lo, ws)
  | .exgAA => some (.exgAA hi lo, ws)
  | .exgDA => some (.exgDA hi lo, ws)
  | .addToReg => takeEa1 sz (.addToReg sz · hi) w ws
  | .addToEa => takeEa1 sz (.addToEa sz hi) w ws
  | .addaW => takeEa1 .word (.addaW · hi) w ws
  | .addaL => takeEa1 .long (.addaL · hi) w ws
  | .addxReg => some (.addxReg sz lo hi, ws)
  | .addxMem => some (.addxMem sz lo hi, ws)
  | .asrReg => some (.asrReg (countField w) sz lo, ws)
  | .asrMem => takeEa1 .word .asrMem w ws
  | .aslReg => some (.aslReg (countField w) sz lo, ws)
  | .aslMem => takeEa1 .word .aslMem w ws
  | .lsrReg => some (.lsrReg (countField w) sz lo, ws)
  | .lsrMem => takeEa1 .word .lsrMem w ws
  | .lslReg => some (.lslReg (countField w) sz lo, ws)
  | .lslMem => takeEa1 .word .lslMem w ws
  | .roxrReg => some (.roxrReg (countField w) sz lo, ws)
  | .roxrMem => takeEa1 .word .roxrMem w ws
  | .roxlReg => some (.roxlReg (countField w) sz lo, ws)
  | .roxlMem => takeEa1 .word .roxlMem w ws
  | .rorReg => some (.rorReg (countField w) sz lo, ws)
  | .rorMem => takeEa1 .word .rorMem w ws
  | .rolReg => some (.rolReg (countField w) sz lo, ws)
  | .rolMem => takeEa1 .word .rolMem w ws

/-- Decode instruction words: the instruction and the words after it, or why not (R92, R122 to R124). -/
def decodeWords : List Word → Except DecodeError (Instr × List Word)
  | [] => .error .truncated
  | w :: ws =>
    match decodeTag w.toNat with
    | none => .error (undecodable w.toNat)
    | some tag =>
      match build tag w.toNat ws with
      | none => .error .truncated
      | some r => .ok r

/-- Instruction words are stored high byte first (20_memory.md R63, R67). -/
def wordsOfBytes : List Byte → List Word
  | h :: l :: bs => (h ++ l) :: wordsOfBytes bs
  | _ => []

/-- Decode bytes as they lie in memory: the instruction and the bytes after it. -/
def decode (bs : List Byte) : Except DecodeError (Instr × List Byte) :=
  let ws := wordsOfBytes bs
  match decodeWords ws with
  | .error e => .error e
  | .ok (i, rest) => .ok (i, bs.drop (2 * (ws.length - rest.length)))

/-- The 16-bit words of a number whose bits 15..0 are the first word (spec/opcode_table.json's numbering). -/
def wordsOfNat : Nat → Nat → List Word
  | 0, _ => []
  | k + 1, w => BitVec.ofNat 16 w :: wordsOfNat k (w / 2 ^ 16)

/-- Words as the bytes that memory holds (R63). -/
def bytesOfWords : List Word → List Byte
  | [] => []
  | w :: ws => w.extractLsb' 8 8 :: w.extractLsb' 0 8 :: bytesOfWords ws

/-- The instruction that the decoder reads from the bits `w` of an opcode-table row `nbits` wide, with zeros above, up to
the longest instruction's five words (R90). -/
def decodeTableWord (nbits w : Nat) : Option Instr :=
  match decode (bytesOfWords (wordsOfNat 5 (w % 2 ^ nbits))) with
  | .ok (i, _) => some i
  | .error _ => none

/-! The encoder: the words of a well-formed instruction; ignored bits are written as 0. -/

/-- The six bits mode and register of an effective address (R94). -/
def EA.bits : EA → Nat
  | .dReg n => n.val
  | .aReg n => 0o10 + n.val
  | .ind n => 0o20 + n.val
  | .postInc n => 0o30 + n.val
  | .preDec n => 0o40 + n.val
  | .disp n _ => 0o50 + n.val
  | .index n _ => 0o60 + n.val
  | .absW _ => 0o70
  | .absL _ => 0o71
  | .pcDisp _ => 0o72
  | .pcIndex _ => 0o73
  | .imm _ => 0o74

/-- MOVE's destination field: the register above the mode (R93). -/
def EA.dstBits (ea : EA) : Nat := (ea.bits % 8) * 8 + ea.bits / 8

/-- The index extension word (R95). -/
def Index.word (x : Index) : Word :=
  let r : Nat := match x.reg with
    | .d n => n.val
    | .a n => 8 + n.val
  BitVec.ofNat 16 (r * 2 ^ 12 + (if x.long then 2 ^ 11 else 0) + x.disp.toNat)

/-- A longword as two words, the high-order one first. -/
def longWords (l : Long) : List Word := [l.extractLsb' 16 16, l.extractLsb' 0 16]

/-- The words of an immediate (R97). -/
def immWords (sz : Size) (v : Long) : List Word :=
  match sz with
  | .byte => [(v.setWidth 8).setWidth 16]
  | .word => [v.setWidth 16]
  | .long => longWords v

/-- The extension words of an effective address (R94). -/
def EA.ext (sz : Size) : EA → List Word
  | .disp _ d => [d]
  | .index _ x => [x.word]
  | .absW w => [w]
  | .absL l => longWords l
  | .pcDisp d => [d]
  | .pcIndex x => [x.word]
  | .imm v => immWords sz v
  | _ => []

/-- The size field's value (R96 a). -/
def Size.code : Size → Nat
  | .byte => 0
  | .word => 1
  | .long => 2

/-- The size bit's value (R96 c). -/
def WordLong.code : WordLong → Nat
  | .word => 0
  | .long => 1

/-- The condition's code (R38). -/
def Cond.code : Cond → Nat
  | .t => 0 | .f => 1 | .hi => 2 | .ls => 3 | .cc => 4 | .cs => 5 | .ne => 6 | .eq => 7
  | .vc => 8 | .vs => 9 | .pl => 10 | .mi => 11 | .ge => 12 | .lt => 13 | .gt => 14 | .le => 15

/-- The opword's low byte for a branch displacement (R98). -/
def BranchDisp.low : BranchDisp → Nat
  | .short d => d.toNat
  | .long _ => 0

/-- The extension word of a branch displacement. -/
def BranchDisp.ext : BranchDisp → List Word
  | .short _ => []
  | .long d => [d]

/-- The bits of a shift count: bits 11..9 and bit 5 (R278). -/
def Count.bits : Count → Nat
  | .imm q => q.val * 512
  | .reg n => n.val * 512 + 32

/-- An opword from its value. -/
def op (w : Nat) : Word := BitVec.ofNat 16 w

/-- Opword and words of the F_IMM_EA format. -/
def encImmEa (base : Nat) (sz : Size) (imm : Long) (ea : EA) : List Word :=
  op (base + sz.code * 64 + ea.bits) :: (immWords sz imm ++ ea.ext sz)

/-- Opword and words of an instruction with one effective address in bits 5..0. -/
def encEa (base : Nat) (sz : Size) (ea : EA) : List Word := op (base + ea.bits) :: ea.ext sz

/-- Opword and words with a size in bits 7..6 and an effective address in bits 5..0. -/
def encSizedEa (base : Nat) (sz : Size) (ea : EA) : List Word := encEa (base + sz.code * 64) sz ea

/-- Opword and words of the F_BIT_IMM format. -/
def encBitEa (base : Nat) (bit : BitVec 8) (ea : EA) : List Word :=
  op (base + ea.bits) :: bit.setWidth 16 :: ea.ext .byte

/-- Opword and words of MOVE. -/
def encMove (base : Nat) (sz : Size) (src dst : EA) : List Word :=
  op (base + dst.dstBits * 64 + src.bits) :: (src.ext sz ++ dst.ext sz)

/-- Opword and words of MOVEM. -/
def encMovem (base : Nat) (sz : WordLong) (mask : Word) (ea : EA) : List Word :=
  op (base + sz.code * 64 + ea.bits) :: mask :: ea.ext sz.size

/-- A register in bits 11..9. -/
def hiReg (n : RegNum) : Nat := n.val * 512

/-- Opword of the F_SHIFT_REG format (R278). -/
def encShift (base : Nat) (cnt : Count) (sz : Size) (dn : RegNum) : List Word :=
  [op (base + cnt.bits + sz.code * 64 + dn.val)]

/-- The words of an instruction (R91, R104, R121). -/
def encode : Instr → List Word
  | .oriToCcr imm => [op 0x003C, imm.setWidth 16]
  | .oriToSr imm => [op 0x007C, imm]
  | .ori sz imm ea => encImmEa 0x0000 sz imm ea
  | .andiToCcr imm => [op 0x023C, imm.setWidth 16]
  | .andiToSr imm => [op 0x027C, imm]
  | .andi sz imm ea => encImmEa 0x0200 sz imm ea
  | .subi sz imm ea => encImmEa 0x0400 sz imm ea
  | .addi sz imm ea => encImmEa 0x0600 sz imm ea
  | .eoriToCcr imm => [op 0x0A3C, imm.setWidth 16]
  | .eoriToSr imm => [op 0x0A7C, imm]
  | .eori sz imm ea => encImmEa 0x0A00 sz imm ea
  | .cmpi sz imm ea => encImmEa 0x0C00 sz imm ea
  | .btstImm bit ea => encBitEa 0x0800 bit ea
  | .bchgImm bit ea => encBitEa 0x0840 bit ea
  | .bclrImm bit ea => encBitEa 0x0880 bit ea
  | .bsetImm bit ea => encBitEa 0x08C0 bit ea
  | .btstReg dn ea => encEa (0x0100 + hiReg dn) .byte ea
  | .bchgReg dn ea => encEa (0x0140 + hiReg dn) .byte ea
  | .bclrReg dn ea => encEa (0x0180 + hiReg dn) .byte ea
  | .bsetReg dn ea => encEa (0x01C0 + hiReg dn) .byte ea
  | .movep dir sz dn an d =>
    [op (0x0108 + hiReg dn + (match dir with | .memToReg => 0 | .regToMem => 0x80) + sz.code * 64 + an.val), d]
  | .moveB src dst => encMove 0x1000 .byte src dst
  | .moveL src dst => encMove 0x2000 .long src dst
  | .moveW src dst => encMove 0x3000 .word src dst
  | .moveaL src an => encEa (0x2040 + hiReg an) .long src
  | .moveaW src an => encEa (0x3040 + hiReg an) .word src
  | .negx sz ea => encSizedEa 0x4000 sz ea
  | .moveFromSr ea => encEa 0x40C0 .word ea
  | .chk ea dn => encEa (0x4180 + hiReg dn) .word ea
  | .lea ea an => encEa (0x41C0 + hiReg an) .long ea
  | .clr sz ea => encSizedEa 0x4200 sz ea
  | .neg sz ea => encSizedEa 0x4400 sz ea
  | .moveToCcr ea => encEa 0x44C0 .word ea
  | .not sz ea => encSizedEa 0x4600 sz ea
  | .moveToSr ea => encEa 0x46C0 .word ea
  | .nbcd ea => encEa 0x4800 .byte ea
  | .swap dn => [op (0x4840 + dn.val)]
  | .pea ea => encEa 0x4840 .long ea
  | .extW dn => [op (0x4880 + dn.val)]
  | .extL dn => [op (0x48C0 + dn.val)]
  | .movemToMem sz mask ea => encMovem 0x4880 sz mask ea
  | .movemToRegs sz mask ea => encMovem 0x4C80 sz mask ea
  | .tst sz ea => encSizedEa 0x4A00 sz ea
  | .tas ea => encEa 0x4AC0 .byte ea
  | .illegal => [op 0x4AFC]
  | .trap v => [op (0x4E40 + v.val)]
  | .link an d => [op (0x4E50 + an.val), d]
  | .unlk an => [op (0x4E58 + an.val)]
  | .moveToUsp an => [op (0x4E60 + an.val)]
  | .moveFromUsp an => [op (0x4E68 + an.val)]
  | .reset => [op 0x4E70]
  | .nop => [op 0x4E71]
  | .stop imm => [op 0x4E72, imm]
  | .rte => [op 0x4E73]
  | .rts => [op 0x4E75]
  | .trapv => [op 0x4E76]
  | .rtr => [op 0x4E77]
  | .jsr ea => encEa 0x4E80 .long ea
  | .jmp ea => encEa 0x4EC0 .long ea
  | .addq sz q ea => encSizedEa (0x5000 + hiReg q) sz ea
  | .subq sz q ea => encSizedEa (0x5100 + hiReg q) sz ea
  | .scc cond ea => encEa (0x50C0 + cond.code * 256) .byte ea
  | .dbcc cond dn d => [op (0x50C8 + cond.code * 256 + dn.val), d]
  | .bra d => op (0x6000 + d.low) :: d.ext
  | .bsr d => op (0x6100 + d.low) :: d.ext
  | .bcc cond d => op (0x6000 + cond.code * 256 + d.low) :: d.ext
  | .moveq data dn => [op (0x7000 + hiReg dn + data.toNat)]
  | .orToReg sz ea dn => encSizedEa (0x8000 + hiReg dn) sz ea
  | .orToEa sz dn ea => encSizedEa (0x8100 + hiReg dn) sz ea
  | .divu ea dn => encEa (0x80C0 + hiReg dn) .word ea
  | .divs ea dn => encEa (0x81C0 + hiReg dn) .word ea
  | .sbcdReg dy dx => [op (0x8100 + hiReg dx + dy.val)]
  | .sbcdMem ay ax => [op (0x8108 + hiReg ax + ay.val)]
  | .subToReg sz ea dn => encSizedEa (0x9000 + hiReg dn) sz ea
  | .subToEa sz dn ea => encSizedEa (0x9100 + hiReg dn) sz ea
  | .subaW ea an => encEa (0x90C0 + hiReg an) .word ea
  | .subaL ea an => encEa (0x91C0 + hiReg an) .long ea
  | .subxReg sz dx dy => [op (0x9100 + hiReg dy + sz.code * 64 + dx.val)]
  | .subxMem sz ax ay => [op (0x9108 + hiReg ay + sz.code * 64 + ax.val)]
  | .cmp sz ea dn => encSizedEa (0xB000 + hiReg dn) sz ea
  | .cmpaW ea an => encEa (0xB0C0 + hiReg an) .word ea
  | .cmpaL ea an => encEa (0xB1C0 + hiReg an) .long ea
  | .eor sz dn ea => encSizedEa (0xB100 + hiReg dn) sz ea
  | .cmpm sz ay ax => [op (0xB108 + hiReg ax + sz.code * 64 + ay.val)]
  | .andToReg sz ea dn => encSizedEa (0xC000 + hiReg dn) sz ea
  | .andToEa sz dn ea => encSizedEa (0xC100 + hiReg dn) sz ea
  | .mulu ea dn => encEa (0xC0C0 + hiReg dn) .word ea
  | .muls ea dn => encEa (0xC1C0 + hiReg dn) .word ea
  | .abcdReg dy dx => [op (0xC100 + hiReg dx + dy.val)]
  | .abcdMem ay ax => [op (0xC108 + hiReg ax + ay.val)]
  | .exgDD dx dy => [op (0xC140 + hiReg dx + dy.val)]
  | .exgAA ax ay => [op (0xC148 + hiReg ax + ay.val)]
  | .exgDA dx ay => [op (0xC188 + hiReg dx + ay.val)]
  | .addToReg sz ea dn => encSizedEa (0xD000 + hiReg dn) sz ea
  | .addToEa sz dn ea => encSizedEa (0xD100 + hiReg dn) sz ea
  | .addaW ea an => encEa (0xD0C0 + hiReg an) .word ea
  | .addaL ea an => encEa (0xD1C0 + hiReg an) .long ea
  | .addxReg sz dy dx => [op (0xD100 + hiReg dx + sz.code * 64 + dy.val)]
  | .addxMem sz ay ax => [op (0xD108 + hiReg ax + sz.code * 64 + ay.val)]
  | .asrReg cnt sz dn => encShift 0xE000 cnt sz dn
  | .asrMem ea => encEa 0xE0C0 .word ea
  | .aslReg cnt sz dn => encShift 0xE100 cnt sz dn
  | .aslMem ea => encEa 0xE1C0 .word ea
  | .lsrReg cnt sz dn => encShift 0xE008 cnt sz dn
  | .lsrMem ea => encEa 0xE2C0 .word ea
  | .lslReg cnt sz dn => encShift 0xE108 cnt sz dn
  | .lslMem ea => encEa 0xE3C0 .word ea
  | .roxrReg cnt sz dn => encShift 0xE010 cnt sz dn
  | .roxrMem ea => encEa 0xE4C0 .word ea
  | .roxlReg cnt sz dn => encShift 0xE110 cnt sz dn
  | .roxlMem ea => encEa 0xE5C0 .word ea
  | .rorReg cnt sz dn => encShift 0xE018 cnt sz dn
  | .rorMem ea => encEa 0xE6C0 .word ea
  | .rolReg cnt sz dn => encShift 0xE118 cnt sz dn
  | .rolMem ea => encEa 0xE7C0 .word ea

/-- How many words an instruction has (R90, R92). -/
def Instr.words (i : Instr) : Nat := (encode i).length

end Sys2Proof
end

