-- ==== Sys2Proof/Machine/Flags.lean ====
section
/-! DEFINITION. The condition codes, every flag formula (10_state.md R35 to R38, 43_logical.md R250) and the one-bit steps
of the shifts and rotates (44_shift_rotate.md, 48_supplement_absent_entries.md R401, R402). -/

namespace Sys2Proof.Machine

/-- The five condition codes (R30, R34). -/
structure Ccr where
  x : Bool
  n : Bool
  z : Bool
  v : Bool
  c : Bool
  deriving DecidableEq, Repr

/-- The condition codes held in bits 4..0 of a word (R30). -/
def ccrOfWord (w : Word) : Ccr :=
  { x := w.getLsbD 4, n := w.getLsbD 3, z := w.getLsbD 2, v := w.getLsbD 1, c := w.getLsbD 0 }

/-- The condition codes as bits 4..0 of a word (R30). -/
def wordOfCcr (f : Ccr) : Word :=
  (BitVec.ofBool f.x ++ BitVec.ofBool f.n ++ BitVec.ofBool f.z ++ BitVec.ofBool f.v ++ BitVec.ofBool f.c).setWidth 16

/-- V of an addition with operands' and result's signs `s`, `d`, `r` (R35). -/
def addV (s d r : Bool) : Bool := (s && d && !r) || (!s && !d && r)

/-- C of an addition (R35). -/
def addC (s d r : Bool) : Bool := (s && d) || (!r && d) || (s && !r)

/-- V of the subtraction `d - s` (R35). -/
def subV (s d r : Bool) : Bool := (!s && d && !r) || (s && !d && r)

/-- C of the subtraction `d - s` (R35). -/
def subC (s d r : Bool) : Bool := (s && !d) || (r && !d) || (s && r)

/-- `addflags(S, D, R, n)` (R389): all five codes. -/
def addFlags {n : Nat} (s d r : BitVec n) : Ccr :=
  { x := addC s.msb d.msb r.msb, n := r.msb, z := r == 0, v := addV s.msb d.msb r.msb, c := addC s.msb d.msb r.msb }

/-- `subflags(S, D, R, n)` with X = C: subtract and negate (R210, R240). -/
def subFlags {n : Nat} (s d r : BitVec n) : Ccr :=
  { x := subC s.msb d.msb r.msb, n := r.msb, z := r == 0, v := subV s.msb d.msb r.msb, c := subC s.msb d.msb r.msb }

/-- `subflags` with X kept: the compares (R213). -/
def cmpFlags {n : Nat} (old : Ccr) (s d r : BitVec n) : Ccr := { subFlags s d r with x := old.x }

/-- Z of the extended operations: only ever cleared (R245, R395). -/
def stickyZ (old : Ccr) (f : Ccr) : Ccr := { f with z := old.z && f.z }

/-- `logicflags(R, n)` (R250). -/
def logicFlags {n : Nat} (old : Ccr) (r : BitVec n) : Ccr :=
  { x := old.x, n := r.msb, z := r == 0, v := false, c := false }

/-- The condition predicates (R38). -/
def condHolds (f : Ccr) : Cond → Bool
  | .t => true
  | .f => false
  | .hi => !f.c && !f.z
  | .ls => f.c || f.z
  | .cc => !f.c
  | .cs => f.c
  | .ne => !f.z
  | .eq => f.z
  | .vc => !f.v
  | .vs => f.v
  | .pl => !f.n
  | .mi => f.n
  | .ge => (f.n && f.v) || (!f.n && !f.v)
  | .lt => (f.n && !f.v) || (!f.n && f.v)
  | .gt => (f.n && f.v && !f.z) || (!f.n && !f.v && !f.z)
  | .le => f.z || (f.n && !f.v) || (!f.n && f.v)

/-! Shifts and rotates (R277, R279): a one-bit step applied `cnt` times. -/

/-- What a shift works on: the operand and X, C, V (R279). -/
structure ShiftState (n : Nat) where
  val : BitVec n
  x : Bool
  c : Bool
  v : Bool
  deriving DecidableEq, Repr

/-- The one-bit step of LSL (R271). -/
def lslStep {n : Nat} (t : ShiftState n) : ShiftState n :=
  { val := t.val <<< 1, x := t.val.msb, c := t.val.msb, v := t.v }

/-- The one-bit step of LSR (R272). -/
def lsrStep {n : Nat} (t : ShiftState n) : ShiftState n :=
  { val := t.val >>> 1, x := t.val.getLsbD 0, c := t.val.getLsbD 0, v := t.v }

/-- The one-bit step of ASL: V is set when the sign changes (R401). -/
def aslStep {n : Nat} (t : ShiftState n) : ShiftState n :=
  { val := t.val <<< 1, x := t.val.msb, c := t.val.msb, v := t.v || (t.val <<< 1).msb != t.val.msb }

/-- The one-bit step of ASR: the sign is replicated (R402). -/
def asrStep {n : Nat} (t : ShiftState n) : ShiftState n :=
  { val := t.val.sshiftRight 1, x := t.val.getLsbD 0, c := t.val.getLsbD 0, v := t.v }

/-- The one-bit step of ROL (R273). -/
def rolStep {n : Nat} (t : ShiftState n) : ShiftState n :=
  { val := t.val <<< 1 ||| (BitVec.ofBool t.val.msb).setWidth n, x := t.x, c := t.val.msb, v := t.v }

/-- The one-bit step of ROR (R274). -/
def rorStep {n : Nat} (t : ShiftState n) : ShiftState n :=
  { val := t.val >>> 1 ||| (BitVec.ofBool (t.val.getLsbD 0)).setWidth n <<< (n - 1)
    x := t.x, c := t.val.getLsbD 0, v := t.v }

/-- The one-bit step of ROXL (R275). -/
def roxlStep {n : Nat} (t : ShiftState n) : ShiftState n :=
  { val := t.val <<< 1 ||| (BitVec.ofBool t.x).setWidth n, x := t.val.msb, c := t.val.msb, v := t.v }

/-- The one-bit step of ROXR (R276). -/
def roxrStep {n : Nat} (t : ShiftState n) : ShiftState n :=
  { val := t.val >>> 1 ||| (BitVec.ofBool t.x).setWidth n <<< (n - 1)
    x := t.val.getLsbD 0, c := t.val.getLsbD 0, v := t.v }

/-- A step repeated `cnt` times (R277). -/
def iterate {n : Nat} (step : ShiftState n → ShiftState n) : Nat → ShiftState n → ShiftState n
  | 0, t => t
  | k + 1, t => iterate step k (step t)

/-- The common operation (R279): result and codes from the operand, with C = `c0` when the count is 0. -/
def shiftResult {n : Nat} (step : ShiftState n → ShiftState n) (c0 : Ccr → Bool) (cnt : Nat) (old : Ccr)
    (v : BitVec n) : BitVec n × Ccr :=
  let t := iterate step cnt { val := v, x := old.x, c := c0 old, v := false }
  (t.val, { x := t.x, n := t.val.msb, z := t.val == 0, v := t.v, c := t.c })

/-- C after a count of 0: cleared (R271 to R274, R401, R402). -/
def carryCleared (_ : Ccr) : Bool := false

/-- C after a count of 0 in ROXL and ROXR: X (R275, R276). -/
def carryFromX (old : Ccr) : Bool := old.x

end Sys2Proof.Machine
end

