-- ==== Sys2Proof/Config.lean ====
section
/-! DEFINITION. What an implementation fixes (00_scope.md R11) and the free values, which nothing constrains. -/

namespace Sys2Proof.Config

/-- `ADDR_BITS`: how many address bits reach memory (20_memory.md R61, decision D1). -/
def addrBits : Nat := 24

/-- The implemented bits of SR: T, S, I, X, N, Z, V, C (10_state.md R31, decision D7). -/
def srMask : Word := 0xA71F

/-- The `k`-th free value of a run: 32 bits that the spec leaves undefined or unstated
(93_implementation_defined.md: "any value", a fresh draw at every execution). It has no body, so nothing can be
proved of it. Log entry 1. -/
opaque freeLong (k : Nat) : Long

end Sys2Proof.Config
end

