-- ==== Sys2Proof/Machine/State.lean ====
section
/-! DEFINITION. The state of the machine (10_state.md), the platform's data that a step reads (00_scope.md R11), the
reasons a step can stop, and the state after reset. -/

namespace Sys2Proof.Machine

/-- The platform's answer to an interrupt acknowledge (60_exceptions.md R448). -/
inductive IackAnswer where
  | vector (v : BitVec 8)
  | autovector
  | spurious
  deriving DecidableEq, Repr

/-- What the platform presents at one instruction boundary: a reset request, the interrupt level and its answer to an
acknowledge (R447, R448, R450, R490). -/
structure PlatformInput where
  reset : Bool := false
  ipl : BitVec 3 := 0
  iack : IackAnswer := .autovector
  deriving DecidableEq, Repr

/-- What the platform sees of a bus cycle besides its address: read or write, data or program space, user or supervisor
(20_memory.md R62, R75). -/
structure CycleKind where
  write : Bool
  program : Bool
  supervisor : Bool
  deriving DecidableEq, Repr

/-- The addresses from `base`, `size` of them, that are not plain memory (`MEM_MAP`, R73, R75): a device or memory, and the
kinds of cycle that the platform answers with a bus error (`BUS_ERROR`). There is no read-only class: what a store to ROM
does is a DESIGN CHOICE (log 31). -/
structure Region where
  base : Nat
  size : Nat
  device : Bool
  refused : List CycleKind
  deriving DecidableEq, Repr

/-- What the platform sees of the processor: RESET's pulse (10_state.md R46) and accesses to devices (20_memory.md R73):
the address on the bus, the number of bytes (1 or 2), and for a write the value. -/
inductive Event where
  | resetPulse
  | deviceRead (addr bytes : Nat)
  | deviceWrite (addr bytes : Nat) (value : Word)
  deriving DecidableEq, Repr

/-- Memory: the bytes that differ from what an unlisted address reads as, addresses strictly rising. -/
abbrev Memory := List Host.Cell

/-- Everything the spec gives the machine (INVENTORY.md, State). -/
structure State where
  /-- D0 to D7 (R20). -/
  d : Vector Long 8
  /-- A0 to A6 (R21); A7 is `usp` or `ssp` (R22). -/
  a : Vector Long 7
  /-- The user stack pointer (R22). -/
  usp : Long
  /-- The supervisor stack pointer (R22). -/
  ssp : Long
  /-- The program counter: between instructions, the address of the next opword (R25). -/
  pc : Long
  /-- The status register; bits 14, 12, 11, 7, 6, 5 are not implemented (R30, R31). -/
  sr : Word
  /-- The opword of the instruction being executed (60_exceptions.md R437). -/
  ir : Word
  /-- Memory (20_memory.md R60). -/
  mem : Memory
  /-- Stopped by STOP (R43). -/
  stopped : Bool
  /-- Halted by a double fault (R45). -/
  halted : Bool
  /-- A trace exception is due at the next boundary (60_exceptions.md R465). -/
  pendingTrace : Bool
  /-- The last sample of the interrupt level was 7 (R447). -/
  prevIpl7 : Bool
  /-- Reset, bus error or address error processing has begun and no opword has been fetched since: another bus or
  address error halts the processor (R456). -/
  groupZero : Bool
  /-- What the platform will present, one entry a step; with none left it presents nothing (R447). -/
  inputs : List PlatformInput
  /-- The addresses that are not plain memory (20_memory.md R73, R75). -/
  memMap : List Region
  /-- What the platform has seen, the latest first (10_state.md R46). -/
  history : List Event
  /-- Bytes as they were before a store into the four bytes after the storing instruction: their fetch may still see
  them (20_memory.md R80). -/
  stale : List Host.Cell
  /-- How many free values the run has used: the model's own field. -/
  draws : Nat
  deriving DecidableEq, Repr

/-- Why the machine would stop with a fault: there is no reason; every error the spec names is an exception or the
halted state, which are next states. Safe: nothing raises it. -/
inductive Fault where
  deriving DecidableEq, Repr

/-- Why the machine would have no meaning for an instruction. -/
inductive Refusal where
  /-- An instruction without a meaning in this model, by its mnemonic in the opcode table; raised by an arm of `exec`
  only, and at present by none. Safe: the model stops. -/
  | notModelled (mnemonic : String)
  deriving DecidableEq, Repr

/-- The machine right after reset (R48, 70_reset_and_hazards.md R490, R491) with no memory listed: S = 1, T = 0, I = 7;
SSP and PC are the longwords at 0 and 4, which read as 0 (log 2, 4). D0 to D7, A0 to A6, USP, X, N, Z, V, C and `ir` have
no value in the spec: zero, DESIGN CHOICE (log 3). -/
def State.reset : State where
  d := Vector.replicate 8 0
  a := Vector.replicate 7 0
  usp := 0
  ssp := 0
  pc := 0
  sr := 0x2700
  ir := 0
  mem := []
  stopped := false
  halted := false
  pendingTrace := false
  prevIpl7 := false
  groupZero := true
  inputs := []
  memMap := []
  history := []
  stale := []
  draws := 0

end Sys2Proof.Machine
end

