-- ==== Sys2Proof/Machine/Ops.lean ====
section
/-! DEFINITION. The named operations over registers and memory (00_scope.md R15, 20_memory.md R64 to R75), taking an
exception (60_exceptions.md R436, R437) and running an instruction's effect to its end or to an abort. -/

namespace Sys2Proof.Machine

/-! Registers -/

/-- The supervisor bit S (R30). -/
def State.supervisor (s : State) : Bool := s.sr.getLsbD 13

/-- The trace bit T (R30). -/
def State.traceBit (s : State) : Bool := s.sr.getLsbD 15

/-- The interrupt mask level I (R30). -/
def State.intMask (s : State) : BitVec 3 := s.sr.extractLsb' 8 3

/-- The whole SR as read: unimplemented bits read as 0 (R31). -/
def State.readSr (s : State) : Word := s.sr &&& Config.srMask

/-- `SR <- v`: writes to unimplemented bits are ignored (R31, R367). -/
def State.setSr (s : State) (v : Word) : State := { s with sr := v &&& Config.srMask }

/-- The condition codes (R30). -/
def State.ccr (s : State) : Ccr := ccrOfWord s.sr

/-- Write the five condition codes, the rest of SR unchanged (R33). -/
def State.setCcr (s : State) (f : Ccr) : State := s.setSr ((s.sr &&& 0xFFE0) ||| wordOfCcr f)

/-- `D[n]` (R20). -/
def State.readD (s : State) (n : RegNum) : Long := s.d[n.val]

/-- `D[n] <- v`, all 32 bits. -/
def State.setD (s : State) (n : RegNum) (v : Long) : State := { s with d := s.d.set n.val v }

/-- The active stack pointer (R22). -/
def State.sp (s : State) : Long := if s.supervisor then s.ssp else s.usp

/-- `USP <- v`. -/
def State.setUsp (s : State) (v : Long) : State := { s with usp := v }

/-- `SSP <- v`. -/
def State.setSsp (s : State) (v : Long) : State := { s with ssp := v }

/-- Write the active stack pointer (R22). -/
def State.setSp (s : State) (v : Long) : State := if s.supervisor then s.setSsp v else s.setUsp v

/-- `A[n]`; `A[7]` is the active stack pointer (R21, R22). -/
def State.readA (s : State) (n : RegNum) : Long := if h : n.val < 7 then s.a[n.val] else s.sp

/-- `A[n] <- v`, all 32 bits (R21, R22). -/
def State.setA (s : State) (n : RegNum) (v : Long) : State :=
  if h : n.val < 7 then { s with a := s.a.set n.val v } else s.setSp v

/-- A register of either kind, whole. -/
def State.readX (s : State) : XReg → Long
  | .d n => s.readD n
  | .a n => s.readA n

/-- Write a register of either kind, all 32 bits. -/
def State.setX (s : State) : XReg → Long → State
  | .d n, v => s.setD n v
  | .a n, v => s.setA n v

/-- `PC <- v` (R25). -/
def State.setPc (s : State) (v : Long) : State := { s with pc := v }

/-- The memory replaced. -/
def State.setMem (s : State) (m : Memory) : State := { s with mem := m }

/-- An event joins the history (R46, R73). -/
def State.record (s : State) (e : Event) : State := { s with history := e :: s.history }

/-! Sizes -/

/-- The low part of a longword, at the size (R20, R142). -/
def truncTo (sz : Size) (v : Long) : BitVec sz.bits := v.setWidth sz.bits

/-- A longword with its low part replaced: the high bits stay (R20). -/
def mergeLow (sz : Size) (old : Long) (v : BitVec sz.bits) : Long :=
  match sz, v with
  | .byte, v => old.extractLsb' 8 24 ++ v
  | .word, v => old.extractLsb' 16 16 ++ v
  | .long, v => v

/-- `sext` of a value of the size to 32 bits (R13). -/
def sextTo (sz : Size) (v : BitVec sz.bits) : Long := v.signExtend 32

/-- `D[n][8*size-1:0] <- v` (R141). -/
def State.setDn (s : State) (sz : Size) (n : RegNum) (v : BitVec sz.bits) : State :=
  s.setD n (mergeLow sz (s.readD n) v)

/-! Memory: bytes in one canonical form -/

/-- What a byte of memory that nothing has written reads as: 0. DESIGN CHOICE (the spec gives memory no contents, R490,
U19); unsafe; log 2. -/
def unlistedByte : Byte := 0

/-- The byte at an address (R60). -/
def memRead : Memory → Nat → Byte
  | [], _ => unlistedByte
  | (k, v) :: rest, a => if k = a then v else memRead rest a

/-- One byte written, in canonical form (R65). -/
def memWrite : Memory → Nat → Byte → Memory
  | [], a, b => if b = unlistedByte then [] else [(a, b)]
  | (k, v) :: rest, a, b =>
    if a < k then (if b = unlistedByte then (k, v) :: rest else (a, b) :: (k, v) :: rest)
    else if a = k then (if b = unlistedByte then rest else (a, b) :: rest)
    else (k, v) :: memWrite rest a b

/-- Every address is at least `lo` and reaches memory, addresses rise strictly, no byte equals the unlisted one. -/
def memWfFrom : Nat → Memory → Bool
  | _, [] => true
  | lo, (k, v) :: rest => decide (lo ≤ k) && decide (k < 2 ^ Config.addrBits) && v != unlistedByte && memWfFrom (k + 1) rest

/-- The canonical form of memory. -/
def Memory.wf (m : Memory) : Bool := memWfFrom 0 m

/-- The byte of memory that `addr + i` names: the low `ADDR_BITS` bits (R61, R64). -/
def phys (addr : Long) (i : Nat) : Nat := (addr.toNat + i) % 2 ^ Config.addrBits

/-- The value of `size` bytes of plain memory, most significant byte first (R63, R64). -/
def peek (sz : Size) (m : Memory) (addr : Long) : BitVec sz.bits :=
  match sz with
  | .byte => memRead m (phys addr 0)
  | .word => memRead m (phys addr 0) ++ memRead m (phys addr 1)
  | .long =>
    (memRead m (phys addr 0) ++ memRead m (phys addr 1)) ++ (memRead m (phys addr 2) ++ memRead m (phys addr 3))

/-- Plain memory after a write of `size` bytes, most significant byte first (R63, R65). -/
def poke (sz : Size) (m : Memory) (addr : Long) (v : BitVec sz.bits) : Memory :=
  match sz, v with
  | .byte, v => memWrite m (phys addr 0) v
  | .word, v => memWrite (memWrite m (phys addr 0) (v.extractLsb' 8 8)) (phys addr 1) (v.extractLsb' 0 8)
  | .long, v =>
    memWrite (memWrite (memWrite (memWrite m (phys addr 0) (v.extractLsb' 24 8)) (phys addr 1) (v.extractLsb' 16 8))
      (phys addr 2) (v.extractLsb' 8 8)) (phys addr 3) (v.extractLsb' 0 8)

/-- The region an address of memory lies in, the first that has it; none is plain memory (R73, R75). -/
def regionAt (map : List Region) (a : Nat) : Option Region :=
  map.find? fun r => decide (r.base ≤ a) && decide (a < r.base + r.size)

/-- All of `n` bytes from `addr` are plain memory. -/
def plainAt (map : List Region) (addr : Long) (n : Nat) : Bool :=
  (List.range n).all fun i => (regionAt map (phys addr i)).isNone

/-- `BUS_ERROR(addr, kind)`: an address answers this kind of cycle with a bus error (R62, R75). -/
def refuses (map : List Region) (kind : CycleKind) (a : Nat) : Bool :=
  match regionAt map a with
  | some r => r.refused.contains kind
  | none => false

/-- An address belongs to a device (R73). -/
def isDevice (map : List Region) (a : Nat) : Bool :=
  match regionAt map a with
  | some r => r.device
  | none => false

/-! Effects that may be abandoned -/

/-- The access that a bus or address error reports (60_exceptions.md R437). -/
structure Access where
  /-- The address, all 32 bits. -/
  addr : Long
  /-- A write; else a read. -/
  write : Bool
  /-- An instruction fetch. -/
  fetch : Bool
  /-- Program space: fetches, PC-relative reads, the reset vectors (20_memory.md R62). -/
  program : Bool
  /-- Made in supervisor mode (R62). -/
  supervisor : Bool
  deriving DecidableEq, Repr

/-- The kind of bus cycle that an access makes (R62). -/
def Access.kind (acc : Access) : CycleKind :=
  { write := acc.write, program := acc.program, supervisor := acc.supervisor }

/-- Why an effect was abandoned. -/
inductive Abort where
  /-- A word or longword access at an odd address (R441). -/
  | addressError (acc : Access)
  /-- The platform refused a bus cycle (R440). -/
  | busError (acc : Access)
  /-- The instruction is not executed: the exception with this vector, the saved PC being its opword's address
  (R438). -/
  | notExecuted (vector : Nat)
  deriving DecidableEq, Repr

/-- An effect on the state that may be abandoned (`raise`, R15); the state it has reached is kept. -/
abbrev Act := EStateM Abort State

/-- A free value: 32 bits that nothing constrains, a fresh one at every use (R15 `undefined`). Log 1. -/
def draw : Act Long := do
  let s ← get
  set { s with draws := s.draws + 1 }
  return Config.freeLong s.draws

/-- A free bit (R15 `undefined_bit`). -/
def drawBit : Act Bool := do
  let v ← draw
  return v.getLsbD 0

/-- The description of an access made now. -/
def accessOf (s : State) (addr : Long) (write fetch program : Bool) : Access :=
  { addr, write, fetch, program, supervisor := s.supervisor }

/-- One byte as a bus cycle reads it: a device's value is free (R73, U20). -/
def cycleByte (a : Nat) : Act Byte := do
  let s ← get
  if isDevice s.memMap a then
    let v ← draw
    return v.setWidth 8
  else
    return memRead s.mem a

/-- The platform's part in a bus cycle on `n` bytes: refusal (R75), and a device sees the event (R73). -/
def busCycle (n : Nat) (addr : Long) (acc : Access) (seen : Event) : Act Unit := do
  let s ← get
  if (List.range n).any fun i => refuses s.memMap acc.kind (phys addr i) then
    throw (.busError { acc with addr })
  if (List.range n).any fun i => isDevice s.memMap (phys addr i) then
    set (s.record seen)

/-- A bus cycle that reads one byte where the map has a region (R66). -/
def readCycle8 (addr : Long) (acc : Access) : Act Byte := do
  busCycle 1 addr acc (.deviceRead (phys addr 0) 1)
  cycleByte (phys addr 0)

/-- A bus cycle that reads an aligned word where the map has a region (R66). -/
def readCycle16 (addr : Long) (acc : Access) : Act Word := do
  busCycle 2 addr acc (.deviceRead (phys addr 0) 2)
  let h ← cycleByte (phys addr 0)
  let l ← cycleByte (phys addr 1)
  return h ++ l

/-- One byte written to plain memory by a bus cycle; a device keeps its own. DESIGN CHOICE, unsafe: ROM whose region is no
device and refuses no write takes the store as RAM does, since R75 names ROM and no rule says what a store to it does
(log 31). -/
def storeByte (a : Nat) (b : Byte) : Act Unit :=
  modify fun s => if isDevice s.memMap a then s else s.setMem (memWrite s.mem a b)

/-- A bus cycle that writes one byte where the map has a region (R66). -/
def writeCycle8 (addr : Long) (v : Byte) (acc : Access) : Act Unit := do
  busCycle 1 addr acc (.deviceWrite (phys addr 0) 1 (v.setWidth 16))
  storeByte (phys addr 0) v

/-- A bus cycle that writes an aligned word where the map has a region (R66). -/
def writeCycle16 (addr : Long) (v : Word) (acc : Access) : Act Unit := do
  busCycle 2 addr acc (.deviceWrite (phys addr 0) 2 v)
  storeByte (phys addr 0) (v.extractLsb' 8 8)
  storeByte (phys addr 1) (v.extractLsb' 0 8)

/-- A read where the map has a region: a longword is two word cycles, in an order no source fixes (R66, R69, U6). -/
def platformRead (sz : Size) (addr : Long) (acc : Access) : Act (BitVec sz.bits) :=
  match sz with
  | .byte => readCycle8 addr acc
  | .word => readCycle16 addr acc
  | .long => do
    if ← drawBit then
      let h ← readCycle16 addr acc
      let l ← readCycle16 (addr + 2) acc
      return h ++ l
    else
      let l ← readCycle16 (addr + 2) acc
      let h ← readCycle16 addr acc
      return h ++ l

/-- A write where the map has a region, as `platformRead`. -/
def platformWrite (sz : Size) (addr : Long) (v : BitVec sz.bits) (acc : Access) : Act Unit :=
  match sz, v with
  | .byte, v => writeCycle8 addr v acc
  | .word, v => writeCycle16 addr v acc
  | .long, v => do
    if ← drawBit then
      writeCycle16 addr (v.extractLsb' 16 16) acc
      writeCycle16 (addr + 2) (v.extractLsb' 0 16) acc
    else
      writeCycle16 (addr + 2) (v.extractLsb' 0 16) acc
      writeCycle16 addr (v.extractLsb' 16 16) acc

/-- A word or longword access at an odd address is not performed (R70). -/
def misaligned (sz : Size) (addr : Long) : Bool := sz != .byte && addr.getLsbD 0

/-- `MemRead(addr, size)` (R64), from program space when `program` (R62). -/
def readMem (sz : Size) (addr : Long) (program : Bool := false) : Act (BitVec sz.bits) := do
  let s ← get
  if misaligned sz addr then
    throw (.addressError (accessOf s addr false false program))
  if plainAt s.memMap addr sz.bytes then
    return peek sz s.mem addr
  else
    platformRead sz addr (accessOf s addr false false program)

/-- `MemWrite(addr, size, v)` (R65); ROM that no region covers is written as RAM is (DESIGN CHOICE, log 31). -/
def writeMem (sz : Size) (addr : Long) (v : BitVec sz.bits) : Act Unit := do
  let s ← get
  if misaligned sz addr then
    throw (.addressError (accessOf s addr true false false))
  if plainAt s.memMap addr sz.bytes then
    set (s.setMem (poke sz s.mem addr v))
  else
    platformWrite sz addr v (accessOf s addr true false false)

/-- `Push32` (R15). -/
def push32 (v : Long) : Act Unit := do
  modify fun s => s.setSp (s.sp - 4)
  writeMem .long (← get).sp v

/-- `Push16` (R15). -/
def push16 (v : Word) : Act Unit := do
  modify fun s => s.setSp (s.sp - 2)
  writeMem .word (← get).sp v

/-- `Pop32` (R15). -/
def pop32 : Act Long := do
  let v ← readMem .long (← get).sp
  modify fun s => s.setSp (s.sp + 4)
  return v

/-- `Pop16` (R15). -/
def pop16 : Act Word := do
  let v ← readMem .word (← get).sp
  modify fun s => s.setSp (s.sp + 2)
  return v

/-- Consume `n` extension words: the fetch of one that the platform refuses is a bus error, one from a device is seen by
it; PC advances past each (R92, R67). -/
def fetchExt : Nat → Act Unit
  | 0 => return ()
  | n + 1 => do
    let s ← get
    unless plainAt s.memMap s.pc 2 do
      let _ ← platformRead .word s.pc (accessOf s s.pc false true true)
    modify fun s => s.setPc (s.pc + 2)
    fetchExt n

/-! Exceptions -/

/-- SR at exception entry: S set, T cleared, and for an interrupt I at its level (R436). -/
def entrySr (sr : Word) (level : Option (BitVec 3)) : Word :=
  let w := (sr ||| 0x2000) &&& 0x7FFF
  match level with
  | none => w
  | some l => (w &&& 0xF8FF) ||| (l.setWidth 16 <<< 8)

/-- The pushes of the 6-byte frame: PC, then SR. When the platform refuses the first, the frame is completed or not,
unspecified (R436, R450). -/
def pushFrame (p : Long) (sr : Word) : Act Unit := do
  tryCatch (push32 p) fun e => do
    match e with
    | .busError _ =>
      if ← drawBit then tryCatch (push16 sr) fun _ => return ()
      throw e
    | _ => throw e
  push16 sr

/-- `Exception(v, p)`, the common sequence, with the interrupt's level if it is one (R436). -/
def exceptionEntry (v : Nat) (p : Long) (level : Option (BitVec 3)) : Act Unit := do
  let old := (← get).readSr
  modify fun s => { s.setSr (entrySr old level) with groupZero := false, stale := [] }
  pushFrame p old
  let handler ← readMem .long (BitVec.ofNat 32 (4 * v))
  modify fun s => { s.setPc handler with stopped := false }

/-- A group 2 exception, raised by an instruction: the saved PC is the next instruction's (R438, R443, R444, R446). -/
def raiseNext (v : Nat) : Act Unit := do
  let s ← get
  exceptionEntry v s.pc none

/-- The function code of an access: 1 and 2 user data and program, 5 and 6 supervisor (20_memory.md R62 gives the
attributes; the numbers are PRESUMED, the family's). Log 9. -/
def functionCode (acc : Access) : BitVec 3 :=
  BitVec.ofBool acc.supervisor ++ BitVec.ofBool acc.program ++ BitVec.ofBool (!acc.program)

/-- The pushes and the vector of `GroupZero` (R437): the saved PC and bits 15..5 of the information word are free, as is
IR when no instruction is being executed. -/
def groupZeroFrame (v : Nat) (acc : Access) (executing : Bool) : Act Unit := do
  let old := (← get).readSr
  modify fun s => s.setSr (entrySr old none)
  let pc ← draw
  push32 pc
  push16 old
  let other ← draw
  let s ← get
  push16 (if executing then s.ir else other.setWidth 16)
  push32 acc.addr
  let bits ← draw
  push16 ((bits.setWidth 11 : BitVec 11) ++ BitVec.ofBool (!acc.write) ++ BitVec.ofBool (!acc.fetch) ++ functionCode acc)
  let handler ← readMem .long (BitVec.ofNat 32 (4 * v))
  modify fun s => s.setPc handler

/-- Bus or address error processing: the long frame; an error within it, or within reset's, halts (R437, R456). -/
def enterGroupZero (v : Nat) (acc : Access) (executing : Bool) (s : State) : State :=
  if s.groupZero then { s with halted := true }
  else
    match groupZeroFrame v acc executing { s with groupZero := true, stopped := false, stale := [] } with
    | .ok _ t => t
    | .error _ t => { t with halted := true }

/-- What an abort leads to when no instruction is being executed. -/
def abortEntry (e : Abort) (s : State) : State :=
  match e with
  | .addressError acc => enterGroupZero 3 acc false s
  | .busError acc => enterGroupZero 2 acc false s
  | .notExecuted _ => s

/-- TAKING AN EXCEPTION: `Exception(v, p)`; a bus or address error in it is processed at once (R436, R450, R456). -/
def takeException (v : Nat) (p : Long) (level : Option (BitVec 3)) (s : State) : State :=
  match exceptionEntry v p level s with
  | .ok _ t => t
  | .error e t => abortEntry e t

/-! Running an instruction's effect -/

/-- What an instruction may write besides PC: after a bus or address error each is unconstrained (R437, U5). -/
inductive Dest where
  | reg (r : XReg)
  | usp
  | ccr
  | sr
  deriving DecidableEq, Repr

/-- A free SSP: any value, but odd when SSP was odd at the instruction's start and still is at the abort, for then every
value that the instruction can have left there is odd and the frame cannot be pushed (70_reset_and_hazards.md R490,
R495 e, R456; log 8). -/
def freeSsp (start : State) (v : Long) (s : State) : State :=
  s.setSsp (if start.ssp.getLsbD 0 && s.ssp.getLsbD 0 then v ||| 1 else v)

/-- One destination made free; A7 is the stack pointer that was active in `start`, the state when the instruction began
(R437). -/
def freeDest (start : State) (t : Dest) (v : Long) (s : State) : State :=
  match t with
  | .reg (.d n) => s.setD n v
  | .reg (.a n) => if n.val < 7 then s.setA n v else if start.supervisor then freeSsp start v s else s.setUsp v
  | .usp => s.setUsp v
  | .ccr => s.setCcr (ccrOfWord (v.setWidth 16))
  | .sr => s.setSr (v.setWidth 16)

/-- All destinations made free (R437). -/
def freeDests (start : State) : List Dest → State → State
  | [], s => s
  | t :: ts, s => freeDests start ts { freeDest start t (Config.freeLong s.draws) s with draws := s.draws + 1 }

/-- The trace exception becomes due when the completed instruction began with T = 1 (R452, R465). -/
def afterInstr (start s : State) : State :=
  if start.traceBit then { s with pendingTrace := true } else s

/-- Run an instruction: PC moves past the opword and the `ext` extension words that come before its effect, then `act`,
given the opword's address. A bus or address error frees `writes` and takes the group 0 exception; an instruction not
executed takes its exception at the opword; then there is no trace (R437, R438, R452, R465). -/
def runInstr (ext : Nat) (writes : List Dest) (act : Long → Act Unit) (s : State) : State :=
  match (do fetchExt ext; act s.pc : Act Unit) (s.setPc (s.pc + 2)) with
  | .ok _ t => afterInstr s t
  | .error (.addressError acc) t => enterGroupZero 3 acc true (freeDests s writes t)
  | .error (.busError acc) t => enterGroupZero 2 acc true (freeDests s writes t)
  | .error (.notExecuted v) t => takeException v s.pc none t

/-- The privilege check comes before anything else (R366): with S = 0, a privilege violation at the opword. -/
def runPrivileged (ext : Nat) (writes : List Dest) (act : Long → Act Unit) (s : State) : State :=
  if s.supervisor then runInstr ext writes act s else takeException 8 s.pc none s

end Sys2Proof.Machine
end

