-- ==== Sys2Proof/Machine/Operands.lean ====
section
/-! DEFINITION. The effective addresses and operand access (40_addressing_modes.md R140 to R160), and the shapes that
several instructions share: read an operand into a register, read and write one operand, run a shift, store and load a
register list. -/

namespace Sys2Proof.Machine

/-- A location, what `EA` returns (R155); a memory address carries whether it is PC-relative, hence program space. -/
inductive Loc where
  | d (n : RegNum)
  | a (n : RegNum)
  | mem (addr : Long) (program : Bool)
  | imm (v : Long)
  deriving DecidableEq, Repr

/-- How many words an immediate takes (R97). -/
def immCount : Size → Nat
  | .long => 2
  | _ => 1

/-- How many extension words an effective address takes (R94). -/
def eaCount (sz : Size) : EA → Nat
  | .disp _ _ | .index _ _ | .absW _ | .pcDisp _ | .pcIndex _ => 1
  | .absL _ => 2
  | .imm _ => immCount sz
  | _ => 0

/-- `inc(reg, size)`: 2 for a byte through A7 (R155, R145). -/
def incAmount (n : RegNum) (sz : Size) : Long :=
  if n = 7 ∧ sz = .byte then 2 else BitVec.ofNat 32 sz.bytes

/-- `Index(w)` (R155, R147). -/
def indexValue (s : State) (x : Index) : Long :=
  if x.long then s.readX x.reg else ((s.readX x.reg).setWidth 16 : Word).signExtend 32

/-- The location an effective address names; `pcx` is the address of its first extension word (R155, R150). -/
def eaLoc (sz : Size) (pcx : Long) (ea : EA) (s : State) : Loc :=
  match ea with
  | .dReg n => .d n
  | .aReg n => .a n
  | .ind n => .mem (s.readA n) false
  | .postInc n => .mem (s.readA n) false
  | .preDec n => .mem (s.readA n - incAmount n sz) false
  | .disp n d => .mem (s.readA n + d.signExtend 32) false
  | .index n x => .mem (s.readA n + indexValue s x + x.disp.signExtend 32) false
  | .absW w => .mem (w.signExtend 32) false
  | .absL l => .mem l false
  | .pcDisp d => .mem (pcx + d.signExtend 32) true
  | .pcIndex x => .mem (pcx + indexValue s x + x.disp.signExtend 32) true
  | .imm v => .imm v

/-- The state with the address register of `(An)+` or `-(An)` moved (R144, R145). -/
def eaBump (sz : Size) (ea : EA) (s : State) : State :=
  match ea with
  | .postInc n => s.setA n (s.readA n + incAmount n sz)
  | .preDec n => s.setA n (s.readA n - incAmount n sz)
  | _ => s

/-- `EA(mode, reg, size)`: evaluated once, with its effect on an address register (R155, R158). -/
def evalEa (sz : Size) (pcx : Long) (ea : EA) : Act Loc := do
  let s ← get
  set (eaBump sz ea s)
  return eaLoc sz pcx ea s

/-- `ReadLoc(loc, size)` (R156). -/
def readLoc (sz : Size) (loc : Loc) : Act (BitVec sz.bits) :=
  match loc with
  | .d n => return truncTo sz ((← get).readD n)
  | .a n => return truncTo sz ((← get).readA n)
  | .mem addr program => readMem sz addr program
  | .imm v => return truncTo sz v

/-- `WriteLoc(loc, size, v)`; a location no instruction writes makes the opword illegal (R157). -/
def writeLoc (sz : Size) (loc : Loc) (v : BitVec sz.bits) : Act Unit :=
  match loc with
  | .d n => modify fun s => s.setDn sz n v
  | .mem addr false => writeMem sz addr v
  | _ => throw (.notExecuted 4)

/-- `ReadEA(mode, reg, size)` (R156). -/
def readEa (sz : Size) (pcx : Long) (ea : EA) : Act (BitVec sz.bits) := do
  let loc ← evalEa sz pcx ea
  readLoc sz loc

/-- The address a control mode names; no memory access is made (R183, R324). Any other mode makes the opword illegal. -/
def controlEa (pcx : Long) (ea : EA) : Act Long := do
  let s ← get
  match eaLoc .long pcx ea s with
  | .mem addr _ => return addr
  | _ => throw (.notExecuted 4)

/-- The address register that evaluating a mode moves. -/
def eaBumps : EA → List Dest
  | .postInc n => [.reg (.a n)]
  | .preDec n => [.reg (.a n)]
  | _ => []

/-- The registers an instruction that writes the operand may write: the operand itself, or the moved address register. -/
def eaWrites : EA → List Dest
  | .dReg n => [.reg (.d n)]
  | .aReg n => [.reg (.a n)]
  | ea => eaBumps ea

/-- Write the condition codes. -/
def setFlags (f : Ccr) : Act Unit := modify fun s => s.setCcr f

/-- The address of an effective address's first extension word: `pre` words follow the opword before it (R91, R150). -/
def eaBase (ipc : Long) (pre : Nat) : Long := ipc + BitVec.ofNat 32 (2 + 2 * pre)

/-! Shapes of instructions. `f` gets the state in which it reads registers and flags. -/

/-- `R <- f(source, Dn)`; Dn and the flags are written (SUB, OR, AND, ADD to a data register). -/
def eaToDn (sz : Size) (ea : EA) (dn : RegNum) (f : Ccr → BitVec sz.bits → BitVec sz.bits → BitVec sz.bits × Ccr)
    (s : State) : State :=
  runInstr (eaCount sz ea) (.ccr :: .reg (.d dn) :: eaBumps ea) (fun ipc => do
    let v ← readEa sz (eaBase ipc 0) ea
    modify fun s =>
      let p := f s.ccr v (truncTo sz (s.readD dn))
      (s.setCcr p.2).setDn sz dn p.1) s

/-- `R <- f(operand)`, read and written at one location, flags from `f`; `pre` words precede the operand's (R158). -/
def updateEa (pre : Nat) (sz : Size) (ea : EA) (f : State → BitVec sz.bits → BitVec sz.bits × Ccr) (s : State) : State :=
  runInstr (pre + eaCount sz ea) (.ccr :: eaWrites ea) (fun ipc => do
    let loc ← evalEa sz (eaBase ipc pre) ea
    let v ← readLoc sz loc
    let p := f (← get) v
    setFlags p.2
    writeLoc sz loc p.1) s

/-- The flags from an operand, which is only read (TST, CMP, CMPI, BTST). -/
def testEa (pre : Nat) (sz : Size) (ea : EA) (f : State → BitVec sz.bits → Ccr) (s : State) : State :=
  runInstr (pre + eaCount sz ea) (.ccr :: eaBumps ea) (fun ipc => do
    let v ← readEa sz (eaBase ipc pre) ea
    modify fun s => s.setCcr (f s v)) s

/-- A value stored over an operand that is read first when it is in memory (CLR, Scc, MOVE from SR; R71); `flags` is the
change of the flags, if any. -/
def overwriteEa (sz : Size) (ea : EA) (value : State → BitVec sz.bits) (flags : State → State) (writes : List Dest)
    (s : State) : State :=
  runInstr (eaCount sz ea) (writes ++ eaWrites ea) (fun ipc => do
    let loc ← evalEa sz (eaBase ipc 0) ea
    match loc with
    | .mem addr program =>
      let _ ← readMem sz addr program
    | _ => pure ()
    let t ← get
    set (flags t)
    writeLoc sz loc (value t)) s

/-- `A[n] <- f(source, A[n])`, a word source sign-extended, no flag (MOVEA, SUBA, ADDA). The destination is read after
the source (R392). -/
def eaToAn (sz : Size) (ea : EA) (an : RegNum) (f : Long → Long → Long) (s : State) : State :=
  runInstr (eaCount sz ea) (.reg (.a an) :: eaBumps ea) (fun ipc => do
    let v ← readEa sz (eaBase ipc 0) ea
    modify fun s => s.setA an (f (sextTo sz v) (s.readA an))) s

/-- The state with both operands of a memory-to-memory extended operation read: source first (R245, R302, R390, R395). -/
def readPreDecPair (sz : Size) (src dst : RegNum) : Act (BitVec sz.bits × BitVec sz.bits × Long) := do
  let sloc ← evalEa sz 0 (.preDec src)
  let v ← readLoc sz sloc
  modify fun s => s.setA dst (s.readA dst - incAmount dst sz)
  let addr := (← get).readA dst
  let w ← readMem sz addr
  return (v, w, addr)

/-- A data register shifted: count, then operand, from the registers as they were (R277, R279). -/
def countOf (s : State) : Count → Nat
  | .imm q => if q.val = 0 then 8 else q.val
  | .reg n => (s.readD n).toNat % 64

/-- The register form of a shift or rotate (R277, R279). -/
def shiftReg (step : (n : Nat) → ShiftState n → ShiftState n) (c0 : Ccr → Bool) (cnt : Count) (sz : Size) (dn : RegNum)
    (s : State) : State :=
  runInstr 0 [.ccr, .reg (.d dn)] (fun _ => modify fun s =>
    let p := shiftResult (step sz.bits) c0 (countOf s cnt) s.ccr (truncTo sz (s.readD dn))
    (s.setCcr p.2).setDn sz dn p.1) s

/-- The memory form of a shift or rotate: a word, by one (R277, R279). -/
def shiftMem (step : (n : Nat) → ShiftState n → ShiftState n) (c0 : Ccr → Bool) (ea : EA) (s : State) : State :=
  updateEa 0 .word ea (fun t v => shiftResult (step 16) c0 1 t.ccr v) s

/-- Quick data: 000 means 8 (R99). -/
def quickValue (q : Fin 8) : Nat := if q.val = 0 then 8 else q.val

/-! MOVEM's register lists (R102, R186) -/

/-- The register of a mask bit: D0 to D7, A0 to A7. -/
def maskReg (i : Fin 16) : XReg := if i.val < 8 then .d (Fin.ofNat 8 i.val) else .a (Fin.ofNat 8 i.val)

/-- The registers of a mask in order of transfer, for every mode but `-(An)`. -/
def maskRegs (mask : Word) : List XReg := ((List.finRange 16).filter fun i => mask.getLsbD i.val).map maskReg

/-- The registers of a reversed mask in order of transfer: bit 0 is A7 (`-(An)`). -/
def maskRegsDown (mask : Word) : List XReg :=
  ((List.finRange 16).filter fun i => mask.getLsbD i.val).map fun i => maskReg i.rev

/-- Registers stored at rising addresses from `addr`; the address after the last (R189). -/
def storeUp (sz : Size) : List XReg → Long → Act Long
  | [], addr => return addr
  | r :: rs, addr => do
    writeMem sz addr (truncTo sz ((← get).readX r))
    storeUp sz rs (addr + BitVec.ofNat 32 sz.bytes)

/-- Registers stored at falling addresses below `addr`; the address of the last (R189). -/
def storeDown (sz : Size) : List XReg → Long → Act Long
  | [], addr => return addr
  | r :: rs, addr => do
    let addr := addr - BitVec.ofNat 32 sz.bytes
    writeMem sz addr (truncTo sz ((← get).readX r))
    storeDown sz rs addr

/-- Registers loaded from rising addresses, words sign-extended; the address after the last (R190). -/
def loadUp (sz : Size) (program : Bool) : List XReg → Long → Act Long
  | [], addr => return addr
  | r :: rs, addr => do
    let v ← readMem sz addr program
    modify fun s => s.setX r (sextTo sz v)
    loadUp sz program rs (addr + BitVec.ofNat 32 sz.bytes)

/-! Packed BCD (45_bit_bcd_scc.md R303, 48_supplement_absent_entries.md R390) -/

/-- Both digits are 0 to 9 (R303). -/
def bcdValid (b : Byte) : Bool := b.toNat / 16 ≤ 9 && b.toNat % 16 ≤ 9

/-- The value of a packed BCD byte (R303). -/
def bcdValue (b : Byte) : Nat := 10 * (b.toNat / 16) + b.toNat % 16

/-- `pack`: a value below 100 as two digits (R303). -/
def bcdPack (v : Nat) : Byte := BitVec.ofNat 8 (16 * (v / 10) + v % 10)

/-- `bcd_sub(D, S, X)` (R303); none when a digit is above 9. -/
def bcdSub (d src : Byte) (x : Bool) : Option (Byte × Bool) :=
  if bcdValid d && bcdValid src then
    let t : Int := (bcdValue d : Int) - bcdValue src - (if x then 1 else 0)
    some (bcdPack (t % 100).toNat, decide (t < 0))
  else none

/-- `bcd_add(D, S, X)` (R390); none when a digit is above 9. -/
def bcdAdd (d src : Byte) (x : Bool) : Option (Byte × Bool) :=
  if bcdValid d && bcdValid src then
    let t : Nat := bcdValue d + bcdValue src + (if x then 1 else 0)
    some (bcdPack (t % 100), decide (t > 99))
  else none

/-- The result byte of a BCD operation, its flags written: X = C, Z only cleared, N and V undefined (R300, R301, U4);
with a digit above 9 the result and C are free (U3, log 16). -/
def bcdResult (res : Option (Byte × Bool)) : Act Byte := do
  let p ← match res with
    | some p => pure p
    | none => do
      let v ← draw
      pure ((v.setWidth 8 : Byte), v.getLsbD 8)
  let n ← drawBit
  let v ← drawBit
  modify fun s => s.setCcr { x := p.2, n := n, z := s.ccr.z && p.1 == 0, v := v, c := p.2 }
  return p.1

end Sys2Proof.Machine
end

