-- ==== Sys2Proof/Machine/DataMovement.lean ====
section
/-! DEFINITION. The meanings of the data movement instructions (41_data_movement.md). -/

namespace Sys2Proof.Machine

/-- The outcome of a meaning: always a next state. -/
abbrev Result := Host.Outcome State Fault Refusal

/-- MOVE's common effect: source evaluated and read, then the destination's extension words fetched, the destination
evaluated and written (R187, R160, R155). -/
def moveEa (sz : Size) (src dst : EA) (s : State) : State :=
  runInstr (eaCount sz src) (.ccr :: eaBumps src ++ eaWrites dst) (fun ipc => do
    let v ← readEa sz (eaBase ipc 0) src
    fetchExt (eaCount sz dst)
    let loc ← evalEa sz (eaBase ipc (eaCount sz src)) dst
    modify fun s => s.setCcr (logicFlags s.ccr v)
    writeLoc sz loc v) s

/-- MOVE.B (R187). -/
def execMoveB (src dst : EA) (s : State) : Result := .next (moveEa .byte src dst s)

/-- MOVE.L (R187). -/
def execMoveL (src dst : EA) (s : State) : Result := .next (moveEa .long src dst s)

/-- MOVE.W (R187). -/
def execMoveW (src dst : EA) (s : State) : Result := .next (moveEa .word src dst s)

/-- MOVEA.L (R188). -/
def execMoveaL (src : EA) (an : RegNum) (s : State) : Result := .next (eaToAn .long src an (fun v _ => v) s)

/-- MOVEA.W: the word is sign-extended (R188). -/
def execMoveaW (src : EA) (an : RegNum) (s : State) : Result := .next (eaToAn .word src an (fun v _ => v) s)

/-- CLR: memory is read before it is cleared (R181, R71). -/
def execClr (sz : Size) (ea : EA) (s : State) : Result :=
  .next (overwriteEa sz ea (fun _ => 0)
    (fun t => t.setCcr { x := t.ccr.x, n := false, z := true, v := false, c := false }) [.ccr] s)

/-- EXG Dx,Dy: simultaneous (R182, 90_conflicts.md C14). -/
def execExgDD (dx dy : RegNum) (s : State) : Result :=
  .next (runInstr 0 [.reg (.d dx), .reg (.d dy)]
    (fun _ => modify fun s => (s.setD dx (s.readD dy)).setD dy (s.readD dx)) s)

/-- EXG Ax,Ay (R182). -/
def execExgAA (ax ay : RegNum) (s : State) : Result :=
  .next (runInstr 0 [.reg (.a ax), .reg (.a ay)]
    (fun _ => modify fun s => (s.setA ax (s.readA ay)).setA ay (s.readA ax)) s)

/-- EXG Dx,Ay (R182). -/
def execExgDA (dx ay : RegNum) (s : State) : Result :=
  .next (runInstr 0 [.reg (.d dx), .reg (.a ay)]
    (fun _ => modify fun s => (s.setD dx (s.readA ay)).setA ay (s.readD dx)) s)

/-- LEA: the full 32-bit address, no access (R183). -/
def execLea (ea : EA) (an : RegNum) (s : State) : Result :=
  .next (runInstr (eaCount .long ea) [.reg (.a an)] (fun ipc => do
    let addr ← controlEa (eaBase ipc 0) ea
    modify fun s => s.setA an addr) s)

/-- PEA: the address is computed before SP moves (R193). -/
def execPea (ea : EA) (s : State) : Result :=
  .next (runInstr (eaCount .long ea) [.reg (.a 7)] (fun ipc => do
    let addr ← controlEa (eaBase ipc 0) ea
    push32 addr) s)

/-- LINK; LINK A7 pushes the decremented SP (R184, U9; log 19). -/
def execLink (an : RegNum) (d : Word) (s : State) : Result :=
  .next (runInstr 1 [.reg (.a an), .reg (.a 7)] (fun _ => do
    modify fun s => s.setSp (s.sp - 4)
    let s ← get
    writeMem .long s.sp (s.readA an)
    modify fun s => s.setA an s.sp
    modify fun s => s.setSp (s.sp + d.signExtend 32)) s)

/-- UNLK; the final SP of UNLK A7 is free (R195, U10; log 15). -/
def execUnlk (an : RegNum) (s : State) : Result :=
  .next (runInstr 0 [.reg (.a an), .reg (.a 7)] (fun _ => do
    modify fun s => s.setSp (s.readA an)
    let v ← readMem .long (← get).sp
    if an = 7 then
      let sp ← draw
      modify fun s => s.setSp sp
    else
      modify fun s => (s.setA an v).setSp (s.sp + 4)) s)

/-- MOVEM registers to memory; `-(An)` stores downward from the initial An (R186, R189, U11). -/
def execMovemToMem (sz : WordLong) (mask : Word) (ea : EA) (s : State) : Result :=
  .next (runInstr (1 + eaCount sz.size ea) (eaBumps ea) (fun ipc => do
    let s ← get
    match ea with
    | .preDec n =>
      let last ← storeDown sz.size (maskRegsDown mask) (s.readA n)
      modify fun s => s.setA n last
    | _ =>
      match eaLoc sz.size (eaBase ipc 1) ea s with
      | .mem addr false =>
        let _ ← storeUp sz.size (maskRegs mask) addr
      | _ => throw (.notExecuted 4)) s)

/-- MOVEM memory to registers, with the overshoot read; `(An)+` ends with the final address in An (R186, R190, R72). -/
def execMovemToRegs (sz : WordLong) (mask : Word) (ea : EA) (s : State) : Result :=
  .next (runInstr (1 + eaCount sz.size ea) ((maskRegs mask).map .reg ++ eaBumps ea) (fun ipc => do
    let s ← get
    match ea with
    | .postInc n =>
      let last ← loadUp sz.size false (maskRegs mask) (s.readA n)
      let _ ← readMem .word last
      modify fun s => s.setA n last
    | _ =>
      match eaLoc sz.size (eaBase ipc 1) ea s with
      | .mem addr program =>
        let last ← loadUp sz.size program (maskRegs mask) addr
        let _ ← readMem .word last program
      | _ => throw (.notExecuted 4)) s)

/-- MOVEP: bytes at every second address, the high-order byte first (R191). -/
def execMovep (dir : MovepDir) (sz : WordLong) (dn an : RegNum) (d : Word) (s : State) : Result :=
  .next (runInstr 1 (match dir with | .memToReg => [.reg (.d dn)] | .regToMem => []) (fun _ => do
    let s ← get
    let addr := s.readA an + d.signExtend 32
    let v := s.readD dn
    match dir, sz with
    | .regToMem, .word =>
      writeMem .byte addr (v.extractLsb' 8 8)
      writeMem .byte (addr + 2) (v.extractLsb' 0 8)
    | .regToMem, .long =>
      writeMem .byte addr (v.extractLsb' 24 8)
      writeMem .byte (addr + 2) (v.extractLsb' 16 8)
      writeMem .byte (addr + 4) (v.extractLsb' 8 8)
      writeMem .byte (addr + 6) (v.extractLsb' 0 8)
    | .memToReg, .word =>
      let b0 ← readMem .byte addr
      let b1 ← readMem .byte (addr + 2)
      modify fun s => s.setDn .word dn (b0 ++ b1)
    | .memToReg, .long =>
      let b0 ← readMem .byte addr
      let b1 ← readMem .byte (addr + 2)
      let b2 ← readMem .byte (addr + 4)
      let b3 ← readMem .byte (addr + 6)
      modify fun s => s.setD dn ((b0 ++ b1) ++ (b2 ++ b3))) s)

/-- MOVEQ (R192). -/
def execMoveq (data : BitVec 8) (dn : RegNum) (s : State) : Result :=
  .next (runInstr 0 [.ccr, .reg (.d dn)] (fun _ => modify fun s =>
    let v : Long := data.signExtend 32
    (s.setCcr (logicFlags s.ccr v)).setD dn v) s)

/-- SWAP (R194). -/
def execSwap (dn : RegNum) (s : State) : Result :=
  .next (runInstr 0 [.ccr, .reg (.d dn)] (fun _ => modify fun s =>
    let v := s.readD dn
    let r : Long := (v.extractLsb' 0 16 ++ v.extractLsb' 16 16 : BitVec (16 + 16))
    (s.setCcr (logicFlags s.ccr r)).setD dn r) s)

end Sys2Proof.Machine
end

