-- ==== Sys2Proof/Machine/Arithmetic.lean ====
section
/-! DEFINITION. The meanings of the integer arithmetic instructions (42_integer_arithmetic.md,
48_supplement_absent_entries.md R391 to R395). -/

namespace Sys2Proof.Machine

/-- X as a number of the size. -/
def xValue {n : Nat} (f : Ccr) : BitVec n := if f.x then 1 else 0

/-- `D + S`, all flags (R389). -/
def addResult {n : Nat} (s d : BitVec n) : BitVec n × Ccr := (d + s, addFlags s d (d + s))

/-- `D - S`, all flags (R210). -/
def subResult {n : Nat} (s d : BitVec n) : BitVec n × Ccr := (d - s, subFlags s d (d - s))

/-- `D + S + X`, Z only cleared (R395). -/
def addxResult {n : Nat} (old : Ccr) (s d : BitVec n) : BitVec n × Ccr :=
  let r := d + s + xValue old
  (r, stickyZ old (addFlags s d r))

/-- `D - S - X`, Z only cleared (R245). -/
def subxResult {n : Nat} (old : Ccr) (s d : BitVec n) : BitVec n × Ccr :=
  let r := d - s - xValue old
  (r, stickyZ old (subFlags s d r))

/-- ADD `<ea>,Dn` (R391). -/
def execAddToReg (sz : Size) (ea : EA) (dn : RegNum) (s : State) : Result :=
  .next (eaToDn sz ea dn (fun _ v d => addResult v d) s)

/-- ADD `Dn,<ea>` (R391). -/
def execAddToEa (sz : Size) (dn : RegNum) (ea : EA) (s : State) : Result :=
  .next (updateEa 0 sz ea (fun t v => addResult (truncTo sz (t.readD dn)) v) s)

/-- ADDI (R393). -/
def execAddi (sz : Size) (imm : Long) (ea : EA) (s : State) : Result :=
  .next (updateEa (immCount sz) sz ea (fun _ v => addResult (truncTo sz imm) v) s)

/-- ADDQ; to An all 32 bits and no flags (R394). -/
def execAddq (sz : Size) (q : Fin 8) (ea : EA) (s : State) : Result :=
  match ea with
  | .aReg n =>
    .next (runInstr 0 [.reg (.a n)] (fun _ => modify fun s => s.setA n (s.readA n + BitVec.ofNat 32 (quickValue q))) s)
  | _ => .next (updateEa 0 sz ea (fun _ v => addResult (BitVec.ofNat sz.bits (quickValue q)) v) s)

/-- ADDA.W (R392). -/
def execAddaW (ea : EA) (an : RegNum) (s : State) : Result := .next (eaToAn .word ea an (fun v a => a + v) s)

/-- ADDA.L (R392). -/
def execAddaL (ea : EA) (an : RegNum) (s : State) : Result := .next (eaToAn .long ea an (fun v a => a + v) s)

/-- A register-to-register operation with extend, source `src` (R245, R395). -/
def extendReg (sz : Size) (f : Ccr → BitVec sz.bits → BitVec sz.bits → BitVec sz.bits × Ccr) (src dst : RegNum)
    (s : State) : State :=
  runInstr 0 [.ccr, .reg (.d dst)] (fun _ => modify fun s =>
    let p := f s.ccr (truncTo sz (s.readD src)) (truncTo sz (s.readD dst))
    (s.setCcr p.2).setDn sz dst p.1) s

/-- A memory-to-memory operation with extend, source `src` (R245, R395). -/
def extendMem (sz : Size) (f : Ccr → BitVec sz.bits → BitVec sz.bits → BitVec sz.bits × Ccr) (src dst : RegNum)
    (s : State) : State :=
  runInstr 0 [.ccr, .reg (.a src), .reg (.a dst)] (fun _ => do
    let (v, w, addr) ← readPreDecPair sz src dst
    let p := f (← get).ccr v w
    setFlags p.2
    writeMem sz addr p.1) s

/-- ADDX Dy,Dx (R395). -/
def execAddxReg (sz : Size) (dy dx : RegNum) (s : State) : Result :=
  .next (extendReg sz (fun old v d => addxResult old v d) dy dx s)

/-- ADDX -(Ay),-(Ax) (R395). -/
def execAddxMem (sz : Size) (ay ax : RegNum) (s : State) : Result :=
  .next (extendMem sz (fun old v d => addxResult old v d) ay ax s)

/-- SUB `<ea>,Dn` (R240). -/
def execSubToReg (sz : Size) (ea : EA) (dn : RegNum) (s : State) : Result :=
  .next (eaToDn sz ea dn (fun _ v d => subResult v d) s)

/-- SUB `Dn,<ea>` (R241). -/
def execSubToEa (sz : Size) (dn : RegNum) (ea : EA) (s : State) : Result :=
  .next (updateEa 0 sz ea (fun t v => subResult (truncTo sz (t.readD dn)) v) s)

/-- SUBI (R243). -/
def execSubi (sz : Size) (imm : Long) (ea : EA) (s : State) : Result :=
  .next (updateEa (immCount sz) sz ea (fun _ v => subResult (truncTo sz imm) v) s)

/-- SUBQ; to An all 32 bits and no flags (R244). -/
def execSubq (sz : Size) (q : Fin 8) (ea : EA) (s : State) : Result :=
  match ea with
  | .aReg n =>
    .next (runInstr 0 [.reg (.a n)] (fun _ => modify fun s => s.setA n (s.readA n - BitVec.ofNat 32 (quickValue q))) s)
  | _ => .next (updateEa 0 sz ea (fun _ v => subResult (BitVec.ofNat sz.bits (quickValue q)) v) s)

/-- SUBA.W (R242). -/
def execSubaW (ea : EA) (an : RegNum) (s : State) : Result := .next (eaToAn .word ea an (fun v a => a - v) s)

/-- SUBA.L (R242). -/
def execSubaL (ea : EA) (an : RegNum) (s : State) : Result := .next (eaToAn .long ea an (fun v a => a - v) s)

/-- SUBX Dx,Dy: Dx is the source (R245). -/
def execSubxReg (sz : Size) (dx dy : RegNum) (s : State) : Result :=
  .next (extendReg sz (fun old v d => subxResult old v d) dx dy s)

/-- SUBX -(Ax),-(Ay) (R245). -/
def execSubxMem (sz : Size) (ax ay : RegNum) (s : State) : Result :=
  .next (extendMem sz (fun old v d => subxResult old v d) ax ay s)

/-- NEG (R236). -/
def execNeg (sz : Size) (ea : EA) (s : State) : Result :=
  .next (updateEa 0 sz ea (fun _ v => subResult v 0) s)

/-- NEGX (R237). -/
def execNegx (sz : Size) (ea : EA) (s : State) : Result :=
  .next (updateEa 0 sz ea (fun t v => subxResult t.ccr v 0) s)

/-- CMP (R213). -/
def execCmp (sz : Size) (ea : EA) (dn : RegNum) (s : State) : Result :=
  .next (testEa 0 sz ea (fun t v => cmpFlags t.ccr v (truncTo sz (t.readD dn)) (truncTo sz (t.readD dn) - v)) s)

/-- CMPI (R215). -/
def execCmpi (sz : Size) (imm : Long) (ea : EA) (s : State) : Result :=
  .next (testEa (immCount sz) sz ea (fun t v => cmpFlags t.ccr (truncTo sz imm) v (v - truncTo sz imm)) s)

/-- CMPA.W: 32 bits, the source sign-extended (R214). -/
def execCmpaW (ea : EA) (an : RegNum) (s : State) : Result :=
  .next (testEa 0 .word ea
    (fun t v => cmpFlags t.ccr (sextTo .word v) (t.readA an) (t.readA an - sextTo .word v)) s)

/-- CMPA.L (R214). -/
def execCmpaL (ea : EA) (an : RegNum) (s : State) : Result :=
  .next (testEa 0 .long ea (fun t v => cmpFlags t.ccr (v : Long) (t.readA an) (t.readA an - v)) s)

/-- CMPM (Ay)+,(Ax)+: source first (R216). -/
def execCmpm (sz : Size) (ay ax : RegNum) (s : State) : Result :=
  .next (runInstr 0 [.ccr, .reg (.a ay), .reg (.a ax)] (fun _ => do
    let v ← readEa sz 0 (.postInc ay)
    let d ← readEa sz 0 (.postInc ax)
    modify fun s => s.setCcr (cmpFlags s.ccr v d (d - v))) s)

/-- TST (R246). -/
def execTst (sz : Size) (ea : EA) (s : State) : Result :=
  .next (testEa 0 sz ea (fun t v => logicFlags t.ccr v) s)

/-- EXT.W (R220). -/
def execExtW (dn : RegNum) (s : State) : Result :=
  .next (runInstr 0 [.ccr, .reg (.d dn)] (fun _ => modify fun s =>
    let r : Word := ((s.readD dn).setWidth 8 : Byte).signExtend 16
    (s.setCcr (logicFlags s.ccr r)).setDn .word dn r) s)

/-- EXT.L (R220). -/
def execExtL (dn : RegNum) (s : State) : Result :=
  .next (runInstr 0 [.ccr, .reg (.d dn)] (fun _ => modify fun s =>
    let r : Long := ((s.readD dn).setWidth 16 : Word).signExtend 32
    (s.setCcr (logicFlags s.ccr r)).setD dn r) s)

/-- A multiplication of Dn's low word by a word operand (R221, R222). -/
def multiply (ea : EA) (dn : RegNum) (f : Word → Word → Long) (s : State) : State :=
  runInstr (eaCount .word ea) (.ccr :: .reg (.d dn) :: eaBumps ea) (fun ipc => do
    let v ← readEa .word (eaBase ipc 0) ea
    modify fun s =>
      let r := f v ((s.readD dn).setWidth 16)
      (s.setCcr (logicFlags s.ccr r)).setD dn r) s

/-- MULS (R221). -/
def execMuls (ea : EA) (dn : RegNum) (s : State) : Result :=
  .next (multiply ea dn (fun v d => d.signExtend 32 * v.signExtend 32) s)

/-- MULU (R222). -/
def execMulu (ea : EA) (dn : RegNum) (s : State) : Result :=
  .next (multiply ea dn (fun v d => d.setWidth 32 * v.setWidth 32) s)

/-- What a division finds (R219). -/
inductive Quotient where
  | zeroDivide
  | overflow
  | result (q r : Word)
  deriving DecidableEq, Repr

/-- DIVU's test and result (R218). -/
def divuResult (v : Word) (d : Long) : Quotient :=
  if v = 0 then .zeroDivide
  else if d.toNat / v.toNat > 0xFFFF then .overflow
  else .result (BitVec.ofNat 16 (d.toNat / v.toNat)) (BitVec.ofNat 16 (d.toNat % v.toNat))

/-- DIVS's test and result, truncated toward zero (R217). -/
def divsResult (v : Word) (d : Long) : Quotient :=
  if v = 0 then .zeroDivide
  else
    let q := d.toInt.tdiv v.toInt
    if q < -32768 ∨ q > 32767 then .overflow
    else .result (BitVec.ofInt 16 q) (BitVec.ofInt 16 (d.toInt.tmod v.toInt))

/-- The effect of a division: undefined flags are free, X is kept, C is cleared (R219, R443, U2). -/
def divideEffect (dn : RegNum) (r : Quotient) : Act Unit :=
  match r with
  | .zeroDivide => do
    let n ← drawBit
    let z ← drawBit
    let v ← drawBit
    modify fun s => s.setCcr { x := s.ccr.x, n := n, z := z, v := v, c := false }
    raiseNext 5
  | .overflow => do
    let n ← drawBit
    let z ← drawBit
    modify fun s => s.setCcr { x := s.ccr.x, n := n, z := z, v := true, c := false }
  | .result q r => modify fun s => (s.setCcr (logicFlags s.ccr q)).setD dn (r ++ q)

/-- A division of Dn by a word operand, which is read before it is tested (R219). -/
def divide (ea : EA) (dn : RegNum) (f : Word → Long → Quotient) (s : State) : State :=
  runInstr (eaCount .word ea) (.ccr :: .reg (.d dn) :: eaBumps ea) (fun ipc => do
    let v ← readEa .word (eaBase ipc 0) ea
    divideEffect dn (f v ((← get).readD dn))) s

/-- DIVU (R218). -/
def execDivu (ea : EA) (dn : RegNum) (s : State) : Result := .next (divide ea dn divuResult s)

/-- DIVS (R217). -/
def execDivs (ea : EA) (dn : RegNum) (s : State) : Result := .next (divide ea dn divsResult s)

/-- CHK: Z, V, C free always, N free without a trap; `< 0` is tested first (R211, R444, U1). -/
def execChk (ea : EA) (dn : RegNum) (s : State) : Result :=
  .next (runInstr (eaCount .word ea) (.ccr :: eaBumps ea) (fun ipc => do
    let bound ← readEa .word (eaBase ipc 0) ea
    let v : Word := ((← get).readD dn).setWidth 16
    let n ← drawBit
    let z ← drawBit
    let o ← drawBit
    let c ← drawBit
    let negative := v.toInt < 0
    let above := (bound : Word).toInt < v.toInt
    modify fun s => s.setCcr
      { x := s.ccr.x, n := if negative then true else if above then false else n, z := z, v := o, c := c }
    if negative ∨ above then
      raiseNext 6) s)

end Sys2Proof.Machine
end

