-- ==== Sys2Proof/Machine/BitBcd.lean ====
section
/-! DEFINITION. The meanings of the bit, TAS, Scc and BCD instructions (45_bit_bcd_scc.md,
48_supplement_absent_entries.md R390, R408, R409). -/

namespace Sys2Proof.Machine

/-- One bit (R298). -/
def bitMask (n b : Nat) : BitVec n := (1 : BitVec n) <<< b

/-- The bit cleared (R291). -/
def clearBit {n : Nat} (v : BitVec n) (b : Nat) : BitVec n := v &&& ~~~(bitMask n b)

/-- The bit set (R293). -/
def setBit {n : Nat} (v : BitVec n) (b : Nat) : BitVec n := v ||| bitMask n b

/-- The bit changed (R408). -/
def changeBit {n : Nat} (v : BitVec n) (b : Nat) : BitVec n := v ^^^ bitMask n b

/-- Z from the tested bit, the other codes kept (R290, R298). -/
def bitFlags {n : Nat} (old : Ccr) (v : BitVec n) (b : Nat) : Ccr := { old with z := !v.getLsbD b }

/-- A bit instruction that writes: a data register's longword modulo 32, else a byte modulo 8 (R298). -/
def updateBit (pre : Nat) (ea : EA) (raw : State → Nat) (f : (n : Nat) → BitVec n → Nat → BitVec n) (s : State) :
    State :=
  match ea with
  | .dReg _ => updateEa pre .long ea (fun t v => (f 32 v (raw t % 32), bitFlags t.ccr v (raw t % 32))) s
  | _ => updateEa pre .byte ea (fun t v => (f 8 v (raw t % 8), bitFlags t.ccr v (raw t % 8))) s

/-- BTST, which only reads (R295, R296, R298). -/
def testBit (pre : Nat) (ea : EA) (raw : State → Nat) (s : State) : State :=
  match ea with
  | .dReg _ => testEa pre .long ea (fun t v => bitFlags t.ccr v (raw t % 32)) s
  | _ => testEa pre .byte ea (fun t v => bitFlags t.ccr v (raw t % 8)) s

/-- BTST with an immediate number (R296). -/
def execBtstImm (bit : BitVec 8) (ea : EA) (s : State) : Result := .next (testBit 1 ea (fun _ => bit.toNat) s)

/-- BTST with the number in Dn (R295). -/
def execBtstReg (dn : RegNum) (ea : EA) (s : State) : Result := .next (testBit 0 ea (fun t => (t.readD dn).toNat) s)

/-- BCHG with an immediate number (R409). -/
def execBchgImm (bit : BitVec 8) (ea : EA) (s : State) : Result :=
  .next (updateBit 1 ea (fun _ => bit.toNat) (fun _ => changeBit) s)

/-- BCHG with the number in Dn (R408). -/
def execBchgReg (dn : RegNum) (ea : EA) (s : State) : Result :=
  .next (updateBit 0 ea (fun t => (t.readD dn).toNat) (fun _ => changeBit) s)

/-- BCLR with an immediate number (R292). -/
def execBclrImm (bit : BitVec 8) (ea : EA) (s : State) : Result :=
  .next (updateBit 1 ea (fun _ => bit.toNat) (fun _ => clearBit) s)

/-- BCLR with the number in Dn (R291). -/
def execBclrReg (dn : RegNum) (ea : EA) (s : State) : Result :=
  .next (updateBit 0 ea (fun t => (t.readD dn).toNat) (fun _ => clearBit) s)

/-- BSET with an immediate number (R294). -/
def execBsetImm (bit : BitVec 8) (ea : EA) (s : State) : Result :=
  .next (updateBit 1 ea (fun _ => bit.toNat) (fun _ => setBit) s)

/-- BSET with the number in Dn (R293). -/
def execBsetReg (dn : RegNum) (ea : EA) (s : State) : Result :=
  .next (updateBit 0 ea (fun t => (t.readD dn).toNat) (fun _ => setBit) s)

/-- TAS: flags from the byte before bit 7 is set; the read and the write are one (R297). -/
def execTas (ea : EA) (s : State) : Result :=
  .next (updateEa 0 .byte ea (fun t v => ((v ||| 0x80 : Byte), logicFlags t.ccr v)) s)

/-- Scc: memory is read before it is written (R299, R71). -/
def execScc (cond : Cond) (ea : EA) (s : State) : Result :=
  .next (overwriteEa .byte ea (fun t => if condHolds t.ccr cond then (0xFF : Byte) else (0 : Byte)) id [] s)

/-- NBCD (R300). -/
def execNbcd (ea : EA) (s : State) : Result :=
  .next (runInstr (eaCount .byte ea) (.ccr :: eaWrites ea) (fun ipc => do
    let loc ← evalEa .byte (eaBase ipc 0) ea
    let v ← readLoc .byte loc
    let r ← bcdResult (bcdSub 0 v (← get).ccr.x)
    writeLoc .byte loc r) s)

/-- The register form of a BCD operation; `src` is read first (R301, R390). -/
def bcdReg (f : Byte → Byte → Bool → Option (Byte × Bool)) (src dst : RegNum) (s : State) : State :=
  runInstr 0 [.ccr, .reg (.d dst)] (fun _ => do
    let s ← get
    let r ← bcdResult (f (truncTo .byte (s.readD dst)) (truncTo .byte (s.readD src)) s.ccr.x)
    modify fun s => s.setDn .byte dst r) s

/-- The memory form of a BCD operation (R302, R390). -/
def bcdMem (f : Byte → Byte → Bool → Option (Byte × Bool)) (src dst : RegNum) (s : State) : State :=
  runInstr 0 [.ccr, .reg (.a src), .reg (.a dst)] (fun _ => do
    let (v, w, addr) ← readPreDecPair .byte src dst
    let r ← bcdResult (f w v (← get).ccr.x)
    writeMem .byte addr r) s

/-- SBCD Dy,Dx (R301). -/
def execSbcdReg (dy dx : RegNum) (s : State) : Result := .next (bcdReg bcdSub dy dx s)

/-- SBCD -(Ay),-(Ax) (R302). -/
def execSbcdMem (ay ax : RegNum) (s : State) : Result := .next (bcdMem bcdSub ay ax s)

/-- ABCD Dy,Dx (R390). -/
def execAbcdReg (dy dx : RegNum) (s : State) : Result := .next (bcdReg bcdAdd dy dx s)

/-- ABCD -(Ay),-(Ax) (R390). -/
def execAbcdMem (ay ax : RegNum) (s : State) : Result := .next (bcdMem bcdAdd ay ax s)

end Sys2Proof.Machine
end

