-- ==== Sys2Proof/Machine/Control.lean ====
section
/-! DEFINITION. The meanings of the program control instructions (46_control_transfer.md,
48_supplement_absent_entries.md R407). -/

namespace Sys2Proof.Machine

/-- How many extension words a branch displacement takes (R98). -/
def branchCount : BranchDisp → Nat
  | .short _ => 0
  | .long _ => 1

/-- A branch's target: the opword's address plus 2 plus the displacement (R98, R26). -/
def branchTarget (ipc : Long) : BranchDisp → Long
  | .short d => ipc + 2 + d.signExtend 32
  | .long d => ipc + 2 + d.signExtend 32

/-- BRA (R321). -/
def execBra (d : BranchDisp) (s : State) : Result :=
  .next (runInstr (branchCount d) [] (fun ipc => modify fun s => s.setPc (branchTarget ipc d)) s)

/-- BSR (R322). -/
def execBsr (d : BranchDisp) (s : State) : Result :=
  .next (runInstr (branchCount d) [.reg (.a 7)] (fun ipc => do
    let s ← get
    push32 s.pc
    modify fun s => s.setPc (branchTarget ipc d)) s)

/-- Bcc (R407). -/
def execBcc (cond : Cond) (d : BranchDisp) (s : State) : Result :=
  .next (runInstr (branchCount d) [] (fun ipc => modify fun s =>
    if condHolds s.ccr cond then s.setPc (branchTarget ipc d) else s) s)

/-- DBcc (R323). -/
def execDbcc (cond : Cond) (dn : RegNum) (d : Word) (s : State) : Result :=
  .next (runInstr 1 [.reg (.d dn)] (fun ipc => modify fun s =>
    if condHolds s.ccr cond then s
    else
      let n : Word := (s.readD dn).setWidth 16 - 1
      let t := s.setDn .word dn n
      if n = 0xFFFF then t else t.setPc (ipc + 2 + d.signExtend 32)) s)

/-- JMP (R324). -/
def execJmp (ea : EA) (s : State) : Result :=
  .next (runInstr (eaCount .long ea) [] (fun ipc => do
    let addr ← controlEa (eaBase ipc 0) ea
    modify fun s => s.setPc addr) s)

/-- JSR: the target is computed before the push (R325). -/
def execJsr (ea : EA) (s : State) : Result :=
  .next (runInstr (eaCount .long ea) [.reg (.a 7)] (fun ipc => do
    let addr ← controlEa (eaBase ipc 0) ea
    let s ← get
    push32 s.pc
    modify fun s => s.setPc addr) s)

/-- NOP (R326). -/
def execNop (s : State) : Result := .next (runInstr 0 [] (fun _ => return ()) s)

/-- RTS (R328). -/
def execRts (s : State) : Result :=
  .next (runInstr 0 [.reg (.a 7)] (fun _ => do
    let p ← pop32
    modify fun s => s.setPc p) s)

/-- RTR: only the five condition codes of the word pulled are used (R327). -/
def execRtr (s : State) : Result :=
  .next (runInstr 0 [.ccr, .reg (.a 7)] (fun _ => do
    let w ← pop16
    setFlags (ccrOfWord w)
    let p ← pop32
    modify fun s => s.setPc p) s)

end Sys2Proof.Machine
end

