-- ==== Sys2Proof/Machine/Logical.lean ====
section
/-! DEFINITION. The meanings of the logical instructions (43_logical.md, 48_supplement_absent_entries.md R396 to R398). -/

namespace Sys2Proof.Machine

/-- A result with the logical flags (R250). -/
def logicResult {n : Nat} (old : Ccr) (r : BitVec n) : BitVec n × Ccr := (r, logicFlags old r)

/-- OR `<ea>,Dn` (R256). -/
def execOrToReg (sz : Size) (ea : EA) (dn : RegNum) (s : State) : Result :=
  .next (eaToDn sz ea dn (fun old v d => logicResult old (d ||| v)) s)

/-- OR `Dn,<ea>` (R257). -/
def execOrToEa (sz : Size) (dn : RegNum) (ea : EA) (s : State) : Result :=
  .next (updateEa 0 sz ea (fun t v => logicResult t.ccr (v ||| truncTo sz (t.readD dn))) s)

/-- ORI (R258). -/
def execOri (sz : Size) (imm : Long) (ea : EA) (s : State) : Result :=
  .next (updateEa (immCount sz) sz ea (fun t v => logicResult t.ccr (v ||| truncTo sz imm)) s)

/-- AND `<ea>,Dn` (R396). -/
def execAndToReg (sz : Size) (ea : EA) (dn : RegNum) (s : State) : Result :=
  .next (eaToDn sz ea dn (fun old v d => logicResult old (d &&& v)) s)

/-- AND `Dn,<ea>` (R397). -/
def execAndToEa (sz : Size) (dn : RegNum) (ea : EA) (s : State) : Result :=
  .next (updateEa 0 sz ea (fun t v => logicResult t.ccr (v &&& truncTo sz (t.readD dn))) s)

/-- ANDI (R398). -/
def execAndi (sz : Size) (imm : Long) (ea : EA) (s : State) : Result :=
  .next (updateEa (immCount sz) sz ea (fun t v => logicResult t.ccr (v &&& truncTo sz imm)) s)

/-- EOR `Dn,<ea>` (R252). -/
def execEor (sz : Size) (dn : RegNum) (ea : EA) (s : State) : Result :=
  .next (updateEa 0 sz ea (fun t v => logicResult t.ccr (v ^^^ truncTo sz (t.readD dn))) s)

/-- EORI (R253). -/
def execEori (sz : Size) (imm : Long) (ea : EA) (s : State) : Result :=
  .next (updateEa (immCount sz) sz ea (fun t v => logicResult t.ccr (v ^^^ truncTo sz imm)) s)

/-- NOT (R255). -/
def execNot (sz : Size) (ea : EA) (s : State) : Result :=
  .next (updateEa 0 sz ea (fun t v => logicResult t.ccr (~~~v)) s)

end Sys2Proof.Machine
end

