-- ==== Sys2Proof/Machine/Shift.lean ====
section
/-! DEFINITION. The meanings of the shifts and rotates (44_shift_rotate.md, 48_supplement_absent_entries.md R401, R402). -/

namespace Sys2Proof.Machine

/-- ASR of a data register (R402). -/
def execAsrReg (cnt : Count) (sz : Size) (dn : RegNum) (s : State) : Result :=
  .next (shiftReg (fun _ => asrStep) carryCleared cnt sz dn s)

/-- ASR of a memory word (R402). -/
def execAsrMem (ea : EA) (s : State) : Result := .next (shiftMem (fun _ => asrStep) carryCleared ea s)

/-- ASL of a data register (R401). -/
def execAslReg (cnt : Count) (sz : Size) (dn : RegNum) (s : State) : Result :=
  .next (shiftReg (fun _ => aslStep) carryCleared cnt sz dn s)

/-- ASL of a memory word (R401). -/
def execAslMem (ea : EA) (s : State) : Result := .next (shiftMem (fun _ => aslStep) carryCleared ea s)

/-- LSR of a data register (R272). -/
def execLsrReg (cnt : Count) (sz : Size) (dn : RegNum) (s : State) : Result :=
  .next (shiftReg (fun _ => lsrStep) carryCleared cnt sz dn s)

/-- LSR of a memory word (R272). -/
def execLsrMem (ea : EA) (s : State) : Result := .next (shiftMem (fun _ => lsrStep) carryCleared ea s)

/-- LSL of a data register (R271). -/
def execLslReg (cnt : Count) (sz : Size) (dn : RegNum) (s : State) : Result :=
  .next (shiftReg (fun _ => lslStep) carryCleared cnt sz dn s)

/-- LSL of a memory word (R271). -/
def execLslMem (ea : EA) (s : State) : Result := .next (shiftMem (fun _ => lslStep) carryCleared ea s)

/-- ROXR of a data register (R276). -/
def execRoxrReg (cnt : Count) (sz : Size) (dn : RegNum) (s : State) : Result :=
  .next (shiftReg (fun _ => roxrStep) carryFromX cnt sz dn s)

/-- ROXR of a memory word (R276). -/
def execRoxrMem (ea : EA) (s : State) : Result := .next (shiftMem (fun _ => roxrStep) carryFromX ea s)

/-- ROXL of a data register (R275). -/
def execRoxlReg (cnt : Count) (sz : Size) (dn : RegNum) (s : State) : Result :=
  .next (shiftReg (fun _ => roxlStep) carryFromX cnt sz dn s)

/-- ROXL of a memory word (R275). -/
def execRoxlMem (ea : EA) (s : State) : Result := .next (shiftMem (fun _ => roxlStep) carryFromX ea s)

/-- ROR of a data register (R274). -/
def execRorReg (cnt : Count) (sz : Size) (dn : RegNum) (s : State) : Result :=
  .next (shiftReg (fun _ => rorStep) carryCleared cnt sz dn s)

/-- ROR of a memory word (R274). -/
def execRorMem (ea : EA) (s : State) : Result := .next (shiftMem (fun _ => rorStep) carryCleared ea s)

/-- ROL of a data register (R273). -/
def execRolReg (cnt : Count) (sz : Size) (dn : RegNum) (s : State) : Result :=
  .next (shiftReg (fun _ => rolStep) carryCleared cnt sz dn s)

/-- ROL of a memory word (R273). -/
def execRolMem (ea : EA) (s : State) : Result := .next (shiftMem (fun _ => rolStep) carryCleared ea s)

end Sys2Proof.Machine
end

