-- ==== Sys2Proof/Machine/System.lean ====
section
/-! DEFINITION. The meanings of the system control instructions (47_system_control.md, 48_supplement_absent_entries.md
R399, R400) and the return from exception (60_exceptions.md R455). -/

namespace Sys2Proof.Machine

/-- An immediate combined with the five condition codes (R351, R353, R399). -/
def immToCcr (f : Word → Word → Word) (imm : BitVec 8) (s : State) : State :=
  runInstr 1 [.ccr] (fun _ => modify fun s => s.setCcr (ccrOfWord (f s.sr (imm.setWidth 16)))) s

/-- An immediate combined with the whole SR; privileged (R352, R354, R400). -/
def immToSr (f : Word → Word → Word) (imm : Word) (s : State) : State :=
  runPrivileged 1 [.sr] (fun _ => modify fun s => s.setSr (f s.sr imm)) s

/-- ORI to CCR (R351). -/
def execOriToCcr (imm : BitVec 8) (s : State) : Result := .next (immToCcr (· ||| ·) imm s)

/-- ORI to SR (R352). -/
def execOriToSr (imm : Word) (s : State) : Result := .next (immToSr (· ||| ·) imm s)

/-- ANDI to CCR (R399). -/
def execAndiToCcr (imm : BitVec 8) (s : State) : Result := .next (immToCcr (· &&& ·) imm s)

/-- ANDI to SR (R400). -/
def execAndiToSr (imm : Word) (s : State) : Result := .next (immToSr (· &&& ·) imm s)

/-- EORI to CCR (R353). -/
def execEoriToCcr (imm : BitVec 8) (s : State) : Result := .next (immToCcr (· ^^^ ·) imm s)

/-- EORI to SR (R354). -/
def execEoriToSr (imm : Word) (s : State) : Result := .next (immToSr (· ^^^ ·) imm s)

/-- MOVE to CCR: a word is read, its bits 4..0 used (R355). -/
def execMoveToCcr (ea : EA) (s : State) : Result :=
  .next (runInstr (eaCount .word ea) (.ccr :: eaBumps ea) (fun ipc => do
    let w ← readEa .word (eaBase ipc 0) ea
    setFlags (ccrOfWord w)) s)

/-- MOVE from SR: not privileged; memory is read before it is written (R356, R71, R2). -/
def execMoveFromSr (ea : EA) (s : State) : Result := .next (overwriteEa .word ea State.readSr id [] s)

/-- MOVE to SR: the operand is read under the old SR (R357). -/
def execMoveToSr (ea : EA) (s : State) : Result :=
  .next (runPrivileged (eaCount .word ea) (.sr :: eaBumps ea) (fun ipc => do
    let w ← readEa .word (eaBase ipc 0) ea
    modify fun s => s.setSr w) s)

/-- MOVE An,USP (R359, 90_conflicts.md C1). -/
def execMoveToUsp (an : RegNum) (s : State) : Result :=
  .next (runPrivileged 0 [.usp] (fun _ => modify fun s => s.setUsp (s.readA an)) s)

/-- MOVE USP,An (R360). -/
def execMoveFromUsp (an : RegNum) (s : State) : Result :=
  .next (runPrivileged 0 [.reg (.a an)] (fun _ => modify fun s => s.setA an s.usp) s)

/-- ILLEGAL: vector 4, the saved PC is its own address, no trace (R358, R442, R452). -/
def execIllegal (s : State) : Result := .next (takeException 4 s.pc none s)

/-- RESET: the pulse is the platform's to see, nothing else happens (R361, R46). -/
def execReset (s : State) : Result :=
  .next (runPrivileged 0 [] (fun _ => modify fun s => s.record .resetPulse) s)

/-- RTE, the return from an exception: SR and PC are both pulled from the supervisor stack before SR changes (R362,
R455, 90_conflicts.md C5). -/
def execRte (s : State) : Result :=
  .next (runPrivileged 0 [.sr, .reg (.a 7)] (fun _ => do
    let s ← get
    let w ← readMem .word s.ssp
    let p ← readMem .long (s.ssp + 2)
    modify fun s => ((s.setSsp (s.ssp + 6)).setSr w).setPc p) s)

/-- TRAP #v: vector 32 + v (R363). -/
def execTrap (v : Fin 16) (s : State) : Result := .next (runInstr 0 [] (fun _ => raiseNext (32 + v.val)) s)

/-- TRAPV: vector 7 when V = 1 (R365). -/
def execTrapv (s : State) : Result :=
  .next (runInstr 0 [] (fun _ => do
    let s ← get
    if s.ccr.v then raiseNext 7) s)

/-- STOP: SR is loaded and the processor stops; with bit 13 of the immediate clear a privilege violation, SR unchanged
(R364, R445, decision D13). -/
def execStop (imm : Word) (s : State) : Result :=
  .next (runPrivileged 1 [.sr] (fun _ => do
    if imm.getLsbD 13 then modify fun s => { s.setSr imm with stopped := true }
    else throw (.notExecuted 8)) s)

end Sys2Proof.Machine
end

