-- ==== Sys2Proof/Machine/Dispatch.lean ====
section
/-! DEFINITION. The meaning of every instruction, one arm each, in the order of the opcode table. -/

namespace Sys2Proof.Machine

def exec (i : Instr) (s : State) : Host.Outcome State Fault Refusal :=
  match i with
  | .oriToCcr imm => Sys2Proof.Machine.execOriToCcr imm s
  | .oriToSr imm => Sys2Proof.Machine.execOriToSr imm s
  | .ori sz imm ea => Sys2Proof.Machine.execOri sz imm ea s
  | .andiToCcr imm => Sys2Proof.Machine.execAndiToCcr imm s
  | .andiToSr imm => Sys2Proof.Machine.execAndiToSr imm s
  | .andi sz imm ea => Sys2Proof.Machine.execAndi sz imm ea s
  | .subi sz imm ea => Sys2Proof.Machine.execSubi sz imm ea s
  | .addi sz imm ea => Sys2Proof.Machine.execAddi sz imm ea s
  | .eoriToCcr imm => Sys2Proof.Machine.execEoriToCcr imm s
  | .eoriToSr imm => Sys2Proof.Machine.execEoriToSr imm s
  | .eori sz imm ea => Sys2Proof.Machine.execEori sz imm ea s
  | .cmpi sz imm ea => Sys2Proof.Machine.execCmpi sz imm ea s
  | .btstImm bit ea => Sys2Proof.Machine.execBtstImm bit ea s
  | .bchgImm bit ea => Sys2Proof.Machine.execBchgImm bit ea s
  | .bclrImm bit ea => Sys2Proof.Machine.execBclrImm bit ea s
  | .bsetImm bit ea => Sys2Proof.Machine.execBsetImm bit ea s
  | .btstReg dn ea => Sys2Proof.Machine.execBtstReg dn ea s
  | .bchgReg dn ea => Sys2Proof.Machine.execBchgReg dn ea s
  | .bclrReg dn ea => Sys2Proof.Machine.execBclrReg dn ea s
  | .bsetReg dn ea => Sys2Proof.Machine.execBsetReg dn ea s
  | .movep dir sz dn an d => Sys2Proof.Machine.execMovep dir sz dn an d s
  | .moveB src dst => Sys2Proof.Machine.execMoveB src dst s
  | .moveL src dst => Sys2Proof.Machine.execMoveL src dst s
  | .moveW src dst => Sys2Proof.Machine.execMoveW src dst s
  | .moveaL src an => Sys2Proof.Machine.execMoveaL src an s
  | .moveaW src an => Sys2Proof.Machine.execMoveaW src an s
  | .negx sz ea => Sys2Proof.Machine.execNegx sz ea s
  | .moveFromSr ea => Sys2Proof.Machine.execMoveFromSr ea s
  | .chk ea dn => Sys2Proof.Machine.execChk ea dn s
  | .lea ea an => Sys2Proof.Machine.execLea ea an s
  | .clr sz ea => Sys2Proof.Machine.execClr sz ea s
  | .neg sz ea => Sys2Proof.Machine.execNeg sz ea s
  | .moveToCcr ea => Sys2Proof.Machine.execMoveToCcr ea s
  | .not sz ea => Sys2Proof.Machine.execNot sz ea s
  | .moveToSr ea => Sys2Proof.Machine.execMoveToSr ea s
  | .nbcd ea => Sys2Proof.Machine.execNbcd ea s
  | .swap dn => Sys2Proof.Machine.execSwap dn s
  | .pea ea => Sys2Proof.Machine.execPea ea s
  | .extW dn => Sys2Proof.Machine.execExtW dn s
  | .extL dn => Sys2Proof.Machine.execExtL dn s
  | .movemToMem sz mask ea => Sys2Proof.Machine.execMovemToMem sz mask ea s
  | .movemToRegs sz mask ea => Sys2Proof.Machine.execMovemToRegs sz mask ea s
  | .tst sz ea => Sys2Proof.Machine.execTst sz ea s
  | .tas ea => Sys2Proof.Machine.execTas ea s
  | .illegal => Sys2Proof.Machine.execIllegal s
  | .trap v => Sys2Proof.Machine.execTrap v s
  | .link an d => Sys2Proof.Machine.execLink an d s
  | .unlk an => Sys2Proof.Machine.execUnlk an s
  | .moveToUsp an => Sys2Proof.Machine.execMoveToUsp an s
  | .moveFromUsp an => Sys2Proof.Machine.execMoveFromUsp an s
  | .reset => Sys2Proof.Machine.execReset s
  | .nop => Sys2Proof.Machine.execNop s
  | .stop imm => Sys2Proof.Machine.execStop imm s
  | .rte => Sys2Proof.Machine.execRte s
  | .rts => Sys2Proof.Machine.execRts s
  | .trapv => Sys2Proof.Machine.execTrapv s
  | .rtr => Sys2Proof.Machine.execRtr s
  | .jsr ea => Sys2Proof.Machine.execJsr ea s
  | .jmp ea => Sys2Proof.Machine.execJmp ea s
  | .addq sz q ea => Sys2Proof.Machine.execAddq sz q ea s
  | .subq sz q ea => Sys2Proof.Machine.execSubq sz q ea s
  | .scc cond ea => Sys2Proof.Machine.execScc cond ea s
  | .dbcc cond dn d => Sys2Proof.Machine.execDbcc cond dn d s
  | .bra d => Sys2Proof.Machine.execBra d s
  | .bsr d => Sys2Proof.Machine.execBsr d s
  | .bcc cond d => Sys2Proof.Machine.execBcc cond d s
  | .moveq data dn => Sys2Proof.Machine.execMoveq data dn s
  | .orToReg sz ea dn => Sys2Proof.Machine.execOrToReg sz ea dn s
  | .orToEa sz dn ea => Sys2Proof.Machine.execOrToEa sz dn ea s
  | .divu ea dn => Sys2Proof.Machine.execDivu ea dn s
  | .divs ea dn => Sys2Proof.Machine.execDivs ea dn s
  | .sbcdReg dy dx => Sys2Proof.Machine.execSbcdReg dy dx s
  | .sbcdMem ay ax => Sys2Proof.Machine.execSbcdMem ay ax s
  | .subToReg sz ea dn => Sys2Proof.Machine.execSubToReg sz ea dn s
  | .subToEa sz dn ea => Sys2Proof.Machine.execSubToEa sz dn ea s
  | .subaW ea an => Sys2Proof.Machine.execSubaW ea an s
  | .subaL ea an => Sys2Proof.Machine.execSubaL ea an s
  | .subxReg sz dx dy => Sys2Proof.Machine.execSubxReg sz dx dy s
  | .subxMem sz ax ay => Sys2Proof.Machine.execSubxMem sz ax ay s
  | .cmp sz ea dn => Sys2Proof.Machine.execCmp sz ea dn s
  | .cmpaW ea an => Sys2Proof.Machine.execCmpaW ea an s
  | .cmpaL ea an => Sys2Proof.Machine.execCmpaL ea an s
  | .eor sz dn ea => Sys2Proof.Machine.execEor sz dn ea s
  | .cmpm sz ay ax => Sys2Proof.Machine.execCmpm sz ay ax s
  | .andToReg sz ea dn => Sys2Proof.Machine.execAndToReg sz ea dn s
  | .andToEa sz dn ea => Sys2Proof.Machine.execAndToEa sz dn ea s
  | .mulu ea dn => Sys2Proof.Machine.execMulu ea dn s
  | .muls ea dn => Sys2Proof.Machine.execMuls ea dn s
  | .abcdReg dy dx => Sys2Proof.Machine.execAbcdReg dy dx s
  | .abcdMem ay ax => Sys2Proof.Machine.execAbcdMem ay ax s
  | .exgDD dx dy => Sys2Proof.Machine.execExgDD dx dy s
  | .exgAA ax ay => Sys2Proof.Machine.execExgAA ax ay s
  | .exgDA dx ay => Sys2Proof.Machine.execExgDA dx ay s
  | .addToReg sz ea dn => Sys2Proof.Machine.execAddToReg sz ea dn s
  | .addToEa sz dn ea => Sys2Proof.Machine.execAddToEa sz dn ea s
  | .addaW ea an => Sys2Proof.Machine.execAddaW ea an s
  | .addaL ea an => Sys2Proof.Machine.execAddaL ea an s
  | .addxReg sz dy dx => Sys2Proof.Machine.execAddxReg sz dy dx s
  | .addxMem sz ay ax => Sys2Proof.Machine.execAddxMem sz ay ax s
  | .asrReg cnt sz dn => Sys2Proof.Machine.execAsrReg cnt sz dn s
  | .asrMem ea => Sys2Proof.Machine.execAsrMem ea s
  | .aslReg cnt sz dn => Sys2Proof.Machine.execAslReg cnt sz dn s
  | .aslMem ea => Sys2Proof.Machine.execAslMem ea s
  | .lsrReg cnt sz dn => Sys2Proof.Machine.execLsrReg cnt sz dn s
  | .lsrMem ea => Sys2Proof.Machine.execLsrMem ea s
  | .lslReg cnt sz dn => Sys2Proof.Machine.execLslReg cnt sz dn s
  | .lslMem ea => Sys2Proof.Machine.execLslMem ea s
  | .roxrReg cnt sz dn => Sys2Proof.Machine.execRoxrReg cnt sz dn s
  | .roxrMem ea => Sys2Proof.Machine.execRoxrMem ea s
  | .roxlReg cnt sz dn => Sys2Proof.Machine.execRoxlReg cnt sz dn s
  | .roxlMem ea => Sys2Proof.Machine.execRoxlMem ea s
  | .rorReg cnt sz dn => Sys2Proof.Machine.execRorReg cnt sz dn s
  | .rorMem ea => Sys2Proof.Machine.execRorMem ea s
  | .rolReg cnt sz dn => Sys2Proof.Machine.execRolReg cnt sz dn s
  | .rolMem ea => Sys2Proof.Machine.execRolMem ea s

end Sys2Proof.Machine
end

