-- ==== Sys2Proof/Machine/Boundary.lean ====
section
/-! DEFINITION. One step of the machine (60_exceptions.md R450, R465): reset, trace, interrupt, the fetch of an instruction
and its execution. -/

namespace Sys2Proof.Machine

/-- The platform's next input; none left presents nothing. -/
def nextInput (s : State) : PlatformInput := s.inputs.headD {}

/-- The state with the platform's next input consumed. -/
def dropInput (s : State) : State := { s with inputs := s.inputs.tail }

/-! Reset (70_reset_and_hazards.md R490) -/

/-- Reset's two vectors, read from supervisor program space. -/
def resetVectors : Act Unit := do
  let ssp ← readMem .long 0 true
  modify fun s => s.setSsp ssp
  let pc ← readMem .long 4 true
  modify fun s => s.setPc pc

/-- The registers at reset: S = 1, T = 0, I = 7; those the spec leaves unspecified are free (R490, R491; log 12). -/
def resetRegisters (ipl : BitVec 3) (s : State) : State :=
  let free := fun k => Config.freeLong (s.draws + k)
  { s with
    d := Vector.ofFn fun i => free i.val
    a := Vector.ofFn fun i => free (8 + i.val)
    usp := free 15
    sr := (0x2700 ||| ((free 16).setWidth 16 &&& 0x1F)) &&& Config.srMask
    stopped := false
    halted := false
    pendingTrace := false
    prevIpl7 := ipl == 7
    groupZero := true
    stale := []
    draws := s.draws + 17 }

/-- The reset sequence (R490). A bus error in it halts (R456). -/
def doReset (ipl : BitVec 3) (s : State) : State :=
  match resetVectors (resetRegisters ipl s) with
  | .ok _ t => t
  | .error _ t => { t with halted := true }

/-! Trace and interrupts -/

/-- The trace exception that is due (R452, R465). -/
def takeTrace (s : State) : State :=
  takeException 9 s.pc none { s with pendingTrace := false, stopped := false }

/-- The interrupt level is accepted: above the mask, or a transition to 7 (R447). -/
def acceptable (s : State) (ipl : BitVec 3) : Bool := s.intMask < ipl || (ipl == 7 && !s.prevIpl7)

/-- The vector number of an interrupt (R448). -/
def interruptVector (ipl : BitVec 3) : IackAnswer → Nat
  | .vector v => v.toNat
  | .autovector => 24 + ipl.toNat
  | .spurious => 24

/-- The interrupt exception: I becomes the level (R436, R447). -/
def takeInterrupt (input : PlatformInput) (s : State) : State :=
  takeException (interruptVector input.ipl input.iack) s.pc (some input.ipl) { s with stopped := false }

/-! The fetch (20_memory.md R67, 30_encoding.md R92) -/

/-- The byte before a store that its fetch may still see (R80). -/
def staleByte (s : State) (a : Nat) : Option Byte := (s.stale.find? fun c => c.1 == a).map (·.2)

/-- The byte that the fetch of the `k`-th instruction byte sees: a device's is free (R73), one stored over just before it
is the old or the new (R80, log 10). -/
def fetchByte (s : State) (k : Nat) : Byte :=
  let a := phys s.pc k
  let free := Config.freeLong (s.draws + k)
  if isDevice s.memMap a then free.setWidth 8
  else
    match staleByte s a with
    | some old => if free.getLsbD 0 then old else memRead s.mem a
    | none => memRead s.mem a

/-- The five words from PC on, the longest instruction's (R90). -/
def fetchWords (s : State) : List Word := wordsOfBytes ((List.range 10).map (fetchByte s))

/-- The state with the free values that the fetch used counted. -/
def countFetch (s : State) : State :=
  if s.stale.isEmpty && plainAt s.memMap s.pc 10 then s else { s with draws := s.draws + 10 }

/-- The bus cycle of an opword's fetch (R67, R70, R75). -/
def fetchOpword : Act Unit := do
  let s ← get
  let acc := accessOf s s.pc false true true
  if s.pc.getLsbD 0 then throw (.addressError acc)
  unless plainAt s.memMap s.pc 2 do
    let _ ← platformRead .word s.pc acc

/-- The bytes of the four after the instruction that it stored over, as they were; those an earlier store left there and
no fetch has read since stay (R80). -/
def staleAfter (before after : State) : List Host.Cell :=
  (List.range 4).filterMap fun i =>
    let a := phys after.pc i
    match staleByte before a with
    | some old => some (a, old)
    | none => if memRead before.mem a = memRead after.mem a then none else some (a, memRead before.mem a)

/-- After the instruction: prefetched words stay only when execution goes on to the next instruction (R80). -/
def noteStores (before : State) (len : Nat) (after : State) : State :=
  { after with stale := if after.pc = before.pc + BitVec.ofNat 32 (2 * len) then staleAfter before after else [] }

/-- The vector of an opword that selects no row (R442, R449); `truncated` does not happen on five words. -/
def undecodedVector : DecodeError → Nat
  | .lineA => 10
  | .lineF => 11
  | _ => 4

/-- Execute the instruction whose words were fetched; `s` is the state at the boundary, `t` after the fetch. -/
def runDecoded (s t : State) : Host.Outcome State Fault Refusal :=
  let words := fetchWords s
  let u := { t with ir := words.headD 0, groupZero := false }
  match decodeWords words with
  | .error e => .next (takeException (undecodedVector e) s.pc none u)
  | .ok (i, rest) =>
    match exec i u with
    | .next v => .next (noteStores s (5 - rest.length) v)
    | .fault r => .fault r
    | .refused r => .refused r

/-- Fetch and execute one instruction (R465). -/
def runInstruction (s : State) : Host.Outcome State Fault Refusal :=
  match fetchOpword (countFetch s) with
  | .ok _ t => runDecoded s t
  | .error e t => .next (abortEntry e t)

/-- After reset and trace: interrupt, or the stopped state, or an instruction (R465). -/
def afterTrace (input : PlatformInput) (s : State) : Host.Outcome State Fault Refusal :=
  let t := { s with prevIpl7 := input.ipl == 7 }
  if acceptable s input.ipl then .next (takeInterrupt input t)
  else if t.stopped then .next t
  else runInstruction t

/-- One step (R450, R465). A reset wins over everything, the halted state too (R490; log 11). A group 0 exception in the
trace exception ends the step (R465). -/
def stepOnce (s : State) : Host.Outcome State Fault Refusal :=
  let input := nextInput s
  let s := dropInput s
  if input.reset then .next (doReset input.ipl s)
  else if s.halted then .next s
  else if s.pendingTrace then
    let t := takeTrace s
    if t.halted || t.groupZero then .next t else afterTrace input t
  else afterTrace input s

end Sys2Proof.Machine
end

