-- ==== Sys2Proof/Machine/Step.lean ====
section
/-! DEFINITION. The step of the machine, and the placing of an instruction where it is fetched. -/

namespace Sys2Proof.Machine

/-- One step of the machine (60_exceptions.md R465). -/
def step (s : State) : Host.Outcome State Fault Refusal := stepOnce s

/-- Bytes stored in memory from `addr` on. -/
def storeBytes : Memory → Long → List Byte → Memory
  | m, _, [] => m
  | m, addr, b :: bs => storeBytes (memWrite m (phys addr 0) b) (addr + 1) bs

/-- `s` with the instruction of bits `w` (numbered as spec/opcode_table.json numbers them) stored in the ten bytes where the
next step fetches, and the step made to fetch: no platform input, not stopped, halted or tracing, nothing stale, PC even
and in plain memory (log 4). -/
def State.withFetchWord (s : State) (nbits w : Nat) : State :=
  let pc := s.pc &&& 0xFFFFFFFE
  { s with
    mem := storeBytes s.mem pc (bytesOfWords (wordsOfNat 5 (w % 2 ^ nbits)))
    pc := pc
    memMap := if plainAt s.memMap pc 10 then s.memMap else []
    inputs := []
    stopped := false
    halted := false
    pendingTrace := false
    stale := [] }

end Sys2Proof.Machine
end

