-- ==== Sys2Proof/Safety.lean ====
section
/-! DEFINITION. What every state of a run has (the invariant), and what a safe run is. -/

namespace Sys2Proof.Safety

open Sys2Proof.Machine

/-- The unimplemented bits of SR are 0 (10_state.md R31, 70_reset_and_hazards.md R491). -/
def srReserved (s : State) : Prop := s.sr &&& ~~~Config.srMask = 0

/-- The invariant: memory in canonical form, SR without unimplemented bits, and a stopped or tracing processor is one that
has begun no group 0 processing. -/
structure Inv (s : State) : Prop where
  /-- Memory keeps its canonical form (20_memory.md R60, R61). -/
  memory : s.mem.wf = true
  /-- SR holds implemented bits only (R31). -/
  sr : srReserved s
  /-- Group 0 processing clears the stopped state and any pending trace (60_exceptions.md R452 c, R437). -/
  group : s.groupZero = true → s.stopped = false ∧ s.pendingTrace = false

/-! The terms of the statements -/

/-- The location can be accessed at the size: it is no memory, or aligned memory (R70). -/
def locAligned (sz : Size) : Loc → Bool
  | .mem addr _ => !misaligned sz addr
  | _ => true

/-- The value of a location in plain memory or a register (R156). -/
def locValue (sz : Size) (loc : Loc) (s : State) : BitVec sz.bits :=
  match loc with
  | .d n => truncTo sz (s.readD n)
  | .a n => truncTo sz (s.readA n)
  | .mem addr _ => peek sz s.mem addr
  | .imm v => truncTo sz v

/-- The state with a value stored in a location (R157). -/
def locStore (sz : Size) (loc : Loc) (v : BitVec sz.bits) (s : State) : State :=
  match loc with
  | .d n => s.setDn sz n v
  | .mem addr _ => s.setMem (poke sz s.mem addr v)
  | _ => s

/-- A location that `WriteLoc` writes (R157). -/
def locWritable : Loc → Bool
  | .d _ => true
  | .mem _ program => !program
  | _ => false

/-- The addresses of an operand's bytes (R64). -/
def bytesAt (sz : Size) (addr : Long) : List Nat := (List.range sz.bytes).map (phys addr)

/-- The bytes of memory that storing in a location writes. -/
def locBytes (sz : Size) : Loc → List Nat
  | .mem addr _ => bytesAt sz addr
  | _ => []

/-- The data register that storing in a location writes. -/
def locData : Loc → List RegNum
  | .d n => [n]
  | _ => []

/-- The address register that evaluating a mode moves (R144, R145). -/
def movedRegs : EA → List RegNum
  | .postInc n => [n]
  | .preDec n => [n]
  | _ => []

/-- The state with PC past the instruction's words (R25). -/
def fetched (i : Instr) (s : State) : State := s.setPc (s.pc + BitVec.ofNat 32 (2 * i.words))

/-- The location of an effective address whose extension words follow the opword and `pre` words (R91, R150). -/
def operandLoc (sz : Size) (pre : Nat) (ea : EA) (s : State) : Loc :=
  eaLoc sz (s.pc + BitVec.ofNat 32 (2 + 2 * pre)) ea s

/-- The FRAME: `t` is `s` but for the named data and address registers (A7 the active stack pointer), the named bytes of
memory, the five condition codes, PC and a pending trace. -/
structure SameBut (s t : State) (ds as : List RegNum) (bytes : List Nat) : Prop where
  data : ∀ n, n ∉ ds → t.readD n = s.readD n
  address : ∀ n, n ∉ as → t.readA n = s.readA n
  otherStack : if s.supervisor then t.usp = s.usp else t.ssp = s.ssp
  status : t.sr &&& 0xA700 = s.sr &&& 0xA700
  memory : ∀ a, a ∉ bytes → memRead t.mem a = memRead s.mem a
  stopped : t.stopped = s.stopped
  halted : t.halted = s.halted
  group : t.groupZero = s.groupZero
  sample : t.prevIpl7 = s.prevIpl7
  opword : t.ir = s.ir
  history : t.history = s.history
  platform : t.inputs = s.inputs ∧ t.memMap = s.memMap
  prefetch : t.stale = s.stale

/-- The instruction completes: `exec` answers the next state `t`, a trace due when T was 1, and the rest is `s`. -/
def Completes (i : Instr) (s t : State) (ds as : List RegNum) (bytes : List Nat) : Prop :=
  exec i s = .next (afterInstr s t) ∧ SameBut s t ds as bytes

/-- As `Completes`, and the condition codes are not affected. -/
def CompletesKeepingCcr (i : Instr) (s t : State) (ds as : List RegNum) (bytes : List Nat) : Prop :=
  Completes i s t ds as bytes ∧ t.ccr = s.ccr

/-- `t` with `k` more free values used. -/
def drew (k : Nat) (t : State) : State := { t with draws := t.draws + k }

/-- Registers stored in plain memory at rising addresses (R189). -/
def storedUp (sz : Size) : List XReg → Long → State → State
  | [], _, s => s
  | r :: rs, addr, s =>
    storedUp sz rs (addr + BitVec.ofNat 32 sz.bytes) (s.setMem (poke sz s.mem addr (truncTo sz (s.readX r))))

/-- Registers stored in plain memory at falling addresses (R189). -/
def storedDown (sz : Size) : List XReg → Long → State → State
  | [], _, s => s
  | r :: rs, addr, s =>
    let a := addr - BitVec.ofNat 32 sz.bytes
    storedDown sz rs a (s.setMem (poke sz s.mem a (truncTo sz (s.readX r))))

/-- Registers loaded from plain memory at rising addresses, words sign-extended (R190). -/
def loadedUp (sz : Size) : List XReg → Long → State → State
  | [], _, s => s
  | r :: rs, addr, s => loadedUp sz rs (addr + BitVec.ofNat 32 sz.bytes) (s.setX r (sextTo sz (peek sz s.mem addr)))

/-- The address after `k` operands from `addr`. -/
def addrAfter (sz : Size) (addr : Long) (k : Nat) : Long := addr + BitVec.ofNat 32 (sz.bytes * k)

/-- The address before `k` operands below `addr`. -/
def addrBefore (sz : Size) (addr : Long) (k : Nat) : Long := addr - BitVec.ofNat 32 (sz.bytes * k)

/-- MOVE of a size. -/
def moveInstr : Size → EA → EA → Instr
  | .byte => .moveB
  | .word => .moveW
  | .long => .moveL

/-- The state after the common exception sequence on plain memory: SR, then PC, lie on the supervisor stack (R436). -/
def entered (v : Nat) (p : Long) (level : Option (BitVec 3)) (s : State) : State :=
  let m := poke .word (poke .long s.mem (s.ssp - 4) p) (s.ssp - 6) s.readSr
  { s with
    sr := entrySr s.readSr level &&& Config.srMask
    ssp := s.ssp - 6
    mem := m
    pc := peek .long m (BitVec.ofNat 32 (4 * v))
    stopped := false
    groupZero := false
    stale := [] }

/-- The privileged instructions (60_exceptions.md R461). -/
def privileged : Instr → Bool
  | .andiToSr _ | .eoriToSr _ | .oriToSr _ | .moveToSr _ | .moveToUsp _ | .moveFromUsp _ | .reset | .rte | .stop _ => true
  | _ => false

/-- A safe run: from the state, any number of steps ends in a next state that is not halted (60_exceptions.md R456). -/
def safeFor (k : Nat) (s : State) : Prop :=
  match k with
  | 0 => s.halted = false
  | k + 1 => s.halted = false ∧ ∃ t, step s = .next t ∧ safeFor k t

end Sys2Proof.Safety
end

