-- ==== Sys2Proof/Certificates/Slice0/Obligations.lean ====
section
/-! DEFINITION. The statements for the provers. `s.memMap = []` says that all memory is plain memory and no access is
refused (the spec's default, 00_scope.md R11 `BUS_ERROR`, `MEM_MAP`). A result statement gives the whole next state and its
frame (`Completes`, `SameBut`). -/

section
open Sys2Proof Sys2Proof.Machine Sys2Proof.Safety

/-! ### Encoding -/

/-- Words written out from the spec's own examples (R182, R183, R186, R187, R192, R240, R271, R301, R321, R352, R363)
decode to the instructions they stand for. -/
def Obligations.SampleWordsDecode : Prop :=
  decodeWords [0xCB8F] = .ok (.exgDA 5 7, []) ∧
  decodeWords [0x43F0, 0x00FA] = .ok (.lea (.index 0 { reg := .d 0, long := false, disp := 0xFA }) 1, []) ∧
  decodeWords [0x48F8, 0x6017, 0x1234] = .ok (.movemToMem .long 0x6017 (.absW 0x1234), []) ∧
  decodeWords [0x3515] = .ok (.moveW (.ind 5) (.preDec 2), []) ∧
  decodeWords [0x7EFF] = .ok (.moveq 0xFF 7, []) ∧
  decodeWords [0x9041] = .ok (.subToReg .word (.dReg 1) 0, []) ∧
  decodeWords [0xEB4B] = .ok (.lslReg (.imm 5) .word 3, []) ∧
  decodeWords [0x8101] = .ok (.sbcdReg 1 0, []) ∧
  decodeWords [0x6000, 0x0100] = .ok (.bra (.long 0x0100), []) ∧
  decodeWords [0x007C, 0x8000] = .ok (.oriToSr 0x8000, []) ∧
  decodeWords [0x4E4F] = .ok (.trap 15, [])

/-- Decoding the words of any well-formed instruction, with anything after them, gives the instruction and what follows:
no operand's bit is dropped (R91 to R104, R121). -/
def Obligations.DecodeEncodeRoundTrip : Prop :=
  ∀ (i : Instr) (rest : List Word), i.wellFormed = true → decodeWords (encode i ++ rest) = .ok (i, rest)

/-- Whatever decodes is well formed (R121, R159): no addressing mode, size or condition outside its row's lists. -/
def Obligations.DecodedIsWellFormed : Prop :=
  ∀ (ws rest : List Word) (i : Instr), decodeWords ws = .ok (i, rest) → i.wellFormed = true

/-- Every opword selects at most one row of the opcode table (R122). -/
def Obligations.OpwordSelectsOneRow : Prop :=
  ∀ w < 65536, ∀ r₁ ∈ rowsOf (field w 12 4), ∀ r₂ ∈ rowsOf (field w 12 4),
    r₁.selects w = true → r₂.selects w = true → r₁ = r₂

/-! ### The machine -/

/-- A step at an even PC in plain memory, with nothing pending, runs the instruction that the words at PC decode to:
exec of it in the state with `ir` the opword; then only the prefetched bytes are noted (R465, R80; log 10, log 28). -/
def Obligations.StepRunsDecodedInstruction : Prop :=
  ∀ (s : State) (i : Instr) (rest : List Word), s.inputs = [] → s.halted = false → s.stopped = false →
    s.pendingTrace = false → s.memMap = [] → s.stale = [] → s.pc.getLsbD 0 = false →
    let ws := wordsOfBytes ((List.range 10).map fun k => memRead s.mem (phys s.pc k))
    decodeWords ws = .ok (i, rest) →
    step s =
      match exec i { s with ir := ws.headD 0, groupZero := false, prevIpl7 := false } with
      | .next t => .next (noteStores s (5 - rest.length) t)
      | .fault r => .fault r
      | .refused r => .refused r

/-- An opword that selects no row, at an even PC with nothing pending, takes vector 4, 10 or 11 with its own address
saved and does nothing else (R123, R124, R442, R449). -/
def Obligations.UnknownOpwordTakesException : Prop :=
  ∀ (s : State), s.inputs = [] → s.halted = false → s.stopped = false → s.pendingTrace = false → s.memMap = [] →
    s.stale = [] → s.pc.getLsbD 0 = false → s.ssp.getLsbD 0 = false →
    let w : Word := memRead s.mem (phys s.pc 0) ++ memRead s.mem (phys s.pc 1)
    decodeTag w.toNat = none →
    step s = .next (entered (if w.extractLsb' 12 4 = 0xA then 10 else if w.extractLsb' 12 4 = 0xF then 11 else 4) s.pc none
      { s with ir := w, prevIpl7 := false })

/-- The invariant holds right after reset (R48, R491; the registers' zeros and the empty memory are log 2, log 3). -/
def Obligations.InvariantAtReset : Prop := Inv State.reset

/-- Every step keeps the invariant: memory in canonical form, no unimplemented bit in SR (R31, log 18), nothing stopped
or tracing while group 0 processing has begun (the model's own bit, log 13). -/
def Obligations.StepKeepsInvariant : Prop := ∀ (s t : State), Inv s → step s = .next t → Inv t

/-- An instruction begun in user mode that ends in user mode has changed neither the supervisor stack pointer nor the
supervisor part of SR (R22, R460): no instruction reaches them. -/
def Obligations.UserModeKeepsSupervisorState : Prop :=
  ∀ (i : Instr) (s t : State), s.supervisor = false → exec i s = .next t → t.supervisor = false →
    t.ssp = s.ssp ∧ t.sr &&& 0xA700 = s.sr &&& 0xA700

/-- In user mode a privileged instruction of any form takes the privilege violation at its own address, the state
otherwise as it was; and MOVE A0,SR selects no row at all (R366, R461). -/
def Obligations.PrivilegedTrapsInUserMode : Prop :=
  (∀ (i : Instr) (s : State), privileged i = true → s.supervisor = false →
    exec i s = .next (takeException 8 s.pc none s)) ∧ decodeTag 0x46C8 = none

/-- State.reset has S = 1, T = 0, I = 7, nothing stopped or halted, SSP and PC from memory (R48, R491); that its codes
X, N, Z, V, C are 0, so that SR is 2700 hex, is the model's choice, no rule's (log 3), as are the zeros its memory reads
as (log 2, log 4). And a reset request in any state, halted or stopped too, with plain memory, leads to S = 1, T = 0, I
= 7, the codes left out: SSP and PC from the vectors 0 and 1, memory unchanged, nothing pending (R490, R491; halted: log
11). -/
def Obligations.ResetSequence : Prop :=
  (State.reset.sr = 0x2700 ∧ State.reset.stopped = false ∧ State.reset.halted = false ∧
    State.reset.ssp = peek .long State.reset.mem 0 ∧ State.reset.pc = peek .long State.reset.mem 4) ∧
  ∀ (s : State) (ipl : BitVec 3) (iack : IackAnswer) (rest : List PlatformInput), s.memMap = [] →
    s.inputs = { reset := true, ipl := ipl, iack := iack } :: rest →
    ∃ t, step s = .next t ∧ t.sr &&& 0xFFE0 = 0x2700 ∧ t.ssp = peek .long s.mem 0 ∧ t.pc = peek .long s.mem 4 ∧
      t.mem = s.mem ∧ t.history = s.history ∧ t.stopped = false ∧ t.halted = false ∧ t.pendingTrace = false ∧
      t.prevIpl7 = (ipl == 7) ∧ t.inputs = rest

/-- Taking an exception on plain memory with an even SSP: the old SR at SSP, the saved PC at SSP + 2, S set, T cleared,
I the level of an interrupt only, PC the vector's longword, no longer stopped; every other register and every byte
outside the six pushed is kept (R436). -/
def Obligations.ExceptionEntry : Prop :=
  ∀ (v : Nat) (p : Long) (level : Option (BitVec 3)) (s : State), s.memMap = [] → s.ssp.getLsbD 0 = false →
    takeException v p level s = entered v p level s ∧
    (s.mem.wf = true →
      let t := entered v p level s
      t.supervisor = true ∧ t.traceBit = false ∧ t.intMask = level.getD s.intMask ∧ t.ccr = s.ccr ∧ t.ssp = s.ssp - 6 ∧
      peek .word t.mem t.ssp = s.readSr ∧ peek .long t.mem (t.ssp + 2) = p ∧
      t.pc = peek .long t.mem (BitVec.ofNat 32 (4 * v)) ∧ t.stopped = false ∧
      t.usp = s.usp ∧ t.d = s.d ∧ t.a = s.a ∧ t.halted = s.halted ∧ t.history = s.history ∧
      ∀ a, (∀ k < 6, a ≠ phys t.ssp k) → memRead t.mem a = memRead s.mem a)

/-- RTE after an exception was taken, from any state with that memory and stack: mode, mask, trace bit and codes, PC and
SSP are back (R455, R362). -/
def Obligations.RteUndoesException : Prop :=
  ∀ (v : Nat) (p : Long) (s u : State), s.mem.wf = true → s.memMap = [] → s.ssp.getLsbD 0 = false →
    u.memMap = [] → u.supervisor = true → u.mem = (takeException v p none s).mem →
    u.ssp = (takeException v p none s).ssp →
    ∃ w, exec .rte u = .next w ∧ w.pc = p ∧ w.sr = s.readSr ∧ w.ssp = s.ssp

/-- A word or longword source at an odd address: MOVE is not performed, everything it could write is free, and the
address error's long frame is pushed (R70, R437, R441; the treatment that R437 allows a fuller model, log 8). -/
def Obligations.MisalignedMoveTakesAddressError : Prop :=
  ∀ (sz : Size) (src dst : EA) (s : State) (addr : Long) (program : Bool), s.memMap = [] →
    operandLoc sz 0 src s = .mem addr program → misaligned sz addr = true →
    exec (moveInstr sz src dst) s = .next (enterGroupZero 3 (accessOf s addr false false program) true
      (freeDests s (.ccr :: eaBumps src ++ eaWrites dst)
        (eaBump sz src (s.setPc (s.pc + BitVec.ofNat 32 (2 + 2 * eaCount sz src))))))

/-- The long frame of a bus or address error on plain memory with an even SSP: from SSP up, the information word, the
address, the opword, the old SR and a PC; S set, T cleared, PC the vector's (R437; log 8, log 30). -/
def Obligations.LongFrame : Prop :=
  ∀ (v : Nat) (acc : Access) (s : State), s.mem.wf = true → s.memMap = [] → s.groupZero = false →
    s.ssp.getLsbD 0 = false →
    let t := enterGroupZero v acc true s
    t.ssp = s.ssp - 14 ∧ t.supervisor = true ∧ t.traceBit = false ∧ t.intMask = s.intMask ∧ t.usp = s.usp ∧
    (peek .word t.mem t.ssp).getLsbD 4 = !acc.write ∧ (peek .word t.mem t.ssp).getLsbD 3 = !acc.fetch ∧
    peek .long t.mem (t.ssp + 2) = acc.addr ∧ peek .word t.mem (t.ssp + 6) = s.ir ∧
    peek .word t.mem (t.ssp + 8) = s.readSr ∧ t.pc = peek .long t.mem (BitVec.ofNat 32 (4 * v)) ∧
    t.halted = s.halted ∧ t.d = s.d ∧ t.a = s.a ∧ t.history = s.history ∧
    ∀ a, (∀ k < 14, a ≠ phys t.ssp k) → memRead t.mem a = memRead s.mem a

/-- A second group 0 exception halts: while one is being processed, and when its frame cannot be pushed because SSP is
odd, so too when an instruction that moves the stack pointer is the first to use an odd SSP (R456, R490, R495 e; what
counts as being processed is log 13). -/
def Obligations.DoubleFaultHalts : Prop :=
  (∀ (v : Nat) (acc : Access) (executing : Bool) (s : State), s.groupZero = true →
    (enterGroupZero v acc executing s).halted = true) ∧
  (∀ (v : Nat) (acc : Access) (executing : Bool) (s : State), s.ssp.getLsbD 0 = true →
    (enterGroupZero v acc executing s).halted = true) ∧
  (∀ (s : State), s.inputs = [] → s.halted = false → s.stopped = false → s.pendingTrace = false → s.groupZero = true →
    s.pc.getLsbD 0 = true → ∃ t, step s = .next t ∧ t.halted = true) ∧
  (∀ (s : State) (d : BranchDisp) (ea : EA) (an : RegNum) (w : Word) (v : Fin 16), s.memMap = [] →
    s.supervisor = true → s.ssp.getLsbD 0 = true →
    ∀ i ∈ [Instr.bsr d, .jsr ea, .pea ea, .rts, .rtr, .rte, .link an w, .trap v, .moveL ea (.preDec 7)],
      ∃ t, exec i s = .next t ∧ t.halted = true)

/-- A halted processor never steps again but by a reset; a stopped one with no acceptable interrupt waits; both leave
all but the platform's input and its sample as they were (R45, R456, R463, R364; log 5). -/
def Obligations.HaltedAndStoppedWait : Prop :=
  (∀ (s : State), s.halted = true → (nextInput s).reset = false → step s = .next (dropInput s)) ∧
  (∀ (s : State), s.stopped = true → s.halted = false → s.pendingTrace = false → (nextInput s).reset = false →
    acceptable s (nextInput s).ipl = false →
    step s = .next { dropInput s with prevIpl7 := (nextInput s).ipl == 7 })

/-- An interrupt above the mask, or a transition to level 7, is taken at the boundary, stopped or not: the next
instruction's address is saved, I becomes the level, the vector is the device's, 24 + level, or 24 (R447, R448, R436).
-/
def Obligations.InterruptTaken : Prop :=
  ∀ (s : State) (ipl : BitVec 3) (iack : IackAnswer) (rest : List PlatformInput), s.memMap = [] →
    s.ssp.getLsbD 0 = false → s.halted = false → s.pendingTrace = false →
    s.inputs = { reset := false, ipl := ipl, iack := iack } :: rest →
    (s.intMask.toNat < ipl.toNat ∨ (ipl = 7 ∧ s.prevIpl7 = false)) →
    step s = .next (entered
      (match iack with | .vector n => n.toNat | .autovector => 24 + ipl.toNat | .spurious => 24) s.pc (some ipl)
      { s with inputs := rest, prevIpl7 := ipl == 7 })

/-- A completed instruction begun with T = 1 makes the trace exception due, one that was not executed (illegal, or
privileged in user mode) does not, and the next step takes it before anything but a reset: vector 9, the next
instruction's address saved, T cleared (R452, R450). The next instruction or interrupt of that step follows (log 14). -/
def Obligations.TraceTaken : Prop :=
  (∀ (s t : State), (afterInstr s t).pendingTrace = (s.traceBit || t.pendingTrace)) ∧
  (∀ (i : Instr) (s t : State), (i = .illegal ∨ (privileged i = true ∧ s.supervisor = false)) → exec i s = .next t →
    t.pendingTrace = s.pendingTrace) ∧
  (∀ (s : State), s.memMap = [] → s.ssp.getLsbD 0 = false → s.halted = false → s.pendingTrace = true →
    (nextInput s).reset = false →
    step s = afterTrace (nextInput s) (entered 9 s.pc none { dropInput s with pendingTrace := false }))

/-! ### Condition codes -/

/-- Addition's codes: C and X exactly when the unsigned sum exceeds the width, V exactly when the signed sum does not
fit, N the sign and Z the zero of the result (R35, R389). -/
def Obligations.AddFlagsMean : Prop :=
  ∀ (n : Nat) (s d : BitVec (n + 1)),
    let f := addFlags s d (d + s)
    (f.c = decide (2 ^ (n + 1) ≤ d.toNat + s.toNat)) ∧ f.x = f.c ∧
    (f.v = decide ((d + s).toInt ≠ d.toInt + s.toInt)) ∧ f.n = (d + s).msb ∧ f.z = decide (d + s = 0)

/-- Subtraction's codes: C and X exactly when the unsigned value of D is less than that of S plus the borrow, V exactly
when the signed difference does not fit; with X subtracted too Z is only cleared (R35, R245). -/
def Obligations.SubFlagsMean : Prop :=
  ∀ (n : Nat) (old : Ccr) (s d : BitVec (n + 1)),
    let f := subFlags s d (d - s)
    let b : Nat := if old.x then 1 else 0
    let g := (subxResult old s d).2
    (f.c = decide (d.toNat < s.toNat)) ∧ f.x = f.c ∧ (f.v = decide ((d - s).toInt ≠ d.toInt - s.toInt)) ∧
    f.n = (d - s).msb ∧ f.z = decide (d = s) ∧
    (subxResult old s d).1.toInt = (d.toInt - s.toInt - b).bmod (2 ^ (n + 1)) ∧
    (g.c = decide (d.toNat < s.toNat + b)) ∧ g.x = g.c ∧ g.z = (old.z && decide ((subxResult old s d).1 = 0)) ∧
    (g.v = decide ((subxResult old s d).1.toInt ≠ d.toInt - s.toInt - b))

/-- After a compare of D with S the conditions compare them: HI, LS, CC, CS unsigned, GE, LT, GT, LE signed, EQ and NE;
X is as before (R38, R213). -/
def Obligations.ConditionsCompare : Prop :=
  ∀ (n : Nat) (old : Ccr) (s d : BitVec (n + 1)),
    let f := cmpFlags old s d (d - s)
    condHolds f .hi = decide (s.toNat < d.toNat) ∧ condHolds f .ls = decide (d.toNat ≤ s.toNat) ∧
    condHolds f .cc = decide (s.toNat ≤ d.toNat) ∧ condHolds f .cs = decide (d.toNat < s.toNat) ∧
    condHolds f .gt = decide (s.toInt < d.toInt) ∧ condHolds f .le = decide (d.toInt ≤ s.toInt) ∧
    condHolds f .ge = decide (s.toInt ≤ d.toInt) ∧ condHolds f .lt = decide (d.toInt < s.toInt) ∧
    condHolds f .eq = decide (d = s) ∧ condHolds f .ne = decide (d ≠ s) ∧ f.x = old.x

/-- LSL, LSR, ASL, ASR in closed form for any count, V of ASL set exactly when the sign changes at some step, C the last
bit shifted out, X with it; a count of 0 clears C and keeps X (R271, R272, R280, R401, R402). -/
def Obligations.ShiftsClosedForm : Prop :=
  ∀ (n cnt : Nat) (old : Ccr) (v : BitVec (n + 1)),
    let ll := shiftResult lslStep carryCleared cnt old v
    let lr := shiftResult lsrStep carryCleared cnt old v
    let al := shiftResult aslStep carryCleared cnt old v
    let ar := shiftResult asrStep carryCleared cnt old v
    ll.1 = v <<< cnt ∧ lr.1 = v >>> cnt ∧ al.1 = v <<< cnt ∧ ar.1.toInt = v.toInt / 2 ^ cnt ∧
    ll.2.v = false ∧ lr.2.v = false ∧ ar.2.v = false ∧
    (al.2.v = true ↔ ∃ k < cnt, (v <<< k).msb ≠ (v <<< (k + 1)).msb) ∧
    (cnt = 0 → ∀ r ∈ [ll, lr, al, ar], r.2.c = false ∧ r.2.x = old.x) ∧
    (1 ≤ cnt →
      (∀ r ∈ [ll, al], r.2.c = (decide (cnt ≤ n + 1) && v.getLsbD (n + 1 - cnt)) ∧ r.2.x = r.2.c) ∧
      lr.2.c = v.getLsbD (cnt - 1) ∧ lr.2.x = lr.2.c ∧
      ar.2.c = (if cnt ≤ n + 1 then v.getLsbD (cnt - 1) else v.msb) ∧ ar.2.x = ar.2.c) ∧
    ∀ r ∈ [ll, lr, al, ar], r.2.n = r.1.msb ∧ r.2.z = decide (r.1 = 0)

/-- ROL and ROR in closed form for any count, X never changed, C the last bit rotated out or 0 for a count of 0; ROXL
and ROXR rotate X and the operand together, one bit wider than the operand, and C is X after, for a count of 0 too
(R273, R274, R275, R276). -/
def Obligations.RotatesClosedForm : Prop :=
  ∀ (n cnt : Nat) (old : Ccr) (v : BitVec (n + 1)),
    let l := shiftResult rolStep carryCleared cnt old v
    let r := shiftResult rorStep carryCleared cnt old v
    let xl := shiftResult roxlStep carryFromX cnt old v
    let xr := shiftResult roxrStep carryFromX cnt old v
    l.1 = v.rotateLeft cnt ∧ r.1 = v.rotateRight cnt ∧ l.2.x = old.x ∧ r.2.x = old.x ∧
    (cnt = 0 → l.2.c = false ∧ r.2.c = false) ∧ (1 ≤ cnt → l.2.c = l.1.getLsbD 0 ∧ r.2.c = r.1.msb) ∧
    (BitVec.ofBool xl.2.x ++ xl.1) = (BitVec.ofBool old.x ++ v).rotateLeft cnt ∧
    (BitVec.ofBool xr.2.x ++ xr.1) = (BitVec.ofBool old.x ++ v).rotateRight cnt ∧
    xl.2.c = xl.2.x ∧ xr.2.c = xr.2.x ∧
    ∀ q ∈ [l, r, xl, xr], q.2.v = false ∧ q.2.n = q.1.msb ∧ q.2.z = decide (q.1 = 0)

/-- A division that gives a result: dividend = quotient times divisor plus remainder, the remainder smaller than the
divisor, for DIVS of the dividend's sign; it overflows exactly when the quotient does not fit (R217, R218, R219). -/
def Obligations.DivisionResults : Prop :=
  ∀ (v : Word) (d : Long),
    (divuResult v d = .zeroDivide ↔ v = 0) ∧ (divsResult v d = .zeroDivide ↔ v = 0) ∧
    (divuResult v d = .overflow ↔ v ≠ 0 ∧ v.toNat ≤ d.toNat / 2 ^ 16) ∧
    (divsResult v d = .overflow ↔ v ≠ 0 ∧ (d.toInt.tdiv v.toInt < -32768 ∨ 32767 < d.toInt.tdiv v.toInt)) ∧
    (∀ q r, divuResult v d = .result q r → d.toNat = q.toNat * v.toNat + r.toNat ∧ r.toNat < v.toNat) ∧
    (∀ q r, divsResult v d = .result q r → d.toInt = q.toInt * v.toInt + r.toInt ∧ r.toInt.natAbs < v.toInt.natAbs ∧
      (r = 0 ∨ (r.toInt < 0 ↔ d.toInt < 0)))

/-- Packed BCD: on bytes of decimal digits the sum and the difference with X, modulo 100, are packed, carry and borrow
are theirs; on any other byte there is no result, so that the instruction's is free (R303, R390; log 16). -/
def Obligations.BcdArithmetic : Prop :=
  ∀ (d s : Byte) (x : Bool),
    let xv : Nat := if x then 1 else 0
    (bcdValid d = true → bcdValid s = true →
      (∃ r c, bcdAdd d s x = some (r, c) ∧ bcdValid r = true ∧ bcdValue r + (if c then 100 else 0) = bcdValue d + bcdValue s + xv) ∧
      (∃ r b, bcdSub d s x = some (r, b) ∧ bcdValid r = true ∧
        bcdValue r + bcdValue s + xv = bcdValue d + (if b then 100 else 0))) ∧
    (bcdValid d = false ∨ bcdValid s = false → bcdAdd d s x = none ∧ bcdSub d s x = none)

/-! ### Data movement -/

/-- MOVE: source to destination, N and Z from the value, V and C cleared, X kept; source evaluated first (R187, R160).
-/
def Obligations.MoveCopies : Prop :=
  ∀ (sz : Size) (src dst : EA) (s : State), (moveInstr sz src dst).wellFormed = true → s.memMap = [] →
    locAligned sz (operandLoc sz 0 src s) = true →
    let i := moveInstr sz src dst
    let v := locValue sz (operandLoc sz 0 src s) s
    let u := eaBump sz src (fetched i s)
    let loc := eaLoc sz 0 dst u
    locAligned sz loc = true →
    Completes i s (locStore sz loc v ((eaBump sz dst u).setCcr (logicFlags s.ccr v))) (locData loc)
      (movedRegs src ++ movedRegs dst) (locBytes sz loc)

/-- MOVEA, ADDA, SUBA: all 32 bits of An, a word source sign-extended, no flag; An is read after the source (R188, R242,
R392). -/
def Obligations.AddressRegisterOperations : Prop :=
  ∀ (sz : WordLong) (ea : EA) (an : RegNum) (s : State), s.memMap = [] →
    locAligned sz.size (operandLoc sz.size 0 ea s) = true →
    let v := sextTo sz.size (locValue sz.size (operandLoc sz.size 0 ea s) s)
    let done := fun (i : Instr) (f : Long → Long) =>
      let u := eaBump sz.size ea (fetched i s)
      CompletesKeepingCcr i s (u.setA an (f (u.readA an))) [] (an :: movedRegs ea) []
    done (match sz with | .word => .moveaW ea an | .long => .moveaL ea an) (fun _ => v) ∧
    done (match sz with | .word => .addaW ea an | .long => .addaL ea an) (fun a => a + v) ∧
    done (match sz with | .word => .subaW ea an | .long => .subaL ea an) (fun a => a - v)

/-- Register moves: their opwords, MOVEQ's illegal with bit 8 set; MOVEQ and EXT and SWAP with their flags, EXG of two
registers at once, no flag (R182, R192, R194, R220). -/
def Obligations.RegisterMoves : Prop :=
  (∀ (x y : RegNum) (data : BitVec 8),
    let r := fun n : RegNum => BitVec.ofNat 3 n.val
    decodeWords [(0b0111#4 ++ r x ++ 0#1 ++ data : Word)] = .ok (.moveq data x, []) ∧
    decodeTag (0b0111#4 ++ r x ++ 1#1 ++ data : Word).toNat = none ∧
    decodeWords [(0b0100100001000#13 ++ r x : Word)] = .ok (.swap x, []) ∧
    decodeWords [(0b0100100010000#13 ++ r x : Word)] = .ok (.extW x, []) ∧
    decodeWords [(0b0100100011000#13 ++ r x : Word)] = .ok (.extL x, []) ∧
    decodeWords [(0b1100#4 ++ r x ++ 0b101000#6 ++ r y : Word)] = .ok (.exgDD x y, []) ∧
    decodeWords [(0b1100#4 ++ r x ++ 0b101001#6 ++ r y : Word)] = .ok (.exgAA x y, []) ∧
    decodeWords [(0b1100#4 ++ r x ++ 0b110001#6 ++ r y : Word)] = .ok (.exgDA x y, [])) ∧
  ∀ (x y : RegNum) (data : BitVec 8) (s : State), s.memMap = [] →
    let flagged := fun (i : Instr) (n : RegNum) (v : Long) (f : Ccr) =>
      Completes i s (((fetched i s).setCcr f).setD n v) [n] [] []
    let d := s.readD x
    flagged (.moveq data x) x (data.signExtend 32) (logicFlags s.ccr (data.signExtend 32)) ∧
    flagged (.swap x) x (d.extractLsb' 0 16 ++ d.extractLsb' 16 16)
      (logicFlags s.ccr (d.extractLsb' 0 16 ++ d.extractLsb' 16 16)) ∧
    flagged (.extW x) x (d.extractLsb' 16 16 ++ (d.extractLsb' 0 8).signExtend 16)
      (logicFlags s.ccr ((d.extractLsb' 0 8).signExtend 16)) ∧
    flagged (.extL x) x ((d.extractLsb' 0 16).signExtend 32) (logicFlags s.ccr ((d.extractLsb' 0 16).signExtend 32)) ∧
    (let i := Instr.exgDD x y
     CompletesKeepingCcr i s (((fetched i s).setD x (s.readD y)).setD y (s.readD x)) [x, y] [] []) ∧
    (let i := Instr.exgAA x y
     CompletesKeepingCcr i s (((fetched i s).setA x (s.readA y)).setA y (s.readA x)) [] [x, y] []) ∧
    (let i := Instr.exgDA x y
     CompletesKeepingCcr i s (((fetched i s).setD x (s.readA y)).setA y (s.readD x)) [x] [y] [])

/-- LEA loads the full 32-bit address, PEA pushes it computed before SP moves; no access at the address, no flag (R183,
R193). -/
def Obligations.LeaAndPea : Prop :=
  ∀ (ea : EA) (an : RegNum) (s : State) (addr : Long) (program : Bool), s.memMap = [] →
    (Instr.lea ea an).wellFormed = true → operandLoc .long 0 ea s = .mem addr program →
    (let i := Instr.lea ea an
     CompletesKeepingCcr i s ((fetched i s).setA an addr) [] [an] []) ∧
    (s.sp.getLsbD 0 = false →
      let i := Instr.pea ea
      CompletesKeepingCcr i s (((fetched i s).setSp (s.sp - 4)).setMem (poke .long s.mem (s.sp - 4) addr)) [] [7]
        (bytesAt .long (s.sp - 4)))

/-- LINK pushes An, loads it with the stack pointer and adds the displacement to that; LINK A7 pushes the decremented
SP. UNLK loads SP from An and An from the stack; for UNLK A7 the longword is read and the final SP is a free value
(R184, R195, U9, U10; log 15, 19). -/
def Obligations.LinkAndUnlk : Prop :=
  ∀ (an : RegNum) (d : Word) (s : State), s.memMap = [] →
    (s.sp.getLsbD 0 = false →
      let i := Instr.link an d
      let sp := s.sp - 4
      let pushed := if an = 7 then sp else s.readA an
      CompletesKeepingCcr i s
        (((((fetched i s).setSp sp).setMem (poke .long s.mem sp pushed)).setA an sp).setSp (sp + d.signExtend 32)) []
        [an, 7] (bytesAt .long sp)) ∧
    ((s.readA an).getLsbD 0 = false →
      let i := Instr.unlk an
      (an ≠ 7 → CompletesKeepingCcr i s
        (((fetched i s).setA an (peek .long s.mem (s.readA an))).setSp (s.readA an + 4)) [] [an, 7] []) ∧
      (an = 7 → ∃ sp, CompletesKeepingCcr i s (drew 1 ((fetched i s).setSp sp)) [] [7] []))

/-- UNLK An after LINK An, with the frame's longword still in memory, gives back An and SP (R184, R195). -/
def Obligations.UnlkUndoesLink : Prop :=
  ∀ (an : RegNum) (d : Word) (s t u : State), s.mem.wf = true → s.memMap = [] → u.memMap = [] → an ≠ 7 →
    s.sp.getLsbD 0 = false → exec (.link an d) s = .next t → u.mem = t.mem → u.readA an = t.readA an →
    ∃ w, exec (.unlk an) u = .next w ∧ w.readA an = s.readA an ∧ w.sp = s.sp

/-- MOVEM registers to memory: upward from the address for a control mode, downward from the initial An for `-(An)`,
which ends as the address of the last (R186, R189, U11; log 19). -/
def Obligations.MovemStoresRegisters : Prop :=
  ∀ (sz : WordLong) (mask : Word) (ea : EA) (s : State), s.memMap = [] → (Instr.movemToMem sz mask ea).wellFormed = true →
    let i := Instr.movemToMem sz mask ea
    let z := sz.size
    (∀ n, ea = .preDec n → (s.readA n).getLsbD 0 = false →
      let regs := maskRegsDown mask
      let last := addrBefore z (s.readA n) regs.length
      CompletesKeepingCcr i s ((storedDown z regs (s.readA n) (fetched i s)).setA n last) [] [n]
        ((List.range (z.bytes * regs.length)).map (phys last))) ∧
    (∀ addr, operandLoc z 1 ea s = .mem addr false → (∀ n, ea ≠ .preDec n) → addr.getLsbD 0 = false →
      let regs := maskRegs mask
      CompletesKeepingCcr i s (storedUp z regs addr (fetched i s)) [] []
        ((List.range (z.bytes * regs.length)).map (phys addr)))

/-- MOVEM memory to registers: upward, words sign-extended to all 32 bits; `(An)+` ends with the final address in An,
also when An is in the list (R186, R190, U11; log 19). The overshoot read changes nothing on plain memory (R72; log 21).
-/
def Obligations.MovemLoadsRegisters : Prop :=
  ∀ (sz : WordLong) (mask : Word) (ea : EA) (s : State), s.memMap = [] →
    (Instr.movemToRegs sz mask ea).wellFormed = true →
    let i := Instr.movemToRegs sz mask ea
    let regs := maskRegs mask
    let ds := (List.finRange 8).filter fun n => regs.contains (.d n)
    let as := (List.finRange 8).filter fun n => regs.contains (.a n)
    (∀ n, ea = .postInc n → (s.readA n).getLsbD 0 = false →
      CompletesKeepingCcr i s
        ((loadedUp sz.size regs (s.readA n) (fetched i s)).setA n (addrAfter sz.size (s.readA n) regs.length))
        ds (n :: as) []) ∧
    (∀ addr program, operandLoc sz.size 1 ea s = .mem addr program → (∀ n, ea ≠ .postInc n) → addr.getLsbD 0 = false →
      CompletesKeepingCcr i s (loadedUp sz.size regs addr (fetched i s)) ds as [])

/-- Registers saved by MOVEM.L list,-(A7) come back by MOVEM.L (A7)+,list from the same memory and stack pointer,
whatever the registers hold by then, and so does the stack pointer, for every list without A7: it follows from R189 and
R190, as R196 derives it for one list; that rule's two encodings are those instructions. -/
def Obligations.MovemSaveRestore : Prop :=
  decodeWords [0x48E7, 0xFCF0] = .ok (.movemToMem .long (BitVec.reverse 0x0F3F#16) (.preDec 7), []) ∧
  decodeWords [0x4CDF, 0x0F3F] = .ok (.movemToRegs .long 0x0F3F#16 (.postInc 7), []) ∧
  ∀ (mask : Word) (s : State), mask.getLsbD 15 = false → s.mem.wf = true → s.memMap = [] → s.sp.getLsbD 0 = false →
    ∃ t, exec (.movemToMem .long mask.reverse (.preDec 7)) s = .next t ∧
      ∀ u : State, u.memMap = [] → u.mem = t.mem → u.sp = t.sp →
        ∃ w, exec (.movemToRegs .long mask (.postInc 7)) u = .next w ∧ w.sp = s.sp ∧
          ∀ i : Fin 16, mask.getLsbD i.val = true → w.readX (maskReg i) = s.readX (maskReg i)

/-- MOVEP: bytes at every second address, the high-order byte at the lowest; the word form keeps the register's high
word; any address, odd ones too (R191). -/
def Obligations.MovepTransfersBytes : Prop :=
  ∀ (sz : WordLong) (dn an : RegNum) (d : Word) (s : State), s.memMap = [] →
    let addr := s.readA an + d.signExtend 32
    let v := s.readD dn
    let at_ := fun k : Nat => phys (addr + BitVec.ofNat 32 (2 * k)) 0
    (let i := Instr.movep .memToReg sz dn an d
     CompletesKeepingCcr i s ((fetched i s).setD dn (match sz with
       | .word => v.extractLsb' 16 16 ++ (memRead s.mem (at_ 0) ++ memRead s.mem (at_ 1))
       | .long => (memRead s.mem (at_ 0) ++ memRead s.mem (at_ 1)) ++ (memRead s.mem (at_ 2) ++ memRead s.mem (at_ 3))))
       [dn] [] []) ∧
    (let i := Instr.movep .regToMem sz dn an d
     match sz with
     | .word => CompletesKeepingCcr i s ((fetched i s).setMem
         (memWrite (memWrite s.mem (at_ 0) (v.extractLsb' 8 8)) (at_ 1) (v.extractLsb' 0 8))) [] [] [at_ 0, at_ 1]
     | .long => CompletesKeepingCcr i s ((fetched i s).setMem
         (memWrite (memWrite (memWrite (memWrite s.mem (at_ 0) (v.extractLsb' 24 8)) (at_ 1) (v.extractLsb' 16 8))
           (at_ 2) (v.extractLsb' 8 8)) (at_ 3) (v.extractLsb' 0 8))) [] [] [at_ 0, at_ 1, at_ 2, at_ 3])

/-- CLR, Scc and MOVE from SR store 0, $FF or $00, and the whole SR; CLR's flags are 0100 with X kept, the others change
none; none needs supervisor mode (R181, R299, R356). -/
def Obligations.OverwritingInstructions : Prop :=
  ∀ (sz : Size) (cond : Cond) (ea : EA) (s : State), s.memMap = [] → EaSet.dataAlterable.accepts ea.kind = true →
    (let i := Instr.clr sz ea
     let loc := operandLoc sz 0 ea s
     locAligned sz loc = true →
     Completes i s (locStore sz loc 0 ((eaBump sz ea (fetched i s)).setCcr
       { x := s.ccr.x, n := false, z := true, v := false, c := false })) (locData loc) (movedRegs ea) (locBytes sz loc)) ∧
    (let i := Instr.scc cond ea
     let loc := operandLoc .byte 0 ea s
     CompletesKeepingCcr i s (locStore .byte loc (if condHolds s.ccr cond then 0xFF#8 else 0x00#8)
       (eaBump .byte ea (fetched i s))) (locData loc) (movedRegs ea) (locBytes .byte loc)) ∧
    (let i := Instr.moveFromSr ea
     let loc := operandLoc .word 0 ea s
     locAligned .word loc = true →
     CompletesKeepingCcr i s (locStore .word loc s.readSr (eaBump .word ea (fetched i s))) (locData loc) (movedRegs ea)
       (locBytes .word loc))

/-! ### Arithmetic and logic -/

/-- ADD, SUB, OR, AND to a data register: the low part of Dn and the flags (R240, R256, R391, R396). -/
def Obligations.OperationsToDataRegister : Prop :=
  ∀ (sz : Size) (ea : EA) (dn : RegNum) (s : State), s.memMap = [] → locAligned sz (operandLoc sz 0 ea s) = true →
    let v := locValue sz (operandLoc sz 0 ea s) s
    let d := truncTo sz (s.readD dn)
    let done := fun (i : Instr) (r : BitVec sz.bits) (f : Ccr) =>
      Completes i s (((eaBump sz ea (fetched i s)).setCcr f).setDn sz dn r) [dn] (movedRegs ea) []
    done (.addToReg sz ea dn) (d + v) (addFlags v d (d + v)) ∧
    done (.subToReg sz ea dn) (d - v) (subFlags v d (d - v)) ∧
    done (.orToReg sz ea dn) (d ||| v) (logicFlags s.ccr (d ||| v)) ∧
    done (.andToReg sz ea dn) (d &&& v) (logicFlags s.ccr (d &&& v))

/-- ADD, SUB, OR, AND, EOR of a data register to an operand, which is read and written at one location (R241, R252,
R257, R391, R397, R158). -/
def Obligations.OperationsToOperand : Prop :=
  ∀ (sz : Size) (dn : RegNum) (ea : EA) (s : State), s.memMap = [] → EaSet.dataAlterable.accepts ea.kind = true →
    locAligned sz (operandLoc sz 0 ea s) = true →
    let loc := operandLoc sz 0 ea s
    let v := locValue sz loc s
    let d := truncTo sz (s.readD dn)
    let done := fun (i : Instr) (r : BitVec sz.bits) (f : Ccr) =>
      Completes i s (locStore sz loc r ((eaBump sz ea (fetched i s)).setCcr f)) (locData loc) (movedRegs ea)
        (locBytes sz loc)
    done (.addToEa sz dn ea) (v + d) (addFlags d v (v + d)) ∧
    done (.subToEa sz dn ea) (v - d) (subFlags d v (v - d)) ∧
    done (.orToEa sz dn ea) (v ||| d) (logicFlags s.ccr (v ||| d)) ∧
    done (.andToEa sz dn ea) (v &&& d) (logicFlags s.ccr (v &&& d)) ∧
    done (.eor sz dn ea) (v ^^^ d) (logicFlags s.ccr (v ^^^ d))

/-- ADDI, SUBI, ORI, ANDI, EORI on any data alterable operand (R243, R253, R258, R393, R398). -/
def Obligations.ImmediateOperations : Prop :=
  ∀ (sz : Size) (imm : Long) (ea : EA) (s : State), s.memMap = [] → EaSet.dataAlterable.accepts ea.kind = true →
    locAligned sz (operandLoc sz (immCount sz) ea s) = true →
    let loc := operandLoc sz (immCount sz) ea s
    let v := locValue sz loc s
    let d := truncTo sz imm
    let done := fun (i : Instr) (r : BitVec sz.bits) (f : Ccr) =>
      Completes i s (locStore sz loc r ((eaBump sz ea (fetched i s)).setCcr f)) (locData loc) (movedRegs ea)
        (locBytes sz loc)
    done (.addi sz imm ea) (v + d) (addFlags d v (v + d)) ∧
    done (.subi sz imm ea) (v - d) (subFlags d v (v - d)) ∧
    done (.ori sz imm ea) (v ||| d) (logicFlags s.ccr (v ||| d)) ∧
    done (.andi sz imm ea) (v &&& d) (logicFlags s.ccr (v &&& d)) ∧
    done (.eori sz imm ea) (v ^^^ d) (logicFlags s.ccr (v ^^^ d))

/-- ADDQ and SUBQ: 1 to 8, 000 standing for 8; on an address register all 32 bits and no flag (R244, R394, R99). -/
def Obligations.QuickOperations : Prop :=
  ∀ (sz : Size) (q : Fin 8) (s : State), s.memMap = [] →
    let k : Nat := if q.val = 0 then 8 else q.val
    (∀ ea, EaSet.dataAlterable.accepts ea.kind = true → locAligned sz (operandLoc sz 0 ea s) = true →
      let loc := operandLoc sz 0 ea s
      let v := locValue sz loc s
      let d := BitVec.ofNat sz.bits k
      let done := fun (i : Instr) (r : BitVec sz.bits) (f : Ccr) =>
        Completes i s (locStore sz loc r ((eaBump sz ea (fetched i s)).setCcr f)) (locData loc) (movedRegs ea)
          (locBytes sz loc)
      done (.addq sz q ea) (v + d) (addFlags d v (v + d)) ∧ done (.subq sz q ea) (v - d) (subFlags d v (v - d))) ∧
    (∀ n, let i := Instr.addq sz q (.aReg n)
      CompletesKeepingCcr i s ((fetched i s).setA n (s.readA n + BitVec.ofNat 32 k)) [] [n] []) ∧
    (∀ n, let i := Instr.subq sz q (.aReg n)
      CompletesKeepingCcr i s ((fetched i s).setA n (s.readA n - BitVec.ofNat 32 k)) [] [n] [])

/-- NEG, NEGX, NOT on one location, and TAS, whose flags are those of the byte before its bit 7 is set (R236, R237,
R255, R297). -/
def Obligations.SingleOperandOperations : Prop :=
  ∀ (sz : Size) (ea : EA) (s : State), s.memMap = [] → EaSet.dataAlterable.accepts ea.kind = true →
    (locAligned sz (operandLoc sz 0 ea s) = true →
      let loc := operandLoc sz 0 ea s
      let v := locValue sz loc s
      let x : BitVec sz.bits := if s.ccr.x then 1 else 0
      let done := fun (i : Instr) (r : BitVec sz.bits) (f : Ccr) =>
        Completes i s (locStore sz loc r ((eaBump sz ea (fetched i s)).setCcr f)) (locData loc) (movedRegs ea)
          (locBytes sz loc)
      done (.neg sz ea) (0 - v) (subFlags v 0 (0 - v)) ∧
      done (.negx sz ea) (0 - v - x) { subFlags v 0 (0 - v - x) with z := s.ccr.z && (0 - v - x) == 0 } ∧
      done (.not sz ea) (~~~v) (logicFlags s.ccr (~~~v))) ∧
    (let i := Instr.tas ea
     let loc := operandLoc .byte 0 ea s
     let v : Byte := locValue .byte loc s
     Completes i s (locStore .byte loc (v ||| 0x80#8) ((eaBump .byte ea (fetched i s)).setCcr (logicFlags s.ccr v)))
       (locData loc) (movedRegs ea) (locBytes .byte loc))

/-- CMP, CMPI, CMPA and TST set the codes of destination minus source, or of the operand, keep X and write nothing else
but a moved address register; CMPM compares the operand at (Ax)+ with the one at (Ay)+, source first, and both registers
move, by twice the size when they are one (R213, R214, R215, R216, R246). -/
def Obligations.ComparesSetFlagsOnly : Prop :=
  ∀ (sz : Size) (ea : EA) (imm : Long) (n ay ax : RegNum) (s : State), s.memMap = [] →
    (locAligned sz (operandLoc sz 0 ea s) = true →
      let v := locValue sz (operandLoc sz 0 ea s) s
      let done := fun (i : Instr) (f : Ccr) =>
        Completes i s ((eaBump sz ea (fetched i s)).setCcr f) [] (movedRegs ea) []
      let d := truncTo sz (s.readD n)
      done (.cmp sz ea n) (cmpFlags s.ccr v d (d - v)) ∧ done (.tst sz ea) (logicFlags s.ccr v)) ∧
    (locAligned sz (operandLoc sz (immCount sz) ea s) = true →
      let v := locValue sz (operandLoc sz (immCount sz) ea s) s
      let d := truncTo sz imm
      let i := Instr.cmpi sz imm ea
      Completes i s ((eaBump sz ea (fetched i s)).setCcr (cmpFlags s.ccr d v (v - d))) [] (movedRegs ea) []) ∧
    (∀ wl : WordLong, locAligned wl.size (operandLoc wl.size 0 ea s) = true →
      let v := sextTo wl.size (locValue wl.size (operandLoc wl.size 0 ea s) s)
      let i := match wl with | .word => Instr.cmpaW ea n | .long => Instr.cmpaL ea n
      let u := eaBump wl.size ea (fetched i s)
      Completes i s (u.setCcr (cmpFlags s.ccr v (u.readA n) (u.readA n - v))) [] (movedRegs ea) []) ∧
    (let i := Instr.cmpm sz ay ax
     let u := (fetched i s).setA ay (s.readA ay + incAmount ay sz)
     misaligned sz (s.readA ay) = false → misaligned sz (u.readA ax) = false →
     let v := peek sz s.mem (s.readA ay)
     let d := peek sz s.mem (u.readA ax)
     Completes i s ((u.setA ax (u.readA ax + incAmount ax sz)).setCcr (cmpFlags s.ccr v d (d - v))) [] [ay, ax] [])

/-- BTST, BCHG, BCLR, BSET: a data register's longword with the number modulo 32, else a byte modulo 8; number in the
instruction or in Dn; the update touches the one bit, Z is the complement of the tested bit and the other codes are kept
(R290 to R298, R408, R409). -/
def Obligations.BitOperations : Prop :=
  (∀ (n b : Nat) (old : Ccr) (v : BitVec n), b < n →
    (∀ k < n, (clearBit v b).getLsbD k = (if k = b then false else v.getLsbD k) ∧
      (setBit v b).getLsbD k = (if k = b then true else v.getLsbD k) ∧
      (changeBit v b).getLsbD k = (if k = b then !v.getLsbD k else v.getLsbD k)) ∧
    bitFlags old v b = { x := old.x, n := old.n, z := !v.getLsbD b, v := old.v, c := old.c }) ∧
  ∀ (bit : BitVec 8) (dn : RegNum) (ea : EA) (s : State), s.memMap = [] →
    let sz : Size := if ea.kind = .dReg then .long else .byte
    let width : Nat := if ea.kind = .dReg then 32 else 8
    let tested := fun (i : Instr) (pre b : Nat) =>
      let v := locValue sz (operandLoc sz pre ea s) s
      Completes i s ((eaBump sz ea (fetched i s)).setCcr (bitFlags s.ccr v (b % width))) [] (movedRegs ea) []
    let updated := fun (i : Instr) (pre b : Nat) (f : BitVec sz.bits → Nat → BitVec sz.bits) =>
      let loc := operandLoc sz pre ea s
      let v := locValue sz loc s
      Completes i s (locStore sz loc (f v (b % width)) ((eaBump sz ea (fetched i s)).setCcr (bitFlags s.ccr v (b % width))))
        (locData loc) (movedRegs ea) (locBytes sz loc)
    tested (.btstReg dn ea) 0 (s.readD dn).toNat ∧
    (EaSet.dataNoImm.accepts ea.kind = true → tested (.btstImm bit ea) 1 bit.toNat) ∧
    (EaSet.dataAlterable.accepts ea.kind = true →
      updated (.bchgReg dn ea) 0 (s.readD dn).toNat changeBit ∧ updated (.bchgImm bit ea) 1 bit.toNat changeBit ∧
      updated (.bclrReg dn ea) 0 (s.readD dn).toNat clearBit ∧ updated (.bclrImm bit ea) 1 bit.toNat clearBit ∧
      updated (.bsetReg dn ea) 0 (s.readD dn).toNat setBit ∧ updated (.bsetImm bit ea) 1 bit.toNat setBit)

/-- ADDX and SUBX of data registers and of memory at -(Ay), -(Ax): X joins in, Z is only cleared, the source is read
first (R245, R395). -/
def Obligations.ExtendedOperations : Prop :=
  ∀ (sz : Size) (src dst : RegNum) (s : State), s.memMap = [] →
    let x : BitVec sz.bits := if s.ccr.x then 1 else 0
    let addF := fun (v d : BitVec sz.bits) => { addFlags v d (d + v + x) with z := s.ccr.z && d + v + x == 0 }
    let subF := fun (v d : BitVec sz.bits) => { subFlags v d (d - v - x) with z := s.ccr.z && d - v - x == 0 }
    (let v := truncTo sz (s.readD src)
     let d := truncTo sz (s.readD dst)
     let done := fun (i : Instr) (r : BitVec sz.bits) (f : Ccr) =>
       Completes i s (((fetched i s).setCcr f).setDn sz dst r) [dst] [] []
     done (.addxReg sz src dst) (d + v + x) (addF v d) ∧ done (.subxReg sz src dst) (d - v - x) (subF v d)) ∧
    (let moved := fun (i : Instr) =>
       let u := (fetched i s).setA src (s.readA src - incAmount src sz)
       u.setA dst (u.readA dst - incAmount dst sz)
     let sa := s.readA src - incAmount src sz
     let da := (moved .nop).readA dst
     misaligned sz sa = false → misaligned sz da = false →
     let v := peek sz s.mem sa
     let d := peek sz s.mem da
     let done := fun (i : Instr) (r : BitVec sz.bits) (f : Ccr) =>
       Completes i s (((moved i).setCcr f).setMem (poke sz s.mem da r)) [] [src, dst] (bytesAt sz da)
     done (.addxMem sz src dst) (d + v + x) (addF v d) ∧ done (.subxMem sz src dst) (d - v - x) (subF v d))

/-- The register forms of the shifts and rotates: the count from the field (0 is 8) or from Dn modulo 64, result and
flags of the one-bit step repeated (R277, R279). -/
def Obligations.RegisterShifts : Prop :=
  ∀ (cnt : Count) (sz : Size) (dn : RegNum) (s : State), s.memMap = [] →
    let k : Nat := match cnt with | .imm q => if q.val = 0 then 8 else q.val | .reg n => (s.readD n).toNat % 64
    let done := fun (i : Instr) (p : BitVec sz.bits × Ccr) =>
      Completes i s (((fetched i s).setCcr p.2).setDn sz dn p.1) [dn] [] []
    let v := truncTo sz (s.readD dn)
    done (.asrReg cnt sz dn) (shiftResult asrStep carryCleared k s.ccr v) ∧
    done (.aslReg cnt sz dn) (shiftResult aslStep carryCleared k s.ccr v) ∧
    done (.lsrReg cnt sz dn) (shiftResult lsrStep carryCleared k s.ccr v) ∧
    done (.lslReg cnt sz dn) (shiftResult lslStep carryCleared k s.ccr v) ∧
    done (.rorReg cnt sz dn) (shiftResult rorStep carryCleared k s.ccr v) ∧
    done (.rolReg cnt sz dn) (shiftResult rolStep carryCleared k s.ccr v) ∧
    done (.roxrReg cnt sz dn) (shiftResult roxrStep carryFromX k s.ccr v) ∧
    done (.roxlReg cnt sz dn) (shiftResult roxlStep carryFromX k s.ccr v)

/-- The memory forms: the word at the address, by one place (R277, R279). -/
def Obligations.MemoryShifts : Prop :=
  ∀ (ea : EA) (s : State), s.memMap = [] → EaSet.memoryAlterable.accepts ea.kind = true →
    locAligned .word (operandLoc .word 0 ea s) = true →
    let loc := operandLoc .word 0 ea s
    let v : Word := locValue .word loc s
    let done := fun (i : Instr) (p : Word × Ccr) =>
      Completes i s (locStore .word loc p.1 ((eaBump .word ea (fetched i s)).setCcr p.2)) [] (movedRegs ea)
        (locBytes .word loc)
    done (.asrMem ea) (shiftResult asrStep carryCleared 1 s.ccr v) ∧
    done (.aslMem ea) (shiftResult aslStep carryCleared 1 s.ccr v) ∧
    done (.lsrMem ea) (shiftResult lsrStep carryCleared 1 s.ccr v) ∧
    done (.lslMem ea) (shiftResult lslStep carryCleared 1 s.ccr v) ∧
    done (.rorMem ea) (shiftResult rorStep carryCleared 1 s.ccr v) ∧
    done (.rolMem ea) (shiftResult rolStep carryCleared 1 s.ccr v) ∧
    done (.roxrMem ea) (shiftResult roxrStep carryFromX 1 s.ccr v) ∧
    done (.roxlMem ea) (shiftResult roxlStep carryFromX 1 s.ccr v)

/-- MULS and MULU: the exact 32-bit product of two words, N and Z of it, V and C cleared (R221, R222). -/
def Obligations.MultiplyGivesProduct : Prop :=
  ∀ (ea : EA) (dn : RegNum) (s : State), s.memMap = [] → locAligned .word (operandLoc .word 0 ea s) = true →
    let v : Word := locValue .word (operandLoc .word 0 ea s) s
    let d : Word := (s.readD dn).setWidth 16
    let done := fun (i : Instr) (r : Long) =>
      Completes i s (((eaBump .word ea (fetched i s)).setCcr (logicFlags s.ccr r)).setD dn r) [dn] (movedRegs ea) []
    ∃ ps pu : Long, ps.toInt = d.toInt * v.toInt ∧ pu.toNat = d.toNat * v.toNat ∧ done (.muls ea dn) ps ∧
      done (.mulu ea dn) pu

/-- DIVS and DIVU: remainder and quotient in Dn with the quotient's flags; on overflow Dn is kept, V = 1, C = 0, N and Z
are free; X is kept (R217, R218, R219; log 1). -/
def Obligations.DivideGivesQuotient : Prop :=
  ∀ (ea : EA) (dn : RegNum) (s : State), s.memMap = [] → locAligned .word (operandLoc .word 0 ea s) = true →
    let v : Word := locValue .word (operandLoc .word 0 ea s) s
    let done := fun (i : Instr) (res : Quotient) =>
      let u := eaBump .word ea (fetched i s)
      (∀ q r : Word, res = .result q r →
        Completes i s ((u.setCcr (logicFlags s.ccr q)).setD dn (r ++ q)) [dn] (movedRegs ea) []) ∧
      (res = .overflow → ∃ n z : Bool,
        Completes i s (drew 2 (u.setCcr { x := s.ccr.x, n := n, z := z, v := true, c := false })) [] (movedRegs ea) [])
    done (.divu ea dn) (divuResult v (s.readD dn)) ∧ done (.divs ea dn) (divsResult v (s.readD dn))

/-- A zero divisor: the zero-divide exception, vector 5, with the next instruction's address saved, C cleared, X kept,
N, Z, V free, Dn unchanged (R219, R443; log 1, log 17). -/
def Obligations.ZeroDivideTraps : Prop :=
  ∀ (ea : EA) (dn : RegNum) (i : Instr) (s : State), i = .divu ea dn ∨ i = .divs ea dn → s.memMap = [] →
    locAligned .word (operandLoc .word 0 ea s) = true → locValue .word (operandLoc .word 0 ea s) s = 0#16 →
    let u := eaBump .word ea (fetched i s)
    u.ssp.getLsbD 0 = false →
    ∃ n z v : Bool, exec i s = .next (afterInstr s (entered 5 u.pc none
      (drew 3 (u.setCcr { x := s.ccr.x, n := n, z := z, v := v, c := false }))))

/-- CHK within bounds goes on with X kept and the other codes free; below zero, then above the bound, it takes vector 6
with N = 1, N = 0, and the next instruction's address saved (R211, R444; log 1, log 17). -/
def Obligations.ChkChecksBounds : Prop :=
  ∀ (ea : EA) (dn : RegNum) (s : State), s.memMap = [] → locAligned .word (operandLoc .word 0 ea s) = true →
    let i := Instr.chk ea dn
    let u := eaBump .word ea (fetched i s)
    let bound : Word := locValue .word (operandLoc .word 0 ea s) s
    let v : Word := (s.readD dn).setWidth 16
    (0 ≤ v.toInt → v.toInt ≤ bound.toInt → ∃ n z o c : Bool,
      Completes i s (drew 4 (u.setCcr { x := s.ccr.x, n := n, z := z, v := o, c := c })) [] (movedRegs ea) []) ∧
    ((v.toInt < 0 ∨ bound.toInt < v.toInt) → u.ssp.getLsbD 0 = false → ∃ z o c : Bool,
      exec i s = .next (afterInstr s (entered 6 u.pc none
        (drew 4 (u.setCcr { x := s.ccr.x, n := decide (v.toInt < 0), z := z, v := o, c := c })))))

/-- ABCD, SBCD, NBCD on decimal digits: the byte, X = C the carry or borrow, Z only cleared, N and V free (R300, R301,
R302, R390); on other digits byte and carry are free too, X = C (U3; log 16). -/
def Obligations.BcdInstructions : Prop :=
  ∀ (src dst : RegNum) (ea : EA) (s : State), s.memMap = [] →
    let f := fun (p : Byte × Bool) (n v : Bool) =>
      ({ x := p.2, n := n, z := s.ccr.z && p.1 == 0#8, v := v, c := p.2 } : Ccr)
    let found := fun (res : Option (Byte × Bool)) (p : Byte × Bool) (k : Nat) =>
      (res = some p ∧ k = 2) ∨ (res = none ∧ k = 3)
    (let done := fun (i : Instr) (res : Option (Byte × Bool)) =>
       ∃ p n v k, found res p k ∧
         Completes i s (drew k (((fetched i s).setCcr (f p n v)).setDn .byte dst p.1)) [dst] [] []
     done (.abcdReg src dst) (bcdAdd (truncTo .byte (s.readD dst)) (truncTo .byte (s.readD src)) s.ccr.x) ∧
     done (.sbcdReg src dst) (bcdSub (truncTo .byte (s.readD dst)) (truncTo .byte (s.readD src)) s.ccr.x)) ∧
    (let moved := fun (i : Instr) =>
       let u := (fetched i s).setA src (s.readA src - incAmount src .byte)
       u.setA dst (u.readA dst - incAmount dst .byte)
     let da := (moved .nop).readA dst
     let v := peek .byte s.mem (s.readA src - incAmount src .byte)
     let d := peek .byte s.mem da
     let done := fun (i : Instr) (res : Option (Byte × Bool)) =>
       ∃ p n v k, found res p k ∧
         Completes i s (drew k (((moved i).setCcr (f p n v)).setMem (poke .byte s.mem da p.1))) [] [src, dst]
           (bytesAt .byte da)
     done (.abcdMem src dst) (bcdAdd d v s.ccr.x) ∧ done (.sbcdMem src dst) (bcdSub d v s.ccr.x)) ∧
    (EaSet.dataAlterable.accepts ea.kind = true →
      let i := Instr.nbcd ea
      let loc := operandLoc .byte 0 ea s
      ∃ p n v k, found (bcdSub 0 (locValue .byte loc s) s.ccr.x) p k ∧
        Completes i s (drew k (locStore .byte loc p.1 ((eaBump .byte ea (fetched i s)).setCcr (f p n v)))) (locData loc)
          (movedRegs ea) (locBytes .byte loc))

/-! ### Control transfer -/

/-- BRA, Bcc and DBcc: the target is the opword's address plus 2 plus the displacement; DBcc loops while its condition
is false and the decremented low word is not $FFFF (R321, R323, R407, R26). -/
def Obligations.BranchesJump : Prop :=
  ∀ (cond : Cond) (d : BranchDisp) (dn : RegNum) (w : Word) (s : State), s.memMap = [] →
    let target := s.pc + 2 + (match d with | .short b => b.signExtend 32 | .long b => b.signExtend 32)
    (let i := Instr.bra d
     CompletesKeepingCcr i s (s.setPc target) [] [] []) ∧
    (let i := Instr.bcc cond d
     CompletesKeepingCcr i s (if condHolds s.ccr cond then s.setPc target else fetched i s) [] [] []) ∧
    (let i := Instr.dbcc cond dn w
     let n : Word := (s.readD dn).setWidth 16 - 1
     CompletesKeepingCcr i s
       (if condHolds s.ccr cond then s.setPc (s.pc + 4)
        else if n = 0xFFFF then (s.setPc (s.pc + 4)).setDn .word dn n
        else (s.setPc (s.pc + 2 + w.signExtend 32)).setDn .word dn n) [dn] [] [])

/-- NOP, JMP, BSR, JSR, RTS, RTR: the next instruction's address pushed and pulled as a longword on the active stack,
the target computed before the push; RTR takes the five codes from the word at SP, the rest of SR kept (R322, R324 to
R328; the opwords of NOP, RTS, RTR). -/
def Obligations.CallsAndReturns : Prop :=
  (decodeWords [0x4E71] = .ok (.nop, []) ∧ decodeWords [0x4E75] = .ok (.rts, []) ∧ decodeWords [0x4E77] = .ok (.rtr, [])) ∧
  ∀ (d : BranchDisp) (ea : EA) (s : State), s.memMap = [] →
    let target := s.pc + 2 + (match d with | .short b => b.signExtend 32 | .long b => b.signExtend 32)
    let called := fun (i : Instr) (dest : Long) =>
      CompletesKeepingCcr i s
        (((s.setPc dest).setSp (s.sp - 4)).setMem (poke .long s.mem (s.sp - 4) (fetched i s).pc)) [] [7]
        (bytesAt .long (s.sp - 4))
    CompletesKeepingCcr .nop s (s.setPc (s.pc + 2)) [] [] [] ∧
    (∀ addr program, operandLoc .long 0 ea s = .mem addr program →
      CompletesKeepingCcr (.jmp ea) s (s.setPc addr) [] [] []) ∧
    (s.sp.getLsbD 0 = false →
      called (.bsr d) target ∧
      (∀ addr program, operandLoc .long 0 ea s = .mem addr program → called (.jsr ea) addr) ∧
      CompletesKeepingCcr .rts s ((s.setPc (peek .long s.mem s.sp)).setSp (s.sp + 4)) [] [7] [] ∧
      Completes .rtr s
        (((s.setCcr (ccrOfWord (peek .word s.mem s.sp))).setPc (peek .long s.mem (s.sp + 2))).setSp (s.sp + 6)) [] [7] [])

/-! ### System control -/

/-- The instructions on CCR: the immediate combined with, or the word loaded into, the five codes; nothing else, in
either mode (R351, R353, R355, R399). -/
def Obligations.CcrInstructions : Prop :=
  ∀ (imm : BitVec 8) (ea : EA) (s : State), s.memMap = [] →
    let w : Word := imm.setWidth 16
    let done := fun (i : Instr) (v : Word) => Completes i s ((fetched i s).setCcr (ccrOfWord v)) [] [] []
    done (.oriToCcr imm) (s.sr ||| w) ∧ done (.andiToCcr imm) (s.sr &&& w) ∧ done (.eoriToCcr imm) (s.sr ^^^ w) ∧
    (locAligned .word (operandLoc .word 0 ea s) = true →
      let i := Instr.moveToCcr ea
      Completes i s ((eaBump .word ea (fetched i s)).setCcr (ccrOfWord (locValue .word (operandLoc .word 0 ea s) s))) []
        (movedRegs ea) [])

/-- In supervisor mode the instructions on SR write its implemented bits, the operand of MOVE to SR read under the old
SR; MOVE USP moves all 32 bits in both directions; RESET only pulses its line; PC advances, a moved address register
moves, and all else is kept (R352, R354, R357, R359, R360, R361, R367, R400). MOVE USP and RESET have the opwords of
their rules, and in user mode take the privilege violation. -/
def Obligations.PrivilegedInstructions : Prop :=
  (∀ an : RegNum,
    decodeWords [(0b0100111001100#13 ++ BitVec.ofNat 3 an.val : Word)] = .ok (.moveToUsp an, []) ∧
    decodeWords [(0b0100111001101#13 ++ BitVec.ofNat 3 an.val : Word)] = .ok (.moveFromUsp an, []) ∧
    decodeWords [0x4E70] = .ok (.reset, []) ∧
    ∀ s : State, s.supervisor = false → ∀ i ∈ [Instr.moveToUsp an, .moveFromUsp an, .reset],
      exec i s = .next (takeException 8 s.pc none s)) ∧
  ∀ (imm : Word) (ea : EA) (an : RegNum) (s : State), s.memMap = [] → s.supervisor = true →
    let same := fun t : State => t.d = s.d ∧ t.stopped = s.stopped ∧ t.halted = s.halted ∧
      ∀ a, memRead t.mem a = memRead s.mem a
    let done := fun (i : Instr) (v : Word) =>
      let t := (fetched i s).setSr v
      exec i s = .next (afterInstr s t) ∧ same t ∧ t.a = s.a ∧ t.usp = s.usp ∧ t.ssp = s.ssp ∧ t.history = s.history
    done (.oriToSr imm) (s.sr ||| imm) ∧ done (.andiToSr imm) (s.sr &&& imm) ∧ done (.eoriToSr imm) (s.sr ^^^ imm) ∧
    (locAligned .word (operandLoc .word 0 ea s) = true →
      let i := Instr.moveToSr ea
      let u := eaBump .word ea (fetched i s)
      let t := u.setSr (locValue .word (operandLoc .word 0 ea s) s)
      exec i s = .next (afterInstr s t) ∧ same t ∧ t.usp = s.usp ∧ t.history = s.history ∧ t.a = u.a ∧ t.ssp = u.ssp ∧
      ∀ n, n ∉ movedRegs ea → u.readA n = s.readA n) ∧
    (let t := (s.setPc (s.pc + 2)).setUsp (s.readA an)
     exec (.moveToUsp an) s = .next (afterInstr s t) ∧ same t ∧ t.a = s.a ∧ t.ssp = s.ssp ∧ t.sr = s.sr ∧
     t.history = s.history) ∧
    (let t := (s.setPc (s.pc + 2)).setA an s.usp
     exec (.moveFromUsp an) s = .next (afterInstr s t) ∧ same t ∧ (∀ n, n ≠ an → t.readA n = s.readA n) ∧
     t.usp = s.usp ∧ t.sr = s.sr ∧ t.history = s.history) ∧
    (let t := (s.setPc (s.pc + 2)).record .resetPulse
     exec .reset s = .next (afterInstr s t) ∧ same t ∧ t.a = s.a ∧ t.usp = s.usp ∧ t.ssp = s.ssp ∧ t.sr = s.sr)

/-- STOP in supervisor mode: with bit 13 set SR is loaded, PC is past the instruction and the processor stops; with it
clear a privilege violation at the STOP, SR and the rest unchanged (R364, R445; the spec's decision D13, log 20). -/
def Obligations.StopStops : Prop :=
  ∀ (imm : Word) (s : State), s.memMap = [] → s.supervisor = true →
    (imm.getLsbD 13 = true →
      let t := { (s.setPc (s.pc + 4)).setSr imm with stopped := true }
      exec (.stop imm) s = .next (afterInstr s t) ∧ t.d = s.d ∧ t.a = s.a ∧ t.usp = s.usp ∧ t.ssp = s.ssp ∧
      t.history = s.history ∧ ∀ a, memRead t.mem a = memRead s.mem a) ∧
    (imm.getLsbD 13 = false → s.ssp.getLsbD 0 = false → exec (.stop imm) s = .next (entered 8 s.pc none s))

/-- RTE in supervisor mode: SR from the word at SSP and PC from the longword above it, both from the supervisor stack,
SSP up by six; in user mode a privilege violation; its opword (R362). -/
def Obligations.RteReturns : Prop :=
  decodeWords [0x4E73] = .ok (.rte, []) ∧
  (∀ s : State, s.supervisor = false → exec .rte s = .next (takeException 8 s.pc none s)) ∧
  ∀ (s : State), s.memMap = [] → s.supervisor = true → s.ssp.getLsbD 0 = false →
    let t := ((s.setSsp (s.ssp + 6)).setSr (peek .word s.mem s.ssp)).setPc (peek .long s.mem (s.ssp + 2))
    exec .rte s = .next (afterInstr s t) ∧ t.d = s.d ∧ t.a = s.a ∧ t.usp = s.usp ∧ t.stopped = s.stopped ∧
    t.history = s.history ∧ ∀ a, memRead t.mem a = memRead s.mem a

/-- TRAP takes vector 32 + n and TRAPV with V = 1 vector 7, the next instruction's address saved; with V = 0 TRAPV only
advances PC; ILLEGAL takes vector 4 with its own address saved and is not traced; their opwords (R363, R365, R358). -/
def Obligations.TrapsTaken : Prop :=
  ((∀ v : Fin 16, decodeWords [(0b010011100100#12 ++ BitVec.ofNat 4 v.val : Word)] = .ok (.trap v, [])) ∧
    decodeWords [0x4E76] = .ok (.trapv, []) ∧ decodeWords [0x4AFC] = .ok (.illegal, [])) ∧
  ∀ (v : Fin 16) (s : State), s.memMap = [] →
    (s.ssp.getLsbD 0 = false →
      exec (.trap v) s = .next (afterInstr s (entered (32 + v.val) (s.pc + 2) none s)) ∧
      (s.ccr.v = true → exec .trapv s = .next (afterInstr s (entered 7 (s.pc + 2) none s))) ∧
      exec .illegal s = .next (entered 4 s.pc none s)) ∧
    (s.ccr.v = false → CompletesKeepingCcr .trapv s (s.setPc (s.pc + 2)) [] [] [])

end
end

