-- ==== Sys2Proof/Laws/State.lean ====
section
/-! SUPPORT. One lemma per field per update of the state, and what each register reads after a write. -/

namespace Sys2Proof.Machine

@[simp] theorem State.setD_d (s : State) (n : RegNum) (v : Long) : (s.setD n v).d = s.d.set n.val v := rfl
@[simp] theorem State.setD_a (s : State) (n : RegNum) (v : Long) : (s.setD n v).a = s.a := rfl
@[simp] theorem State.setD_usp (s : State) (n : RegNum) (v : Long) : (s.setD n v).usp = s.usp := rfl
@[simp] theorem State.setD_ssp (s : State) (n : RegNum) (v : Long) : (s.setD n v).ssp = s.ssp := rfl
@[simp] theorem State.setD_pc (s : State) (n : RegNum) (v : Long) : (s.setD n v).pc = s.pc := rfl
@[simp] theorem State.setD_sr (s : State) (n : RegNum) (v : Long) : (s.setD n v).sr = s.sr := rfl
@[simp] theorem State.setD_ir (s : State) (n : RegNum) (v : Long) : (s.setD n v).ir = s.ir := rfl
@[simp] theorem State.setD_mem (s : State) (n : RegNum) (v : Long) : (s.setD n v).mem = s.mem := rfl
@[simp] theorem State.setD_stopped (s : State) (n : RegNum) (v : Long) : (s.setD n v).stopped = s.stopped := rfl
@[simp] theorem State.setD_halted (s : State) (n : RegNum) (v : Long) : (s.setD n v).halted = s.halted := rfl
@[simp] theorem State.setD_pendingTrace (s : State) (n : RegNum) (v : Long) : (s.setD n v).pendingTrace = s.pendingTrace := rfl
@[simp] theorem State.setD_prevIpl7 (s : State) (n : RegNum) (v : Long) : (s.setD n v).prevIpl7 = s.prevIpl7 := rfl
@[simp] theorem State.setD_groupZero (s : State) (n : RegNum) (v : Long) : (s.setD n v).groupZero = s.groupZero := rfl
@[simp] theorem State.setD_inputs (s : State) (n : RegNum) (v : Long) : (s.setD n v).inputs = s.inputs := rfl
@[simp] theorem State.setD_memMap (s : State) (n : RegNum) (v : Long) : (s.setD n v).memMap = s.memMap := rfl
@[simp] theorem State.setD_history (s : State) (n : RegNum) (v : Long) : (s.setD n v).history = s.history := rfl
@[simp] theorem State.setD_stale (s : State) (n : RegNum) (v : Long) : (s.setD n v).stale = s.stale := rfl
@[simp] theorem State.setD_draws (s : State) (n : RegNum) (v : Long) : (s.setD n v).draws = s.draws := rfl

@[simp] theorem State.setUsp_d (s : State) (v : Long) : (s.setUsp v).d = s.d := rfl
@[simp] theorem State.setUsp_a (s : State) (v : Long) : (s.setUsp v).a = s.a := rfl
@[simp] theorem State.setUsp_usp (s : State) (v : Long) : (s.setUsp v).usp = v := rfl
@[simp] theorem State.setUsp_ssp (s : State) (v : Long) : (s.setUsp v).ssp = s.ssp := rfl
@[simp] theorem State.setUsp_pc (s : State) (v : Long) : (s.setUsp v).pc = s.pc := rfl
@[simp] theorem State.setUsp_sr (s : State) (v : Long) : (s.setUsp v).sr = s.sr := rfl
@[simp] theorem State.setUsp_ir (s : State) (v : Long) : (s.setUsp v).ir = s.ir := rfl
@[simp] theorem State.setUsp_mem (s : State) (v : Long) : (s.setUsp v).mem = s.mem := rfl
@[simp] theorem State.setUsp_stopped (s : State) (v : Long) : (s.setUsp v).stopped = s.stopped := rfl
@[simp] theorem State.setUsp_halted (s : State) (v : Long) : (s.setUsp v).halted = s.halted := rfl
@[simp] theorem State.setUsp_pendingTrace (s : State) (v : Long) : (s.setUsp v).pendingTrace = s.pendingTrace := rfl
@[simp] theorem State.setUsp_prevIpl7 (s : State) (v : Long) : (s.setUsp v).prevIpl7 = s.prevIpl7 := rfl
@[simp] theorem State.setUsp_groupZero (s : State) (v : Long) : (s.setUsp v).groupZero = s.groupZero := rfl
@[simp] theorem State.setUsp_inputs (s : State) (v : Long) : (s.setUsp v).inputs = s.inputs := rfl
@[simp] theorem State.setUsp_memMap (s : State) (v : Long) : (s.setUsp v).memMap = s.memMap := rfl
@[simp] theorem State.setUsp_history (s : State) (v : Long) : (s.setUsp v).history = s.history := rfl
@[simp] theorem State.setUsp_stale (s : State) (v : Long) : (s.setUsp v).stale = s.stale := rfl
@[simp] theorem State.setUsp_draws (s : State) (v : Long) : (s.setUsp v).draws = s.draws := rfl

@[simp] theorem State.setSsp_d (s : State) (v : Long) : (s.setSsp v).d = s.d := rfl
@[simp] theorem State.setSsp_a (s : State) (v : Long) : (s.setSsp v).a = s.a := rfl
@[simp] theorem State.setSsp_usp (s : State) (v : Long) : (s.setSsp v).usp = s.usp := rfl
@[simp] theorem State.setSsp_ssp (s : State) (v : Long) : (s.setSsp v).ssp = v := rfl
@[simp] theorem State.setSsp_pc (s : State) (v : Long) : (s.setSsp v).pc = s.pc := rfl
@[simp] theorem State.setSsp_sr (s : State) (v : Long) : (s.setSsp v).sr = s.sr := rfl
@[simp] theorem State.setSsp_ir (s : State) (v : Long) : (s.setSsp v).ir = s.ir := rfl
@[simp] theorem State.setSsp_mem (s : State) (v : Long) : (s.setSsp v).mem = s.mem := rfl
@[simp] theorem State.setSsp_stopped (s : State) (v : Long) : (s.setSsp v).stopped = s.stopped := rfl
@[simp] theorem State.setSsp_halted (s : State) (v : Long) : (s.setSsp v).halted = s.halted := rfl
@[simp] theorem State.setSsp_pendingTrace (s : State) (v : Long) : (s.setSsp v).pendingTrace = s.pendingTrace := rfl
@[simp] theorem State.setSsp_prevIpl7 (s : State) (v : Long) : (s.setSsp v).prevIpl7 = s.prevIpl7 := rfl
@[simp] theorem State.setSsp_groupZero (s : State) (v : Long) : (s.setSsp v).groupZero = s.groupZero := rfl
@[simp] theorem State.setSsp_inputs (s : State) (v : Long) : (s.setSsp v).inputs = s.inputs := rfl
@[simp] theorem State.setSsp_memMap (s : State) (v : Long) : (s.setSsp v).memMap = s.memMap := rfl
@[simp] theorem State.setSsp_history (s : State) (v : Long) : (s.setSsp v).history = s.history := rfl
@[simp] theorem State.setSsp_stale (s : State) (v : Long) : (s.setSsp v).stale = s.stale := rfl
@[simp] theorem State.setSsp_draws (s : State) (v : Long) : (s.setSsp v).draws = s.draws := rfl

@[simp] theorem State.setPc_d (s : State) (v : Long) : (s.setPc v).d = s.d := rfl
@[simp] theorem State.setPc_a (s : State) (v : Long) : (s.setPc v).a = s.a := rfl
@[simp] theorem State.setPc_usp (s : State) (v : Long) : (s.setPc v).usp = s.usp := rfl
@[simp] theorem State.setPc_ssp (s : State) (v : Long) : (s.setPc v).ssp = s.ssp := rfl
@[simp] theorem State.setPc_pc (s : State) (v : Long) : (s.setPc v).pc = v := rfl
@[simp] theorem State.setPc_sr (s : State) (v : Long) : (s.setPc v).sr = s.sr := rfl
@[simp] theorem State.setPc_ir (s : State) (v : Long) : (s.setPc v).ir = s.ir := rfl
@[simp] theorem State.setPc_mem (s : State) (v : Long) : (s.setPc v).mem = s.mem := rfl
@[simp] theorem State.setPc_stopped (s : State) (v : Long) : (s.setPc v).stopped = s.stopped := rfl
@[simp] theorem State.setPc_halted (s : State) (v : Long) : (s.setPc v).halted = s.halted := rfl
@[simp] theorem State.setPc_pendingTrace (s : State) (v : Long) : (s.setPc v).pendingTrace = s.pendingTrace := rfl
@[simp] theorem State.setPc_prevIpl7 (s : State) (v : Long) : (s.setPc v).prevIpl7 = s.prevIpl7 := rfl
@[simp] theorem State.setPc_groupZero (s : State) (v : Long) : (s.setPc v).groupZero = s.groupZero := rfl
@[simp] theorem State.setPc_inputs (s : State) (v : Long) : (s.setPc v).inputs = s.inputs := rfl
@[simp] theorem State.setPc_memMap (s : State) (v : Long) : (s.setPc v).memMap = s.memMap := rfl
@[simp] theorem State.setPc_history (s : State) (v : Long) : (s.setPc v).history = s.history := rfl
@[simp] theorem State.setPc_stale (s : State) (v : Long) : (s.setPc v).stale = s.stale := rfl
@[simp] theorem State.setPc_draws (s : State) (v : Long) : (s.setPc v).draws = s.draws := rfl

@[simp] theorem State.setSr_d (s : State) (v : Word) : (s.setSr v).d = s.d := rfl
@[simp] theorem State.setSr_a (s : State) (v : Word) : (s.setSr v).a = s.a := rfl
@[simp] theorem State.setSr_usp (s : State) (v : Word) : (s.setSr v).usp = s.usp := rfl
@[simp] theorem State.setSr_ssp (s : State) (v : Word) : (s.setSr v).ssp = s.ssp := rfl
@[simp] theorem State.setSr_pc (s : State) (v : Word) : (s.setSr v).pc = s.pc := rfl
@[simp] theorem State.setSr_sr (s : State) (v : Word) : (s.setSr v).sr = v &&& Config.srMask := rfl
@[simp] theorem State.setSr_ir (s : State) (v : Word) : (s.setSr v).ir = s.ir := rfl
@[simp] theorem State.setSr_mem (s : State) (v : Word) : (s.setSr v).mem = s.mem := rfl
@[simp] theorem State.setSr_stopped (s : State) (v : Word) : (s.setSr v).stopped = s.stopped := rfl
@[simp] theorem State.setSr_halted (s : State) (v : Word) : (s.setSr v).halted = s.halted := rfl
@[simp] theorem State.setSr_pendingTrace (s : State) (v : Word) : (s.setSr v).pendingTrace = s.pendingTrace := rfl
@[simp] theorem State.setSr_prevIpl7 (s : State) (v : Word) : (s.setSr v).prevIpl7 = s.prevIpl7 := rfl
@[simp] theorem State.setSr_groupZero (s : State) (v : Word) : (s.setSr v).groupZero = s.groupZero := rfl
@[simp] theorem State.setSr_inputs (s : State) (v : Word) : (s.setSr v).inputs = s.inputs := rfl
@[simp] theorem State.setSr_memMap (s : State) (v : Word) : (s.setSr v).memMap = s.memMap := rfl
@[simp] theorem State.setSr_history (s : State) (v : Word) : (s.setSr v).history = s.history := rfl
@[simp] theorem State.setSr_stale (s : State) (v : Word) : (s.setSr v).stale = s.stale := rfl
@[simp] theorem State.setSr_draws (s : State) (v : Word) : (s.setSr v).draws = s.draws := rfl

@[simp] theorem State.setCcr_d (s : State) (f : Ccr) : (s.setCcr f).d = s.d := rfl
@[simp] theorem State.setCcr_a (s : State) (f : Ccr) : (s.setCcr f).a = s.a := rfl
@[simp] theorem State.setCcr_usp (s : State) (f : Ccr) : (s.setCcr f).usp = s.usp := rfl
@[simp] theorem State.setCcr_ssp (s : State) (f : Ccr) : (s.setCcr f).ssp = s.ssp := rfl
@[simp] theorem State.setCcr_pc (s : State) (f : Ccr) : (s.setCcr f).pc = s.pc := rfl
@[simp] theorem State.setCcr_sr (s : State) (f : Ccr) : (s.setCcr f).sr = ((s.sr &&& 0xFFE0) ||| wordOfCcr f) &&& Config.srMask := rfl
@[simp] theorem State.setCcr_ir (s : State) (f : Ccr) : (s.setCcr f).ir = s.ir := rfl
@[simp] theorem State.setCcr_mem (s : State) (f : Ccr) : (s.setCcr f).mem = s.mem := rfl
@[simp] theorem State.setCcr_stopped (s : State) (f : Ccr) : (s.setCcr f).stopped = s.stopped := rfl
@[simp] theorem State.setCcr_halted (s : State) (f : Ccr) : (s.setCcr f).halted = s.halted := rfl
@[simp] theorem State.setCcr_pendingTrace (s : State) (f : Ccr) : (s.setCcr f).pendingTrace = s.pendingTrace := rfl
@[simp] theorem State.setCcr_prevIpl7 (s : State) (f : Ccr) : (s.setCcr f).prevIpl7 = s.prevIpl7 := rfl
@[simp] theorem State.setCcr_groupZero (s : State) (f : Ccr) : (s.setCcr f).groupZero = s.groupZero := rfl
@[simp] theorem State.setCcr_inputs (s : State) (f : Ccr) : (s.setCcr f).inputs = s.inputs := rfl
@[simp] theorem State.setCcr_memMap (s : State) (f : Ccr) : (s.setCcr f).memMap = s.memMap := rfl
@[simp] theorem State.setCcr_history (s : State) (f : Ccr) : (s.setCcr f).history = s.history := rfl
@[simp] theorem State.setCcr_stale (s : State) (f : Ccr) : (s.setCcr f).stale = s.stale := rfl
@[simp] theorem State.setCcr_draws (s : State) (f : Ccr) : (s.setCcr f).draws = s.draws := rfl

@[simp] theorem State.setMem_d (s : State) (m : Memory) : (s.setMem m).d = s.d := rfl
@[simp] theorem State.setMem_a (s : State) (m : Memory) : (s.setMem m).a = s.a := rfl
@[simp] theorem State.setMem_usp (s : State) (m : Memory) : (s.setMem m).usp = s.usp := rfl
@[simp] theorem State.setMem_ssp (s : State) (m : Memory) : (s.setMem m).ssp = s.ssp := rfl
@[simp] theorem State.setMem_pc (s : State) (m : Memory) : (s.setMem m).pc = s.pc := rfl
@[simp] theorem State.setMem_sr (s : State) (m : Memory) : (s.setMem m).sr = s.sr := rfl
@[simp] theorem State.setMem_ir (s : State) (m : Memory) : (s.setMem m).ir = s.ir := rfl
@[simp] theorem State.setMem_mem (s : State) (m : Memory) : (s.setMem m).mem = m := rfl
@[simp] theorem State.setMem_stopped (s : State) (m : Memory) : (s.setMem m).stopped = s.stopped := rfl
@[simp] theorem State.setMem_halted (s : State) (m : Memory) : (s.setMem m).halted = s.halted := rfl
@[simp] theorem State.setMem_pendingTrace (s : State) (m : Memory) : (s.setMem m).pendingTrace = s.pendingTrace := rfl
@[simp] theorem State.setMem_prevIpl7 (s : State) (m : Memory) : (s.setMem m).prevIpl7 = s.prevIpl7 := rfl
@[simp] theorem State.setMem_groupZero (s : State) (m : Memory) : (s.setMem m).groupZero = s.groupZero := rfl
@[simp] theorem State.setMem_inputs (s : State) (m : Memory) : (s.setMem m).inputs = s.inputs := rfl
@[simp] theorem State.setMem_memMap (s : State) (m : Memory) : (s.setMem m).memMap = s.memMap := rfl
@[simp] theorem State.setMem_history (s : State) (m : Memory) : (s.setMem m).history = s.history := rfl
@[simp] theorem State.setMem_stale (s : State) (m : Memory) : (s.setMem m).stale = s.stale := rfl
@[simp] theorem State.setMem_draws (s : State) (m : Memory) : (s.setMem m).draws = s.draws := rfl

@[simp] theorem State.record_d (s : State) (e : Event) : (s.record e).d = s.d := rfl
@[simp] theorem State.record_a (s : State) (e : Event) : (s.record e).a = s.a := rfl
@[simp] theorem State.record_usp (s : State) (e : Event) : (s.record e).usp = s.usp := rfl
@[simp] theorem State.record_ssp (s : State) (e : Event) : (s.record e).ssp = s.ssp := rfl
@[simp] theorem State.record_pc (s : State) (e : Event) : (s.record e).pc = s.pc := rfl
@[simp] theorem State.record_sr (s : State) (e : Event) : (s.record e).sr = s.sr := rfl
@[simp] theorem State.record_ir (s : State) (e : Event) : (s.record e).ir = s.ir := rfl
@[simp] theorem State.record_mem (s : State) (e : Event) : (s.record e).mem = s.mem := rfl
@[simp] theorem State.record_stopped (s : State) (e : Event) : (s.record e).stopped = s.stopped := rfl
@[simp] theorem State.record_halted (s : State) (e : Event) : (s.record e).halted = s.halted := rfl
@[simp] theorem State.record_pendingTrace (s : State) (e : Event) : (s.record e).pendingTrace = s.pendingTrace := rfl
@[simp] theorem State.record_prevIpl7 (s : State) (e : Event) : (s.record e).prevIpl7 = s.prevIpl7 := rfl
@[simp] theorem State.record_groupZero (s : State) (e : Event) : (s.record e).groupZero = s.groupZero := rfl
@[simp] theorem State.record_inputs (s : State) (e : Event) : (s.record e).inputs = s.inputs := rfl
@[simp] theorem State.record_memMap (s : State) (e : Event) : (s.record e).memMap = s.memMap := rfl
@[simp] theorem State.record_history (s : State) (e : Event) : (s.record e).history = e :: s.history := rfl
@[simp] theorem State.record_stale (s : State) (e : Event) : (s.record e).stale = s.stale := rfl
@[simp] theorem State.record_draws (s : State) (e : Event) : (s.record e).draws = s.draws := rfl

@[simp] theorem State.setSp_d (s : State) (v : Long) : (s.setSp v).d = s.d := by unfold State.setSp; split <;> rfl
@[simp] theorem State.setSp_a (s : State) (v : Long) : (s.setSp v).a = s.a := by unfold State.setSp; split <;> rfl
@[simp] theorem State.setSp_pc (s : State) (v : Long) : (s.setSp v).pc = s.pc := by unfold State.setSp; split <;> rfl
@[simp] theorem State.setSp_sr (s : State) (v : Long) : (s.setSp v).sr = s.sr := by unfold State.setSp; split <;> rfl
@[simp] theorem State.setSp_ir (s : State) (v : Long) : (s.setSp v).ir = s.ir := by unfold State.setSp; split <;> rfl
@[simp] theorem State.setSp_mem (s : State) (v : Long) : (s.setSp v).mem = s.mem := by unfold State.setSp; split <;> rfl
@[simp] theorem State.setSp_stopped (s : State) (v : Long) : (s.setSp v).stopped = s.stopped := by unfold State.setSp; split <;> rfl
@[simp] theorem State.setSp_halted (s : State) (v : Long) : (s.setSp v).halted = s.halted := by unfold State.setSp; split <;> rfl
@[simp] theorem State.setSp_pendingTrace (s : State) (v : Long) : (s.setSp v).pendingTrace = s.pendingTrace := by unfold State.setSp; split <;> rfl
@[simp] theorem State.setSp_prevIpl7 (s : State) (v : Long) : (s.setSp v).prevIpl7 = s.prevIpl7 := by unfold State.setSp; split <;> rfl
@[simp] theorem State.setSp_groupZero (s : State) (v : Long) : (s.setSp v).groupZero = s.groupZero := by unfold State.setSp; split <;> rfl
@[simp] theorem State.setSp_inputs (s : State) (v : Long) : (s.setSp v).inputs = s.inputs := by unfold State.setSp; split <;> rfl
@[simp] theorem State.setSp_memMap (s : State) (v : Long) : (s.setSp v).memMap = s.memMap := by unfold State.setSp; split <;> rfl
@[simp] theorem State.setSp_history (s : State) (v : Long) : (s.setSp v).history = s.history := by unfold State.setSp; split <;> rfl
@[simp] theorem State.setSp_stale (s : State) (v : Long) : (s.setSp v).stale = s.stale := by unfold State.setSp; split <;> rfl
@[simp] theorem State.setSp_draws (s : State) (v : Long) : (s.setSp v).draws = s.draws := by unfold State.setSp; split <;> rfl

@[simp] theorem State.setA_d (s : State) (n : RegNum) (v : Long) : (s.setA n v).d = s.d := by unfold State.setA; split <;> simp
@[simp] theorem State.setA_pc (s : State) (n : RegNum) (v : Long) : (s.setA n v).pc = s.pc := by unfold State.setA; split <;> simp
@[simp] theorem State.setA_sr (s : State) (n : RegNum) (v : Long) : (s.setA n v).sr = s.sr := by unfold State.setA; split <;> simp
@[simp] theorem State.setA_ir (s : State) (n : RegNum) (v : Long) : (s.setA n v).ir = s.ir := by unfold State.setA; split <;> simp
@[simp] theorem State.setA_mem (s : State) (n : RegNum) (v : Long) : (s.setA n v).mem = s.mem := by unfold State.setA; split <;> simp
@[simp] theorem State.setA_stopped (s : State) (n : RegNum) (v : Long) : (s.setA n v).stopped = s.stopped := by unfold State.setA; split <;> simp
@[simp] theorem State.setA_halted (s : State) (n : RegNum) (v : Long) : (s.setA n v).halted = s.halted := by unfold State.setA; split <;> simp
@[simp] theorem State.setA_pendingTrace (s : State) (n : RegNum) (v : Long) : (s.setA n v).pendingTrace = s.pendingTrace := by unfold State.setA; split <;> simp
@[simp] theorem State.setA_prevIpl7 (s : State) (n : RegNum) (v : Long) : (s.setA n v).prevIpl7 = s.prevIpl7 := by unfold State.setA; split <;> simp
@[simp] theorem State.setA_groupZero (s : State) (n : RegNum) (v : Long) : (s.setA n v).groupZero = s.groupZero := by unfold State.setA; split <;> simp
@[simp] theorem State.setA_inputs (s : State) (n : RegNum) (v : Long) : (s.setA n v).inputs = s.inputs := by unfold State.setA; split <;> simp
@[simp] theorem State.setA_memMap (s : State) (n : RegNum) (v : Long) : (s.setA n v).memMap = s.memMap := by unfold State.setA; split <;> simp
@[simp] theorem State.setA_history (s : State) (n : RegNum) (v : Long) : (s.setA n v).history = s.history := by unfold State.setA; split <;> simp
@[simp] theorem State.setA_stale (s : State) (n : RegNum) (v : Long) : (s.setA n v).stale = s.stale := by unfold State.setA; split <;> simp
@[simp] theorem State.setA_draws (s : State) (n : RegNum) (v : Long) : (s.setA n v).draws = s.draws := by unfold State.setA; split <;> simp

@[simp] theorem State.setDn_a (s : State) (sz : Size) (n : RegNum) (v : BitVec sz.bits) : (s.setDn sz n v).a = s.a := rfl
@[simp] theorem State.setDn_usp (s : State) (sz : Size) (n : RegNum) (v : BitVec sz.bits) : (s.setDn sz n v).usp = s.usp := rfl
@[simp] theorem State.setDn_ssp (s : State) (sz : Size) (n : RegNum) (v : BitVec sz.bits) : (s.setDn sz n v).ssp = s.ssp := rfl
@[simp] theorem State.setDn_pc (s : State) (sz : Size) (n : RegNum) (v : BitVec sz.bits) : (s.setDn sz n v).pc = s.pc := rfl
@[simp] theorem State.setDn_sr (s : State) (sz : Size) (n : RegNum) (v : BitVec sz.bits) : (s.setDn sz n v).sr = s.sr := rfl
@[simp] theorem State.setDn_ir (s : State) (sz : Size) (n : RegNum) (v : BitVec sz.bits) : (s.setDn sz n v).ir = s.ir := rfl
@[simp] theorem State.setDn_mem (s : State) (sz : Size) (n : RegNum) (v : BitVec sz.bits) : (s.setDn sz n v).mem = s.mem := rfl
@[simp] theorem State.setDn_stopped (s : State) (sz : Size) (n : RegNum) (v : BitVec sz.bits) : (s.setDn sz n v).stopped = s.stopped := rfl
@[simp] theorem State.setDn_halted (s : State) (sz : Size) (n : RegNum) (v : BitVec sz.bits) : (s.setDn sz n v).halted = s.halted := rfl
@[simp] theorem State.setDn_pendingTrace (s : State) (sz : Size) (n : RegNum) (v : BitVec sz.bits) : (s.setDn sz n v).pendingTrace = s.pendingTrace := rfl
@[simp] theorem State.setDn_prevIpl7 (s : State) (sz : Size) (n : RegNum) (v : BitVec sz.bits) : (s.setDn sz n v).prevIpl7 = s.prevIpl7 := rfl
@[simp] theorem State.setDn_groupZero (s : State) (sz : Size) (n : RegNum) (v : BitVec sz.bits) : (s.setDn sz n v).groupZero = s.groupZero := rfl
@[simp] theorem State.setDn_inputs (s : State) (sz : Size) (n : RegNum) (v : BitVec sz.bits) : (s.setDn sz n v).inputs = s.inputs := rfl
@[simp] theorem State.setDn_memMap (s : State) (sz : Size) (n : RegNum) (v : BitVec sz.bits) : (s.setDn sz n v).memMap = s.memMap := rfl
@[simp] theorem State.setDn_history (s : State) (sz : Size) (n : RegNum) (v : BitVec sz.bits) : (s.setDn sz n v).history = s.history := rfl
@[simp] theorem State.setDn_stale (s : State) (sz : Size) (n : RegNum) (v : BitVec sz.bits) : (s.setDn sz n v).stale = s.stale := rfl
@[simp] theorem State.setDn_draws (s : State) (sz : Size) (n : RegNum) (v : BitVec sz.bits) : (s.setDn sz n v).draws = s.draws := rfl

@[simp] theorem eaBump_d (sz : Size) (ea : EA) (s : State) : (eaBump sz ea s).d = s.d := by cases ea <;> simp [eaBump]
@[simp] theorem eaBump_pc (sz : Size) (ea : EA) (s : State) : (eaBump sz ea s).pc = s.pc := by cases ea <;> simp [eaBump]
@[simp] theorem eaBump_sr (sz : Size) (ea : EA) (s : State) : (eaBump sz ea s).sr = s.sr := by cases ea <;> simp [eaBump]
@[simp] theorem eaBump_ir (sz : Size) (ea : EA) (s : State) : (eaBump sz ea s).ir = s.ir := by cases ea <;> simp [eaBump]
@[simp] theorem eaBump_mem (sz : Size) (ea : EA) (s : State) : (eaBump sz ea s).mem = s.mem := by cases ea <;> simp [eaBump]
@[simp] theorem eaBump_stopped (sz : Size) (ea : EA) (s : State) : (eaBump sz ea s).stopped = s.stopped := by cases ea <;> simp [eaBump]
@[simp] theorem eaBump_halted (sz : Size) (ea : EA) (s : State) : (eaBump sz ea s).halted = s.halted := by cases ea <;> simp [eaBump]
@[simp] theorem eaBump_pendingTrace (sz : Size) (ea : EA) (s : State) : (eaBump sz ea s).pendingTrace = s.pendingTrace := by cases ea <;> simp [eaBump]
@[simp] theorem eaBump_prevIpl7 (sz : Size) (ea : EA) (s : State) : (eaBump sz ea s).prevIpl7 = s.prevIpl7 := by cases ea <;> simp [eaBump]
@[simp] theorem eaBump_groupZero (sz : Size) (ea : EA) (s : State) : (eaBump sz ea s).groupZero = s.groupZero := by cases ea <;> simp [eaBump]
@[simp] theorem eaBump_inputs (sz : Size) (ea : EA) (s : State) : (eaBump sz ea s).inputs = s.inputs := by cases ea <;> simp [eaBump]
@[simp] theorem eaBump_memMap (sz : Size) (ea : EA) (s : State) : (eaBump sz ea s).memMap = s.memMap := by cases ea <;> simp [eaBump]
@[simp] theorem eaBump_history (sz : Size) (ea : EA) (s : State) : (eaBump sz ea s).history = s.history := by cases ea <;> simp [eaBump]
@[simp] theorem eaBump_stale (sz : Size) (ea : EA) (s : State) : (eaBump sz ea s).stale = s.stale := by cases ea <;> simp [eaBump]
@[simp] theorem eaBump_draws (sz : Size) (ea : EA) (s : State) : (eaBump sz ea s).draws = s.draws := by cases ea <;> simp [eaBump]
@[simp] theorem afterInstr_d (s t : State) : (afterInstr s t).d = t.d := by unfold afterInstr; split <;> rfl
@[simp] theorem afterInstr_a (s t : State) : (afterInstr s t).a = t.a := by unfold afterInstr; split <;> rfl
@[simp] theorem afterInstr_usp (s t : State) : (afterInstr s t).usp = t.usp := by unfold afterInstr; split <;> rfl
@[simp] theorem afterInstr_ssp (s t : State) : (afterInstr s t).ssp = t.ssp := by unfold afterInstr; split <;> rfl
@[simp] theorem afterInstr_pc (s t : State) : (afterInstr s t).pc = t.pc := by unfold afterInstr; split <;> rfl
@[simp] theorem afterInstr_sr (s t : State) : (afterInstr s t).sr = t.sr := by unfold afterInstr; split <;> rfl
@[simp] theorem afterInstr_ir (s t : State) : (afterInstr s t).ir = t.ir := by unfold afterInstr; split <;> rfl
@[simp] theorem afterInstr_mem (s t : State) : (afterInstr s t).mem = t.mem := by unfold afterInstr; split <;> rfl
@[simp] theorem afterInstr_stopped (s t : State) : (afterInstr s t).stopped = t.stopped := by unfold afterInstr; split <;> rfl
@[simp] theorem afterInstr_halted (s t : State) : (afterInstr s t).halted = t.halted := by unfold afterInstr; split <;> rfl
@[simp] theorem afterInstr_prevIpl7 (s t : State) : (afterInstr s t).prevIpl7 = t.prevIpl7 := by unfold afterInstr; split <;> rfl
@[simp] theorem afterInstr_groupZero (s t : State) : (afterInstr s t).groupZero = t.groupZero := by unfold afterInstr; split <;> rfl
@[simp] theorem afterInstr_inputs (s t : State) : (afterInstr s t).inputs = t.inputs := by unfold afterInstr; split <;> rfl
@[simp] theorem afterInstr_memMap (s t : State) : (afterInstr s t).memMap = t.memMap := by unfold afterInstr; split <;> rfl
@[simp] theorem afterInstr_history (s t : State) : (afterInstr s t).history = t.history := by unfold afterInstr; split <;> rfl
@[simp] theorem afterInstr_stale (s t : State) : (afterInstr s t).stale = t.stale := by unfold afterInstr; split <;> rfl
@[simp] theorem afterInstr_draws (s t : State) : (afterInstr s t).draws = t.draws := by unfold afterInstr; split <;> rfl

/-! The mode and the parts of SR -/

@[simp] theorem State.setD_supervisor (s : State) (n : RegNum) (v : Long) : (s.setD n v).supervisor = s.supervisor := by simp [State.supervisor]
@[simp] theorem State.setD_traceBit (s : State) (n : RegNum) (v : Long) : (s.setD n v).traceBit = s.traceBit := by simp [State.traceBit]
@[simp] theorem State.setD_intMask (s : State) (n : RegNum) (v : Long) : (s.setD n v).intMask = s.intMask := by simp [State.intMask]
@[simp] theorem State.setD_readSr (s : State) (n : RegNum) (v : Long) : (s.setD n v).readSr = s.readSr := by simp [State.readSr]
@[simp] theorem State.setD_ccr (s : State) (n : RegNum) (v : Long) : (s.setD n v).ccr = s.ccr := by simp [State.ccr]
@[simp] theorem State.setUsp_supervisor (s : State) (v : Long) : (s.setUsp v).supervisor = s.supervisor := by simp [State.supervisor]
@[simp] theorem State.setUsp_traceBit (s : State) (v : Long) : (s.setUsp v).traceBit = s.traceBit := by simp [State.traceBit]
@[simp] theorem State.setUsp_intMask (s : State) (v : Long) : (s.setUsp v).intMask = s.intMask := by simp [State.intMask]
@[simp] theorem State.setUsp_readSr (s : State) (v : Long) : (s.setUsp v).readSr = s.readSr := by simp [State.readSr]
@[simp] theorem State.setUsp_ccr (s : State) (v : Long) : (s.setUsp v).ccr = s.ccr := by simp [State.ccr]
@[simp] theorem State.setSsp_supervisor (s : State) (v : Long) : (s.setSsp v).supervisor = s.supervisor := by simp [State.supervisor]
@[simp] theorem State.setSsp_traceBit (s : State) (v : Long) : (s.setSsp v).traceBit = s.traceBit := by simp [State.traceBit]
@[simp] theorem State.setSsp_intMask (s : State) (v : Long) : (s.setSsp v).intMask = s.intMask := by simp [State.intMask]
@[simp] theorem State.setSsp_readSr (s : State) (v : Long) : (s.setSsp v).readSr = s.readSr := by simp [State.readSr]
@[simp] theorem State.setSsp_ccr (s : State) (v : Long) : (s.setSsp v).ccr = s.ccr := by simp [State.ccr]
@[simp] theorem State.setPc_supervisor (s : State) (v : Long) : (s.setPc v).supervisor = s.supervisor := by simp [State.supervisor]
@[simp] theorem State.setPc_traceBit (s : State) (v : Long) : (s.setPc v).traceBit = s.traceBit := by simp [State.traceBit]
@[simp] theorem State.setPc_intMask (s : State) (v : Long) : (s.setPc v).intMask = s.intMask := by simp [State.intMask]
@[simp] theorem State.setPc_readSr (s : State) (v : Long) : (s.setPc v).readSr = s.readSr := by simp [State.readSr]
@[simp] theorem State.setPc_ccr (s : State) (v : Long) : (s.setPc v).ccr = s.ccr := by simp [State.ccr]
@[simp] theorem State.setMem_supervisor (s : State) (m : Memory) : (s.setMem m).supervisor = s.supervisor := by simp [State.supervisor]
@[simp] theorem State.setMem_traceBit (s : State) (m : Memory) : (s.setMem m).traceBit = s.traceBit := by simp [State.traceBit]
@[simp] theorem State.setMem_intMask (s : State) (m : Memory) : (s.setMem m).intMask = s.intMask := by simp [State.intMask]
@[simp] theorem State.setMem_readSr (s : State) (m : Memory) : (s.setMem m).readSr = s.readSr := by simp [State.readSr]
@[simp] theorem State.setMem_ccr (s : State) (m : Memory) : (s.setMem m).ccr = s.ccr := by simp [State.ccr]
@[simp] theorem State.record_supervisor (s : State) (e : Event) : (s.record e).supervisor = s.supervisor := by simp [State.supervisor]
@[simp] theorem State.record_traceBit (s : State) (e : Event) : (s.record e).traceBit = s.traceBit := by simp [State.traceBit]
@[simp] theorem State.record_intMask (s : State) (e : Event) : (s.record e).intMask = s.intMask := by simp [State.intMask]
@[simp] theorem State.record_readSr (s : State) (e : Event) : (s.record e).readSr = s.readSr := by simp [State.readSr]
@[simp] theorem State.record_ccr (s : State) (e : Event) : (s.record e).ccr = s.ccr := by simp [State.ccr]
@[simp] theorem State.setSp_supervisor (s : State) (v : Long) : (s.setSp v).supervisor = s.supervisor := by simp [State.supervisor]
@[simp] theorem State.setSp_traceBit (s : State) (v : Long) : (s.setSp v).traceBit = s.traceBit := by simp [State.traceBit]
@[simp] theorem State.setSp_intMask (s : State) (v : Long) : (s.setSp v).intMask = s.intMask := by simp [State.intMask]
@[simp] theorem State.setSp_readSr (s : State) (v : Long) : (s.setSp v).readSr = s.readSr := by simp [State.readSr]
@[simp] theorem State.setSp_ccr (s : State) (v : Long) : (s.setSp v).ccr = s.ccr := by simp [State.ccr]
@[simp] theorem State.setA_supervisor (s : State) (n : RegNum) (v : Long) : (s.setA n v).supervisor = s.supervisor := by simp [State.supervisor]
@[simp] theorem State.setA_traceBit (s : State) (n : RegNum) (v : Long) : (s.setA n v).traceBit = s.traceBit := by simp [State.traceBit]
@[simp] theorem State.setA_intMask (s : State) (n : RegNum) (v : Long) : (s.setA n v).intMask = s.intMask := by simp [State.intMask]
@[simp] theorem State.setA_readSr (s : State) (n : RegNum) (v : Long) : (s.setA n v).readSr = s.readSr := by simp [State.readSr]
@[simp] theorem State.setA_ccr (s : State) (n : RegNum) (v : Long) : (s.setA n v).ccr = s.ccr := by simp [State.ccr]

theorem srMask_eq : Config.srMask = 0xA71F := rfl

/-- Reading the five codes of a word made of them. -/
@[simp] theorem ccrOfWord_wordOfCcr (f : Ccr) : ccrOfWord (wordOfCcr f) = f := by
  rcases f with ⟨x, n, z, v, c⟩
  cases x <;> cases n <;> cases z <;> cases v <;> cases c <;> decide

theorem wordOfCcr_lt (f : Ccr) : wordOfCcr f &&& 0xFFE0 = 0 := by
  rcases f with ⟨x, n, z, v, c⟩
  cases x <;> cases n <;> cases z <;> cases v <;> cases c <;> decide

/-- The codes read back after they are written. -/
@[simp] theorem State.setCcr_ccr (s : State) (f : Ccr) : (s.setCcr f).ccr = f := by
  have h : ∀ w : Word, ccrOfWord (((w &&& 0xFFE0) ||| wordOfCcr f) &&& Config.srMask) = f := by
    intro w
    rcases f with ⟨x, n, z, v, c⟩
    simp only [ccrOfWord, Config.srMask, BitVec.getLsbD_and, BitVec.getLsbD_or]
    cases x <;> cases n <;> cases z <;> cases v <;> cases c <;> simp [wordOfCcr]
  exact h s.sr

@[simp] theorem State.setCcr_supervisor (s : State) (f : Ccr) : (s.setCcr f).supervisor = s.supervisor := by
  simp [State.supervisor, wordOfCcr, Config.srMask]

@[simp] theorem State.setCcr_traceBit (s : State) (f : Ccr) : (s.setCcr f).traceBit = s.traceBit := by
  simp [State.traceBit, wordOfCcr, Config.srMask]

@[simp] theorem State.setSr_supervisor (s : State) (v : Word) : (s.setSr v).supervisor = v.getLsbD 13 := by
  simp [State.supervisor, Config.srMask]

@[simp] theorem State.setSr_traceBit (s : State) (v : Word) : (s.setSr v).traceBit = v.getLsbD 15 := by
  simp [State.traceBit, Config.srMask]

/-! Registers read after a write -/

@[simp] theorem State.readD_setD_self (s : State) (n : RegNum) (v : Long) : (s.setD n v).readD n = v := by
  simp [State.readD, State.setD]

theorem State.readD_setD_other (s : State) (n m : RegNum) (v : Long) (h : m ≠ n) : (s.setD n v).readD m = s.readD m := by
  have : n.val ≠ m.val := fun e => h (Fin.ext e.symm)
  simp [State.readD, State.setD, this]

@[simp] theorem State.readD_setUsp (s : State) (v : Long) (k : RegNum) : (s.setUsp v).readD k = s.readD k := by simp [State.readD]
@[simp] theorem State.readD_setSsp (s : State) (v : Long) (k : RegNum) : (s.setSsp v).readD k = s.readD k := by simp [State.readD]
@[simp] theorem State.readD_setPc (s : State) (v : Long) (k : RegNum) : (s.setPc v).readD k = s.readD k := by simp [State.readD]
@[simp] theorem State.readD_setSr (s : State) (v : Word) (k : RegNum) : (s.setSr v).readD k = s.readD k := by simp [State.readD]
@[simp] theorem State.readD_setCcr (s : State) (f : Ccr) (k : RegNum) : (s.setCcr f).readD k = s.readD k := by simp [State.readD]
@[simp] theorem State.readD_setMem (s : State) (m : Memory) (k : RegNum) : (s.setMem m).readD k = s.readD k := by simp [State.readD]
@[simp] theorem State.readD_record (s : State) (e : Event) (k : RegNum) : (s.record e).readD k = s.readD k := by simp [State.readD]
@[simp] theorem State.readD_setSp (s : State) (v : Long) (k : RegNum) : (s.setSp v).readD k = s.readD k := by simp [State.readD]
@[simp] theorem State.readD_setA (s : State) (n : RegNum) (v : Long) (k : RegNum) : (s.setA n v).readD k = s.readD k := by simp [State.readD]

@[simp] theorem State.sp_setSp (s : State) (v : Long) : (s.setSp v).sp = v := by
  unfold State.sp
  rw [State.setSp_supervisor]
  unfold State.setSp
  split <;> rfl

@[simp] theorem State.readA_setA_self (s : State) (n : RegNum) (v : Long) : (s.setA n v).readA n = v := by
  by_cases h : n.val < 7
  · simp [State.readA, State.setA, h]
  · simp [State.readA, State.setA, h]

theorem State.readA_setA_other (s : State) (n m : RegNum) (v : Long) (h : m ≠ n) : (s.setA n v).readA m = s.readA m := by
  have hne : n.val ≠ m.val := fun e => h (Fin.ext e.symm)
  by_cases hn : n.val < 7 <;> by_cases hm : m.val < 7
  · simp [State.readA, State.setA, hn, hm, hne]
  · simp only [State.readA, State.setA, hn, hm, dif_pos, dif_neg, not_false_eq_true]
    rfl
  · simp [State.readA, State.setA, hn, hm]
  · omega

@[simp] theorem State.sp_setD (s : State) (n : RegNum) (v : Long) : (s.setD n v).sp = s.sp := by simp [State.sp]
@[simp] theorem State.readA_setD (s : State) (n : RegNum) (v : Long) (k : RegNum) : (s.setD n v).readA k = s.readA k := by simp [State.readA]
@[simp] theorem State.sp_setPc (s : State) (v : Long) : (s.setPc v).sp = s.sp := by simp [State.sp]
@[simp] theorem State.readA_setPc (s : State) (v : Long) (k : RegNum) : (s.setPc v).readA k = s.readA k := by simp [State.readA]
@[simp] theorem State.readX_setPc (s : State) (v : Long) (x : XReg) : (s.setPc v).readX x = s.readX x := by cases x <;> simp only [State.readX, State.readD_setPc, State.readA_setPc]
@[simp] theorem State.sp_setCcr (s : State) (f : Ccr) : (s.setCcr f).sp = s.sp := by simp [State.sp]
@[simp] theorem State.readA_setCcr (s : State) (f : Ccr) (k : RegNum) : (s.setCcr f).readA k = s.readA k := by simp [State.readA]
@[simp] theorem State.readX_setCcr (s : State) (f : Ccr) (x : XReg) : (s.setCcr f).readX x = s.readX x := by cases x <;> simp only [State.readX, State.readD_setCcr, State.readA_setCcr]
@[simp] theorem State.sp_setMem (s : State) (m : Memory) : (s.setMem m).sp = s.sp := by simp [State.sp]
@[simp] theorem State.readA_setMem (s : State) (m : Memory) (k : RegNum) : (s.setMem m).readA k = s.readA k := by simp [State.readA]
@[simp] theorem State.readX_setMem (s : State) (m : Memory) (x : XReg) : (s.setMem m).readX x = s.readX x := by cases x <;> simp only [State.readX, State.readD_setMem, State.readA_setMem]
@[simp] theorem State.sp_record (s : State) (e : Event) : (s.record e).sp = s.sp := by simp [State.sp]
@[simp] theorem State.readA_record (s : State) (e : Event) (k : RegNum) : (s.record e).readA k = s.readA k := by simp [State.readA]
@[simp] theorem State.readX_record (s : State) (e : Event) (x : XReg) : (s.record e).readX x = s.readX x := by cases x <;> simp only [State.readX, State.readD_record, State.readA_record]

end Sys2Proof.Machine
end

