-- ==== Sys2Proof/Laws/Memory.lean ====
section
/-! SUPPORT. Memory: a read after a write, the canonical form kept by every operation, and what the value of several bytes
depends on. -/

namespace Sys2Proof.Machine

open Sys2Proof.Safety

theorem memRead_memWrite_same (m : Memory) (a : Nat) (b : Byte) (lo : Nat) (h : memWfFrom lo m = true) :
    memRead (memWrite m a b) a = b := by
  induction m generalizing lo with
  | nil => by_cases hb : b = unlistedByte <;> simp [memWrite, memRead, hb]
  | cons c rest ih =>
    obtain ⟨k, v⟩ := c
    simp only [memWfFrom, Bool.and_eq_true, decide_eq_true_eq] at h
    obtain ⟨⟨⟨-, -⟩, -⟩, hrest⟩ := h
    have hlow : ∀ (lo : Nat) (r : Memory) (x : Nat), memWfFrom lo r = true → x < lo → memRead r x = unlistedByte := by
      intro lo r x hr hx
      induction r generalizing lo with
      | nil => rfl
      | cons d r ihr =>
        obtain ⟨k', v'⟩ := d
        simp only [memWfFrom, Bool.and_eq_true, decide_eq_true_eq] at hr
        have : k' ≠ x := by omega
        simp [memRead, this, ihr (k' + 1) hr.2 (by omega)]
    unfold memWrite
    split
    · split
      · rename_i hak hb
        have : k ≠ a := by omega
        simp [memRead, this, hb, hlow (k + 1) rest a hrest (by omega)]
      · simp [memRead]
    · split
      · split
        · rename_i hb
          rename_i hka _
          simp [hb, hlow (k + 1) rest a hrest (by omega)]
        · simp [memRead]
      · rename_i h1 h2
        have : k ≠ a := fun e => h2 e.symm
        simp [memRead, this, ih (k + 1) hrest]

theorem memRead_memWrite_other (m : Memory) (a x : Nat) (b : Byte) (h : x ≠ a) :
    memRead (memWrite m a b) x = memRead m x := by
  induction m with
  | nil => by_cases hb : b = unlistedByte <;> simp [memWrite, memRead, hb, Ne.symm h]
  | cons c rest ih =>
    obtain ⟨k, v⟩ := c
    unfold memWrite
    split
    · split <;> simp [memRead, Ne.symm h]
    · split
      · rename_i hak
        subst hak
        split <;> simp [memRead, Ne.symm h]
      · simp [memRead, ih]

theorem memWfFrom_memWrite (m : Memory) (a : Nat) (b : Byte) (lo : Nat) (ha : a < 2 ^ Config.addrBits) (hlo : lo ≤ a)
    (h : memWfFrom lo m = true) : memWfFrom lo (memWrite m a b) = true := by
  induction m generalizing lo with
  | nil => by_cases hb : b = unlistedByte <;> simp [memWrite, memWfFrom, hb, ha, hlo]
  | cons c rest ih =>
    obtain ⟨k, v⟩ := c
    simp only [memWfFrom, Bool.and_eq_true, decide_eq_true_eq, bne_iff_ne] at h
    obtain ⟨⟨⟨h1, h2⟩, h3⟩, hrest⟩ := h
    have mono : ∀ (lo lo' : Nat) (r : Memory), lo ≤ lo' → memWfFrom lo' r = true → memWfFrom lo r = true := by
      intro lo lo' r hl hr
      cases r with
      | nil => rfl
      | cons d r =>
        simp only [memWfFrom, Bool.and_eq_true, decide_eq_true_eq, bne_iff_ne] at hr ⊢
        exact ⟨⟨⟨by omega, hr.1.1.2⟩, hr.1.2⟩, hr.2⟩
    unfold memWrite
    split
    · split
      · simp [memWfFrom, h1, h2, h3, hrest]
      · rename_i hak hb
        simp only [memWfFrom, Bool.and_eq_true, decide_eq_true_eq, bne_iff_ne]
        exact ⟨⟨⟨hlo, ha⟩, hb⟩, ⟨⟨by omega, h2⟩, h3⟩, hrest⟩
    · split
      · rename_i hka
        subst hka
        split
        · exact mono _ _ _ (by omega) hrest
        · rename_i hb
          simp only [memWfFrom, Bool.and_eq_true, decide_eq_true_eq, bne_iff_ne]
          exact ⟨⟨⟨hlo, ha⟩, hb⟩, hrest⟩
      · simp only [memWfFrom, Bool.and_eq_true, decide_eq_true_eq, bne_iff_ne]
        exact ⟨⟨⟨h1, h2⟩, h3⟩, ih (k + 1) (by omega) hrest⟩

/-- A byte read back after it is written. -/
theorem memRead_memWrite_self (m : Memory) (a : Nat) (b : Byte) (h : m.wf = true) : memRead (memWrite m a b) a = b :=
  memRead_memWrite_same m a b 0 h

theorem phys_lt (addr : Long) (i : Nat) : phys addr i < 2 ^ Config.addrBits := Nat.mod_lt _ (by decide)

/-- Writing a byte that memory has keeps the canonical form. -/
theorem memWrite_wf (m : Memory) (addr : Long) (i : Nat) (b : Byte) (h : m.wf = true) :
    (memWrite m (phys addr i) b).wf = true :=
  memWfFrom_memWrite m _ b 0 (phys_lt addr i) (Nat.zero_le _) h

/-- Writing an operand keeps the canonical form. -/
theorem poke_wf (sz : Size) (m : Memory) (addr : Long) (v : BitVec sz.bits) (h : m.wf = true) :
    (poke sz m addr v).wf = true := by
  cases sz with
  | byte => exact memWrite_wf _ _ _ _ h
  | word => exact memWrite_wf _ _ _ _ (memWrite_wf _ _ _ _ h)
  | long => exact memWrite_wf _ _ _ _ (memWrite_wf _ _ _ _ (memWrite_wf _ _ _ _ (memWrite_wf _ _ _ _ h)))

/-- Bytes outside a written operand read as before. -/
theorem memRead_poke_other (sz : Size) (m : Memory) (addr : Long) (v : BitVec sz.bits) (a : Nat)
    (h : a ∉ bytesAt sz addr) : memRead (poke sz m addr v) a = memRead m a := by
  cases sz <;> simp only [bytesAt, Size.bytes, List.mem_map, List.mem_range, not_exists, not_and] at h
  · simp only [poke]
    exact memRead_memWrite_other _ _ _ _ (fun e => h 0 (by decide) e.symm)
  · simp only [poke]
    rw [memRead_memWrite_other _ _ _ _ (fun e => h 1 (by decide) e.symm),
      memRead_memWrite_other _ _ _ _ (fun e => h 0 (by decide) e.symm)]
  · simp only [poke]
    rw [memRead_memWrite_other _ _ _ _ (fun e => h 3 (by decide) e.symm),
      memRead_memWrite_other _ _ _ _ (fun e => h 2 (by decide) e.symm),
      memRead_memWrite_other _ _ _ _ (fun e => h 1 (by decide) e.symm),
      memRead_memWrite_other _ _ _ _ (fun e => h 0 (by decide) e.symm)]

/-- Two bytes of one operand lie at different addresses. -/
theorem phys_ne (addr : Long) (i j : Nat) (hi : i < 4) (hj : j < 4) (h : i ≠ j) : phys addr i ≠ phys addr j := by
  unfold phys
  simp only [Config.addrBits]
  omega

/-- An operand read back after it is written (R64, R65). -/
theorem peek_poke (sz : Size) (m : Memory) (addr : Long) (v : BitVec sz.bits) (h : m.wf = true) :
    peek sz (poke sz m addr v) addr = v := by
  cases sz with
  | byte => exact memRead_memWrite_self _ _ _ h
  | word =>
    simp only [peek, poke]
    rw [memRead_memWrite_self _ _ _ (memWrite_wf _ _ _ _ h),
      memRead_memWrite_other _ _ _ _ (phys_ne addr 0 1 (by decide) (by decide) (by decide)),
      memRead_memWrite_self _ _ _ h]
    ext i hi
    simp only [BitVec.getElem_append, BitVec.getElem_extractLsb']
    split
    all_goals
      rw [← BitVec.getLsbD_eq_getElem hi]
      congr 1
      omega
  | long =>
    simp only [peek, poke]
    rw [memRead_memWrite_self _ _ _ (memWrite_wf _ _ _ _ (memWrite_wf _ _ _ _ (memWrite_wf _ _ _ _ h))),
      memRead_memWrite_other _ _ _ _ (phys_ne addr 0 3 (by decide) (by decide) (by decide)),
      memRead_memWrite_other _ _ _ _ (phys_ne addr 0 2 (by decide) (by decide) (by decide)),
      memRead_memWrite_other _ _ _ _ (phys_ne addr 0 1 (by decide) (by decide) (by decide)),
      memRead_memWrite_self _ _ _ h,
      memRead_memWrite_other _ _ _ _ (phys_ne addr 1 3 (by decide) (by decide) (by decide)),
      memRead_memWrite_other _ _ _ _ (phys_ne addr 1 2 (by decide) (by decide) (by decide)),
      memRead_memWrite_self _ _ _ (memWrite_wf _ _ _ _ h),
      memRead_memWrite_other _ _ _ _ (phys_ne addr 2 3 (by decide) (by decide) (by decide)),
      memRead_memWrite_self _ _ _ (memWrite_wf _ _ _ _ (memWrite_wf _ _ _ _ h))]
    ext i hi
    simp only [BitVec.getElem_append, BitVec.getElem_extractLsb']
    repeat' split
    all_goals
      rw [← BitVec.getLsbD_eq_getElem hi]
      congr 1
      omega

/-- An operand elsewhere reads as before. -/
theorem peek_poke_other (sz sw : Size) (m : Memory) (addr waddr : Long) (v : BitVec sw.bits)
    (h : ∀ a ∈ bytesAt sz addr, a ∉ bytesAt sw waddr) : peek sz (poke sw m waddr v) addr = peek sz m addr := by
  have hr : ∀ i < sz.bytes, memRead (poke sw m waddr v) (phys addr i) = memRead m (phys addr i) := fun i hi =>
    memRead_poke_other sw m waddr v _ (h _ (by simp only [bytesAt, List.mem_map, List.mem_range]; exact ⟨i, hi, rfl⟩))
  cases sz with
  | byte => exact hr 0 (by decide)
  | word => simp only [peek, hr 0 (by decide), hr 1 (by decide)]
  | long => simp only [peek, hr 0 (by decide), hr 1 (by decide), hr 2 (by decide), hr 3 (by decide)]

/-- Operands at two offsets from one address do not meet, when one ends before the other begins and both lie within
memory's size. -/
theorem bytesAt_disjoint (base : Long) (sz sw : Size) (i j : Nat) (h : i + sz.bytes ≤ j ∨ j + sw.bytes ≤ i)
    (hi : i + sz.bytes ≤ 2 ^ Config.addrBits) (hj : j + sw.bytes ≤ 2 ^ Config.addrBits) :
    ∀ a ∈ bytesAt sz (base + BitVec.ofNat 32 i), a ∉ bytesAt sw (base + BitVec.ofNat 32 j) := by
  intro a ha hb
  simp only [bytesAt, List.mem_map, List.mem_range] at ha hb
  obtain ⟨k, hk, rfl⟩ := ha
  obtain ⟨l, hl, he⟩ := hb
  simp only [phys, Config.addrBits, BitVec.toNat_add, BitVec.toNat_ofNat] at he hi hj
  omega

end Sys2Proof.Machine
end

