-- ==== Sys2Proof/Laws/Effects.lean ====
section
/-! SUPPORT. What each shared operation can do: the primitives of an effect, accesses to plain memory, effective addresses,
locations, pushes and pulls, and running an instruction to its end. -/

namespace Sys2Proof.Machine

open Sys2Proof.Safety

/-! The primitives -/

theorem act_bind {α β : Type} (x : Act α) (f : α → Act β) (s : State) :
    (x >>= f) s = match x s with | .ok a t => f a t | .error e t => .error e t := by
  change EStateM.bind x f s = _
  unfold EStateM.bind
  cases x s <;> rfl

theorem act_bind_ok {α β : Type} {x : Act α} {f : α → Act β} {s t : State} {a : α} (h : x s = .ok a t) :
    (x >>= f) s = f a t := by
  rw [act_bind, h]

theorem act_bind_error {α β : Type} {x : Act α} {f : α → Act β} {s t : State} {e : Abort} (h : x s = .error e t) :
    (x >>= f) s = .error e t := by
  rw [act_bind, h]

@[simp] theorem act_pure {α : Type} (a : α) (s : State) : (pure a : Act α) s = .ok a s := rfl
@[simp] theorem act_get (s : State) : (get : Act State) s = .ok s s := rfl
@[simp] theorem act_set (t s : State) : (set t : Act Unit) s = .ok () t := rfl
@[simp] theorem act_modify (f : State → State) (s : State) : (modify f : Act Unit) s = .ok () (f s) := rfl
@[simp] theorem act_throw {α : Type} (e : Abort) (s : State) : (throw e : Act α) s = .error e s := rfl
@[simp] theorem act_get_bind {β : Type} (f : State → Act β) (s : State) : ((get : Act State) >>= f) s = f s s := rfl
@[simp] theorem act_set_bind {β : Type} (t : State) (f : Unit → Act β) (s : State) :
    ((set t : Act Unit) >>= f) s = f () t := rfl
@[simp] theorem act_modify_bind {β : Type} (g : State → State) (f : Unit → Act β) (s : State) :
    ((modify g : Act Unit) >>= f) s = f () (g s) := rfl
@[simp] theorem act_pure_bind {α β : Type} (a : α) (f : α → Act β) (s : State) : ((pure a : Act α) >>= f) s = f a s := rfl

@[simp] theorem draw_eq (s : State) : draw s = .ok (Config.freeLong s.draws) { s with draws := s.draws + 1 } := rfl
@[simp] theorem drawBit_eq (s : State) :
    drawBit s = .ok ((Config.freeLong s.draws).getLsbD 0) { s with draws := s.draws + 1 } := rfl

/-! Plain memory -/

@[simp] theorem plainAt_nil (addr : Long) (n : Nat) : plainAt [] addr n = true := by
  simp [plainAt, regionAt]

/-- A read of plain memory: the value, nothing changed (R64). -/
theorem readMem_plain {sz : Size} {addr : Long} {program : Bool} {s : State} (ha : misaligned sz addr = false)
    (hp : plainAt s.memMap addr sz.bytes = true) : readMem sz addr program s = .ok (peek sz s.mem addr) s := by
  simp only [readMem, act_get_bind, ha, hp, if_true]
  rfl

/-- A write of plain memory: its bytes, nothing else changed (R65). -/
theorem writeMem_plain {sz : Size} {addr : Long} {v : BitVec sz.bits} {s : State} (ha : misaligned sz addr = false)
    (hp : plainAt s.memMap addr sz.bytes = true) :
    writeMem sz addr v s = .ok () (s.setMem (poke sz s.mem addr v)) := by
  simp only [writeMem, act_get_bind, ha, hp, if_true]
  rfl

/-- A misaligned read is not performed (R70). -/
theorem readMem_misaligned {sz : Size} {addr : Long} {program : Bool} {s : State} (ha : misaligned sz addr = true) :
    readMem sz addr program s = .error (.addressError (accessOf s addr false false program)) s := by
  simp only [readMem, act_get_bind, ha, if_true]
  rfl

/-- A misaligned write is not performed (R70). -/
theorem writeMem_misaligned {sz : Size} {addr : Long} {v : BitVec sz.bits} {s : State} (ha : misaligned sz addr = true) :
    writeMem sz addr v s = .error (.addressError (accessOf s addr true false false)) s := by
  simp only [writeMem, act_get_bind, ha, if_true]
  rfl

/-! Locations -/

/-- The location of a data alterable mode can be written (R154, R157). -/
theorem eaLoc_writable (sz : Size) (pcx : Long) (ea : EA) (s : State) (h : EaSet.dataAlterable.accepts ea.kind = true) :
    locWritable (eaLoc sz pcx ea s) = true := by
  cases ea <;> first | rfl | simp [EA.kind, EaSet.accepts, EaKind.isData, EaKind.isAlterable] at h

theorem readLoc_plain {sz : Size} {loc : Loc} {s : State} (hm : s.memMap = []) (ha : locAligned sz loc = true) :
    readLoc sz loc s = .ok (locValue sz loc s) s := by
  cases loc with
  | mem addr program =>
    exact readMem_plain (by simpa [locAligned] using ha) (by simp [hm])
  | _ => rfl

theorem writeLoc_plain {sz : Size} {loc : Loc} {v : BitVec sz.bits} {s : State} (hm : s.memMap = [])
    (ha : locAligned sz loc = true) (hw : locWritable loc = true) :
    writeLoc sz loc v s = .ok () (locStore sz loc v s) := by
  cases loc with
  | mem addr program =>
    cases program with
    | false => exact writeMem_plain (by simpa [locAligned] using ha) (by simp [hm])
    | true => simp [locWritable] at hw
  | d n => rfl
  | a n => simp [locWritable] at hw
  | imm v => simp [locWritable] at hw

@[simp] theorem evalEa_eq (sz : Size) (pcx : Long) (ea : EA) (s : State) :
    evalEa sz pcx ea s = .ok (eaLoc sz pcx ea s) (eaBump sz ea s) := rfl

/-- Moving an address register leaves the value of the location just evaluated. -/
theorem locValue_eaBump (sz : Size) (pcx : Long) (ea : EA) (s : State) :
    locValue sz (eaLoc sz pcx ea s) (eaBump sz ea s) = locValue sz (eaLoc sz pcx ea s) s := by
  cases ea <;> simp [eaLoc, eaBump, locValue]

/-- An operand in a register or in plain memory, read (R156). -/
theorem readEa_plain {sz : Size} {pcx : Long} {ea : EA} {s : State} (hm : s.memMap = [])
    (ha : locAligned sz (eaLoc sz pcx ea s) = true) :
    readEa sz pcx ea s = .ok (locValue sz (eaLoc sz pcx ea s) s) (eaBump sz ea s) := by
  simp only [readEa, act_bind, evalEa_eq]
  rw [readLoc_plain (by simp [hm]) ha, locValue_eaBump]

/-- The location of a mode does not depend on PC but through `pcx`. -/
@[simp] theorem eaLoc_setPc (sz : Size) (pcx : Long) (ea : EA) (s : State) (v : Long) :
    eaLoc sz pcx ea (s.setPc v) = eaLoc sz pcx ea s := by
  cases ea <;> simp [eaLoc, indexValue]

@[simp] theorem locValue_setPc (sz : Size) (loc : Loc) (s : State) (v : Long) :
    locValue sz loc (s.setPc v) = locValue sz loc s := by
  cases loc <;> simp [locValue]

/-- The address of a control mode (R183). -/
theorem controlEa_mem {pcx : Long} {ea : EA} {s : State} {addr : Long} {program : Bool}
    (h : eaLoc .long pcx ea s = .mem addr program) : controlEa pcx ea s = .ok addr s := by
  simp only [controlEa, act_get_bind, h]
  rfl

/-! Pushes and pulls -/

theorem push32_plain {s : State} {v : Long} (hm : s.memMap = []) (ha : misaligned .long (s.sp - 4) = false) :
    push32 v s = .ok () ((s.setSp (s.sp - 4)).setMem (poke .long s.mem (s.sp - 4) v)) := by
  simp only [push32, act_modify_bind, act_get_bind, State.sp_setSp]
  rw [writeMem_plain ha (by simp [hm]), State.setSp_mem]

theorem push16_plain {s : State} {v : Word} (hm : s.memMap = []) (ha : misaligned .word (s.sp - 2) = false) :
    push16 v s = .ok () ((s.setSp (s.sp - 2)).setMem (poke .word s.mem (s.sp - 2) v)) := by
  simp only [push16, act_modify_bind, act_get_bind, State.sp_setSp]
  rw [writeMem_plain ha (by simp [hm]), State.setSp_mem]

theorem pop32_plain {s : State} (hm : s.memMap = []) (ha : misaligned .long s.sp = false) :
    pop32 s = .ok (peek .long s.mem s.sp) (s.setSp (s.sp + 4)) := by
  simp only [pop32, act_get_bind]
  rw [act_bind_ok (readMem_plain ha (by simp [hm]))]
  rfl

theorem pop16_plain {s : State} (hm : s.memMap = []) (ha : misaligned .word s.sp = false) :
    pop16 s = .ok (peek .word s.mem s.sp) (s.setSp (s.sp + 2)) := by
  simp only [pop16, act_get_bind]
  rw [act_bind_ok (readMem_plain ha (by simp [hm]))]
  rfl

/-! Running an instruction -/

/-- Extension words in plain memory: PC moves past them (R92). -/
theorem fetchExt_plain (n : Nat) (s : State) (hm : s.memMap = []) :
    fetchExt n s = .ok () (s.setPc (s.pc + BitVec.ofNat 32 (2 * n))) := by
  induction n generalizing s with
  | zero => simp [fetchExt, State.setPc]
  | succ n ih =>
    simp only [fetchExt, act_get_bind]
    have : (do
        unless plainAt s.memMap s.pc 2 do
          let _ ← platformRead .word s.pc (accessOf s s.pc false true true)
        modify fun s => s.setPc (s.pc + 2)
        fetchExt n : Act Unit) s = fetchExt n (s.setPc (s.pc + 2)) := by
      simp [hm, act_bind]
    rw [this, ih _ (by simp [hm])]
    congr 1
    simp only [State.setPc, State.mk.injEq, true_and, and_true]
    rw [BitVec.add_assoc]
    congr 1
    rw [show 2 * (n + 1) = 2 + 2 * n by omega, BitVec.ofNat_add]
    rfl

/-- An instruction of `1 + ext` words in plain memory whose effect completes (R465, R452). -/
theorem runInstr_ok {ext : Nat} {writes : List Dest} {act : Long → Act Unit} {s t : State} (hm : s.memMap = [])
    (h : act s.pc (s.setPc (s.pc + BitVec.ofNat 32 (2 * (1 + ext)))) = .ok () t) :
    runInstr ext writes act s = afterInstr s t := by
  have hf : (do fetchExt ext; act s.pc : Act Unit) (s.setPc (s.pc + 2)) = .ok () t := by
    rw [act_bind_ok (fetchExt_plain ext _ (by simp [hm]))]
    rw [← h]
    congr 1
    simp only [State.setPc, State.mk.injEq, true_and, and_true]
    rw [BitVec.add_assoc, show 2 * (1 + ext) = 2 + 2 * ext by omega, BitVec.ofNat_add]
    rfl
  simp only [runInstr, hf]

/-- In supervisor mode a privileged instruction runs (R366). -/
theorem runPrivileged_supervisor {ext : Nat} {writes : List Dest} {act : Long → Act Unit} {s : State}
    (h : s.supervisor = true) : runPrivileged ext writes act s = runInstr ext writes act s := by
  simp [runPrivileged, h]

/-- In user mode it takes the privilege violation and does nothing else (R366). -/
theorem runPrivileged_user {ext : Nat} {writes : List Dest} {act : Long → Act Unit} {s : State}
    (h : s.supervisor = false) : runPrivileged ext writes act s = takeException 8 s.pc none s := by
  simp [runPrivileged, h]

end Sys2Proof.Machine
end

