-- ==== Sys2Proof/Laws/Registers.lean ====
section
/-! SUPPORT. Updates that meet: one register written twice, updates of different parts exchanged, what the end of an
instruction and a use of free values leave alone, and even addresses. -/

namespace Sys2Proof.Machine

open Sys2Proof.Safety

@[simp] theorem State.setPc_setPc (s : State) (v w : Long) : (s.setPc v).setPc w = s.setPc w := rfl

@[simp] theorem State.setMem_setMem (s : State) (m n : Memory) : (s.setMem m).setMem n = s.setMem n := rfl

@[simp] theorem State.setSp_setSp (s : State) (v w : Long) : (s.setSp v).setSp w = s.setSp w := by
  have h := State.setSp_supervisor s v
  unfold State.setSp at *
  by_cases hs : s.supervisor = true <;> simp_all [State.setSsp, State.setUsp]

theorem State.setSp_setMem (s : State) (v : Long) (m : Memory) : (s.setSp v).setMem m = (s.setMem m).setSp v := by
  unfold State.setSp
  rw [State.setMem_supervisor]
  split <;> rfl

theorem State.setSp_setPc (s : State) (v w : Long) : (s.setSp v).setPc w = (s.setPc w).setSp v := by
  unfold State.setSp
  rw [State.setPc_supervisor]
  split <;> rfl

theorem State.setSp_setCcr (s : State) (v : Long) (f : Ccr) : (s.setSp v).setCcr f = (s.setCcr f).setSp v := by
  unfold State.setSp
  rw [State.setCcr_supervisor]
  split <;> rfl

/-- A7 is the active stack pointer (R22). -/
@[simp] theorem State.readA_seven (s : State) : s.readA 7 = s.sp := by simp [State.readA]

/-- Writing A7 writes the active stack pointer (R22). -/
@[simp] theorem State.setA_seven (s : State) (v : Long) : s.setA 7 v = s.setSp v := by simp [State.setA]

theorem State.readA_setSp_other (s : State) (v : Long) (n : RegNum) (h : n ≠ 7) : (s.setSp v).readA n = s.readA n := by
  rw [← State.setA_seven, State.readA_setA_other _ _ _ _ h]

theorem State.sp_setA_other (s : State) (v : Long) (n : RegNum) (h : n ≠ 7) : (s.setA n v).sp = s.sp := by
  rw [← State.readA_seven, State.readA_setA_other _ _ _ _ (Ne.symm h), State.readA_seven]

theorem State.setA_setSp (s : State) (n : RegNum) (v w : Long) (h : n ≠ 7) :
    (s.setA n v).setSp w = (s.setSp w).setA n v := by
  have hn : n.val < 7 := by
    have := n.isLt
    have : n.val ≠ 7 := fun e => h (Fin.ext e)
    omega
  unfold State.setSp
  rw [State.setA_supervisor]
  simp only [State.setA, hn, dite_true]
  split <;> rfl

@[simp] theorem afterInstr_readD (s t : State) (n : RegNum) : (afterInstr s t).readD n = t.readD n := by
  simp [State.readD]

@[simp] theorem afterInstr_supervisor (s t : State) : (afterInstr s t).supervisor = t.supervisor := by
  simp [State.supervisor]

@[simp] theorem afterInstr_sp (s t : State) : (afterInstr s t).sp = t.sp := by simp [State.sp]

@[simp] theorem afterInstr_readA (s t : State) (n : RegNum) : (afterInstr s t).readA n = t.readA n := by
  simp [State.readA]

@[simp] theorem afterInstr_readX (s t : State) (r : XReg) : (afterInstr s t).readX r = t.readX r := by
  cases r <;> simp [State.readX]

@[simp] theorem drew_readD (k : Nat) (s : State) (n : RegNum) : (drew k s).readD n = s.readD n := rfl
@[simp] theorem drew_sr (k : Nat) (s : State) : (drew k s).sr = s.sr := rfl
@[simp] theorem drew_ccr (k : Nat) (s : State) : (drew k s).ccr = s.ccr := rfl
@[simp] theorem drew_sp (k : Nat) (s : State) : (drew k s).sp = s.sp := rfl
@[simp] theorem drew_mem (k : Nat) (s : State) : (drew k s).mem = s.mem := rfl
@[simp] theorem drew_memMap (k : Nat) (s : State) : (drew k s).memMap = s.memMap := rfl
@[simp] theorem drew_drew (j k : Nat) (s : State) : drew j (drew k s) = drew (k + j) s := by
  simp [drew, Nat.add_assoc]

/-- Registers read back after one is written: the register itself, or another. -/
theorem State.readX_setX (s : State) (r q : XReg) (v : Long) :
    (s.setX r v).readX q = if q = r then v else s.readX q := by
  cases r with
  | d n =>
    cases q with
    | d m =>
      by_cases h : m = n
      · simp [State.readX, State.setX, h]
      · simp [State.readX, State.setX, h, State.readD_setD_other]
    | a m => simp [State.readX, State.setX]
  | a n =>
    cases q with
    | d m => simp [State.readX, State.setX]
    | a m =>
      by_cases h : m = n
      · simp [State.readX, State.setX, h]
      · simp [State.readX, State.setX, h, State.readA_setA_other]

/-! Even addresses -/

theorem even_add {a b : Long} (ha : a.getLsbD 0 = false) (hb : b.getLsbD 0 = false) : (a + b).getLsbD 0 = false := by
  have bit0 : ∀ x : Long, x.getLsbD 0 = x.toNat.testBit 0 := fun _ => rfl
  simp only [bit0, Nat.testBit_zero, decide_eq_false_iff_not, BitVec.toNat_add] at *
  omega

theorem even_sub {a b : Long} (ha : a.getLsbD 0 = false) (hb : b.getLsbD 0 = false) : (a - b).getLsbD 0 = false := by
  have bit0 : ∀ x : Long, x.getLsbD 0 = x.toNat.testBit 0 := fun _ => rfl
  simp only [bit0, Nat.testBit_zero, decide_eq_false_iff_not, BitVec.toNat_sub] at *
  omega

/-- An even address is aligned at every size (R70). -/
theorem aligned_of_even {sz : Size} {a : Long} (h : a.getLsbD 0 = false) : misaligned sz a = false := by
  simp only [misaligned, h, Bool.and_false]

end Sys2Proof.Machine
end

