-- ==== Sys2Proof/Laws/Frame.lean ====
section
/-! SUPPORT. The frame `SameBut`: each update of the state keeps it, when the frame names what the update writes. A result
statement's frame is built from these from the last update backwards. -/

namespace Sys2Proof.Safety

open Sys2Proof.Machine

theorem SameBut.refl (s : State) (ds as : List RegNum) (bytes : List Nat) : SameBut s s ds as bytes :=
  ⟨fun _ _ => rfl, fun _ _ => rfl, by split <;> rfl, rfl, fun _ _ => rfl, rfl, rfl, rfl, rfl, rfl, rfl, ⟨rfl, rfl⟩, rfl⟩

/-- The frame keeps the mode: S is bit 13 of SR. -/
theorem SameBut.supervisor {s t : State} {ds as : List RegNum} {bytes : List Nat} (h : SameBut s t ds as bytes) :
    t.supervisor = s.supervisor := by
  have hs := congrArg (fun w : Word => w.getLsbD 13) h.status
  simpa [State.supervisor] using hs

/-- The frame keeps T: bit 15 of SR. -/
theorem SameBut.traceBit {s t : State} {ds as : List RegNum} {bytes : List Nat} (h : SameBut s t ds as bytes) :
    t.traceBit = s.traceBit := by
  have hs := congrArg (fun w : Word => w.getLsbD 15) h.status
  simpa [State.traceBit] using hs

theorem SameBut.setPc {s t : State} {ds as : List RegNum} {bytes : List Nat} (h : SameBut s t ds as bytes) (v : Long) :
    SameBut s (t.setPc v) ds as bytes :=
  ⟨fun n hn => by simpa using h.data n hn, fun n hn => by simpa using h.address n hn, h.otherStack, h.status, h.memory,
    h.stopped, h.halted, h.group, h.sample, h.opword, h.history, h.platform, h.prefetch⟩

theorem SameBut.setD {s t : State} {ds as : List RegNum} {bytes : List Nat} (h : SameBut s t ds as bytes) {n : RegNum}
    (hn : n ∈ ds) (v : Long) : SameBut s (t.setD n v) ds as bytes :=
  ⟨fun m hm => by
      have hne : m ≠ n := fun e => hm (by rw [e]; exact hn)
      rw [State.readD_setD_other _ _ _ _ hne]
      exact h.data m hm,
    fun m hm => by simpa using h.address m hm, h.otherStack, h.status, h.memory,
    h.stopped, h.halted, h.group, h.sample, h.opword, h.history, h.platform, h.prefetch⟩

theorem SameBut.setDn {s t : State} {ds as : List RegNum} {bytes : List Nat} (h : SameBut s t ds as bytes) {sz : Size}
    {n : RegNum} (hn : n ∈ ds) (v : BitVec sz.bits) : SameBut s (t.setDn sz n v) ds as bytes :=
  h.setD hn _

theorem SameBut.setCcr {s t : State} {ds as : List RegNum} {bytes : List Nat} (h : SameBut s t ds as bytes) (f : Ccr) :
    SameBut s (t.setCcr f) ds as bytes :=
  ⟨fun m hm => by simpa using h.data m hm, fun m hm => by simpa using h.address m hm, h.otherStack, by
      rw [← h.status]
      simp only [State.setCcr_sr, Config.srMask]
      rcases f with ⟨x, n, z, v, c⟩
      cases x <;> cases n <;> cases z <;> cases v <;> cases c <;>
        (ext i hi
         simp only [BitVec.getElem_and, BitVec.getElem_or]
         have : i < 16 := hi
         interval_cases i <;> simp [wordOfCcr]), h.memory,
    h.stopped, h.halted, h.group, h.sample, h.opword, h.history, h.platform, h.prefetch⟩

theorem SameBut.setA {s t : State} {ds as : List RegNum} {bytes : List Nat} (h : SameBut s t ds as bytes) {n : RegNum}
    (hn : n ∈ as) (v : Long) : SameBut s (t.setA n v) ds as bytes :=
  ⟨fun m hm => by simpa using h.data m hm,
    fun m hm => by
      have hne : m ≠ n := fun e => hm (by rw [e]; exact hn)
      rw [State.readA_setA_other _ _ _ _ hne]
      exact h.address m hm, by
      have hs := h.otherStack
      have hm := h.supervisor
      by_cases hn : n.val < 7
      · simpa only [State.setA, hn, dite_true] using hs
      · by_cases hx : s.supervisor = true <;> simp_all [State.setA, State.setSp, dif_neg (Nat.not_lt.mpr _)], by simpa using h.status, by simpa using h.memory,
    by simpa using h.stopped, by simpa using h.halted, by simpa using h.group, by simpa using h.sample,
    by simpa using h.opword, by simpa using h.history, by simpa using h.platform, by simpa using h.prefetch⟩

theorem SameBut.setSp {s t : State} {ds as : List RegNum} {bytes : List Nat} (h : SameBut s t ds as bytes) (hn : 7 ∈ as)
    (v : Long) : SameBut s (t.setSp v) ds as bytes := by
  rw [← State.setA_seven]
  exact h.setA hn v

theorem SameBut.setX {s t : State} {ds as : List RegNum} {bytes : List Nat} (h : SameBut s t ds as bytes) {r : XReg}
    (hd : ∀ n, r = .d n → n ∈ ds) (ha : ∀ n, r = .a n → n ∈ as) (v : Long) : SameBut s (t.setX r v) ds as bytes := by
  cases r with
  | d n => exact h.setD (hd n rfl) v
  | a n => exact h.setA (ha n rfl) v

theorem SameBut.setMem {s t : State} {ds as : List RegNum} {bytes : List Nat} (h : SameBut s t ds as bytes) {m : Memory}
    (hm : ∀ a, a ∉ bytes → memRead m a = memRead t.mem a) : SameBut s (t.setMem m) ds as bytes :=
  ⟨fun n hn => by simpa using h.data n hn, fun n hn => by simpa using h.address n hn, h.otherStack, h.status,
    fun a ha => (hm a ha).trans (h.memory a ha),
    h.stopped, h.halted, h.group, h.sample, h.opword, h.history, h.platform, h.prefetch⟩

theorem SameBut.poke {s t : State} {ds as : List RegNum} {bytes : List Nat} (h : SameBut s t ds as bytes) {sz : Size}
    {m : Memory} (hm : ∀ a, a ∉ bytes → memRead m a = memRead t.mem a) {addr : Long} (v : BitVec sz.bits)
    (hb : ∀ a ∈ bytesAt sz addr, a ∈ bytes) : SameBut s (t.setMem (Machine.poke sz m addr v)) ds as bytes :=
  h.setMem fun a ha => (memRead_poke_other sz m addr v a fun hx => ha (hb a hx)).trans (hm a ha)

theorem SameBut.drew {s t : State} {ds as : List RegNum} {bytes : List Nat} (h : SameBut s t ds as bytes) (k : Nat) :
    SameBut s (drew k t) ds as bytes :=
  ⟨h.data, h.address, h.otherStack, h.status, h.memory,
    h.stopped, h.halted, h.group, h.sample, h.opword, h.history, h.platform, h.prefetch⟩

theorem SameBut.eaBump {s t : State} {ds as : List RegNum} {bytes : List Nat} (h : SameBut s t ds as bytes) (sz : Size)
    {ea : EA} (ha : ∀ n ∈ movedRegs ea, n ∈ as) : SameBut s (Machine.eaBump sz ea t) ds as bytes := by
  cases ea with
  | postInc n => exact h.setA (ha n (by simp [movedRegs])) _
  | preDec n => exact h.setA (ha n (by simp [movedRegs])) _
  | _ => exact h

theorem SameBut.locStore {s t : State} {ds as : List RegNum} {bytes : List Nat} (h : SameBut s t ds as bytes) {sz : Size}
    {loc : Loc} (v : BitVec sz.bits) (hd : ∀ n ∈ locData loc, n ∈ ds) (hb : ∀ a ∈ locBytes sz loc, a ∈ bytes) :
    SameBut s (Safety.locStore sz loc v t) ds as bytes := by
  cases loc with
  | d n => exact h.setDn (hd n (by simp [locData])) v
  | mem addr p => exact h.poke (fun _ _ => rfl) v hb
  | _ => exact h

/-- Growing what the frame names. -/
theorem SameBut.mono {s t : State} {ds as ds' as' : List RegNum} {bytes bytes' : List Nat} (h : SameBut s t ds as bytes)
    (hd : ∀ n ∈ ds, n ∈ ds') (ha : ∀ n ∈ as, n ∈ as') (hb : ∀ a ∈ bytes, a ∈ bytes') : SameBut s t ds' as' bytes' :=
  ⟨fun n hn => h.data n fun hx => hn (hd n hx), fun n hn => h.address n fun hx => hn (ha n hx), h.otherStack, h.status,
    fun a hx => h.memory a fun hy => hx (hb a hy),
    h.stopped, h.halted, h.group, h.sample, h.opword, h.history, h.platform, h.prefetch⟩

end Sys2Proof.Safety
end

