-- ==== Sys2Proof/Laws/Shapes.lean ====
section
/-! SUPPORT. How long an instruction is, and what each shape of instruction does on plain memory: one lemma per shared
operation, saying the whole next state. `s.past k` is the state with PC past `k` words. -/

namespace Sys2Proof

@[simp] theorem immWords_length (sz : Size) (v : Long) : (immWords sz v).length = Machine.immCount sz := by
  cases sz <;> rfl

@[simp] theorem ea_ext_length (sz : Size) (ea : EA) : (ea.ext sz).length = Machine.eaCount sz ea := by
  cases ea <;> first | rfl | exact immWords_length _ _

@[simp] theorem branch_ext_length (d : BranchDisp) : d.ext.length = Machine.branchCount d := by
  cases d <;> rfl

@[simp] theorem encEa_length (base : Nat) (sz : Size) (ea : EA) : (encEa base sz ea).length = 1 + Machine.eaCount sz ea := by
  simp [encEa, Nat.add_comm]

@[simp] theorem encSizedEa_length (base : Nat) (sz : Size) (ea : EA) :
    (encSizedEa base sz ea).length = 1 + Machine.eaCount sz ea := by
  simp [encSizedEa]

@[simp] theorem encImmEa_length (base : Nat) (sz : Size) (imm : Long) (ea : EA) :
    (encImmEa base sz imm ea).length = 1 + (Machine.immCount sz + Machine.eaCount sz ea) := by
  simp [encImmEa, Nat.add_comm]

@[simp] theorem encBitEa_length (base : Nat) (bit : BitVec 8) (ea : EA) :
    (encBitEa base bit ea).length = 1 + (1 + Machine.eaCount .byte ea) := by
  simp [encBitEa]
  omega

@[simp] theorem encMove_length (base : Nat) (sz : Size) (src dst : EA) :
    (encMove base sz src dst).length = 1 + (Machine.eaCount sz src + Machine.eaCount sz dst) := by
  simp [encMove]
  omega

@[simp] theorem encMovem_length (base : Nat) (sz : WordLong) (mask : Word) (ea : EA) :
    (encMovem base sz mask ea).length = 1 + (1 + Machine.eaCount sz.size ea) := by
  simp [encMovem]
  omega

@[simp] theorem encShift_length (base : Nat) (cnt : Count) (sz : Size) (dn : RegNum) :
    (encShift base cnt sz dn).length = 1 := rfl

end Sys2Proof

namespace Sys2Proof.Machine

open Sys2Proof.Safety

/-- PC past `k` words. -/
@[reducible] def State.past (s : State) (k : Nat) : State := s.setPc (s.pc + BitVec.ofNat 32 (2 * k))

@[simp] theorem locValue_setCcr (sz : Size) (loc : Loc) (s : State) (f : Ccr) :
    locValue sz loc (s.setCcr f) = locValue sz loc s := by
  cases loc <;> simp [locValue]

@[simp] theorem eaBump_readD (sz : Size) (ea : EA) (s : State) (n : RegNum) : (eaBump sz ea s).readD n = s.readD n := by
  simp [State.readD]

@[simp] theorem eaBump_ccr (sz : Size) (ea : EA) (s : State) : (eaBump sz ea s).ccr = s.ccr := by
  simp [State.ccr]

@[simp] theorem eaBump_supervisor (sz : Size) (ea : EA) (s : State) : (eaBump sz ea s).supervisor = s.supervisor := by
  simp [State.supervisor]

@[simp] theorem eaBump_readSr (sz : Size) (ea : EA) (s : State) : (eaBump sz ea s).readSr = s.readSr := by
  simp [State.readSr]

@[simp] theorem locStore_pc (sz : Size) (loc : Loc) (v : BitVec sz.bits) (s : State) : (locStore sz loc v s).pc = s.pc := by
  cases loc <;> rfl

@[simp] theorem locStore_sr (sz : Size) (loc : Loc) (v : BitVec sz.bits) (s : State) : (locStore sz loc v s).sr = s.sr := by
  cases loc <;> rfl

@[simp] theorem locStore_ccr (sz : Size) (loc : Loc) (v : BitVec sz.bits) (s : State) : (locStore sz loc v s).ccr = s.ccr := by
  cases loc <;> rfl

@[simp] theorem locStore_memMap (sz : Size) (loc : Loc) (v : BitVec sz.bits) (s : State) :
    (locStore sz loc v s).memMap = s.memMap := by
  cases loc <;> rfl

/-- An operation on a source and Dn (SUB, OR, AND, ADD to a data register). -/
theorem eaToDn_plain {sz : Size} {ea : EA} {dn : RegNum}
    {f : Ccr → BitVec sz.bits → BitVec sz.bits → BitVec sz.bits × Ccr} {s : State} (hm : s.memMap = [])
    (ha : locAligned sz (operandLoc sz 0 ea s) = true) :
    eaToDn sz ea dn f s = afterInstr s
      (let p := f s.ccr (locValue sz (operandLoc sz 0 ea s) s) (truncTo sz (s.readD dn))
       ((eaBump sz ea (s.past (1 + eaCount sz ea))).setCcr p.2).setDn sz dn p.1) := by
  apply runInstr_ok hm
  rw [act_bind_ok (readEa_plain (by simpa using hm) (by simpa [operandLoc, eaBase] using ha))]
  simp [operandLoc, eaBase]

/-- An operand read and written at one location. -/
theorem updateEa_plain {pre : Nat} {sz : Size} {ea : EA} {f : State → BitVec sz.bits → BitVec sz.bits × Ccr} {s : State}
    (hm : s.memMap = []) (hw : locWritable (operandLoc sz pre ea s) = true)
    (ha : locAligned sz (operandLoc sz pre ea s) = true) :
    updateEa pre sz ea f s = afterInstr s
      (let u := eaBump sz ea (s.past (1 + (pre + eaCount sz ea)))
       let p := f u (locValue sz (operandLoc sz pre ea s) s)
       locStore sz (operandLoc sz pre ea s) p.1 (u.setCcr p.2)) := by
  apply runInstr_ok hm
  simp only [act_bind, evalEa_eq, eaLoc_setPc, eaBase]
  rw [readLoc_plain (by simpa using hm) (by simpa [operandLoc] using ha)]
  simp only [act_get, setFlags, act_modify]
  rw [writeLoc_plain (by simpa using hm) (by simpa [operandLoc] using ha) (by simpa [operandLoc] using hw)]
  have h := locValue_eaBump sz (s.pc + BitVec.ofNat 32 (2 + 2 * pre)) ea (s.past (1 + (pre + eaCount sz ea)))
  simp only [State.past, eaLoc_setPc, locValue_setPc] at h
  simp only [operandLoc, h]

/-- Flags from an operand that is only read. -/
theorem testEa_plain {pre : Nat} {sz : Size} {ea : EA} {f : State → BitVec sz.bits → Ccr} {s : State}
    (hm : s.memMap = []) (ha : locAligned sz (operandLoc sz pre ea s) = true) :
    testEa pre sz ea f s = afterInstr s
      (let u := eaBump sz ea (s.past (1 + (pre + eaCount sz ea)))
       u.setCcr (f u (locValue sz (operandLoc sz pre ea s) s))) := by
  apply runInstr_ok hm
  rw [act_bind_ok (readEa_plain (by simpa using hm) (by simpa [operandLoc, eaBase] using ha))]
  simp [operandLoc, eaBase]

/-- A value stored over an operand (CLR, Scc, MOVE from SR). -/
theorem overwriteEa_plain {sz : Size} {ea : EA} {value : State → BitVec sz.bits} {flags : State → State}
    {writes : List Dest} {s : State} (hm : s.memMap = []) (hf : ∀ t, (flags t).memMap = t.memMap)
    (hw : locWritable (operandLoc sz 0 ea s) = true) (ha : locAligned sz (operandLoc sz 0 ea s) = true) :
    overwriteEa sz ea value flags writes s = afterInstr s
      (let u := eaBump sz ea (s.past (1 + eaCount sz ea))
       locStore sz (operandLoc sz 0 ea s) (value u) (flags u)) := by
  apply runInstr_ok hm
  simp only [act_bind, evalEa_eq, eaLoc_setPc, eaBase]
  have hl : eaLoc sz (s.pc + BitVec.ofNat 32 (2 + 2 * 0)) ea s = operandLoc sz 0 ea s := rfl
  rw [hl]
  have hwr := writeLoc_plain (v := value (eaBump sz ea (s.past (1 + eaCount sz ea))))
    (s := flags (eaBump sz ea (s.past (1 + eaCount sz ea)))) (by simpa [hf] using hm) ha hw
  generalize operandLoc sz 0 ea s = loc at *
  cases loc with
  | mem addr program =>
    have hp : plainAt (eaBump sz ea (s.past (1 + eaCount sz ea))).memMap addr sz.bytes = true := by simp [hm]
    exact (act_bind_ok (readMem_plain (by simpa [locAligned] using ha) hp)).trans hwr
  | d n => exact hwr
  | a n => exact hwr
  | imm v => exact hwr

/-- A source that joins all of An, no flag. -/
theorem eaToAn_plain {sz : Size} {ea : EA} {an : RegNum} {f : Long → Long → Long} {s : State} (hm : s.memMap = [])
    (ha : locAligned sz (operandLoc sz 0 ea s) = true) :
    eaToAn sz ea an f s = afterInstr s
      (let u := eaBump sz ea (s.past (1 + eaCount sz ea))
       u.setA an (f (sextTo sz (locValue sz (operandLoc sz 0 ea s) s)) (u.readA an))) := by
  apply runInstr_ok hm
  rw [act_bind_ok (readEa_plain (by simpa using hm) (by simpa [operandLoc, eaBase] using ha))]
  simp [operandLoc, eaBase]

/-- Moving an address register and moving PC do not meet. -/
theorem eaBump_setPc (sz : Size) (ea : EA) (s : State) (p : Long) :
    eaBump sz ea (s.setPc p) = (eaBump sz ea s).setPc p := by
  cases ea <;> simp only [eaBump, State.setA, State.setSp, State.readA_setPc] <;> (repeat' split) <;> simp_all <;> rfl

/-- A destination's location does not depend on PC: no alterable mode is PC-relative (R154). -/
theorem eaLoc_alterable (sz : Size) {ea : EA} (h : EaSet.dataAlterable.accepts ea.kind = true) (p q : Long) (s : State) :
    eaLoc sz p ea s = eaLoc sz q ea s := by
  cases ea <;> simp_all [eaLoc, EA.kind, EaSet.accepts, EaKind.isData, EaKind.isAlterable]

/-- MOVE: the source's value stored at the destination, which is evaluated after the source (R160). -/
theorem moveEa_plain {sz : Size} {src dst : EA} {s : State} (hm : s.memMap = [])
    (hd : EaSet.dataAlterable.accepts dst.kind = true) (ha : locAligned sz (operandLoc sz 0 src s) = true) :
    let u := eaBump sz src (s.past (1 + (eaCount sz src + eaCount sz dst)))
    let v := locValue sz (operandLoc sz 0 src s) s
    locAligned sz (eaLoc sz 0 dst u) = true →
    moveEa sz src dst s =
      afterInstr s (locStore sz (eaLoc sz 0 dst u) v ((eaBump sz dst u).setCcr (logicFlags s.ccr v))) := by
  intro u v hl
  apply runInstr_ok hm
  rw [act_bind_ok (readEa_plain (by simpa using hm) (by simpa [operandLoc, eaBase] using ha)),
    act_bind_ok (fetchExt_plain _ _ (by simpa using hm))]
  have hu : (eaBump sz src (s.past (1 + eaCount sz src))).setPc
      ((eaBump sz src (s.past (1 + eaCount sz src))).pc + BitVec.ofNat 32 (2 * eaCount sz dst)) = u := by
    simp only [u, State.past, eaBump_setPc, State.setPc_setPc, State.setPc_pc, BitVec.add_assoc, ← BitVec.ofNat_add,
      ← Nat.mul_add, Nat.add_assoc]
  simp only [act_bind, evalEa_eq, act_modify]
  rw [hu, eaLoc_alterable sz hd _ 0, writeLoc_plain (by simp [u, hm]) hl (eaLoc_writable _ _ _ _ hd)]
  simp [u, v, operandLoc, eaBase]

/-- A register operation that reads only registers. -/
theorem runInstr_modify {ext : Nat} {writes : List Dest} {f : State → State} {s : State} (hm : s.memMap = []) :
    runInstr ext writes (fun _ => modify f) s = afterInstr s (f (s.past (1 + ext))) :=
  runInstr_ok hm rfl

/-- The operands of a memory-to-memory extended operation. -/
theorem readPreDecPair_plain {sz : Size} {src dst : RegNum} {s : State} (hm : s.memMap = []) :
    let u := s.setA src (s.readA src - incAmount src sz)
    let da := u.readA dst - incAmount dst sz
    misaligned sz (s.readA src - incAmount src sz) = false → misaligned sz da = false →
    readPreDecPair sz src dst s =
      .ok (peek sz s.mem (s.readA src - incAmount src sz), peek sz s.mem da, da) (u.setA dst da) := by
  intro u da hs hd
  simp only [readPreDecPair, act_bind, evalEa_eq, eaLoc, readLoc]
  rw [readMem_plain hs (by simp [hm])]
  simp only [eaBump, act_modify, act_get, State.readA_setA_self]
  rw [readMem_plain hd (by simp [hm])]
  simp only [act_pure, State.setA_mem, u, da]

end Sys2Proof.Machine
end

