-- ==== Sys2Proof/Laws/Movem.lean ====
section
/-! SUPPORT. What MOVEM's loops do on plain memory (41_data_movement.md R189, R190): the state and the last address, which
bytes change, and what is read back. -/

namespace Sys2Proof.Machine

open Sys2Proof.Safety

theorem addrAfter_succ (sz : Size) (addr : Long) (k : Nat) :
    addrAfter sz (addr + BitVec.ofNat 32 sz.bytes) k = addrAfter sz addr (k + 1) := by
  unfold addrAfter
  rw [BitVec.add_assoc, ← BitVec.ofNat_add, show sz.bytes + sz.bytes * k = sz.bytes * (k + 1) by ring]

theorem addrBefore_succ (sz : Size) (addr : Long) (k : Nat) :
    addrBefore sz (addr - BitVec.ofNat 32 sz.bytes) k = addrBefore sz addr (k + 1) := by
  unfold addrBefore
  rw [show sz.bytes * (k + 1) = sz.bytes + sz.bytes * k by ring, BitVec.ofNat_add]
  bv_omega

/-- Stepping by an operand of a word or more keeps an address aligned. -/
theorem aligned_step {sz : Size} {addr : Long} (h : misaligned sz addr = false) :
    misaligned sz (addr + BitVec.ofNat 32 sz.bytes) = false ∧ misaligned sz (addr - BitVec.ofNat 32 sz.bytes) = false := by
  cases sz with
  | byte => exact ⟨rfl, rfl⟩
  | word =>
    have he : addr.getLsbD 0 = false := h
    exact ⟨aligned_of_even (even_add he rfl), aligned_of_even (even_sub he rfl)⟩
  | long =>
    have he : addr.getLsbD 0 = false := h
    exact ⟨aligned_of_even (even_add he rfl), aligned_of_even (even_sub he rfl)⟩

theorem storeUp_plain {sz : Size} (regs : List XReg) {addr : Long} {s : State} (hm : s.memMap = [])
    (ha : misaligned sz addr = false) :
    storeUp sz regs addr s = .ok (addrAfter sz addr regs.length) (storedUp sz regs addr s) := by
  induction regs generalizing addr s with
  | nil => simp [storeUp, storedUp, addrAfter]
  | cons r rs ih =>
    simp only [storeUp, act_get_bind]
    rw [act_bind_ok (writeMem_plain ha (by simp [hm])), ih (by simpa using hm) (aligned_step ha).1, addrAfter_succ]
    rfl

theorem storeDown_plain {sz : Size} (regs : List XReg) {addr : Long} {s : State} (hm : s.memMap = [])
    (ha : misaligned sz addr = false) :
    storeDown sz regs addr s = .ok (addrBefore sz addr regs.length) (storedDown sz regs addr s) := by
  induction regs generalizing addr s with
  | nil => simp [storeDown, storedDown, addrBefore]
  | cons r rs ih =>
    simp only [storeDown, act_get_bind]
    rw [act_bind_ok (writeMem_plain (aligned_step ha).2 (by simp [hm])), ih (by simpa using hm) (aligned_step ha).2,
      addrBefore_succ]
    rfl

theorem loadUp_plain {sz : Size} {program : Bool} (regs : List XReg) {addr : Long} {s : State} (hm : s.memMap = [])
    (ha : misaligned sz addr = false) :
    loadUp sz program regs addr s = .ok (addrAfter sz addr regs.length) (loadedUp sz regs addr s) := by
  induction regs generalizing addr s with
  | nil => simp [loadUp, loadedUp, addrAfter]
  | cons r rs ih =>
    simp only [loadUp]
    rw [act_bind_ok (readMem_plain ha (by simp [hm]))]
    simp only [act_modify_bind]
    have hx : (s.setX r (sextTo sz (peek sz s.mem addr))).memMap = [] := by cases r <;> simpa [State.setX] using hm
    rw [ih hx (aligned_step ha).1, addrAfter_succ]
    rfl

/-- The bytes of operands stored upward are within the run of bytes from the first. -/
theorem bytesAt_addrAfter {sz : Size} {addr : Long} {j k : Nat} (h : j < k) (a : Nat)
    (ha : a ∈ bytesAt sz (addrAfter sz addr j)) : a ∈ (List.range (sz.bytes * k)).map (phys addr) := by
  simp only [bytesAt, List.mem_map, List.mem_range] at ha ⊢
  obtain ⟨i, hi, rfl⟩ := ha
  refine ⟨sz.bytes * j + i, ?_, ?_⟩
  · calc sz.bytes * j + i < sz.bytes * j + sz.bytes := by omega
      _ = sz.bytes * (j + 1) := by ring
      _ ≤ sz.bytes * k := Nat.mul_le_mul_left _ h
  · simp only [phys, addrAfter, BitVec.toNat_add, BitVec.toNat_ofNat, Config.addrBits]
    omega

/-- Storing upward changes only the run of bytes from the first address, and no register. -/
theorem storedUp_sameBut {sz : Size} (regs : List XReg) {addr : Long} {s t : State} {ds as : List RegNum}
    {bytes : List Nat} (h : SameBut s t ds as bytes)
    (hb : ∀ j < regs.length, ∀ a ∈ bytesAt sz (addrAfter sz addr j), a ∈ bytes) :
    SameBut s (storedUp sz regs addr t) ds as bytes := by
  induction regs generalizing addr t with
  | nil => exact h
  | cons r rs ih =>
    refine ih (h.poke (fun _ _ => rfl) _ ?_) ?_
    · simpa [addrAfter] using hb 0 (by simp)
    · intro j hj
      rw [addrAfter_succ]
      exact hb (j + 1) (by simpa using hj)

/-- Storing downward changes only the bytes below the first address, and no register. -/
theorem storedDown_sameBut {sz : Size} (regs : List XReg) {addr : Long} {s t : State} {ds as : List RegNum}
    {bytes : List Nat} (h : SameBut s t ds as bytes)
    (hb : ∀ j < regs.length, ∀ a ∈ bytesAt sz (addrBefore sz addr (j + 1)), a ∈ bytes) :
    SameBut s (storedDown sz regs addr t) ds as bytes := by
  induction regs generalizing addr t with
  | nil => exact h
  | cons r rs ih =>
    refine ih (h.poke (fun _ _ => rfl) _ ?_) ?_
    · simpa [addrBefore] using hb 0 (by simp)
    · intro j hj
      rw [addrBefore_succ]
      exact hb (j + 1) (by simpa using hj)

/-- Loading changes only the registers of the list. -/
theorem loadedUp_sameBut {sz : Size} (regs : List XReg) {addr : Long} {s t : State} {ds as : List RegNum}
    {bytes : List Nat} (h : SameBut s t ds as bytes) (hd : ∀ n, XReg.d n ∈ regs → n ∈ ds)
    (ha : ∀ n, XReg.a n ∈ regs → n ∈ as) : SameBut s (loadedUp sz regs addr t) ds as bytes := by
  induction regs generalizing addr t with
  | nil => exact h
  | cons r rs ih =>
    refine ih (h.setX ?_ ?_ _) (fun n hn => hd n (List.mem_cons_of_mem _ hn)) (fun n hn => ha n (List.mem_cons_of_mem _ hn))
    · rintro n rfl
      exact hd n (by simp)
    · rintro n rfl
      exact ha n (by simp)

@[simp] theorem storedUp_readX (sz : Size) (regs : List XReg) (addr : Long) (s : State) (r : XReg) :
    (storedUp sz regs addr s).readX r = s.readX r := by
  induction regs generalizing addr s with
  | nil => rfl
  | cons q rs ih => simp [storedUp, ih]

@[simp] theorem storedDown_readX (sz : Size) (regs : List XReg) (addr : Long) (s : State) (r : XReg) :
    (storedDown sz regs addr s).readX r = s.readX r := by
  induction regs generalizing addr s with
  | nil => rfl
  | cons q rs ih => simp [storedDown, ih]

@[simp] theorem loadedUp_mem (sz : Size) (regs : List XReg) (addr : Long) (s : State) :
    (loadedUp sz regs addr s).mem = s.mem := by
  induction regs generalizing addr s with
  | nil => rfl
  | cons r rs ih =>
    simp only [loadedUp, ih]
    cases r <;> simp [State.setX]

@[simp] theorem storedUp_sr (sz : Size) (regs : List XReg) (addr : Long) (s : State) :
    (storedUp sz regs addr s).sr = s.sr := by
  induction regs generalizing addr s with
  | nil => rfl
  | cons r rs ih => simp [storedUp, ih]

@[simp] theorem storedDown_sr (sz : Size) (regs : List XReg) (addr : Long) (s : State) :
    (storedDown sz regs addr s).sr = s.sr := by
  induction regs generalizing addr s with
  | nil => rfl
  | cons r rs ih => simp [storedDown, ih]

@[simp] theorem loadedUp_sr (sz : Size) (regs : List XReg) (addr : Long) (s : State) :
    (loadedUp sz regs addr s).sr = s.sr := by
  induction regs generalizing addr s with
  | nil => rfl
  | cons r rs ih =>
    simp only [loadedUp, ih]
    cases r <;> simp [State.setX]

@[simp] theorem loadedUp_memMap (sz : Size) (regs : List XReg) (addr : Long) (s : State) :
    (loadedUp sz regs addr s).memMap = s.memMap := by
  induction regs generalizing addr s with
  | nil => rfl
  | cons r rs ih =>
    simp only [loadedUp, ih]
    cases r <;> simp [State.setX]

/-- A register outside the list is not loaded. -/
theorem loadedUp_readX_other (sz : Size) (regs : List XReg) (addr : Long) (s : State) (r : XReg) (h : r ∉ regs) :
    (loadedUp sz regs addr s).readX r = s.readX r := by
  induction regs generalizing addr s with
  | nil => rfl
  | cons q rs ih =>
    simp only [List.mem_cons, not_or] at h
    simp [loadedUp, ih _ _ h.2, State.readX_setX, h.1]

theorem addrBefore_eq (sz : Size) (addr : Long) (j k : Nat) (h : j ≤ k) :
    addrBefore sz addr j = addrBefore sz addr k + BitVec.ofNat 32 (sz.bytes * (k - j)) := by
  have hk : sz.bytes * k = sz.bytes * j + sz.bytes * (k - j) := by rw [← Nat.mul_add]; congr 1; omega
  unfold addrBefore
  rw [hk, BitVec.ofNat_add]
  bv_omega

/-- Storing downward leaves operands at and above the first address, within memory's size. -/
theorem peek_storedDown_above (sz : Size) (regs : List XReg) (addr : Long) (s : State)
    (hl : sz.bytes * (regs.length + 1) ≤ 2 ^ Config.addrBits) :
    peek sz (storedDown sz regs addr s).mem addr = peek sz s.mem addr := by
  have hs := storedDown_sameBut (sz := sz) regs (addr := addr) (s := s) (t := s) (ds := []) (as := [])
    (bytes := (List.range regs.length).flatMap fun j => bytesAt sz (addrBefore sz addr (j + 1))) (SameBut.refl _ _ _ _)
    (fun j hj a ha => List.mem_flatMap.mpr ⟨j, List.mem_range.mpr hj, ha⟩)
  have hr : ∀ i < sz.bytes, memRead (storedDown sz regs addr s).mem (phys addr i) = memRead s.mem (phys addr i) := by
    intro i hi
    refine hs.memory _ ?_
    intro hm
    obtain ⟨j, hj, hb⟩ := List.mem_flatMap.mp hm
    have hj' := List.mem_range.mp hj
    have hz : sz.bytes * (j + 1) ≤ sz.bytes * regs.length := Nat.mul_le_mul_left _ hj'
    have ha : phys addr i ∈ bytesAt sz (addrBefore sz addr (j + 1) + BitVec.ofNat 32 (sz.bytes * (j + 1))) := by
      have : addrBefore sz addr (j + 1) + BitVec.ofNat 32 (sz.bytes * (j + 1)) = addr := by
        unfold addrBefore
        bv_omega
      rw [this]
      simp only [bytesAt, List.mem_map, List.mem_range]
      exact ⟨i, hi, rfl⟩
    have hb' : phys addr i ∈ bytesAt sz (addrBefore sz addr (j + 1) + BitVec.ofNat 32 0) := by simpa using hb
    have hm1 : sz.bytes * (j + 1) = sz.bytes * j + sz.bytes := by ring
    have hm2 : sz.bytes * (regs.length + 1) = sz.bytes * regs.length + sz.bytes := by ring
    exact bytesAt_disjoint (addrBefore sz addr (j + 1)) sz sz 0 (sz.bytes * (j + 1)) (.inl (by omega)) (by omega)
      (by omega) _ hb' ha
  cases sz with
  | byte => exact hr 0 (by decide)
  | word => simp only [peek, hr 0 (by decide), hr 1 (by decide)]
  | long => simp only [peek, hr 0 (by decide), hr 1 (by decide), hr 2 (by decide), hr 3 (by decide)]

/-- Each register stored downward is read back from its place (R189). -/
theorem peek_storedDown (sz : Size) (regs : List XReg) (addr : Long) (s : State) (hw : s.mem.wf = true)
    (hl : sz.bytes * (regs.length + 1) ≤ 2 ^ Config.addrBits) (j : Nat) (hj : j < regs.length) :
    peek sz (storedDown sz regs addr s).mem (addrBefore sz addr (j + 1)) = truncTo sz (s.readX regs[j]) := by
  induction regs generalizing addr s j with
  | nil => exact absurd hj (by simp)
  | cons r rs ih =>
    have hl' : sz.bytes * (rs.length + 1) ≤ 2 ^ Config.addrBits :=
      le_trans (Nat.mul_le_mul_left _ (by simp)) hl
    cases j with
    | zero =>
      have ha : addrBefore sz addr (0 + 1) = addr - BitVec.ofNat 32 sz.bytes := by simp [addrBefore]
      rw [ha]
      simp only [storedDown]
      rw [peek_storedDown_above _ _ _ _ hl']
      exact peek_poke sz _ _ _ hw
    | succ j =>
      simp only [storedDown]
      rw [← addrBefore_succ, ih _ _ (by simpa using poke_wf _ _ _ _ hw) hl' j (by simpa using hj)]
      simp

/-- Each register of a list without repeats is loaded from its place (R190). -/
theorem loadedUp_readX (sz : Size) (regs : List XReg) (addr : Long) (s : State) (hn : regs.Nodup) (j : Nat)
    (hj : j < regs.length) :
    (loadedUp sz regs addr s).readX regs[j] = sextTo sz (peek sz s.mem (addrAfter sz addr j)) := by
  induction regs generalizing addr s j with
  | nil => exact absurd hj (by simp)
  | cons r rs ih =>
    have hmem : (s.setX r (sextTo sz (peek sz s.mem addr))).mem = s.mem := by cases r <;> simp [State.setX]
    cases j with
    | zero =>
      simp only [loadedUp, List.getElem_cons_zero]
      rw [loadedUp_readX_other _ _ _ _ _ (List.nodup_cons.mp hn).1, State.readX_setX, if_pos rfl]
      simp [addrAfter]
    | succ j =>
      simp only [loadedUp, List.getElem_cons_succ]
      rw [ih _ _ (List.nodup_cons.mp hn).2 j (by simpa using hj), hmem, addrAfter_succ]

end Sys2Proof.Machine
end

