-- ==== Sys2Proof/Laws/Keeps.lean ====
section
/-! SUPPORT. What an effect keeps: `Keeps P x` says that `P` holds of the state that `x` ends in, completed or abandoned,
when it held before. The rules for sequencing, and for every shared operation, given what `P` is kept by (`Steady`). -/

namespace Sys2Proof.Machine

open Sys2Proof.Safety

/-- The state an effect ends in. -/
def endState {α : Type} : EStateM.Result Abort State α → State
  | .ok _ t => t
  | .error _ t => t

/-- An effect keeps a property of the state, whether it completes or is abandoned. -/
def Keeps {α : Type} (P : State → Prop) (x : Act α) : Prop := ∀ s, P s → P (endState (x s))

/-- A property of the state that the updates shared by all instructions keep. -/
structure Steady (P : State → Prop) : Prop where
  draws : ∀ s n, P s → P { s with draws := n }
  record : ∀ s e, P s → P (s.record e)
  write : ∀ s addr i b, P s → P (s.setMem (memWrite s.mem (phys addr i) b))
  setD : ∀ s n v, P s → P (s.setD n v)
  setA : ∀ s n v, P s → P (s.setA n v)
  setPc : ∀ s v, P s → P (s.setPc v)
  setCcr : ∀ s f, P s → P (s.setCcr f)

theorem Steady.setSp {P : State → Prop} (h : Steady P) (s : State) (v : Long) (hs : P s) : P (s.setSp v) := by
  rw [← State.setA_seven]
  exact h.setA s 7 v hs

theorem Steady.setDn {P : State → Prop} (h : Steady P) (s : State) (sz : Size) (n : RegNum) (v : BitVec sz.bits)
    (hs : P s) : P (s.setDn sz n v) := h.setD s n _ hs

theorem Steady.setX {P : State → Prop} (h : Steady P) (s : State) (r : XReg) (v : Long) (hs : P s) : P (s.setX r v) := by
  cases r with
  | d n => exact h.setD s n v hs
  | a n => exact h.setA s n v hs

theorem Steady.eaBump {P : State → Prop} (h : Steady P) (s : State) (sz : Size) (ea : EA) (hs : P s) :
    P (eaBump sz ea s) := by
  cases ea with
  | postInc n => exact h.setA s n _ hs
  | preDec n => exact h.setA s n _ hs
  | _ => exact hs

theorem Steady.poke {P : State → Prop} (h : Steady P) (s : State) (sz : Size) (addr : Long) (v : BitVec sz.bits)
    (hs : P s) : P (s.setMem (poke sz s.mem addr v)) := by
  cases sz with
  | byte => exact h.write s addr 0 _ hs
  | word => exact h.write _ addr 1 _ (h.write s addr 0 _ hs)
  | long => exact h.write _ addr 3 _ (h.write _ addr 2 _ (h.write _ addr 1 _ (h.write s addr 0 _ hs)))

/-! Sequencing -/

theorem keeps_bind {α β : Type} {P : State → Prop} {x : Act α} {f : α → Act β} (hx : Keeps P x)
    (hf : ∀ a, Keeps P (f a)) : Keeps P (x >>= f) := by
  intro s hs
  have h := hx s hs
  rw [act_bind]
  cases hxs : x s with
  | ok a t => exact hf a t (by simpa [hxs, endState] using h)
  | error e t => simpa [hxs, endState] using h

theorem keeps_pure {α : Type} {P : State → Prop} (a : α) : Keeps P (pure a : Act α) := fun _ h => h

theorem keeps_throw {α : Type} {P : State → Prop} (e : Abort) : Keeps P (throw e : Act α) := fun _ h => h

theorem keeps_get {P : State → Prop} : Keeps P (get : Act State) := fun _ h => h

theorem keeps_modify {P : State → Prop} {f : State → State} (h : ∀ s, P s → P (f s)) : Keeps P (modify f : Act Unit) :=
  fun s hs => h s hs

/-- A state read and put back changed. -/
theorem keeps_get_set {α : Type} {P : State → Prop} {g : State → State} {f : State → Act α} (hg : ∀ s, P s → P (g s))
    (hf : ∀ s, Keeps P (f s)) : Keeps P (do let s ← get; set (g s); f s) :=
  fun s hs => hf s _ (hg s hs)

theorem keeps_ite {α : Type} {P : State → Prop} {c : Prop} [Decidable c] {x y : Act α} (hx : Keeps P x) (hy : Keeps P y) :
    Keeps P (if c then x else y) := by
  split
  · exact hx
  · exact hy

theorem keeps_tryCatch {α : Type} {P : State → Prop} {x : Act α} {f : Abort → Act α} (hx : Keeps P x)
    (hf : ∀ e, Keeps P (f e)) : Keeps P (tryCatch x f) := by
  intro s hs
  have h := hx s hs
  change P (endState (EStateM.tryCatch x f s))
  unfold EStateM.tryCatch
  cases hxs : x s with
  | ok a t => simpa [hxs, endState] using h
  | error e t => exact hf e t (by simpa [hxs, endState] using h)

/-! The shared operations -/

variable {P : State → Prop} (h : Steady P)

include h

theorem keeps_draw : Keeps P draw := fun s hs => h.draws s _ hs

theorem keeps_drawBit : Keeps P drawBit := fun s hs => h.draws s _ hs

theorem keeps_busCycle (n : Nat) (addr : Long) (acc : Access) (e : Event) : Keeps P (busCycle n addr acc e) := by
  intro s hs
  simp only [busCycle, act_get_bind]
  split
  · exact hs
  · change P (endState ((if _ then _ else _ : Act Unit) s))
    split
    · exact h.record s e hs
    · exact hs

theorem keeps_cycleByte (a : Nat) : Keeps P (cycleByte a) := by
  intro s hs
  simp only [cycleByte, act_get_bind]
  split
  · exact h.draws s _ hs
  · exact hs

theorem keeps_readCycle8 (addr : Long) (acc : Access) : Keeps P (readCycle8 addr acc) :=
  keeps_bind (keeps_busCycle h _ _ _ _) fun _ => keeps_cycleByte h _

theorem keeps_readCycle16 (addr : Long) (acc : Access) : Keeps P (readCycle16 addr acc) :=
  keeps_bind (keeps_busCycle h _ _ _ _) fun _ => keeps_bind (keeps_cycleByte h _) fun _ =>
    keeps_bind (keeps_cycleByte h _) fun _ => keeps_pure _

theorem keeps_storeByte (addr : Long) (i : Nat) (b : Byte) : Keeps P (storeByte (phys addr i) b) := by
  apply keeps_modify
  intro s hs
  split
  · exact hs
  · exact h.write s addr i b hs

theorem keeps_writeCycle8 (addr : Long) (v : Byte) (acc : Access) : Keeps P (writeCycle8 addr v acc) :=
  keeps_bind (keeps_busCycle h _ _ _ _) fun _ => keeps_storeByte h _ _ _

theorem keeps_writeCycle16 (addr : Long) (v : Word) (acc : Access) : Keeps P (writeCycle16 addr v acc) :=
  keeps_bind (keeps_busCycle h _ _ _ _) fun _ => keeps_bind (keeps_storeByte h _ _ _) fun _ => keeps_storeByte h _ _ _

theorem keeps_platformRead (sz : Size) (addr : Long) (acc : Access) : Keeps P (platformRead sz addr acc) := by
  cases sz with
  | byte => exact keeps_readCycle8 h _ _
  | word => exact keeps_readCycle16 h _ _
  | long =>
    exact keeps_bind (keeps_drawBit h) fun _ => keeps_ite
      (keeps_bind (keeps_readCycle16 h _ _) fun _ => keeps_bind (keeps_readCycle16 h _ _) fun _ => keeps_pure _)
      (keeps_bind (keeps_readCycle16 h _ _) fun _ => keeps_bind (keeps_readCycle16 h _ _) fun _ => keeps_pure _)

theorem keeps_platformWrite (sz : Size) (addr : Long) (v : BitVec sz.bits) (acc : Access) :
    Keeps P (platformWrite sz addr v acc) := by
  cases sz with
  | byte => exact keeps_writeCycle8 h _ _ _
  | word => exact keeps_writeCycle16 h _ _ _
  | long =>
    exact keeps_bind (keeps_drawBit h) fun _ => keeps_ite
      (keeps_bind (keeps_writeCycle16 h _ _ _) fun _ => keeps_writeCycle16 h _ _ _)
      (keeps_bind (keeps_writeCycle16 h _ _ _) fun _ => keeps_writeCycle16 h _ _ _)

theorem keeps_readMem (sz : Size) (addr : Long) (program : Bool) : Keeps P (readMem sz addr program) := by
  intro s hs
  simp only [readMem, act_get_bind]
  split
  · exact hs
  · change P (endState ((if _ then _ else _ : Act (BitVec sz.bits)) s))
    split
    · exact hs
    · exact keeps_platformRead h _ _ _ s hs

theorem keeps_writeMem (sz : Size) (addr : Long) (v : BitVec sz.bits) : Keeps P (writeMem sz addr v) := by
  intro s hs
  simp only [writeMem, act_get_bind]
  split
  · exact hs
  · change P (endState ((if _ then _ else _ : Act Unit) s))
    split
    · exact h.poke s sz addr v hs
    · exact keeps_platformWrite h _ _ _ _ s hs

theorem keeps_push32 (v : Long) : Keeps P (push32 v) :=
  keeps_bind (keeps_modify fun s hs => h.setSp s _ hs) fun _ => keeps_bind keeps_get fun _ => keeps_writeMem h _ _ _

theorem keeps_push16 (v : Word) : Keeps P (push16 v) :=
  keeps_bind (keeps_modify fun s hs => h.setSp s _ hs) fun _ => keeps_bind keeps_get fun _ => keeps_writeMem h _ _ _

theorem keeps_pop32 : Keeps P pop32 :=
  keeps_bind keeps_get fun _ => keeps_bind (keeps_readMem h _ _ _) fun _ =>
    keeps_bind (keeps_modify fun s hs => h.setSp s _ hs) fun _ => keeps_pure _

theorem keeps_pop16 : Keeps P pop16 :=
  keeps_bind keeps_get fun _ => keeps_bind (keeps_readMem h _ _ _) fun _ =>
    keeps_bind (keeps_modify fun s hs => h.setSp s _ hs) fun _ => keeps_pure _

theorem keeps_fetchExt (n : Nat) : Keeps P (fetchExt n) := by
  induction n with
  | zero => exact keeps_pure _
  | succ n ih =>
    refine keeps_bind keeps_get fun s => ?_
    by_cases hp : plainAt s.memMap s.pc 2 = true
    · simp only [hp]
      exact keeps_bind (keeps_modify fun s hs => h.setPc s _ hs) fun _ => ih
    · simp only [hp]
      exact keeps_bind (keeps_platformRead h .word _ _) fun _ =>
        keeps_bind (keeps_modify fun s hs => h.setPc s _ hs) fun _ => ih

theorem keeps_pushFrame (p : Long) (sr : Word) : Keeps P (pushFrame p sr) := by
  refine keeps_bind (keeps_tryCatch (keeps_push32 h _) fun e => ?_) fun _ => keeps_push16 h _
  cases e with
  | busError acc =>
    exact keeps_bind (keeps_drawBit h) fun _ => keeps_ite
      (keeps_bind (keeps_tryCatch (keeps_push16 h _) fun _ => keeps_pure _) fun _ => keeps_throw _) (keeps_throw _)
  | addressError acc => exact keeps_throw _
  | notExecuted v => exact keeps_throw _

/-- Taking an exception keeps what its own changes of SR, of `groupZero`, of `stale` and of `stopped` keep. -/
theorem keeps_exceptionEntry (v : Nat) (p : Long) (level : Option (BitVec 3))
    (hentry : ∀ s w, P s → P { s.setSr (entrySr w level) with groupZero := false, stale := [] })
    (hgo : ∀ s, P s → P { s with stopped := false }) : Keeps P (exceptionEntry v p level) :=
  keeps_bind keeps_get fun _ => keeps_bind (keeps_modify fun s hs => hentry s _ hs) fun _ =>
    keeps_bind (keeps_pushFrame h _ _) fun _ => keeps_bind (keeps_readMem h _ _ _) fun _ =>
      keeps_modify fun s hs => hgo _ (h.setPc s _ hs)

theorem keeps_groupZeroFrame (v : Nat) (acc : Access) (executing : Bool)
    (hentry : ∀ s w, P s → P (s.setSr (entrySr w none))) : Keeps P (groupZeroFrame v acc executing) :=
  keeps_bind keeps_get fun _ => keeps_bind (keeps_modify fun s hs => hentry s _ hs) fun _ =>
    keeps_bind (keeps_draw h) fun _ => keeps_bind (keeps_push32 h _) fun _ => keeps_bind (keeps_push16 h _) fun _ =>
      keeps_bind (keeps_draw h) fun _ => keeps_bind keeps_get fun _ => keeps_bind (keeps_push16 h _) fun _ =>
        keeps_bind (keeps_push32 h _) fun _ => keeps_bind (keeps_draw h) fun _ => keeps_bind (keeps_push16 h _) fun _ =>
          keeps_bind (keeps_readMem h _ _ _) fun _ => keeps_modify fun s hs => h.setPc s _ hs

theorem keeps_evalEa (sz : Size) (pcx : Long) (ea : EA) : Keeps P (evalEa sz pcx ea) :=
  fun s hs => h.eaBump s sz ea hs

theorem keeps_readLoc (sz : Size) (loc : Loc) : Keeps P (readLoc sz loc) := by
  cases loc with
  | mem addr program => exact keeps_readMem h _ _ _
  | d n => exact keeps_bind keeps_get fun _ => keeps_pure _
  | a n => exact keeps_bind keeps_get fun _ => keeps_pure _
  | imm v => exact keeps_pure _

theorem keeps_writeLoc (sz : Size) (loc : Loc) (v : BitVec sz.bits) : Keeps P (writeLoc sz loc v) := by
  cases loc with
  | mem addr program =>
    cases program with
    | false => exact keeps_writeMem h _ _ _
    | true => exact keeps_throw _
  | d n => exact keeps_modify fun s hs => h.setDn s _ _ _ hs
  | a n => exact keeps_throw _
  | imm v => exact keeps_throw _

theorem keeps_readEa (sz : Size) (pcx : Long) (ea : EA) : Keeps P (readEa sz pcx ea) :=
  keeps_bind (keeps_evalEa h _ _ _) fun _ => keeps_readLoc h _ _

omit h in
theorem keeps_controlEa (pcx : Long) (ea : EA) : Keeps P (controlEa pcx ea) := by
  refine keeps_bind keeps_get fun s => ?_
  split
  · exact keeps_pure _
  · exact keeps_throw _

theorem keeps_setFlags (f : Ccr) : Keeps P (setFlags f) := keeps_modify fun s hs => h.setCcr s f hs

theorem keeps_readPreDecPair (sz : Size) (src dst : RegNum) : Keeps P (readPreDecPair sz src dst) :=
  keeps_bind (keeps_evalEa h _ _ _) fun _ => keeps_bind (keeps_readLoc h _ _) fun _ =>
    keeps_bind (keeps_modify fun s hs => h.setA s _ _ hs) fun _ => keeps_bind keeps_get fun _ =>
      keeps_bind (keeps_readMem h _ _ _) fun _ => keeps_pure _

theorem keeps_storeUp (sz : Size) (regs : List XReg) (addr : Long) : Keeps P (storeUp sz regs addr) := by
  induction regs generalizing addr with
  | nil => exact keeps_pure _
  | cons r rs ih => exact keeps_bind keeps_get fun _ => keeps_bind (keeps_writeMem h _ _ _) fun _ => ih _

theorem keeps_storeDown (sz : Size) (regs : List XReg) (addr : Long) : Keeps P (storeDown sz regs addr) := by
  induction regs generalizing addr with
  | nil => exact keeps_pure _
  | cons r rs ih => exact keeps_bind keeps_get fun _ => keeps_bind (keeps_writeMem h _ _ _) fun _ => ih _

theorem keeps_loadUp (sz : Size) (program : Bool) (regs : List XReg) (addr : Long) :
    Keeps P (loadUp sz program regs addr) := by
  induction regs generalizing addr with
  | nil => exact keeps_pure _
  | cons r rs ih =>
    exact keeps_bind (keeps_readMem h _ _ _) fun _ => keeps_bind (keeps_modify fun s hs => h.setX s _ _ hs) fun _ => ih _

theorem keeps_bcdResult (res : Option (Byte × Bool)) : Keeps P (bcdResult res) := by
  have last : ∀ p : Byte × Bool, Keeps P (do
      let n ← drawBit
      let v ← drawBit
      modify fun s => s.setCcr { x := p.2, n := n, z := s.ccr.z && p.1 == 0, v := v, c := p.2 }
      return p.1 : Act Byte) := fun p =>
    keeps_bind (keeps_drawBit h) fun _ => keeps_bind (keeps_drawBit h) fun _ =>
      keeps_bind (keeps_modify fun s hs => h.setCcr s _ hs) fun _ => keeps_pure _
  cases res with
  | some p => exact keeps_bind (keeps_pure _) fun _ => last _
  | none => exact keeps_bind (keeps_draw h) fun _ => last _

/-! An instruction whole -/

/-- The destinations made free after an abort keep it, when writing SR and USP does (both privileged). -/
theorem keeps_freeDests (start : State) (writes : List Dest)
    (hsp : ∀ s v, P s → P (if start.supervisor then s.setSsp v else s.setUsp v))
    (husp : Dest.usp ∈ writes → ∀ s v, P s → P (s.setUsp v)) (hsr : Dest.sr ∈ writes → ∀ s v, P s → P (s.setSr v))
    (s : State) (hs : P s) : P (freeDests start writes s) := by
  induction writes generalizing s with
  | nil => exact hs
  | cons t ts ih =>
    refine ih (fun m => husp (List.mem_cons_of_mem _ m)) (fun m => hsr (List.mem_cons_of_mem _ m)) _ ?_
    refine h.draws _ _ ?_
    cases t with
    | reg r =>
      cases r with
      | d n => exact h.setD s n _ hs
      | a n =>
        simp only [freeDest]
        split
        · exact h.setA s n _ hs
        · cases hb : start.supervisor <;> simp only [hb] at hsp <;> exact hsp s _ hs
    | usp => exact husp (by simp) s _ hs
    | ccr => exact h.setCcr s _ hs
    | sr => exact hsr (by simp) s _ hs

omit h in
/-- An SSP that was odd when an instruction of supervisor mode began, and still is at its abort, stays odd when what the
instruction may write is made free: the frame cannot be pushed (R490, R495 e). -/
theorem freeDests_ssp_odd (start : State) (writes : List Dest) (hs : start.ssp.getLsbD 0 = true) (t : State)
    (ht : t.ssp.getLsbD 0 = true) : (freeDests start writes t).ssp.getLsbD 0 = true := by
  induction writes generalizing t with
  | nil => exact ht
  | cons w ws ih =>
    refine ih _ ?_
    cases w with
    | reg r =>
      cases r with
      | d n => exact ht
      | a n =>
        simp only [freeDest]
        split
        · next hn => simpa [State.setA, hn] using ht
        · split
          · simp [freeSsp, hs, ht]
          · exact ht
    | usp => exact ht
    | ccr => exact ht
    | sr => exact ht

/-- The three ends of an instruction, each from a state that still has what its effect keeps (R437, R438, R465). -/
theorem runInstr_ends {ext : Nat} {writes : List Dest} {act : Long → Act Unit} {s : State}
    (hact : ∀ ipc, Keeps P (act ipc)) (hs : P s) :
    ∃ t, P t ∧ (runInstr ext writes act s = afterInstr s t ∨
      (∃ v acc, runInstr ext writes act s = enterGroupZero v acc true (freeDests s writes t)) ∨
      ∃ v, runInstr ext writes act s = takeException v s.pc none t) := by
  have hk : Keeps P (do fetchExt ext; act s.pc : Act Unit) := keeps_bind (keeps_fetchExt h ext) fun _ => hact _
  have hend := hk _ (h.setPc s (s.pc + 2) hs)
  unfold runInstr
  cases hr : (do fetchExt ext; act s.pc : Act Unit) (s.setPc (s.pc + 2)) with
  | ok a t =>
    rw [hr] at hend
    exact ⟨t, hend, .inl rfl⟩
  | error e t =>
    rw [hr] at hend
    refine ⟨t, hend, ?_⟩
    cases e with
    | addressError acc => exact .inr (.inl ⟨3, acc, rfl⟩)
    | busError acc => exact .inr (.inl ⟨2, acc, rfl⟩)
    | notExecuted v => exact .inr (.inr ⟨v, rfl⟩)

end Sys2Proof.Machine
end

