-- ==== Sys2Proof/Tests/Slice0.lean ====
section
/-! SUPPORT. The model's own tests: ill-formed terms are refused, one word of every constructor written out from the spec's
encoding decodes to it, one step per instruction gives what the spec's examples say (95_test_vectors.md, section 2), and
for every statement with hypotheses a state and operands that meet them. -/

namespace Sys2Proof.Tests

open Sys2Proof Sys2Proof.Machine Sys2Proof.Safety

/-! ### WellFormed: one ill-formed term for each check -/

theorem test_illformed_immediate_too_wide : (Instr.ori .byte 0x100 (.dReg 0)).wellFormed = false := by decide
theorem test_illformed_operand_immediate : (Instr.moveW (.imm 0x10000) (.dReg 0)).wellFormed = false := by decide
theorem test_illformed_byte_address_register : (Instr.moveB (.aReg 0) (.dReg 0)).wellFormed = false := by decide
theorem test_illformed_data : (Instr.andToReg .word (.aReg 1) 0).wellFormed = false := by decide
theorem test_illformed_data_alterable : (Instr.clr .word (.pcDisp 4)).wellFormed = false := by decide
theorem test_illformed_memory_alterable : (Instr.addToEa .word 0 (.dReg 1)).wellFormed = false := by decide
theorem test_illformed_alterable : (Instr.addq .word 1 (.imm 1)).wellFormed = false := by decide
theorem test_illformed_control : (Instr.lea (.postInc 0) 1).wellFormed = false := by decide
theorem test_illformed_data_no_immediate : (Instr.btstImm 1 (.imm 1)).wellFormed = false := by decide
theorem test_illformed_movem_to : (Instr.movemToMem .word 1 (.postInc 0)).wellFormed = false := by decide
theorem test_illformed_movem_from : (Instr.movemToRegs .word 1 (.preDec 0)).wellFormed = false := by decide
theorem test_illformed_branch_byte_zero : (Instr.bra (.short 0)).wellFormed = false := by decide
theorem test_illformed_branch_true : (Instr.bcc .t (.short 2)).wellFormed = false := by decide
theorem test_illformed_branch_false : (Instr.bcc .f (.short 2)).wellFormed = false := by decide
theorem test_wellformed_branch : (Instr.bcc .eq (.short 2)).wellFormed = true := by decide

/-! ### Decode: the fields of each word as the encoding tables of 30_encoding.md give them -/

/-- The words are exactly the instruction. -/
def is (ws : List Word) (i : Instr) : Bool := decide (decodeWords ws = .ok (i, []))

theorem test_decode_line0_immediate :
    is [0b0000000000111100, 0x001F] (.oriToCcr 0x1F) ∧ is [0b0000000001111100, 0x2700] (.oriToSr 0x2700) ∧
    is [0b0000000001100011, 0x1234] (.ori .word 0x1234 (.preDec 3)) ∧
    is [0b0000001000111100, 0xFF1F] (.andiToCcr 0x1F) ∧ is [0b0000001001111100, 0xF8FF] (.andiToSr 0xF8FF) ∧
    is [0b0000001000101010, 0x000F, 0x0010] (.andi .byte 0x0F (.disp 2 0x10)) ∧
    is [0b0000010010111000, 0x0001, 0x0002, 0x2000] (.subi .long 0x10002 (.absW 0x2000)) ∧
    is [0b0000011000000101, 0x0080] (.addi .byte 0x80 (.dReg 5)) ∧
    is [0b0000101000111100, 0x0010] (.eoriToCcr 0x10) ∧ is [0b0000101001111100, 0x2000] (.eoriToSr 0x2000) ∧
    is [0b0000101010011001, 0x8000, 0x0001] (.eori .long 0x80000001 (.postInc 1)) ∧
    is [0b0000110001010110, 0x007F] (.cmpi .word 0x7F (.ind 6)) := by decide
theorem test_decode_line0_bits :
    is [0b0000100000111010, 0x0009, 0x000C] (.btstImm 9 (.pcDisp 0x0C)) ∧
    is [0b0000100001000100, 0x0003] (.bchgImm 3 (.dReg 4)) ∧ is [0b0000100010010010, 0x0004] (.bclrImm 4 (.ind 2)) ∧
    is [0b0000100011100111, 0x0007] (.bsetImm 7 (.preDec 7)) ∧ is [0b0000010100111100, 0x0001] (.btstReg 2 (.imm 1)) ∧
    is [0b0000011101000001] (.bchgReg 3 (.dReg 1)) ∧ is [0b0000100110010010] (.bclrReg 4 (.ind 2)) ∧
    is [0b0000101111100111] (.bsetReg 5 (.preDec 7)) ∧
    is [0b0000110100001001, 0x0004] (.movep .memToReg .word 6 1 4) ∧
    is [0b0000110101001001, 0x0004] (.movep .memToReg .long 6 1 4) ∧
    is [0b0000110110001001, 0x0004] (.movep .regToMem .word 6 1 4) ∧
    is [0b0000110111001001, 0x0004] (.movep .regToMem .long 6 1 4) := by decide
theorem test_decode_lines_1_2_3 :
    is [0b0001011000010010] (.moveB (.ind 2) (.dReg 3)) ∧
    is [0b0010100011111100, 0x1234, 0x5678] (.moveL (.imm 0x12345678) (.postInc 4)) ∧
    is [0b0011110101001001, 0x0008] (.moveW (.aReg 1) (.disp 6 8)) ∧
    is [0b0010101001000010] (.moveaL (.dReg 2) 5) ∧ is [0b0011110001100011] (.moveaW (.preDec 3) 6) := by decide
theorem test_decode_line4_operands :
    is [0b0100000001000001] (.negx .word (.dReg 1)) ∧ is [0b0100000011010011] (.moveFromSr (.ind 3)) ∧
    is [0b0100110110000001] (.chk (.dReg 1) 6) ∧ is [0b0100101111101010, 0x0004] (.lea (.disp 2 4) 5) ∧
    is [0b0100001010010001] (.clr .long (.ind 1)) ∧ is [0b0100010000000111] (.neg .byte (.dReg 7)) ∧
    is [0b0100010011011010] (.moveToCcr (.postInc 2)) ∧
    is [0b0100011001111001, 0x0001, 0x2344] (.not .word (.absL 0x12344)) ∧
    is [0b0100011011000011] (.moveToSr (.dReg 3)) ∧ is [0b0100100000100001] (.nbcd (.preDec 1)) ∧
    is [0b0100100001000101] (.swap 5) ∧
    is [0b0100100001111011, 0b1001100011111110] (.pea (.pcIndex { reg := .a 1, long := true, disp := 0xFE })) ∧
    is [0b0100100010000110] (.extW 6) ∧ is [0b0100100011000010] (.extL 2) ∧
    is [0b0100100011111000, 0x6017, 0x1234] (.movemToMem .long 0x6017 (.absW 0x1234)) ∧
    is [0b0100110010011011, 0x0101] (.movemToRegs .word 0x0101 (.postInc 3)) ∧
    is [0b0100101010000100] (.tst .long (.dReg 4)) ∧ is [0b0100101011010010] (.tas (.ind 2)) := by decide
theorem test_decode_line4_control :
    is [0b0100101011111100] .illegal ∧ is [0b0100111001001001] (.trap 9) ∧
    is [0b0100111001010110, 0xFFF4] (.link 6 0xFFF4) ∧ is [0b0100111001011101] (.unlk 5) ∧
    is [0b0100111001100011] (.moveToUsp 3) ∧ is [0b0100111001101100] (.moveFromUsp 4) ∧
    is [0b0100111001110000] .reset ∧ is [0b0100111001110001] .nop ∧ is [0b0100111001110010, 0x2700] (.stop 0x2700) ∧
    is [0b0100111001110011] .rte ∧ is [0b0100111001110101] .rts ∧ is [0b0100111001110110] .trapv ∧
    is [0b0100111001110111] .rtr ∧ is [0b0100111010010001] (.jsr (.ind 1)) ∧
    is [0b0100111011111000, 0x2000] (.jmp (.absW 0x2000)) := by decide
theorem test_decode_lines_5_6_7 :
    is [0b0101011000000010] (.addq .byte 3 (.dReg 2)) ∧ is [0b0101000110001101] (.subq .long 0 (.aReg 5)) ∧
    is [0b0101011011000001] (.scc .ne (.dReg 1)) ∧ is [0b0101011111001011, 0xFFFC] (.dbcc .eq 3 0xFFFC) ∧
    is [0b0110000000010000] (.bra (.short 0x10)) ∧ is [0b0110000100000000, 0x0100] (.bsr (.long 0x0100)) ∧
    is [0b0110101111111110] (.bcc .mi (.short 0xFE)) ∧ is [0b0111111011111111] (.moveq 0xFF 7) := by decide
theorem test_decode_lines_8_9 :
    is [0b1000011001010100] (.orToReg .word (.ind 4) 3) ∧ is [0b1000010110011001] (.orToEa .long 2 (.postInc 1)) ∧
    is [0b1000110011000001] (.divu (.dReg 1) 6) ∧ is [0b1000110111000001] (.divs (.dReg 1) 6) ∧
    is [0b1000110100000001] (.sbcdReg 1 6) ∧ is [0b1000010100001011] (.sbcdMem 3 2) ∧
    is [0b1001010000000101] (.subToReg .byte (.dReg 5) 2) ∧ is [0b1001100101100110] (.subToEa .word 4 (.preDec 6)) ∧
    is [0b1001011011000001] (.subaW (.dReg 1) 3) ∧ is [0b1001111111001010] (.subaL (.aReg 2) 7) ∧
    is [0b1001100110000001] (.subxReg .long 1 4) ∧ is [0b1001101101001010] (.subxMem .word 2 5) := by decide
theorem test_decode_lines_B_C :
    is [0b1011001010001011] (.cmp .long (.aReg 3) 1) ∧ is [0b1011110011000010] (.cmpaW (.dReg 2) 6) ∧
    is [0b1011100111010001] (.cmpaL (.ind 1) 4) ∧ is [0b1011011101000110] (.eor .word 3 (.dReg 6)) ∧
    is [0b1011100100001011] (.cmpm .byte 3 4) ∧ is [0b1100010000111100, 0x000F] (.andToReg .byte (.imm 0x0F) 2) ∧
    is [0b1100101101010011] (.andToEa .word 5 (.ind 3)) ∧ is [0b1100101011000010] (.mulu (.dReg 2) 5) ∧
    is [0b1100101111000010] (.muls (.dReg 2) 5) ∧ is [0b1100011100000100] (.abcdReg 4 3) ∧
    is [0b1100010100001001] (.abcdMem 1 2) ∧ is [0b1100010101000110] (.exgDD 2 6) ∧
    is [0b1100001101001111] (.exgAA 1 7) ∧ is [0b1100101110001111] (.exgDA 5 7) := by decide
theorem test_decode_line_D :
    is [0b1101011010011010] (.addToReg .long (.postInc 2) 3) ∧
    is [0b1101001100111000, 0x2000] (.addToEa .byte 1 (.absW 0x2000)) ∧
    is [0b1101111011111100, 0x0001] (.addaW (.imm 1) 7) ∧ is [0b1101000111000110] (.addaL (.dReg 6) 0) ∧
    is [0b1101010100000101] (.addxReg .byte 5 2) ∧ is [0b1101011110001001] (.addxMem .long 1 3) := by decide
theorem test_decode_line_E :
    is [0b1110011001000101] (.asrReg (.imm 3) .word 5) ∧ is [0b1110010100100110] (.aslReg (.reg 2) .byte 6) ∧
    is [0b1110000010001001] (.lsrReg (.imm 0) .long 1) ∧ is [0b1110100101101011] (.lslReg (.reg 4) .word 3) ∧
    is [0b1110001000010010] (.roxrReg (.imm 1) .byte 2) ∧ is [0b1110101110110111] (.roxlReg (.reg 5) .long 7) ∧
    is [0b1110111001011100] (.rorReg (.imm 7) .word 4) ∧ is [0b1110110100111001] (.rolReg (.reg 6) .byte 1) ∧
    is [0b1110000011010011] (.asrMem (.ind 3)) ∧ is [0b1110000111010011] (.aslMem (.ind 3)) ∧
    is [0b1110001011010011] (.lsrMem (.ind 3)) ∧ is [0b1110001111010011] (.lslMem (.ind 3)) ∧
    is [0b1110010011010011] (.roxrMem (.ind 3)) ∧ is [0b1110010111010011] (.roxlMem (.ind 3)) ∧
    is [0b1110011011010011] (.rorMem (.ind 3)) ∧ is [0b1110011111010011] (.rolMem (.ind 3)) := by decide
/-- The opcode table has 115 rows (R122). -/
theorem test_table_rows : ((List.range 16).map fun k => (rowsOf k).length).sum = 115 := by decide
/-- Words of no row (R123, R124, R366): lines A and F, size 11, an address register at byte size, MOVE A0,SR. -/
theorem test_no_row : ∀ w ∈ [0xA000, 0xF123, 0x00C0, 0x1008, 0x46C8, 0x4AFB, 0x7100], decodeTag w = none := by decide
/-- Table bits: the first word is bits 15..0, the words above the given bits are zero. -/
theorem test_decodeTableWord : decodeTableWord 32 0x1234003C = some (.oriToCcr 0x34) ∧
    decodeTableWord 16 0x4E71 = some .nop ∧ decodeTableWord 16 0x0640 = some (.addi .word 0 (.dReg 0)) ∧
    decodeTableWord 16 0xA000 = none := by decide

/-! ### Steps -/

/-- The default start of the spec's vectors (95_test_vectors.md), at the given SR. -/
def boot (sr : Word) : State :=
  { State.reset with pc := 0x1000, ssp := 0x8000, usp := 0x6000, sr := sr, groupZero := false }

/-- A byte of memory set. -/
def put1 (addr : Long) (v : Byte) (s : State) : State := s.setMem (poke .byte s.mem addr v)

/-- A word of memory set. -/
def put2 (addr : Long) (v : Word) (s : State) : State := s.setMem (poke .word s.mem addr v)

/-- A longword of memory set. -/
def put4 (addr : Long) (v : Long) (s : State) : State := s.setMem (poke .long s.mem addr v)

/-- The words stored at PC. -/
def holding (ws : List Word) (s : State) : State := s.setMem (storeBytes s.mem s.pc (bytesOfWords ws))

/-- One step with the words at PC gives a next state with the property. -/
def gives (ws : List Word) (s : State) (p : State → Bool) : Bool :=
  match step (holding ws s) with
  | .next t => p t
  | _ => false

/-- The word placed by `withFetchWord` runs as the first instruction after reset. -/
theorem test_withFetchWord : (match step (State.reset.withFetchWord 16 0x7EFF) with
    | .next t => t.readD 7 == 0xFFFFFFFF | _ => false) = true := by decide
/-- `ORI #$FF,CCR` (R351). -/
theorem test_oriToCcr : gives [0x003C, 0x00FF] (boot 0x2700) fun t =>
    t.sr == 0x271F && t.pc == 0x1004 := by decide
/-- `ORI #$0700,SR` (R352). -/
theorem test_oriToSr : gives [0x007C, 0x0700] (boot 0x2000) fun t =>
    t.sr == 0x2700 && t.pc == 0x1004 := by decide
/-- `ORI.W #$8000,D0` (R258). -/
theorem test_ori : gives [0x0040, 0x8000] ((boot 0x2713).setD 0 0x12340001) fun t =>
    t.readD 0 == 0x12348001 && t.sr == 0x2718 && t.pc == 0x1004 := by decide
/-- `ANDI #$FB,CCR` (R399). -/
theorem test_andiToCcr : gives [0x023C, 0x00FB] (boot 0x271F) fun t =>
    t.sr == 0x271B && t.pc == 0x1004 := by decide
/-- `ANDI #$F8FF,SR` (R400). -/
theorem test_andiToSr : gives [0x027C, 0xF8FF] (boot 0x2715) fun t =>
    t.sr == 0x2015 && t.pc == 0x1004 := by decide
/-- `ANDI.W #$00FF,D0` (R398). -/
theorem test_andi : gives [0x0240, 0x00FF] ((boot 0x271F).setD 0 0x1234ABCD) fun t =>
    t.readD 0 == 0x123400CD && t.sr == 0x2710 && t.pc == 0x1004 := by decide
/-- `SUBI.L #$10000,(A0)` (R243). -/
theorem test_subi : gives [0x0490, 0x0001, 0x0000] (put4 0x2000 0x10000 ((boot 0x2700).setA 0 0x2000)) fun t =>
    t.sr == 0x2704 && peek .long t.mem 0x2000 == 0x0 && t.pc == 0x1006 := by decide
/-- `ADDI.L #$00010000,(A0)` (R393). -/
theorem test_addi : gives [0x0690, 0x0001, 0x0000] (put4 0x2000 0xFFFF0000 ((boot 0x2700).setA 0 0x2000)) fun t =>
    t.sr == 0x2715 && peek .long t.mem 0x2000 == 0x0 && t.pc == 0x1006 := by decide
/-- `EORI #$1F,CCR` (R353). -/
theorem test_eoriToCcr : gives [0x0A3C, 0x001F] (boot 0x2715) fun t =>
    t.sr == 0x270A && t.pc == 0x1004 := by decide
/-- `EORI #$2000,SR` (R354). -/
theorem test_eoriToSr : gives [0x0A7C, 0x2000] (boot 0x2700) fun t =>
    t.sr == 0x0700 && t.pc == 0x1004 := by decide
/-- `EORI.W #$0F0F,$2000` (R253). -/
theorem test_eori : gives [0x0A78, 0x0F0F, 0x2000] (put2 0x2000 0xF0F (boot 0x2700)) fun t =>
    t.sr == 0x2704 && peek .word t.mem 0x2000 == 0x0 && t.pc == 0x1006 := by decide
/-- `CMPI.B #$80,D0` (R215). -/
theorem test_cmpi : gives [0x0C00, 0x0080] ((boot 0x2700).setD 0 0x7F) fun t =>
    t.sr == 0x270B && t.pc == 0x1004 := by decide
/-- `BTST #0,(A0)` (R296). -/
theorem test_btstImm : gives [0x0810, 0x0000] (put1 0x2000 0xFE ((boot 0x2700).setA 0 0x2000)) fun t =>
    t.sr == 0x2704 && t.pc == 0x1004 := by decide
/-- `BCHG #9,(A0)` (R409). -/
theorem test_bchgImm : gives [0x0850, 0x0009] (put1 0x2000 0x0 ((boot 0x2700).setA 0 0x2000)) fun t =>
    t.sr == 0x2704 && peek .byte t.mem 0x2000 == 0x2 && t.pc == 0x1004 := by decide
/-- `BCLR #4,$1234` (R292). -/
theorem test_bclrImm : gives [0x08B8, 0x0004, 0x1234] (put1 0x1234 0xFA (boot 0x2704)) fun t =>
    t.sr == 0x2700 && peek .byte t.mem 0x1234 == 0xEA && t.pc == 0x1006 := by decide
/-- `BSET #7,(A0)+` (R294). -/
theorem test_bsetImm : gives [0x08D8, 0x0007] (put1 0x2000 0x0 ((boot 0x2700).setA 0 0x2000)) fun t =>
    t.readA 0 == 0x2001 && t.sr == 0x2704 && peek .byte t.mem 0x2000 == 0x80 && t.pc == 0x1004 := by decide
/-- `BTST D1,D0` (R295). -/
theorem test_btstReg : gives [0x0300] (((boot 0x271B).setD 0 0x80000000).setD 1 0x1F) fun t =>
    t.sr == 0x271B && t.pc == 0x1002 := by decide
/-- `BCHG D1,(A0)` (R408). -/
theorem test_bchgReg : gives [0x0350] (put1 0x2000 0x80 (((boot 0x2700).setD 1 0x7).setA 0 0x2000)) fun t =>
    t.sr == 0x2700 && peek .byte t.mem 0x2000 == 0x0 && t.pc == 0x1002 := by decide
/-- `BCLR D1,D0` (R291). -/
theorem test_bclrReg : gives [0x0380] (((boot 0x2700).setD 0 0xFFFFFFFF).setD 1 0x10) fun t =>
    t.readD 0 == 0xFFFEFFFF && t.sr == 0x2700 && t.pc == 0x1002 := by decide
/-- `BSET D1,D0` (R293). -/
theorem test_bsetReg : gives [0x03C0] (((boot 0x2700).setD 0 0x0).setD 1 0x21) fun t =>
    t.readD 0 == 0x2 && t.sr == 0x2704 && t.pc == 0x1002 := by decide
/-- `MOVEP.L (0,A0),D1` (R191). -/
theorem test_movep : gives [0x0348, 0x0000] (put1 0x2006 0xDD (put1 0x2004 0xCC (put1 0x2002 0xBB
    (put1 0x2000 0xAA ((boot 0x271F).setA 0 0x2000))))) fun t =>
    t.readD 1 == 0xAABBCCDD && t.sr == 0x271F && t.pc == 0x1004 := by decide
/-- `MOVE.B D0,D1` (R187). -/
theorem test_moveB : gives [0x1200] (((boot 0x271F).setD 0 0x12345680).setD 1 0xFFFFFFFF) fun t =>
    t.readD 1 == 0xFFFFFF80 && t.sr == 0x2718 && t.pc == 0x1002 := by decide
/-- `MOVE.L A0,-(A0)` (R187). -/
theorem test_moveL : gives [0x2108] ((boot 0x2700).setA 0 0x2008) fun t =>
    t.readA 0 == 0x2004 && t.sr == 0x2700 && peek .long t.mem 0x2004 == 0x2008 && t.pc == 0x1002 := by decide
/-- `MOVE.W (2,A0,D1.W),D0` (R187). -/
theorem test_moveW_1 : gives [0x3030, 0x1002] (put2 0x2000 0x1234
    (((boot 0x2700).setD 1 0x1FFFE).setA 0 0x2000)) fun t =>
    t.readD 0 == 0x1234 && t.sr == 0x2700 && t.pc == 0x1004 := by decide
/-- `MOVE.W $8000.W,D0` (R187). -/
theorem test_moveW_2 : gives [0x3038, 0x8000] (put2 0xFF8000 0x1234 (boot 0x2700)) fun t =>
    t.readD 0 == 0x1234 && t.sr == 0x2700 && t.pc == 0x1004 := by decide
/-- `MOVEA.L D0,A0` (R188). -/
theorem test_moveaL : gives [0x2040] ((boot 0x2700).setD 0 0x8000) fun t =>
    t.readA 0 == 0x8000 && t.sr == 0x2700 && t.pc == 0x1002 := by decide
/-- `MOVEA.W D0,A0` (R188). -/
theorem test_moveaW : gives [0x3040] ((boot 0x271F).setD 0 0x8000) fun t =>
    t.readA 0 == 0xFFFF8000 && t.sr == 0x271F && t.pc == 0x1002 := by decide
/-- `NEGX.B D0` (R237). -/
theorem test_negx_1 : gives [0x4000] ((boot 0x2714).setD 0 0x0) fun t =>
    t.readD 0 == 0xFF && t.sr == 0x2719 && t.pc == 0x1002 := by decide
/-- `NEGX.W D0` (R237). -/
theorem test_negx_2 : gives [0x4040] ((boot 0x2710).setD 0 0x7FFF) fun t =>
    t.readD 0 == 0x8000 && t.sr == 0x2719 && t.pc == 0x1002 := by decide
/-- `MOVE SR,-(A7)` (R356). -/
theorem test_moveFromSr_1 : gives [0x40E7] (boot 0x271F) fun t =>
    t.ssp == 0x7FFE && t.sr == 0x271F && peek .word t.mem 0x7FFE == 0x271F && t.pc == 0x1002 := by decide
/-- `MOVE SR,(A0)` (R356). -/
theorem test_moveFromSr_2 : gives [0x40D0] ((boot 0x2704).setA 0 0x2000) fun t =>
    t.sr == 0x2704 && peek .word t.mem 0x2000 == 0x2704 && t.pc == 0x1002 := by decide
/-- `CHK D1,D0` (R211). -/
theorem test_chk_1 : gives [0x4181] (((boot 0x2700).setD 0 0x5).setD 1 0xA) fun t =>
    t.pc == 0x1002 := by decide
/-- `CHK D1,D0` (R211). -/
theorem test_chk_2 : gives [0x4181] (((boot 0x2700).setD 0 0xA).setD 1 0xA) fun t =>
    t.pc == 0x1002 := by decide
/-- `LEA (-1,PC),A0` (R183). -/
theorem test_lea : gives [0x41FA, 0xFFFF] (boot 0x2700) fun t =>
    t.readA 0 == 0x1001 && t.sr == 0x2700 && t.pc == 0x1004 := by decide
/-- `CLR.B D0` (R181). -/
theorem test_clr : gives [0x4200] ((boot 0x271B).setD 0 0x12345678) fun t =>
    t.readD 0 == 0x12345600 && t.sr == 0x2714 && t.pc == 0x1002 := by decide
/-- `NEG.W D0` (R236). -/
theorem test_neg : gives [0x4440] ((boot 0x2710).setD 0 0x0) fun t =>
    t.sr == 0x2704 && t.pc == 0x1002 := by decide
/-- `MOVE #$FFFF,CCR` (R355). -/
theorem test_moveToCcr : gives [0x44FC, 0xFFFF] (boot 0x2000) fun t =>
    t.sr == 0x201F && t.pc == 0x1004 := by decide
/-- `NOT.B D0` (R255). -/
theorem test_not : gives [0x4600] ((boot 0x2713).setD 0 0xFFFFFFFF) fun t =>
    t.readD 0 == 0xFFFFFF00 && t.sr == 0x2714 && t.pc == 0x1002 := by decide
/-- `MOVE D0,SR` (R357). -/
theorem test_moveToSr : gives [0x46C0] ((boot 0x2700).setD 0 0xFFFF0000) fun t =>
    t.sr == 0x0000 && t.pc == 0x1002 := by decide
/-- `NBCD (A0)` (R300). -/
theorem test_nbcd : gives [0x4810] (put1 0x2000 0x99 ((boot 0x2714).setA 0 0x2000)) fun t =>
    peek .byte t.mem 0x2000 == 0x0 && t.pc == 0x1002 := by decide
/-- `SWAP D0` (R194). -/
theorem test_swap : gives [0x4840] ((boot 0x271F).setD 0 0x8000) fun t =>
    t.readD 0 == 0x80000000 && t.sr == 0x2718 && t.pc == 0x1002 := by decide
/-- `PEA (A0)` (R193). -/
theorem test_pea : gives [0x4850] ((boot 0x2700).setA 0 0x12345678) fun t =>
    t.ssp == 0x7FFC && t.sr == 0x2700 && peek .long t.mem 0x7FFC == 0x12345678 && t.pc == 0x1002 := by decide
/-- `EXT.W D0` (R220). -/
theorem test_extW : gives [0x4880] ((boot 0x271F).setD 0 0xFFFFFF00) fun t =>
    t.readD 0 == 0xFFFF0000 && t.sr == 0x2714 && t.pc == 0x1002 := by decide
/-- `EXT.L D0` (R220). -/
theorem test_extL : gives [0x48C0] ((boot 0x2700).setD 0 0x12348000) fun t =>
    t.readD 0 == 0xFFFF8000 && t.sr == 0x2708 && t.pc == 0x1002 := by decide
/-- `MOVEM.L A0/A1,-(A0)` (R189). -/
theorem test_movemToMem_1 : gives [0x48E0, 0x00C0] (((boot 0x2700).setA 0 0x2008).setA 1 0x5) fun t =>
    t.readA 0 == 0x2000 && t.sr == 0x2700 && peek .long t.mem 0x2004 == 0x5 && peek .long t.mem 0x2000 == 0x2008 &&
      t.pc == 0x1004 := by decide
/-- `MOVEM.W D0/A0,(A1)` (R189). -/
theorem test_movemToMem_2 : gives [0x4891, 0x0101]
    ((((boot 0x2700).setD 0 0x5555FFFE).setA 1 0x2000).setA 0 0xAAAA1234) fun t =>
    t.sr == 0x2700 && peek .word t.mem 0x2000 == 0xFFFE && peek .word t.mem 0x2002 == 0x1234 &&
      t.pc == 0x1004 := by decide
/-- `MOVEM.L (A7)+,D0-D1/A0` (R190). -/
theorem test_movemToRegs_1 : gives [0x4CDF, 0x0103] ((put4 0x7FFC 0x33333333 (put4 0x7FF8 0x22222222
    (put4 0x7FF4 0x11111111 (boot 0x2700)))).setSsp 0x7FF4) fun t =>
    t.readD 0 == 0x11111111 && t.readD 1 == 0x22222222 && t.readA 0 == 0x33333333 && t.ssp == 0x8000 &&
      t.sr == 0x2700 && t.pc == 0x1004 := by decide
/-- `MOVEM.W (A1),D0/A0` (R190). -/
theorem test_movemToRegs_2 : gives [0x4C91, 0x0101] (put2 0x2002 0x7FFF (put2 0x2000 0x8000
    (((boot 0x2700).setD 0 0x12345678).setA 1 0x2000))) fun t =>
    t.readD 0 == 0xFFFF8000 && t.readA 0 == 0x7FFF && t.sr == 0x2700 && t.pc == 0x1004 := by decide
/-- `TST.B D0` (R246). -/
theorem test_tst : gives [0x4A00] ((boot 0x271F).setD 0 0x80) fun t =>
    t.sr == 0x2718 && t.pc == 0x1002 := by decide
/-- `TAS (A0)` (R297). -/
theorem test_tas : gives [0x4AD0] (put1 0x2000 0x0 ((boot 0x271F).setA 0 0x2000)) fun t =>
    t.sr == 0x2714 && peek .byte t.mem 0x2000 == 0x80 && t.pc == 0x1002 := by decide
/-- `ILLEGAL` (R358). -/
theorem test_illegal : gives [0x4AFC] (put4 0x10 0x400 (boot 0x2700)) fun t =>
    t.ssp == 0x7FFA && t.pc == 0x400 && t.sr == 0x2700 && peek .long t.mem 0x7FFC == 0x1000 &&
      peek .word t.mem 0x7FFA == 0x2700 := by decide
/-- `TRAP #0` (R363). -/
theorem test_trap : gives [0x4E40] (put4 0x80 0xC00 (boot 0x2715)) fun t =>
    t.ssp == 0x7FFA && t.pc == 0xC00 && t.sr == 0x2715 && peek .long t.mem 0x7FFC == 0x1002 &&
      peek .word t.mem 0x7FFA == 0x2715 := by decide
/-- `LINK A6,#-12` (R184). -/
theorem test_link : gives [0x4E56, 0xFFF4] ((boot 0x2700).setA 6 0xAAAA5555) fun t =>
    t.readA 6 == 0x7FFC && t.ssp == 0x7FF0 && t.sr == 0x2700 && peek .long t.mem 0x7FFC == 0xAAAA5555 &&
      t.pc == 0x1004 := by decide
/-- `UNLK A6` (R195). -/
theorem test_unlk : gives [0x4E5E] ((put4 0x7FFC 0xAAAA5555 ((boot 0x2700).setA 6 0x7FFC)).setSsp 0x7FF0) fun t =>
    t.readA 6 == 0xAAAA5555 && t.ssp == 0x8000 && t.sr == 0x2700 && t.pc == 0x1002 := by decide
/-- `MOVE A0,USP` (R359). -/
theorem test_moveToUsp : gives [0x4E60] ((boot 0x2700).setA 0 0x5000) fun t =>
    t.usp == 0x5000 && t.sr == 0x2700 && t.pc == 0x1002 := by decide
/-- `MOVE USP,A0` (R360). -/
theorem test_moveFromUsp : gives [0x4E68] ((boot 0x2700).setA 0 0x11111111) fun t =>
    t.readA 0 == 0x6000 && t.sr == 0x2700 && t.pc == 0x1002 := by decide
/-- `RESET` (R361). -/
theorem test_reset : gives [0x4E70] (boot 0x271F) fun t =>
    t.sr == 0x271F && t.pc == 0x1002 := by decide
/-- `NOP` (R326). -/
theorem test_nop : gives [0x4E71] (boot 0x271F) fun t =>
    t.sr == 0x271F && t.pc == 0x1002 := by decide
/-- `STOP #$2000` (R364). -/
theorem test_stop_1 : gives [0x4E72, 0x2000] (boot 0x271F) fun t =>
    t.sr == 0x2000 && t.pc == 0x1004 := by decide
/-- `STOP #$2700` (R364). -/
theorem test_stop_2 : gives [0x4E72, 0x2700] (put4 0x20 0x800 (boot 0x0000)) fun t =>
    t.ssp == 0x7FFA && t.pc == 0x800 && t.sr == 0x2000 && peek .long t.mem 0x7FFC == 0x1000 &&
      peek .word t.mem 0x7FFA == 0x0 := by decide
/-- `RTE` (R362). -/
theorem test_rte_1 : gives [0x4E73] ((put4 0x7FFC 0x2000 (put2 0x7FFA 0x15 (boot 0x2700))).setSsp 0x7FFA) fun t =>
    t.ssp == 0x8000 && t.pc == 0x2000 && t.sr == 0x0015 := by decide
/-- `RTE` (R362). -/
theorem test_rte_2 : gives [0x4E73] (put4 0x20 0x800 (boot 0x0000)) fun t =>
    t.ssp == 0x7FFA && t.pc == 0x800 && t.sr == 0x2000 && peek .long t.mem 0x7FFC == 0x1000 &&
      peek .word t.mem 0x7FFA == 0x0 := by decide
/-- `RTS` (R328). -/
theorem test_rts : gives [0x4E75] ((put4 0x7FFC 0x1006 (boot 0x271F)).setSsp 0x7FFC) fun t =>
    t.ssp == 0x8000 && t.sr == 0x271F && t.pc == 0x1006 := by decide
/-- `TRAPV` (R365). -/
theorem test_trapv : gives [0x4E76] (put4 0x1C 0x700 (boot 0x2702)) fun t =>
    t.ssp == 0x7FFA && t.pc == 0x700 && t.sr == 0x2702 && peek .long t.mem 0x7FFC == 0x1002 &&
      peek .word t.mem 0x7FFA == 0x2702 := by decide
/-- `RTR` (R327). -/
theorem test_rtr : gives [0x4E77] ((put4 0x5FFC 0x2000 (put2 0x5FFA 0x2700 (boot 0x001F))).setUsp 0x5FFA) fun t =>
    t.usp == 0x6000 && t.pc == 0x2000 && t.sr == 0x0000 := by decide
/-- `JSR (A0)` (R325). -/
theorem test_jsr : gives [0x4E90] ((boot 0x2700).setA 0 0x2000) fun t =>
    t.ssp == 0x7FFC && t.pc == 0x2000 && t.sr == 0x2700 && peek .long t.mem 0x7FFC == 0x1002 := by decide
/-- `JMP (A0)` (R324). -/
theorem test_jmp : gives [0x4ED0] ((boot 0x271F).setA 0 0x2000) fun t =>
    t.pc == 0x2000 && t.sr == 0x271F := by decide
/-- `ADDQ.W #1,A0` (R394). -/
theorem test_addq : gives [0x5248] ((boot 0x271F).setA 0 0xFFFF) fun t =>
    t.readA 0 == 0x10000 && t.sr == 0x271F && t.pc == 0x1002 := by decide
/-- `SUBQ.W #1,A0` (R244). -/
theorem test_subq : gives [0x5348] ((boot 0x2704).setA 0 0x10000) fun t =>
    t.readA 0 == 0xFFFF && t.sr == 0x2704 && t.pc == 0x1002 := by decide
/-- `SEQ (A0)` (R299). -/
theorem test_scc_1 : gives [0x57D0] (put1 0x2000 0x12 ((boot 0x2704).setA 0 0x2000)) fun t =>
    t.sr == 0x2704 && peek .byte t.mem 0x2000 == 0xFF && t.pc == 0x1002 := by decide
/-- `ST D0` (R299). -/
theorem test_scc_2 : gives [0x50C0] ((boot 0x270A).setD 0 0x12345655) fun t =>
    t.readD 0 == 0x123456FF && t.sr == 0x270A && t.pc == 0x1002 := by decide
/-- `DBCC D0,*+$10` (R323). -/
theorem test_dbcc_1 : gives [0x54C8, 0x000E] ((boot 0x2701).setD 0 0x1) fun t =>
    t.readD 0 == 0x0 && t.pc == 0x1010 && t.sr == 0x2701 := by decide
/-- `DBEQ D0,*-4` (R323). -/
theorem test_dbcc_2 : gives [0x57C8, 0xFFFA] ((boot 0x2704).setD 0 0x5) fun t =>
    t.sr == 0x2704 && t.pc == 0x1004 := by decide
/-- `BRA.B *+$12` (R321). -/
theorem test_bra : gives [0x6010] (boot 0x271F) fun t =>
    t.pc == 0x1012 && t.sr == 0x271F := by decide
/-- `BSR.B *+$12` (R322). -/
theorem test_bsr : gives [0x6110] (boot 0x2700) fun t =>
    t.ssp == 0x7FFC && t.pc == 0x1012 && t.sr == 0x2700 && peek .long t.mem 0x7FFC == 0x1002 := by decide
/-- `BEQ.B *+6` (R407). -/
theorem test_bcc : gives [0x6704] (boot 0x2704) fun t =>
    t.sr == 0x2704 && t.pc == 0x1006 := by decide
/-- `MOVEQ #0,D3` (R192). -/
theorem test_moveq : gives [0x7600] ((boot 0x271F).setD 3 0x12345678) fun t =>
    t.readD 3 == 0x0 && t.sr == 0x2714 && t.pc == 0x1002 := by decide
/-- `OR.B D1,D0` (R256). -/
theorem test_orToReg : gives [0x8001] (((boot 0x2700).setD 0 0xF).setD 1 0xF0) fun t =>
    t.readD 0 == 0xFF && t.sr == 0x2708 && t.pc == 0x1002 := by decide
/-- `OR.L D0,(A0)` (R257). -/
theorem test_orToEa : gives [0x8190] (put4 0x2000 0x1 (((boot 0x2700).setD 0 0x80000000).setA 0 0x2000)) fun t =>
    t.sr == 0x2708 && peek .long t.mem 0x2000 == 0x80000001 && t.pc == 0x1002 := by decide
/-- `DIVU D1,D0` (R218). -/
theorem test_divu : gives [0x80C1] (((boot 0x2700).setD 0 0x10001).setD 1 0x2) fun t =>
    t.readD 0 == 0x18000 && t.sr == 0x2708 && t.pc == 0x1002 := by decide
/-- `DIVS D1,D0` (R217). -/
theorem test_divs : gives [0x81C1] (((boot 0x2700).setD 0 0xFFFFFFF9).setD 1 0x2) fun t =>
    t.readD 0 == 0xFFFFFFFD && t.sr == 0x2708 && t.pc == 0x1002 := by decide
/-- `SBCD D1,D0` (R301). -/
theorem test_sbcdReg : gives [0x8101] (((boot 0x2704).setD 0 0x17).setD 1 0x42) fun t =>
    t.readD 0 == 0x75 && t.pc == 0x1002 := by decide
/-- `SBCD -(A0),-(A1)` (R302). -/
theorem test_sbcdMem : gives [0x8308] (put1 0x3000 0x0 (put1 0x2000 0x1
    (((boot 0x2704).setA 0 0x2001).setA 1 0x3001))) fun t =>
    t.readA 0 == 0x2000 && t.readA 1 == 0x3000 && peek .byte t.mem 0x3000 == 0x99 && t.pc == 0x1002 := by decide
/-- `SUB.W (A0)+,D0` (R240). -/
theorem test_subToReg : gives [0x9058] (put2 0x2000 0x7 (((boot 0x2700).setD 0 0x5).setA 0 0x2000)) fun t =>
    t.readD 0 == 0xFFFE && t.readA 0 == 0x2002 && t.sr == 0x2719 && t.pc == 0x1002 := by decide
/-- `SUB.B D0,-(A0)` (R241). -/
theorem test_subToEa : gives [0x9120] (put1 0x2000 0x10 (((boot 0x2700).setD 0 0x10).setA 0 0x2001)) fun t =>
    t.readA 0 == 0x2000 && t.sr == 0x2704 && peek .byte t.mem 0x2000 == 0x0 && t.pc == 0x1002 := by decide
/-- `SUBA.W D0,A0` (R242). -/
theorem test_subaW : gives [0x90C0] (((boot 0x271F).setD 0 0x8000).setA 0 0x0) fun t =>
    t.readA 0 == 0x8000 && t.sr == 0x271F && t.pc == 0x1002 := by decide
/-- `SUBA.L D0,A0` (R242). -/
theorem test_subaL : gives [0x91C0] (((boot 0x2700).setD 0 0x1).setA 0 0x0) fun t =>
    t.readA 0 == 0xFFFFFFFF && t.sr == 0x2700 && t.pc == 0x1002 := by decide
/-- `SUBX.B D1,D0` (R245). -/
theorem test_subxReg : gives [0x9101] (((boot 0x2714).setD 0 0x0).setD 1 0x0) fun t =>
    t.readD 0 == 0xFF && t.sr == 0x2719 && t.pc == 0x1002 := by decide
/-- `SUBX.W -(A0),-(A1)` (R245). -/
theorem test_subxMem : gives [0x9348] (put2 0x3000 0x8000 (put2 0x2000 0x1
    (((boot 0x2714).setA 0 0x2002).setA 1 0x3002))) fun t =>
    t.readA 0 == 0x2000 && t.readA 1 == 0x3000 && t.sr == 0x2702 && peek .word t.mem 0x3000 == 0x7FFE &&
      t.pc == 0x1002 := by decide
/-- `CMP.B D1,D0` (R213). -/
theorem test_cmp : gives [0xB001] (((boot 0x2710).setD 0 0x7F).setD 1 0xFF) fun t =>
    t.sr == 0x271B && t.pc == 0x1002 := by decide
/-- `CMPA.W #$8000,A0` (R214). -/
theorem test_cmpaW : gives [0xB0FC, 0x8000] ((boot 0x2700).setA 0 0xFFFF8000) fun t =>
    t.sr == 0x2704 && t.pc == 0x1004 := by decide
/-- `CMPA.L A0,A0` (R214). -/
theorem test_cmpaL : gives [0xB1C8] ((boot 0x2700).setA 0 0x1234) fun t =>
    t.sr == 0x2704 && t.pc == 0x1002 := by decide
/-- `EOR.B D0,D1` (R252). -/
theorem test_eor : gives [0xB101] (((boot 0x271F).setD 0 0xFF).setD 1 0x1234560F) fun t =>
    t.readD 1 == 0x123456F0 && t.sr == 0x2718 && t.pc == 0x1002 := by decide
/-- `CMPM.B (A0)+,(A1)+` (R216). -/
theorem test_cmpm_1 : gives [0xB308] (put1 0x3000 0x0 (put1 0x2000 0x1
    (((boot 0x2700).setA 0 0x2000).setA 1 0x3000))) fun t =>
    t.readA 0 == 0x2001 && t.readA 1 == 0x3001 && t.sr == 0x2709 && t.pc == 0x1002 := by decide
/-- `CMPM.L (A0)+,(A0)+` (R216). -/
theorem test_cmpm_2 : gives [0xB188] (put4 0x2004 0x5 (put4 0x2000 0x5 ((boot 0x2700).setA 0 0x2000))) fun t =>
    t.readA 0 == 0x2008 && t.sr == 0x2704 && t.pc == 0x1002 := by decide
/-- `AND.B D1,D0` (R396). -/
theorem test_andToReg : gives [0xC001] (((boot 0x2713).setD 0 0x123456F0).setD 1 0x8F) fun t =>
    t.readD 0 == 0x12345680 && t.sr == 0x2718 && t.pc == 0x1002 := by decide
/-- `AND.L D0,(A0)` (R397). -/
theorem test_andToEa : gives [0xC190] (put4 0x2000 0x89ABCDEF
    (((boot 0x2700).setD 0 0xFF00FF00).setA 0 0x2000)) fun t =>
    t.sr == 0x2708 && peek .long t.mem 0x2000 == 0x8900CD00 && t.pc == 0x1002 := by decide
/-- `MULU D1,D0` (R222). -/
theorem test_mulu : gives [0xC0C1] (((boot 0x2700).setD 0 0xFFFF).setD 1 0xFFFF) fun t =>
    t.readD 0 == 0xFFFE0001 && t.sr == 0x2708 && t.pc == 0x1002 := by decide
/-- `MULS #0,D0` (R221). -/
theorem test_muls : gives [0xC1FC, 0x0000] ((boot 0x271B).setD 0 0x1234) fun t =>
    t.readD 0 == 0x0 && t.sr == 0x2714 && t.pc == 0x1004 := by decide
/-- `ABCD D1,D0` (R390). -/
theorem test_abcdReg : gives [0xC101] (((boot 0x2704).setD 0 0x45).setD 1 0x55) fun t =>
    t.readD 0 == 0x0 && t.pc == 0x1002 := by decide
/-- `ABCD -(A0),-(A1)` (R390). -/
theorem test_abcdMem : gives [0xC308] (put1 0x3000 0x1 (put1 0x2000 0x99
    (((boot 0x2704).setA 0 0x2001).setA 1 0x3001))) fun t =>
    t.readA 0 == 0x2000 && t.readA 1 == 0x3000 && peek .byte t.mem 0x3000 == 0x0 && t.pc == 0x1002 := by decide
/-- `EXG D0,D0` (R182). -/
theorem test_exgDD : gives [0xC140] ((boot 0x2700).setD 0 0x55) fun t =>
    t.sr == 0x2700 && t.pc == 0x1002 := by decide
/-- `EXG A0,A1` (R182). -/
theorem test_exgAA : gives [0xC149] (((boot 0x2700).setA 0 0xA0A0A0A0).setA 1 0xA1A1A1A1) fun t =>
    t.readA 0 == 0xA1A1A1A1 && t.readA 1 == 0xA0A0A0A0 && t.sr == 0x2700 && t.pc == 0x1002 := by decide
/-- `EXG D2,A0` (R182). -/
theorem test_exgDA : gives [0xC588] (((boot 0x2700).setD 2 0x11111111).setA 0 0x22222222) fun t =>
    t.readD 2 == 0x22222222 && t.readA 0 == 0x11111111 && t.sr == 0x2700 && t.pc == 0x1002 := by decide
/-- `ADD.L (A0)+,D0` (R391). -/
theorem test_addToReg : gives [0xD098] (put4 0x2000 0xFFFFFFFE (((boot 0x2700).setD 0 0x1).setA 0 0x2000)) fun t =>
    t.readD 0 == 0xFFFFFFFF && t.readA 0 == 0x2004 && t.sr == 0x2708 && t.pc == 0x1002 := by decide
/-- `ADD.W D0,(A0)` (R391). -/
theorem test_addToEa : gives [0xD150] (put2 0x2000 0xFFFF (((boot 0x2700).setD 0 0x1).setA 0 0x2000)) fun t =>
    t.sr == 0x2715 && peek .word t.mem 0x2000 == 0x0 && t.pc == 0x1002 := by decide
/-- `ADDA.W D0,A0` (R392). -/
theorem test_addaW : gives [0xD0C0] (((boot 0x271F).setD 0 0x8000).setA 0 0x10000) fun t =>
    t.readA 0 == 0x8000 && t.sr == 0x271F && t.pc == 0x1002 := by decide
/-- `ADDA.L D0,A0` (R392). -/
theorem test_addaL : gives [0xD1C0] (((boot 0x2700).setD 0 0xFFFFFFFF).setA 0 0x1) fun t =>
    t.readA 0 == 0x0 && t.sr == 0x2700 && t.pc == 0x1002 := by decide
/-- `ADDX.L D1,D0` (R395). -/
theorem test_addxReg : gives [0xD181] (((boot 0x2714).setD 0 0xFFFFFFFF).setD 1 0x0) fun t =>
    t.readD 0 == 0x0 && t.sr == 0x2715 && t.pc == 0x1002 := by decide
/-- `ADDX.W -(A0),-(A1)` (R395). -/
theorem test_addxMem : gives [0xD348] (put2 0x3000 0x8000 (put2 0x2000 0x8000
    (((boot 0x2704).setA 0 0x2002).setA 1 0x3002))) fun t =>
    t.readA 0 == 0x2000 && t.readA 1 == 0x3000 && t.sr == 0x2717 && peek .word t.mem 0x3000 == 0x0 &&
      t.pc == 0x1002 := by decide
/-- `ASR.B #1,D0` (R402). -/
theorem test_asrReg_1 : gives [0xE200] ((boot 0x2700).setD 0 0x81) fun t =>
    t.readD 0 == 0xC0 && t.sr == 0x2719 && t.pc == 0x1002 := by decide
/-- `ASR.L #8,D0` (R402). -/
theorem test_asrReg_2 : gives [0xE080] ((boot 0x2700).setD 0 0x7FFFFF80) fun t =>
    t.readD 0 == 0x7FFFFF && t.sr == 0x2711 && t.pc == 0x1002 := by decide
/-- `ASR.W (A0)` (R402). -/
theorem test_asrMem : gives [0xE0D0] (put2 0x2000 0x8001 ((boot 0x2700).setA 0 0x2000)) fun t =>
    t.sr == 0x2719 && peek .word t.mem 0x2000 == 0xC000 && t.pc == 0x1002 := by decide
/-- `ASL.W D1,D0` (R401). -/
theorem test_aslReg : gives [0xE360] (((boot 0x2713).setD 0 0x8000).setD 1 0x0) fun t =>
    t.sr == 0x2718 && t.pc == 0x1002 := by decide
/-- `ASL.W (A0)` (R272). -/
theorem test_aslMem : gives [0xE1D0] (put2 0x2000 0x4000 ((boot 0x2700).setA 0 0x2000)) fun t =>
    t.sr == 0x270A && peek .word t.mem 0x2000 == 0x8000 && t.pc == 0x1002 := by decide
/-- `LSR.B #1,D0` (R272). -/
theorem test_lsrReg : gives [0xE208] ((boot 0x2700).setD 0 0xFFFFFF01) fun t =>
    t.readD 0 == 0xFFFFFF00 && t.sr == 0x2715 && t.pc == 0x1002 := by decide
/-- `LSR.W (A0)` (R272). -/
theorem test_lsrMem : gives [0xE2D0] (put2 0x2000 0x1 ((boot 0x2700).setA 0 0x2000)) fun t =>
    t.sr == 0x2715 && peek .word t.mem 0x2000 == 0x0 && t.pc == 0x1002 := by decide
/-- `LSL.W D1,D0` (R271). -/
theorem test_lslReg_1 : gives [0xE368] (((boot 0x2711).setD 0 0x8001).setD 1 0x0) fun t =>
    t.sr == 0x2718 && t.pc == 0x1002 := by decide
/-- `LSL.W D1,D0` (R271). -/
theorem test_lslReg_2 : gives [0xE368] (((boot 0x2711).setD 0 0x1).setD 1 0x40) fun t =>
    t.sr == 0x2710 && t.pc == 0x1002 := by decide
/-- `LSL.W (A0)` (R271). -/
theorem test_lslMem : gives [0xE3D0] (put2 0x2000 0xC000 ((boot 0x2700).setA 0 0x2000)) fun t =>
    t.sr == 0x2719 && peek .word t.mem 0x2000 == 0x8000 && t.pc == 0x1002 := by decide
/-- `ROXR.W #1,D0` (R276). -/
theorem test_roxrReg : gives [0xE250] ((boot 0x2710).setD 0 0x0) fun t =>
    t.readD 0 == 0x8000 && t.sr == 0x2708 && t.pc == 0x1002 := by decide
/-- `ROXR.W (A0)` (R276). -/
theorem test_roxrMem : gives [0xE4D0] (put2 0x2000 0x1 ((boot 0x2700).setA 0 0x2000)) fun t =>
    t.sr == 0x2715 && peek .word t.mem 0x2000 == 0x0 && t.pc == 0x1002 := by decide
/-- `ROXL.B #1,D0` (R275). -/
theorem test_roxlReg : gives [0xE310] ((boot 0x2710).setD 0 0x0) fun t =>
    t.readD 0 == 0x1 && t.sr == 0x2700 && t.pc == 0x1002 := by decide
/-- `ROXL.W (A0)` (R275). -/
theorem test_roxlMem : gives [0xE5D0] (put2 0x2000 0x4000 ((boot 0x2710).setA 0 0x2000)) fun t =>
    t.sr == 0x2708 && peek .word t.mem 0x2000 == 0x8001 && t.pc == 0x1002 := by decide
/-- `ROR.B #1,D0` (R274). -/
theorem test_rorReg : gives [0xE218] ((boot 0x2700).setD 0 0x1) fun t =>
    t.readD 0 == 0x80 && t.sr == 0x2709 && t.pc == 0x1002 := by decide
/-- `ROR.W (A0)` (R274). -/
theorem test_rorMem : gives [0xE6D0] (put2 0x2000 0x2 ((boot 0x2700).setA 0 0x2000)) fun t =>
    t.sr == 0x2700 && peek .word t.mem 0x2000 == 0x1 && t.pc == 0x1002 := by decide
/-- `ROL.B #1,D0` (R273). -/
theorem test_rolReg : gives [0xE318] ((boot 0x2710).setD 0 0x80) fun t =>
    t.readD 0 == 0x1 && t.sr == 0x2711 && t.pc == 0x1002 := by decide
/-- `ROL.W (A0)` (R273). -/
theorem test_rolMem : gives [0xE7D0] (put2 0x2000 0x8000 ((boot 0x2700).setA 0 0x2000)) fun t =>
    t.sr == 0x2701 && peek .word t.mem 0x2000 == 0x1 && t.pc == 0x1002 := by decide

/-! ### The machine -/

/-- Illegal, line A, line F: vectors 4, 10, 11, the opword's own address saved (R442, R449, R438). -/
theorem test_unknown_opwords :
    (gives [0x4AFB] (put4 0x10 0x400 (boot 0x2700)) fun t => t.pc == 0x400 && peek .long t.mem 0x7FFC == 0x1000) ∧
    (gives [0xA000] (put4 0x28 0xA00 (boot 0x2700)) fun t => t.pc == 0xA00 && peek .long t.mem 0x7FFC == 0x1000) ∧
    (gives [0xF000] (put4 0x2C 0xB00 (boot 0x2700)) fun t => t.pc == 0xB00 && peek .long t.mem 0x7FFC == 0x1000) := by
  decide
/-- An interrupt of level 5 through its autovector, vector 29 (R447, R448, R436). -/
theorem test_interrupt : (gives [0x4E71] { put4 0x74 0x5000 (boot 0x2004) with inputs := [{ ipl := 5 }] } fun t =>
    t.pc == 0x5000 && t.sr == 0x2504 && t.ssp == 0x7FFA && peek .long t.mem 0x7FFC == 0x1000 &&
    peek .word t.mem 0x7FFA == 0x2004) := by decide
/-- A level equal to the mask is not accepted, level 7 on its edge is (R447). -/
theorem test_interrupt_mask :
    (gives [0x4E71] { boot 0x2500 with inputs := [{ ipl := 5 }] } fun t => t.pc == 0x1002) ∧
    (gives [0x4E71] { put4 0x7C 0x7000 (boot 0x2700) with inputs := [{ ipl := 7 }] } fun t => t.pc == 0x7000) := by
  decide
/-- NOP with T = 1 leaves the trace due (R452). -/
theorem test_trace_due : (gives [0x4E71] (boot 0xA700) fun t => t.pendingTrace && t.pc == 0x1002) := by decide
/-- A fetch at an odd address takes vector 3 and pushes 14 bytes (R437, R441). -/
theorem test_address_error : (match step { put4 0x0C 0x01020304 (boot 0x2700) with pc := 0x1001 } with
    | .next t => t.groupZero && t.ssp == 0x7FF2 && t.pc == 0x01020304 | _ => false) = true := by decide
/-- A halted processor stays, a reset starts it with SSP and PC from memory (R456, R490). -/
theorem test_reset_from_halted :
    (match step { put4 4 0x1000 (put4 0 0x8000 (boot 0)) with halted := true, inputs := [{ reset := true }] } with
     | .next t => !t.halted && t.pc == 0x1000 && t.ssp == 0x8000 | _ => false) = true := by decide

/-- R62, R75: an address that refuses supervisor program reads answers a data read and refuses a program read. -/
theorem test_refused_by_kind :
    let s := { put2 0x2000 0x1234 (boot 0x2700) with
      memMap := [{ base := 0x2000, size := 2, device := false,
                   refused := [{ write := false, program := true, supervisor := true }] }] }
    (match readMem .word 0x2000 false s with | .ok v _ => v == 0x1234 | .error _ _ => false) = true ∧
    (match readMem .word 0x2000 true s with | .error (.busError acc) _ => acc.addr == 0x2000 | _ => false) = true := by
  decide

/-- The events the platform has seen, the newest first. -/
def eventsOf : Host.Outcome State Fault Refusal → List Event
  | .next t => t.history
  | _ => []

/-- A device at the source (A0) of a MOVE at 1000 hex and one at its first extension word. -/
def moveBetweenDevices : State :=
  { (boot 0x2700).setA 0 0x2000 with
    memMap := [{ base := 0x2000, size := 2, device := true, refused := [] },
               { base := 0x1002, size := 2, device := true, refused := [] }] }

/-- R187, R155: MOVE.W (A0),(4).W reads its source before it fetches its destination's extension word. -/
theorem test_move_reads_source_first : eventsOf (exec (.moveW (.ind 0) (.absW 4)) moveBetweenDevices) =
    [.deviceRead 0x1002 2, .deviceRead 0x2000 2] := by decide

/-! ### Witnesses: for every statement with hypotheses, a state and operands that meet all of them, clause by clause -/

/-- A start with even addresses in A0 to A2. -/
def base (sr : Word) : State := (((boot sr).setA 0 0x2000).setA 1 0x3000).setA 2 0x4000

/-- Word and longword operands: even addresses meet the alignment, bytes meet it at odd ones too, registers and immediates
always; the byte at A7 moves it by 2. -/
theorem witness_operands :
    (base 0x2700).memMap = [] ∧ locAligned .word (operandLoc .word 0 (.ind 0) (base 0x2700)) = true ∧
    locAligned .long (operandLoc .long 0 (.preDec 1) (base 0x2700)) = true ∧
    locAligned .byte (operandLoc .byte 0 (.disp 0 1) (base 0x2700)) = true ∧
    locAligned .long (operandLoc .long 2 (.absW 0x8000) (base 0x2700)) = true ∧
    locAligned .word (operandLoc .word 0 (.pcIndex { reg := .d 0, long := false, disp := 0 }) (base 0x2700)) = true ∧
    locAligned .word (operandLoc .word 0 (.dReg 3) (base 0x2700)) = true ∧
    locAligned .long (operandLoc .long 0 (.imm 0xFFFFFFFF) (base 0x2700)) = true := by decide
theorem witness_DecodeEncodeRoundTrip :
    (Instr.movemToMem .long 0x6017 (.absW 0x1234)).wellFormed = true ∧ (Instr.bra (.short 0xFF)).wellFormed = true ∧
    (Instr.moveL (.imm 0xFFFFFFFF) (.absL 0xFFFFFFFF)).wellFormed = true := by decide
theorem witness_DecodedIsWellFormed : decodeWords [0x7EFF] = .ok (.moveq 0xFF 7, []) := by decide
theorem witness_OpwordSelectsOneRow :
    (∃ r ∈ rowsOf (field 0 12 4), r.selects 0 = true) ∧
    (∃ r ∈ rowsOf (field 0xE7F9 12 4), r.selects 0xE7F9 = true) := by decide
theorem witness_StepRunsDecodedInstruction :
    let s := holding [0x7EFF] (boot 0x2700)
    s.inputs = [] ∧ s.halted = false ∧ s.stopped = false ∧ s.pendingTrace = false ∧ s.memMap = [] ∧ s.stale = [] ∧
    s.pc.getLsbD 0 = false ∧
    decodeWords (wordsOfBytes ((List.range 10).map fun k => memRead s.mem (phys s.pc k))) =
      .ok (.moveq 0xFF 7, [0, 0, 0, 0]) := by decide
/-- The hypotheses on an unknown opword, at PC. -/
def UnknownAt (w : Word) : Prop :=
  let s := holding [w] (boot 0x2700)
  s.inputs = [] ∧ s.halted = false ∧ s.stopped = false ∧ s.pendingTrace = false ∧ s.memMap = [] ∧ s.stale = [] ∧
  s.pc.getLsbD 0 = false ∧ s.ssp.getLsbD 0 = false ∧
  decodeTag (memRead s.mem (phys s.pc 0) ++ memRead s.mem (phys s.pc 1) : Word).toNat = none
theorem witness_UnknownOpwordTakesException : UnknownAt 0x4AFB :=
  ⟨rfl, rfl, rfl, rfl, rfl, rfl, by decide, by decide, by decide⟩
theorem witness_UnknownOpwordTakesException_lineA : UnknownAt 0xA000 :=
  ⟨rfl, rfl, rfl, rfl, rfl, rfl, by decide, by decide, by decide⟩
theorem witness_UnknownOpwordTakesException_lineF : UnknownAt 0xFFFF :=
  ⟨rfl, rfl, rfl, rfl, rfl, rfl, by decide, by decide, by decide⟩
theorem witness_StepKeepsInvariant :
    Inv (holding [0x4E71] (boot 0x2700)) ∧ ∃ t, step (holding [0x4E71] (boot 0x2700)) = .next t :=
  ⟨⟨by decide, by unfold srReserved; decide, by decide⟩, _, rfl⟩
theorem witness_UserModeKeepsSupervisorState :
    (boot 0).supervisor = false ∧ ∃ t, exec .nop (boot 0) = .next t ∧ t.supervisor = false := ⟨rfl, _, rfl, rfl⟩
theorem witness_PrivilegedTrapsInUserMode : (boot 0x001F).supervisor = false ∧
    ∀ i ∈ [Instr.andiToSr 0xFFFF, .eoriToSr 0, .oriToSr 0, .moveToSr (.postInc 0), .moveToUsp 0, .moveFromUsp 7, .reset,
      .rte, .stop 0x2700], privileged i = true := by decide
theorem witness_ResetSequence :
    let s := { boot 0 with halted := true, inputs := [{ reset := true, ipl := 7 }] }
    s.memMap = [] ∧ s.inputs = { reset := true, ipl := 7, iack := .autovector } :: [] := by decide
theorem witness_ExceptionEntry : (boot 0x2700).memMap = [] ∧ (boot 0x2700).ssp.getLsbD 0 = false ∧
    (boot 0x2700).mem.wf = true := by decide
theorem witness_RteUndoesException :
    let s := boot 0x001F
    let u := { takeException 4 0x1000 none s with d := Vector.replicate 8 7 }
    s.mem.wf = true ∧ s.memMap = [] ∧ s.ssp.getLsbD 0 = false ∧ u.memMap = [] ∧ u.supervisor = true ∧
    u.mem = (takeException 4 0x1000 none s).mem ∧ u.ssp = (takeException 4 0x1000 none s).ssp :=
  ⟨rfl, rfl, by decide, rfl, rfl, rfl, rfl⟩
theorem witness_MisalignedMoveTakesAddressError :
    let s := (boot 0x2700).setA 0 0x2001
    s.memMap = [] ∧ operandLoc .word 0 (.ind 0) s = .mem 0x2001 false ∧ misaligned .word 0x2001 = true ∧
    operandLoc .long 0 (.absL 0xFFFFFFFF) s = .mem 0xFFFFFFFF false ∧ misaligned .long 0xFFFFFFFF = true := by decide
theorem witness_LongFrame : (boot 0).mem.wf = true ∧ (boot 0).memMap = [] ∧ (boot 0).groupZero = false ∧
    (boot 0).ssp.getLsbD 0 = false := by decide
theorem witness_DoubleFaultHalts :
    State.reset.groupZero = true ∧ ((boot 0).setSsp 0x7FFF).ssp.getLsbD 0 = true ∧
    (let s := State.reset.setPc 1
     s.inputs = [] ∧ s.halted = false ∧ s.stopped = false ∧ s.pendingTrace = false ∧ s.groupZero = true ∧
     s.pc.getLsbD 0 = true) ∧
    (let s := (boot 0x2700).setSsp 0x7FFF
     s.memMap = [] ∧ s.supervisor = true ∧ s.ssp.getLsbD 0 = true) := by decide
theorem witness_HaltedAndStoppedWait :
    (let s := { boot 0x2700 with halted := true, inputs := [{ ipl := 7 }] }
     s.halted = true ∧ (nextInput s).reset = false) ∧
    (let s := { boot 0x2500 with stopped := true, inputs := [{ ipl := 5 }] }
     s.stopped = true ∧ s.halted = false ∧ s.pendingTrace = false ∧ (nextInput s).reset = false ∧
     acceptable s (nextInput s).ipl = false) := by decide
/-- Just above the mask, and the transition to 7 at mask 7, in the stopped state too. -/
theorem witness_InterruptTaken :
    (let s := { boot 0x2400 with stopped := true, inputs := [{ ipl := 5, iack := .vector 15 }] }
     s.memMap = [] ∧ s.ssp.getLsbD 0 = false ∧ s.halted = false ∧ s.pendingTrace = false ∧
     s.inputs = { reset := false, ipl := 5, iack := .vector 15 } :: [] ∧ s.intMask.toNat < (5 : BitVec 3).toNat) ∧
    (let s := { boot 0x2700 with inputs := [{ ipl := 7, iack := .spurious }] }
     s.memMap = [] ∧ s.ssp.getLsbD 0 = false ∧ s.halted = false ∧ s.pendingTrace = false ∧
     s.inputs = { reset := false, ipl := 7, iack := .spurious } :: [] ∧ s.prevIpl7 = false) := by decide
theorem witness_TraceTaken :
    (∃ t, exec .illegal (boot 0xA700) = .next t) ∧
    (privileged (.stop 0) = true ∧ (boot 0x8000).supervisor = false ∧ ∃ t, exec (.stop 0) (boot 0x8000) = .next t) ∧
    (let s := { boot 0xA700 with pendingTrace := true, stopped := true }
     s.memMap = [] ∧ s.ssp.getLsbD 0 = false ∧ s.halted = false ∧ s.pendingTrace = true ∧
     (nextInput s).reset = false) :=
  ⟨⟨_, rfl⟩, ⟨rfl, rfl, _, rfl⟩, by decide⟩
/-- Each outcome of a division, at its boundary: the largest quotients that fit and the smallest that do not. -/
theorem witness_DivisionResults :
    divuResult 1 0xFFFF = .result 0xFFFF 0 ∧ divuResult 1 0x10000 = .overflow ∧ divuResult 0 1 = .zeroDivide ∧
    divsResult 1 0x7FFF = .result 0x7FFF 0 ∧ divsResult 1 0x8000 = .overflow ∧
    divsResult 1 0xFFFF8000 = .result 0x8000 0 ∧ divsResult 0xFFFF 0xFFFF8000 = .overflow ∧
    divsResult 2 0xFFFFFFF9 = .result 0xFFFD 0xFFFF := by decide
theorem witness_BcdArithmetic : bcdValid 0x99 = true ∧ bcdValid 0x00 = true ∧ bcdValid 0x9A = false ∧
    bcdValid 0xA9 = false := by decide
theorem witness_MoveCopies :
    let s := base 0x2700
    (moveInstr .word (.postInc 0) (.preDec 0)).wellFormed = true ∧ s.memMap = [] ∧
    locAligned .word (operandLoc .word 0 (.postInc 0) s) = true ∧
    locAligned .word (eaLoc .word 0 (.preDec 0) (eaBump .word (.postInc 0)
      (fetched (moveInstr .word (.postInc 0) (.preDec 0)) s))) = true := by decide
theorem witness_LeaAndPea :
    let s := base 0x2700
    s.memMap = [] ∧ (Instr.lea (.disp 0 1) 1).wellFormed = true ∧
    operandLoc .long 0 (.disp 0 1) s = .mem 0x2001 false ∧ operandLoc .long 0 (.pcDisp 1) s = .mem 0x1003 true ∧
    s.sp.getLsbD 0 = false := by decide
theorem witness_LinkAndUnlk : (base 0).memMap = [] ∧ (base 0).sp.getLsbD 0 = false ∧
    ((base 0).readA 0).getLsbD 0 = false ∧ ((base 0).readA 7).getLsbD 0 = false := by decide
theorem witness_UnlkUndoesLink :
    ∃ t, exec (.link 6 0xFFF4) (boot 0) = .next t ∧ (boot 0).mem.wf = true ∧ (boot 0).memMap = [] ∧
      t.memMap = [] ∧ (6 : RegNum) ≠ 7 ∧ (boot 0).sp.getLsbD 0 = false ∧ t.mem = t.mem ∧ t.readA 6 = t.readA 6 :=
  ⟨_, rfl, rfl, rfl, rfl, by decide, by decide, rfl, rfl⟩
theorem witness_MovemStoresRegisters :
    let s := base 0x2700
    s.memMap = [] ∧ (Instr.movemToMem .long 0xFFFF (.preDec 7)).wellFormed = true ∧ (s.readA 7).getLsbD 0 = false ∧
    (Instr.movemToMem .word 0 (.disp 0 2)).wellFormed = true ∧ operandLoc .word 1 (.disp 0 2) s = .mem 0x2002 false ∧
    (∀ n, EA.disp 0 2 ≠ .preDec n) ∧ (0x2002 : Long).getLsbD 0 = false := by decide
theorem witness_MovemLoadsRegisters :
    let s := base 0x2700
    s.memMap = [] ∧ (Instr.movemToRegs .long 0xFFFF (.postInc 7)).wellFormed = true ∧ (s.readA 7).getLsbD 0 = false ∧
    (Instr.movemToRegs .word 0 (.pcDisp 0)).wellFormed = true ∧ operandLoc .word 1 (.pcDisp 0) s = .mem 0x1004 true ∧
    (∀ n, EA.pcDisp 0 ≠ .postInc n) ∧ (0x1004 : Long).getLsbD 0 = false := by decide
theorem witness_MovemSaveRestore : (0x7FFF : Word).getLsbD 15 = false ∧ (boot 0).mem.wf = true ∧
    (boot 0).memMap = [] ∧ (boot 0).sp.getLsbD 0 = false ∧
    ∃ t, exec (.movemToMem .long (0x0001 : Word).reverse (.preDec 7)) (boot 0) = .next t ∧ t.memMap = [] ∧
      t.mem = t.mem ∧ t.sp = t.sp := ⟨by decide, rfl, rfl, by decide, _, rfl, rfl, rfl, rfl⟩
/-- Every mode of a data alterable, memory alterable and immediate-free operand set is one that some operand has. -/
theorem witness_modes :
    (∀ ea ∈ [EA.dReg 0, .ind 0, .postInc 7, .preDec 7, .disp 0 0, .index 0 { reg := .a 0, long := true, disp := 0x80 },
        .absW 0xFFFE, .absL 0xFFFFFFFE], EaSet.dataAlterable.accepts ea.kind = true) ∧
    EaSet.memoryAlterable.accepts (EA.ind 0).kind = true ∧ EaSet.dataNoImm.accepts (EA.pcDisp 0).kind = true := by decide
theorem witness_ImmediateOperations :
    locAligned .long (operandLoc .long (immCount .long) (.index 0 { reg := .d 1, long := true, disp := 2 }) (base 0)) =
      true ∧ (base 0).memMap = [] := by decide
theorem witness_ComparesSetFlagsOnly :
    let s := base 0x2700
    locAligned .byte (operandLoc .byte (immCount .byte) (.disp 0 1) s) = true ∧
    locAligned WordLong.word.size (operandLoc WordLong.word.size 0 (.postInc 0) s) = true ∧
    misaligned .word (s.readA 0) = false ∧
    misaligned .word (((fetched (.cmpm .word 0 0) s).setA 0 (s.readA 0 + incAmount 0 .word)).readA 0) = false := by
  decide
theorem witness_BitOperations : 31 < 32 ∧ 0 < 8 ∧ (base 0).memMap = [] := by decide
theorem witness_ExtendedOperations :
    let s := base 0x2710
    s.memMap = [] ∧ misaligned .word (s.readA 0 - incAmount 0 .word) = false ∧
    misaligned .word (((fetched .nop s).setA 0 (s.readA 0 - incAmount 0 .word)).readA 0 - incAmount 0 .word) = false := by
  decide
theorem witness_MemoryShifts : (base 0).memMap = [] ∧ EaSet.memoryAlterable.accepts (EA.absW 0x8000).kind = true ∧
    locAligned .word (operandLoc .word 0 (.absW 0x8000) (base 0)) = true := by decide
/-- The counts where the clauses meet: 0 and 1, the width and one more. -/
theorem witness_ShiftsClosedForm : (0 : Nat) = 0 ∧ 1 ≤ 1 ∧ 1 ≤ 8 ∧ 1 ≤ 9 := by decide
theorem witness_RotatesClosedForm : (0 : Nat) = 0 ∧ 1 ≤ 1 ∧ 1 ≤ 63 := by decide
theorem witness_AddressRegisterOperations : (base 0).memMap = [] ∧
    locAligned WordLong.long.size (operandLoc WordLong.long.size 0 (.postInc 1) (base 0)) = true := by decide
theorem witness_RegisterMoves : (base 0x2700).memMap = [] := rfl
theorem witness_MovepTransfersBytes : (base 0x2700).memMap = [] := rfl
theorem witness_OverwritingInstructions : (base 0).memMap = [] ∧
    EaSet.dataAlterable.accepts (EA.preDec 0).kind = true ∧
    locAligned .long (operandLoc .long 0 (.preDec 0) (base 0)) = true ∧
    locAligned .word (operandLoc .word 0 (.preDec 0) (base 0)) = true := by decide
theorem witness_OperationsToDataRegister : (base 0).memMap = [] ∧
    locAligned .byte (operandLoc .byte 0 (.disp 0 1) (base 0)) = true := by decide
theorem witness_OperationsToOperand : (base 0).memMap = [] ∧
    EaSet.dataAlterable.accepts (EA.absL 0xFFFFFFFE).kind = true ∧
    locAligned .word (operandLoc .word 0 (.absL 0xFFFFFFFE) (base 0)) = true := by decide
theorem witness_QuickOperations : (base 0).memMap = [] ∧ EaSet.dataAlterable.accepts (EA.dReg 0).kind = true ∧
    locAligned .long (operandLoc .long 0 (.dReg 0) (base 0)) = true := by decide
theorem witness_SingleOperandOperations : (base 0x2714).memMap = [] ∧
    EaSet.dataAlterable.accepts (EA.postInc 0).kind = true ∧
    locAligned .long (operandLoc .long 0 (.postInc 0) (base 0x2714)) = true := by decide
theorem witness_RegisterShifts : (base 0x2710).memMap = [] := rfl
theorem witness_MultiplyGivesProduct : (base 0).memMap = [] ∧
    locAligned .word (operandLoc .word 0 (.pcDisp 0) (base 0)) = true := by decide
/-- DBcc with the condition true, with the count running out and with it going on. -/
theorem witness_BranchesJump : (base 0).memMap = [] ∧ condHolds (base 0x0004).ccr .eq = true ∧
    condHolds (base 0).ccr .eq = false ∧ ((base 0).readD 0).setWidth 16 - 1 = (0xFFFF : Word) ∧
    (((base 0).setD 0 1).readD 0).setWidth 16 - 1 = (0 : Word) := by decide
theorem witness_CcrInstructions : (base 0).memMap = [] ∧
    locAligned .word (operandLoc .word 0 (.postInc 0) (base 0)) = true := by decide
theorem witness_DivideGivesQuotient :
    let s := put2 0x2000 2 ((base 0x2710).setD 0 7)
    s.memMap = [] ∧ locAligned .word (operandLoc .word 0 (.ind 0) s) = true ∧
    divuResult (locValue .word (operandLoc .word 0 (.ind 0) s) s) (s.readD 0) = .result 3 1 ∧
    divuResult (locValue .word (operandLoc .word 0 (.ind 0) s) s) ((s.setD 0 0x20000).readD 0) = .overflow := by decide
theorem witness_ZeroDivideTraps :
    let s := base 0x2710
    s.memMap = [] ∧ locAligned .word (operandLoc .word 0 (.postInc 0) s) = true ∧
    locValue .word (operandLoc .word 0 (.postInc 0) s) s = 0#16 ∧
    (eaBump .word (.postInc 0) (fetched (.divu (.postInc 0) 1) s)).ssp.getLsbD 0 = false := by decide
/-- The bounds 0 and the operand itself, and the values one outside them. -/
theorem witness_ChkChecksBounds :
    let s := base 0x2700
    let v := fun n : Long => ((s.setD 0 n).readD 0).setWidth 16
    let bound : Word := locValue .word (operandLoc .word 0 (.imm 10) s) s
    s.memMap = [] ∧ locAligned .word (operandLoc .word 0 (.imm 10) s) = true ∧
    (0 ≤ (v 0 : Word).toInt ∧ (v 0 : Word).toInt ≤ bound.toInt) ∧
    (0 ≤ (v 10 : Word).toInt ∧ (v 10 : Word).toInt ≤ bound.toInt) ∧
    bound.toInt < (v 11 : Word).toInt ∧ (v 0xFFFF : Word).toInt < 0 ∧
    (eaBump .word (.imm 10) (fetched (.chk (.imm 10) 0) s)).ssp.getLsbD 0 = false := by decide
theorem witness_BcdInstructions :
    bcdAdd 0x99 0x00 true = some (0x00, true) ∧ bcdAdd 0x0A 0x00 false = none ∧ bcdSub 0x00 0x00 true = some (0x99, true) ∧
    EaSet.dataAlterable.accepts (EA.preDec 7).kind = true ∧ (base 0).memMap = [] := by decide
theorem witness_CallsAndReturns :
    (base 0).memMap = [] ∧ operandLoc .long 0 (.ind 0) (base 0) = .mem 0x2000 false ∧
    (base 0).sp.getLsbD 0 = false := by decide
theorem witness_PrivilegedInstructions : (base 0x2700).memMap = [] ∧ (base 0x2700).supervisor = true ∧
    (base 0x071F).supervisor = false ∧
    locAligned .word (operandLoc .word 0 (.postInc 0) (base 0x2700)) = true := by decide
theorem witness_StopStops : (boot 0x2700).memMap = [] ∧ (boot 0x2700).supervisor = true ∧
    (0x2000 : Word).getLsbD 13 = true ∧ (0xDFFF : Word).getLsbD 13 = false ∧ (boot 0x2700).ssp.getLsbD 0 = false := by
  decide
theorem witness_RteReturns : (boot 0x001F).supervisor = false ∧ (boot 0x2700).memMap = [] ∧
    (boot 0x2700).supervisor = true ∧ (boot 0x2700).ssp.getLsbD 0 = false := by decide
theorem witness_TrapsTaken : (boot 0).memMap = [] ∧ (boot 0).ssp.getLsbD 0 = false ∧ (boot 0x0002).ccr.v = true ∧
    (boot 0x001D).ccr.v = false := by decide

end Sys2Proof.Tests
end

section
/-! SUPPORT. What an instruction can do, said once for all of them. `Durable P` says that the updates which an instruction
makes in either mode keep `P`, `Governed P` that those of a privileged one do, `Lasting P` that group 0 processing does.
`exec_ends` then gives the three ends of every instruction, each from a state that still has `P`. -/

namespace Sys2Proof.Machine

open Sys2Proof.Safety

/-- A property kept by the shared updates, by a write of USP, and by what taking an exception changes besides the stack. -/
structure Durable (P : State → Prop) : Prop extends Steady P where
  setUsp : ∀ s v, P s → P (s.setUsp v)
  enter : ∀ s w level, P s → P { s.setSr (entrySr w level) with groupZero := false, stale := [] }
  unstop : ∀ s, P s → P { s with stopped := false }

/-- A property kept by what only supervisor mode may write (R461). -/
structure Governed (P : State → Prop) : Prop where
  setSsp : ∀ s v, P s → P (s.setSsp v)
  setSr : ∀ s w, P s → P (s.setSr w)
  stop : ∀ s, P s → P { s with stopped := true }

/-- A durable property kept by what group 0 processing changes besides the stack (R437, R456). -/
structure Lasting (P : State → Prop) : Prop extends Durable P where
  entrySr : ∀ s w, P s → P (s.setSr (entrySr w none))
  groupZero : ∀ s, P s → P { s with groupZero := true, stopped := false, stale := [] }
  halt : ∀ s, P s → P { s with halted := true }

/-! Exceptions -/

theorem Durable.keeps_exceptionEntry {P : State → Prop} (h : Durable P) (v : Nat) (p : Long) (level : Option (BitVec 3)) :
    Keeps P (exceptionEntry v p level) :=
  Machine.keeps_exceptionEntry h.toSteady v p level (fun s w => h.enter s w level) h.unstop

theorem Durable.keeps_raiseNext {P : State → Prop} (h : Durable P) (v : Nat) : Keeps P (raiseNext v) :=
  keeps_bind keeps_get fun _ => h.keeps_exceptionEntry _ _ _

theorem Lasting.enterGroupZero {P : State → Prop} (h : Lasting P) (v : Nat) (acc : Access) (executing : Bool) {s : State}
    (hs : P s) : P (enterGroupZero v acc executing s) := by
  unfold Machine.enterGroupZero
  split
  · exact h.halt s hs
  · have hend := keeps_groupZeroFrame h.toSteady v acc executing h.entrySr _ (h.groupZero s hs)
    split
    · next hr => simpa only [hr, endState] using hend
    · next hr => exact h.halt _ (by simpa only [hr, endState] using hend)

theorem Lasting.abortEntry {P : State → Prop} (h : Lasting P) (e : Abort) {s : State} (hs : P s) : P (abortEntry e s) := by
  cases e with
  | addressError acc => exact h.enterGroupZero 3 acc false hs
  | busError acc => exact h.enterGroupZero 2 acc false hs
  | notExecuted v => exact hs

theorem Lasting.takeException {P : State → Prop} (h : Lasting P) (v : Nat) (p : Long) (level : Option (BitVec 3))
    {s : State} (hs : P s) : P (takeException v p level s) := by
  have hend := h.keeps_exceptionEntry v p level s hs
  unfold Machine.takeException
  split
  · next hr => simpa only [hr, endState] using hend
  · next hr => exact h.abortEntry _ (by simpa only [hr, endState] using hend)

/-! The ends of an instruction -/

/-- How an instruction begun in `s` ends: completed, abandoned by a bus or address error, or in the exception at its own
address, each from a state with the property (R437, R438, R465). -/
inductive Ends (P : State → Prop) (s : State) : State → Prop
  | completed (u : State) (hu : P u) : Ends P s (afterInstr s u)
  | abandoned (u : State) (hu : P u) (v : Nat) (acc : Access) : Ends P s (enterGroupZero v acc true u)
  | excepted (u : State) (hu : P u) (v : Nat) : Ends P s (takeException v s.pc none u)

@[simp] theorem sr_notMem_eaBumps (ea : EA) : Dest.sr ∉ eaBumps ea := by
  cases ea <;> simp [eaBumps]

@[simp] theorem sr_notMem_eaWrites (ea : EA) : Dest.sr ∉ eaWrites ea := by
  cases ea <;> simp [eaWrites, eaBumps]

section
variable {P : State → Prop} {s : State} (h : Durable P) (hg : s.supervisor = true → Governed P) (hs : P s)

include h hg hs

theorem ends_runInstr {ext : Nat} {writes : List Dest} {act : Long → Act Unit}
    (hw : Dest.sr ∈ writes → s.supervisor = true) (ha : ∀ ipc, Keeps P (act ipc)) :
    Ends P s (runInstr ext writes act s) := by
  obtain ⟨t, ht, hend⟩ := runInstr_ends (ext := ext) (writes := writes) h.toSteady ha hs
  have hfree : P (freeDests s writes t) := by
    refine keeps_freeDests h.toSteady s writes ?_ (fun _ => h.setUsp) (fun m => (hg (hw m)).setSr) t ht
    intro u v hu
    split
    · next hsup => exact (hg hsup).setSsp u v hu
    · exact h.setUsp u v hu
  rcases hend with hr | ⟨v, acc, hr⟩ | ⟨v, hr⟩ <;> rw [hr]
  · exact .completed t ht
  · exact .abandoned _ hfree v acc
  · exact .excepted t ht v

/-- A privileged instruction: its effect in supervisor mode, the privilege violation in user mode (R366). -/
theorem ends_runPrivileged {ext : Nat} {writes : List Dest} {act : Long → Act Unit}
    (ha : Governed P → ∀ ipc, Keeps P (act ipc)) : Ends P s (runPrivileged ext writes act s) := by
  unfold runPrivileged
  split
  · next hsup => exact ends_runInstr h hg hs (fun _ => hsup) (ha (hg hsup))
  · exact .excepted s hs 8

/-- An effect that is one update of the registers. -/
theorem ends_modify {ext : Nat} {writes : List Dest} {f : Long → State → State}
    (hw : Dest.sr ∈ writes → s.supervisor = true) (hf : ∀ ipc u, P u → P (f ipc u)) :
    Ends P s (runInstr ext writes (fun ipc => modify (f ipc)) s) :=
  ends_runInstr h hg hs hw fun ipc => keeps_modify (hf ipc)

/-! The shapes that several instructions share -/

theorem ends_eaToDn {sz : Size} {ea : EA} {dn : RegNum}
    {f : Ccr → BitVec sz.bits → BitVec sz.bits → BitVec sz.bits × Ccr} : Ends P s (eaToDn sz ea dn f s) :=
  ends_runInstr h hg hs (by simp) fun _ => keeps_bind (keeps_readEa h.toSteady _ _ _) fun _ =>
    keeps_modify fun u hu => h.setDn _ _ _ _ (h.setCcr u _ hu)

theorem ends_updateEa {pre : Nat} {sz : Size} {ea : EA} {f : State → BitVec sz.bits → BitVec sz.bits × Ccr} :
    Ends P s (updateEa pre sz ea f s) :=
  ends_runInstr h hg hs (by simp) fun _ => keeps_bind (keeps_evalEa h.toSteady _ _ _) fun _ =>
    keeps_bind (keeps_readLoc h.toSteady _ _) fun _ => keeps_bind keeps_get fun _ =>
      keeps_bind (keeps_setFlags h.toSteady _) fun _ => keeps_writeLoc h.toSteady _ _ _

theorem ends_testEa {pre : Nat} {sz : Size} {ea : EA} {f : State → BitVec sz.bits → Ccr} :
    Ends P s (testEa pre sz ea f s) :=
  ends_runInstr h hg hs (by simp) fun _ => keeps_bind (keeps_readEa h.toSteady _ _ _) fun _ =>
    keeps_modify fun u hu => h.setCcr u _ hu

theorem ends_overwriteEa {sz : Size} {ea : EA} {value : State → BitVec sz.bits} {flags : State → State}
    {writes : List Dest} (hw : Dest.sr ∉ writes) (hf : ∀ u, P u → P (flags u)) :
    Ends P s (overwriteEa sz ea value flags writes s) := by
  have hput : ∀ loc, Keeps P (do let t ← get; set (flags t); writeLoc sz loc (value t) : Act Unit) := fun loc =>
    keeps_get_set hf fun _ => keeps_writeLoc h.toSteady _ _ _
  refine ends_runInstr h hg hs (by simp [hw]) fun _ => keeps_bind (keeps_evalEa h.toSteady _ _ _) fun loc => ?_
  cases loc with
  | mem addr program => exact keeps_bind (keeps_readMem h.toSteady _ _ _) fun _ => hput _
  | _ => exact hput _

theorem ends_eaToAn {sz : Size} {ea : EA} {an : RegNum} {f : Long → Long → Long} : Ends P s (eaToAn sz ea an f s) :=
  ends_runInstr h hg hs (by simp) fun _ => keeps_bind (keeps_readEa h.toSteady _ _ _) fun _ =>
    keeps_modify fun u hu => h.setA u _ _ hu

theorem ends_moveEa {sz : Size} {src dst : EA} : Ends P s (moveEa sz src dst s) :=
  ends_runInstr h hg hs (by simp) fun _ => keeps_bind (keeps_readEa h.toSteady _ _ _) fun _ =>
    keeps_bind (keeps_fetchExt h.toSteady _) fun _ => keeps_bind (keeps_evalEa h.toSteady _ _ _) fun _ =>
      keeps_bind (keeps_modify fun u hu => h.setCcr u _ hu) fun _ => keeps_writeLoc h.toSteady _ _ _

theorem ends_extendReg {sz : Size} {f : Ccr → BitVec sz.bits → BitVec sz.bits → BitVec sz.bits × Ccr} {src dst : RegNum} :
    Ends P s (extendReg sz f src dst s) :=
  ends_modify h hg hs (by simp) fun _ u hu => h.setDn _ _ _ _ (h.setCcr u _ hu)

theorem ends_extendMem {sz : Size} {f : Ccr → BitVec sz.bits → BitVec sz.bits → BitVec sz.bits × Ccr} {src dst : RegNum} :
    Ends P s (extendMem sz f src dst s) :=
  ends_runInstr h hg hs (by simp) fun _ => keeps_bind (keeps_readPreDecPair h.toSteady _ _ _) fun _ =>
    keeps_bind keeps_get fun _ => keeps_bind (keeps_setFlags h.toSteady _) fun _ => keeps_writeMem h.toSteady _ _ _

theorem ends_shiftReg {step : (n : Nat) → ShiftState n → ShiftState n} {c0 : Ccr → Bool} {cnt : Count} {sz : Size}
    {dn : RegNum} : Ends P s (shiftReg step c0 cnt sz dn s) :=
  ends_modify h hg hs (by simp) fun _ u hu => h.setDn _ _ _ _ (h.setCcr u _ hu)

theorem ends_shiftMem {step : (n : Nat) → ShiftState n → ShiftState n} {c0 : Ccr → Bool} {ea : EA} :
    Ends P s (shiftMem step c0 ea s) :=
  ends_updateEa h hg hs

theorem ends_multiply {ea : EA} {dn : RegNum} {f : Word → Word → Long} : Ends P s (multiply ea dn f s) :=
  ends_runInstr h hg hs (by simp) fun _ => keeps_bind (keeps_readEa h.toSteady _ _ _) fun _ =>
    keeps_modify fun u hu => h.setD _ _ _ (h.setCcr u _ hu)

omit hg hs in
theorem keeps_divideEffect (dn : RegNum) (r : Quotient) : Keeps P (divideEffect dn r) := by
  cases r with
  | zeroDivide =>
    exact keeps_bind (keeps_drawBit h.toSteady) fun _ => keeps_bind (keeps_drawBit h.toSteady) fun _ =>
      keeps_bind (keeps_drawBit h.toSteady) fun _ => keeps_bind (keeps_modify fun u hu => h.setCcr u _ hu) fun _ =>
        h.keeps_raiseNext 5
  | overflow =>
    exact keeps_bind (keeps_drawBit h.toSteady) fun _ => keeps_bind (keeps_drawBit h.toSteady) fun _ =>
      keeps_modify fun u hu => h.setCcr u _ hu
  | result q r => exact keeps_modify fun u hu => h.setD _ _ _ (h.setCcr u _ hu)

theorem ends_divide {ea : EA} {dn : RegNum} {f : Word → Long → Quotient} : Ends P s (divide ea dn f s) :=
  ends_runInstr h hg hs (by simp) fun _ => keeps_bind (keeps_readEa h.toSteady _ _ _) fun _ =>
    keeps_bind keeps_get fun _ => keeps_divideEffect h _ _

theorem ends_updateBit {pre : Nat} {ea : EA} {raw : State → Nat} {f : (n : Nat) → BitVec n → Nat → BitVec n} :
    Ends P s (updateBit pre ea raw f s) := by
  cases ea <;> exact ends_updateEa h hg hs

theorem ends_testBit {pre : Nat} {ea : EA} {raw : State → Nat} : Ends P s (testBit pre ea raw s) := by
  cases ea <;> exact ends_testEa h hg hs

theorem ends_bcdReg {f : Byte → Byte → Bool → Option (Byte × Bool)} {src dst : RegNum} :
    Ends P s (bcdReg f src dst s) :=
  ends_runInstr h hg hs (by simp) fun _ => keeps_bind keeps_get fun _ => keeps_bind (keeps_bcdResult h.toSteady _) fun _ =>
    keeps_modify fun u hu => h.setDn u _ _ _ hu

theorem ends_bcdMem {f : Byte → Byte → Bool → Option (Byte × Bool)} {src dst : RegNum} :
    Ends P s (bcdMem f src dst s) :=
  ends_runInstr h hg hs (by simp) fun _ => keeps_bind (keeps_readPreDecPair h.toSteady _ _ _) fun _ =>
    keeps_bind keeps_get fun _ => keeps_bind (keeps_bcdResult h.toSteady _) fun _ => keeps_writeMem h.toSteady _ _ _

theorem ends_immToCcr {f : Word → Word → Word} {imm : BitVec 8} : Ends P s (immToCcr f imm s) :=
  ends_modify h hg hs (by simp) fun _ u hu => h.setCcr u _ hu

theorem ends_immToSr {f : Word → Word → Word} {imm : Word} : Ends P s (immToSr f imm s) :=
  ends_runPrivileged h hg hs fun g _ => keeps_modify fun u hu => g.setSr u _ hu

/-! The instructions whose meaning has a shape of its own -/

theorem ends_addq (sz : Size) (q : Fin 8) (ea : EA) : ∃ t, execAddq sz q ea s = .next t ∧ Ends P s t := by
  cases ea with
  | aReg n => exact ⟨_, rfl, ends_modify h hg hs (by simp) fun _ u hu => h.setA u _ _ hu⟩
  | _ => exact ⟨_, rfl, ends_updateEa h hg hs⟩

theorem ends_subq (sz : Size) (q : Fin 8) (ea : EA) : ∃ t, execSubq sz q ea s = .next t ∧ Ends P s t := by
  cases ea with
  | aReg n => exact ⟨_, rfl, ends_modify h hg hs (by simp) fun _ u hu => h.setA u _ _ hu⟩
  | _ => exact ⟨_, rfl, ends_updateEa h hg hs⟩

theorem ends_chk (ea : EA) (dn : RegNum) : ∃ t, execChk ea dn s = .next t ∧ Ends P s t := by
  refine ⟨_, rfl, ends_runInstr h hg hs (by simp) fun _ => keeps_bind (keeps_readEa h.toSteady _ _ _) fun _ =>
    keeps_bind keeps_get fun _ => keeps_bind (keeps_drawBit h.toSteady) fun _ =>
    keeps_bind (keeps_drawBit h.toSteady) fun _ => keeps_bind (keeps_drawBit h.toSteady) fun _ =>
    keeps_bind (keeps_drawBit h.toSteady) fun _ => keeps_bind (keeps_modify fun u hu => h.setCcr u _ hu) fun _ =>
    keeps_ite (h.keeps_raiseNext 6) (keeps_pure _)⟩

theorem ends_lea (ea : EA) (an : RegNum) : ∃ t, execLea ea an s = .next t ∧ Ends P s t :=
  ⟨_, rfl, ends_runInstr h hg hs (by simp) fun _ => keeps_bind (keeps_controlEa _ _) fun _ =>
    keeps_modify fun u hu => h.setA u _ _ hu⟩

theorem ends_pea (ea : EA) : ∃ t, execPea ea s = .next t ∧ Ends P s t :=
  ⟨_, rfl, ends_runInstr h hg hs (by simp) fun _ => keeps_bind (keeps_controlEa _ _) fun _ => keeps_push32 h.toSteady _⟩

theorem ends_link (an : RegNum) (d : Word) : ∃ t, execLink an d s = .next t ∧ Ends P s t :=
  ⟨_, rfl, ends_runInstr h hg hs (by simp) fun _ => keeps_bind (keeps_modify fun u hu => h.setSp u _ hu) fun _ =>
    keeps_bind keeps_get fun _ => keeps_bind (keeps_writeMem h.toSteady _ _ _) fun _ =>
      keeps_bind (keeps_modify fun u hu => h.setA u _ _ hu) fun _ => keeps_modify fun u hu => h.setSp u _ hu⟩

theorem ends_unlk (an : RegNum) : ∃ t, execUnlk an s = .next t ∧ Ends P s t :=
  ⟨_, rfl, ends_runInstr h hg hs (by simp) fun _ => keeps_bind (keeps_modify fun u hu => h.setSp u _ hu) fun _ =>
    keeps_bind keeps_get fun _ => keeps_bind (keeps_readMem h.toSteady _ _ _) fun _ =>
      keeps_ite (keeps_bind (keeps_draw h.toSteady) fun _ => keeps_modify fun u hu => h.setSp u _ hu)
        (keeps_modify fun u hu => h.setSp _ _ (h.setA u _ _ hu))⟩

theorem ends_movemToMem (sz : WordLong) (mask : Word) (ea : EA) :
    ∃ t, execMovemToMem sz mask ea s = .next t ∧ Ends P s t := by
  refine ⟨_, rfl, ends_runInstr h hg hs (by simp) fun _ => keeps_bind keeps_get fun u => ?_⟩
  split
  · exact keeps_bind (keeps_storeDown h.toSteady _ _ _) fun _ => keeps_modify fun u hu => h.setA u _ _ hu
  · split
    · exact keeps_bind (keeps_storeUp h.toSteady _ _ _) fun _ => keeps_pure _
    · exact keeps_throw _

theorem ends_movemToRegs (sz : WordLong) (mask : Word) (ea : EA) :
    ∃ t, execMovemToRegs sz mask ea s = .next t ∧ Ends P s t := by
  refine ⟨_, rfl, ends_runInstr h hg hs (by simp) fun _ => keeps_bind keeps_get fun u => ?_⟩
  split
  · exact keeps_bind (keeps_loadUp h.toSteady _ _ _ _) fun _ => keeps_bind (keeps_readMem h.toSteady _ _ _) fun _ =>
      keeps_modify fun u hu => h.setA u _ _ hu
  · split
    · exact keeps_bind (keeps_loadUp h.toSteady _ _ _ _) fun _ => keeps_bind (keeps_readMem h.toSteady _ _ _) fun _ =>
        keeps_pure _
    · exact keeps_throw _

theorem ends_movep (dir : MovepDir) (sz : WordLong) (dn an : RegNum) (d : Word) :
    ∃ t, execMovep dir sz dn an d s = .next t ∧ Ends P s t := by
  refine ⟨_, rfl, ends_runInstr h hg hs (by cases dir <;> simp) fun _ => keeps_bind keeps_get fun u => ?_⟩
  have hwrite : ∀ (addr : Long) (v : Byte), Keeps P (writeMem .byte addr v) := keeps_writeMem h.toSteady .byte
  have hread : ∀ addr : Long, Keeps P (readMem .byte addr) := fun addr => keeps_readMem h.toSteady .byte addr false
  cases dir with
  | regToMem =>
    cases sz with
    | word => exact keeps_bind (hwrite _ _) fun _ => hwrite _ _
    | long =>
      exact keeps_bind (hwrite _ _) fun _ => keeps_bind (hwrite _ _) fun _ => keeps_bind (hwrite _ _) fun _ => hwrite _ _
  | memToReg =>
    cases sz with
    | word => exact keeps_bind (hread _) fun _ => keeps_bind (hread _) fun _ => keeps_modify fun u hu => h.setDn u _ _ _ hu
    | long =>
      exact keeps_bind (hread _) fun _ => keeps_bind (hread _) fun _ => keeps_bind (hread _) fun _ =>
        keeps_bind (hread _) fun _ => keeps_modify fun u hu => h.setD u _ _ hu

theorem ends_nbcd (ea : EA) : ∃ t, execNbcd ea s = .next t ∧ Ends P s t :=
  ⟨_, rfl, ends_runInstr h hg hs (by simp) fun _ => keeps_bind (keeps_evalEa h.toSteady _ _ _) fun _ =>
    keeps_bind (keeps_readLoc h.toSteady _ _) fun _ => keeps_bind keeps_get fun _ =>
      keeps_bind (keeps_bcdResult h.toSteady _) fun _ => keeps_writeLoc h.toSteady _ _ _⟩

theorem ends_cmpm (sz : Size) (ay ax : RegNum) : ∃ t, execCmpm sz ay ax s = .next t ∧ Ends P s t :=
  ⟨_, rfl, ends_runInstr h hg hs (by simp) fun _ => keeps_bind (keeps_readEa h.toSteady _ _ _) fun _ =>
    keeps_bind (keeps_readEa h.toSteady _ _ _) fun _ => keeps_modify fun u hu => h.setCcr u _ hu⟩

theorem ends_bsr (d : BranchDisp) : ∃ t, execBsr d s = .next t ∧ Ends P s t :=
  ⟨_, rfl, ends_runInstr h hg hs (by simp) fun _ => keeps_bind keeps_get fun _ =>
    keeps_bind (keeps_push32 h.toSteady _) fun _ => keeps_modify fun u hu => h.setPc u _ hu⟩

theorem ends_bcc (cond : Cond) (d : BranchDisp) : ∃ t, execBcc cond d s = .next t ∧ Ends P s t := by
  refine ⟨_, rfl, ends_modify h hg hs (by simp) fun _ u hu => ?_⟩
  split
  · exact h.setPc u _ hu
  · exact hu

theorem ends_dbcc (cond : Cond) (dn : RegNum) (d : Word) : ∃ t, execDbcc cond dn d s = .next t ∧ Ends P s t := by
  refine ⟨_, rfl, ends_modify h hg hs (by simp) fun _ u hu => ?_⟩
  have hcount := h.setDn u .word dn ((u.readD dn).setWidth 16 - 1) hu
  split
  · exact hu
  · dsimp only
    split
    · exact hcount
    · exact h.setPc _ _ hcount

theorem ends_jmp (ea : EA) : ∃ t, execJmp ea s = .next t ∧ Ends P s t :=
  ⟨_, rfl, ends_runInstr h hg hs (by simp) fun _ => keeps_bind (keeps_controlEa _ _) fun _ =>
    keeps_modify fun u hu => h.setPc u _ hu⟩

theorem ends_jsr (ea : EA) : ∃ t, execJsr ea s = .next t ∧ Ends P s t :=
  ⟨_, rfl, ends_runInstr h hg hs (by simp) fun _ => keeps_bind (keeps_controlEa _ _) fun _ => keeps_bind keeps_get fun _ =>
    keeps_bind (keeps_push32 h.toSteady _) fun _ => keeps_modify fun u hu => h.setPc u _ hu⟩

theorem ends_rts : ∃ t, execRts s = .next t ∧ Ends P s t :=
  ⟨_, rfl, ends_runInstr h hg hs (by simp) fun _ => keeps_bind (keeps_pop32 h.toSteady) fun _ =>
    keeps_modify fun u hu => h.setPc u _ hu⟩

theorem ends_rtr : ∃ t, execRtr s = .next t ∧ Ends P s t :=
  ⟨_, rfl, ends_runInstr h hg hs (by simp) fun _ => keeps_bind (keeps_pop16 h.toSteady) fun _ =>
    keeps_bind (keeps_setFlags h.toSteady _) fun _ => keeps_bind (keeps_pop32 h.toSteady) fun _ =>
      keeps_modify fun u hu => h.setPc u _ hu⟩

theorem ends_moveToCcr (ea : EA) : ∃ t, execMoveToCcr ea s = .next t ∧ Ends P s t :=
  ⟨_, rfl, ends_runInstr h hg hs (by simp) fun _ => keeps_bind (keeps_readEa h.toSteady _ _ _) fun _ =>
    keeps_setFlags h.toSteady _⟩

theorem ends_trapv : ∃ t, execTrapv s = .next t ∧ Ends P s t :=
  ⟨_, rfl, ends_runInstr h hg hs (by simp) fun _ => keeps_bind keeps_get fun _ =>
    keeps_ite (h.keeps_raiseNext 7) (keeps_pure _)⟩

theorem ends_moveToSr (ea : EA) : ∃ t, execMoveToSr ea s = .next t ∧ Ends P s t :=
  ⟨_, rfl, ends_runPrivileged h hg hs fun g _ => keeps_bind (keeps_readEa h.toSteady _ _ _) fun _ =>
    keeps_modify fun u hu => g.setSr u _ hu⟩

theorem ends_rte : ∃ t, execRte s = .next t ∧ Ends P s t :=
  ⟨_, rfl, ends_runPrivileged h hg hs fun g _ => keeps_bind keeps_get fun _ =>
    keeps_bind (keeps_readMem h.toSteady _ _ _) fun _ => keeps_bind (keeps_readMem h.toSteady _ _ _) fun _ =>
      keeps_modify fun u hu => h.setPc _ _ (g.setSr _ _ (g.setSsp u _ hu))⟩

theorem ends_stop (imm : Word) : ∃ t, execStop imm s = .next t ∧ Ends P s t :=
  ⟨_, rfl, ends_runPrivileged h hg hs fun g _ =>
    keeps_ite (keeps_modify fun u hu => g.stop _ (g.setSr u _ hu)) (keeps_throw _)⟩

/-- Every instruction has a next state, one of the three ends. -/
theorem exec_ends (i : Instr) : ∃ t, exec i s = .next t ∧ Ends P s t := by
  cases i with
  | oriToCcr | andiToCcr | eoriToCcr => exact ⟨_, rfl, ends_immToCcr h hg hs⟩
  | oriToSr | andiToSr | eoriToSr => exact ⟨_, rfl, ends_immToSr h hg hs⟩
  | ori | andi | subi | addi | eori | negx | neg | not | tas | orToEa | subToEa | eor | andToEa | addToEa =>
    exact ⟨_, rfl, ends_updateEa h hg hs⟩
  | cmpi | tst | cmp | cmpaW | cmpaL => exact ⟨_, rfl, ends_testEa h hg hs⟩
  | btstImm | btstReg => exact ⟨_, rfl, ends_testBit h hg hs⟩
  | bchgImm | bclrImm | bsetImm | bchgReg | bclrReg | bsetReg => exact ⟨_, rfl, ends_updateBit h hg hs⟩
  | movep dir sz dn an d => exact ends_movep h hg hs dir sz dn an d
  | moveB | moveL | moveW => exact ⟨_, rfl, ends_moveEa h hg hs⟩
  | moveaL | moveaW | subaW | subaL | addaW | addaL => exact ⟨_, rfl, ends_eaToAn h hg hs⟩
  | moveFromSr | scc => exact ⟨_, rfl, ends_overwriteEa h hg hs (by simp) fun _ hu => hu⟩
  | clr => exact ⟨_, rfl, ends_overwriteEa h hg hs (by simp) fun u hu => h.setCcr u _ hu⟩
  | chk ea dn => exact ends_chk h hg hs ea dn
  | lea ea an => exact ends_lea h hg hs ea an
  | moveToCcr ea => exact ends_moveToCcr h hg hs ea
  | moveToSr ea => exact ends_moveToSr h hg hs ea
  | nbcd ea => exact ends_nbcd h hg hs ea
  | swap | extL | moveq => exact ⟨_, rfl, ends_modify h hg hs (by simp) fun _ u hu => h.setD _ _ _ (h.setCcr u _ hu)⟩
  | extW => exact ⟨_, rfl, ends_modify h hg hs (by simp) fun _ u hu => h.setDn _ _ _ _ (h.setCcr u _ hu)⟩
  | pea ea => exact ends_pea h hg hs ea
  | movemToMem sz mask ea => exact ends_movemToMem h hg hs sz mask ea
  | movemToRegs sz mask ea => exact ends_movemToRegs h hg hs sz mask ea
  | illegal => exact ⟨_, rfl, .excepted s hs 4⟩
  | trap v => exact ⟨_, rfl, ends_runInstr h hg hs (by simp) fun _ => h.keeps_raiseNext _⟩
  | link an d => exact ends_link h hg hs an d
  | unlk an => exact ends_unlk h hg hs an
  | moveToUsp => exact ⟨_, rfl, ends_runPrivileged h hg hs fun _ _ => keeps_modify fun u hu => h.setUsp u _ hu⟩
  | moveFromUsp => exact ⟨_, rfl, ends_runPrivileged h hg hs fun _ _ => keeps_modify fun u hu => h.setA u _ _ hu⟩
  | reset => exact ⟨_, rfl, ends_runPrivileged h hg hs fun _ _ => keeps_modify fun u hu => h.record u _ hu⟩
  | nop => exact ⟨_, rfl, ends_runInstr h hg hs (by simp) fun _ => keeps_pure _⟩
  | stop imm => exact ends_stop h hg hs imm
  | rte => exact ends_rte h hg hs
  | rts => exact ends_rts h hg hs
  | trapv => exact ends_trapv h hg hs
  | rtr => exact ends_rtr h hg hs
  | jsr ea => exact ends_jsr h hg hs ea
  | jmp ea => exact ends_jmp h hg hs ea
  | addq sz q ea => exact ends_addq h hg hs sz q ea
  | subq sz q ea => exact ends_subq h hg hs sz q ea
  | dbcc cond dn d => exact ends_dbcc h hg hs cond dn d
  | bra => exact ⟨_, rfl, ends_modify h hg hs (by simp) fun _ u hu => h.setPc u _ hu⟩
  | bsr d => exact ends_bsr h hg hs d
  | bcc cond d => exact ends_bcc h hg hs cond d
  | orToReg | subToReg | andToReg | addToReg => exact ⟨_, rfl, ends_eaToDn h hg hs⟩
  | divu | divs => exact ⟨_, rfl, ends_divide h hg hs⟩
  | mulu | muls => exact ⟨_, rfl, ends_multiply h hg hs⟩
  | sbcdReg | abcdReg => exact ⟨_, rfl, ends_bcdReg h hg hs⟩
  | sbcdMem | abcdMem => exact ⟨_, rfl, ends_bcdMem h hg hs⟩
  | subxReg | addxReg => exact ⟨_, rfl, ends_extendReg h hg hs⟩
  | subxMem | addxMem => exact ⟨_, rfl, ends_extendMem h hg hs⟩
  | cmpm sz ay ax => exact ends_cmpm h hg hs sz ay ax
  | exgDD => exact ⟨_, rfl, ends_modify h hg hs (by simp) fun _ u hu => h.setD _ _ _ (h.setD u _ _ hu)⟩
  | exgAA => exact ⟨_, rfl, ends_modify h hg hs (by simp) fun _ u hu => h.setA _ _ _ (h.setA u _ _ hu)⟩
  | exgDA => exact ⟨_, rfl, ends_modify h hg hs (by simp) fun _ u hu => h.setA _ _ _ (h.setD u _ _ hu)⟩
  | asrReg | aslReg | lsrReg | lslReg | roxrReg | roxlReg | rorReg | rolReg => exact ⟨_, rfl, ends_shiftReg h hg hs⟩
  | asrMem | aslMem | lsrMem | lslMem | roxrMem | roxlMem | rorMem | rolMem => exact ⟨_, rfl, ends_shiftMem h hg hs⟩

end

end Sys2Proof.Machine
end

section
/-! SUPPORT. The invariant along a step (O7, O8), and what user mode leaves unchanged (O9). -/

namespace Sys2Proof.Machine

open Sys2Proof.Safety

/-! The invariant -/

/-- The invariant, with no trace due: what every part of a step keeps but the end of a completed instruction. -/
def Quiet (s : State) : Prop := Inv s ∧ s.pendingTrace = false

/-- The invariant while an instruction's effect runs: no trace is due and no group 0 processing has begun, so that STOP
may stop the processor. -/
def Executing (s : State) : Prop := Quiet s ∧ s.groupZero = false

/-- A write of SR leaves its unimplemented bits 0 (R31). -/
theorem srReserved_setSr (s : State) (v : Word) : srReserved (s.setSr v) := by
  simp only [srReserved, State.setSr_sr, BitVec.and_assoc, Config.srMask]
  exact BitVec.and_zero

/-- `Quiet` reads only these five parts of the state. -/
theorem Quiet.congr {s t : State} (hs : Quiet s) (hm : t.mem.wf = true) (hsr : srReserved t)
    (hg : t.groupZero = s.groupZero) (hst : t.stopped = s.stopped) (ht : t.pendingTrace = s.pendingTrace) : Quiet t :=
  ⟨⟨hm, hsr, by rw [hg, hst, ht]; exact hs.1.group⟩, by rw [ht]; exact hs.2⟩

/-- `Quiet` after an update of other parts of the state. -/
theorem Quiet.of_same {s t : State} (hs : Quiet s) (hm : t.mem = s.mem) (hsr : t.sr = s.sr)
    (hg : t.groupZero = s.groupZero) (hst : t.stopped = s.stopped) (ht : t.pendingTrace = s.pendingTrace) : Quiet t :=
  hs.congr (by rw [hm]; exact hs.1.memory) (by unfold srReserved; rw [hsr]; exact hs.1.sr) hg hst ht

theorem Quiet.setSr {s : State} (hs : Quiet s) (v : Word) : Quiet (s.setSr v) :=
  hs.congr hs.1.memory (srReserved_setSr s v) rfl rfl rfl

theorem quiet_lasting : Lasting Quiet where
  draws _ _ hs := hs.of_same rfl rfl rfl rfl rfl
  record _ _ hs := hs.of_same rfl rfl rfl rfl rfl
  write s addr i b hs := hs.congr (memWrite_wf s.mem addr i b hs.1.memory) hs.1.sr rfl rfl rfl
  setD _ _ _ hs := hs.of_same rfl rfl rfl rfl rfl
  setA s n v hs := hs.of_same (by simp) (by simp) (by simp) (by simp) (by simp)
  setPc _ _ hs := hs.of_same rfl rfl rfl rfl rfl
  setCcr _ _ hs := hs.setSr _
  setUsp _ _ hs := hs.of_same rfl rfl rfl rfl rfl
  enter s w level hs := ⟨⟨hs.1.memory, srReserved_setSr s _, fun hg => absurd hg (by simp)⟩, hs.2⟩
  unstop _ hs := ⟨⟨hs.1.memory, hs.1.sr, fun _ => ⟨rfl, hs.2⟩⟩, hs.2⟩
  entrySr _ _ hs := hs.setSr _
  groupZero _ hs := ⟨⟨hs.1.memory, hs.1.sr, fun _ => ⟨rfl, hs.2⟩⟩, hs.2⟩
  halt _ hs := hs.of_same rfl rfl rfl rfl rfl

theorem executing_durable : Durable Executing where
  draws s n hs := ⟨quiet_lasting.draws s n hs.1, hs.2⟩
  record s e hs := ⟨quiet_lasting.record s e hs.1, hs.2⟩
  write s addr i b hs := ⟨quiet_lasting.write s addr i b hs.1, hs.2⟩
  setD s n v hs := ⟨quiet_lasting.setD s n v hs.1, hs.2⟩
  setA s n v hs := ⟨quiet_lasting.setA s n v hs.1, by simpa using hs.2⟩
  setPc s v hs := ⟨quiet_lasting.setPc s v hs.1, hs.2⟩
  setCcr s f hs := ⟨quiet_lasting.setCcr s f hs.1, hs.2⟩
  setUsp s v hs := ⟨quiet_lasting.setUsp s v hs.1, hs.2⟩
  enter s w level hs := ⟨quiet_lasting.enter s w level hs.1, rfl⟩
  unstop s hs := ⟨quiet_lasting.unstop s hs.1, hs.2⟩

theorem executing_governed : Governed Executing where
  setSsp _ _ hs := ⟨hs.1.of_same rfl rfl rfl rfl rfl, hs.2⟩
  setSr _ _ hs := ⟨hs.1.setSr _, hs.2⟩
  stop _ hs := ⟨⟨⟨hs.1.1.memory, hs.1.1.sr, fun hg => absurd hg (by simp [hs.2])⟩, hs.1.2⟩, hs.2⟩

/-- A completed instruction may leave a trace due, for it has begun no group 0 processing (R452). -/
theorem Executing.afterInstr {u : State} (hu : Executing u) (s : State) : Inv (afterInstr s u) where
  memory := by simpa using hu.1.1.memory
  sr := by simpa [srReserved] using hu.1.1.sr
  group hg := absurd hg (by simp [hu.2])

theorem inv_of_ends {s t : State} (ht : Ends Executing s t) : Inv t := by
  cases ht with
  | completed u hu' => exact hu'.afterInstr s
  | abandoned u hu v acc => exact (quiet_lasting.enterGroupZero v acc true hu.1).1
  | excepted u hu v => exact (quiet_lasting.takeException v s.pc none hu.1).1

/-! One step -/

/-- A reset leads to the invariant from any state with canonical memory (R490). -/
theorem quiet_doReset (ipl : BitVec 3) {s : State} (hs : s.mem.wf = true) : Quiet (doReset ipl s) := by
  have hstart : Quiet (resetRegisters ipl s) :=
    ⟨⟨hs, srReserved_setSr s _, fun _ => ⟨rfl, rfl⟩⟩, rfl⟩
  have hvectors : Keeps Quiet resetVectors :=
    keeps_bind (keeps_readMem quiet_lasting.toSteady _ _ _) fun _ =>
      keeps_bind (keeps_modify fun u hu => hu.of_same rfl rfl rfl rfl rfl) fun _ =>
        keeps_bind (keeps_readMem quiet_lasting.toSteady _ _ _) fun _ => keeps_modify fun u hu => quiet_lasting.setPc u _ hu
  have hend := hvectors _ hstart
  unfold doReset
  split
  · next hr => simpa only [hr, endState] using hend
  · next hr => exact quiet_lasting.halt _ (by simpa only [hr, endState] using hend)

theorem quiet_takeTrace {s : State} (hs : Inv s) : Quiet (takeTrace s) :=
  quiet_lasting.takeException 9 s.pc none ⟨⟨hs.memory, hs.sr, fun _ => ⟨rfl, rfl⟩⟩, rfl⟩

theorem quiet_takeInterrupt (input : PlatformInput) {s : State} (hs : Quiet s) : Quiet (takeInterrupt input s) :=
  quiet_lasting.takeException _ _ _ (quiet_lasting.unstop s hs)

theorem keeps_fetchOpword {P : State → Prop} (h : Steady P) : Keeps P fetchOpword := by
  refine keeps_bind keeps_get fun s => keeps_ite (keeps_bind (keeps_throw _) fun _ => ?_) ?_
  all_goals exact keeps_ite (keeps_pure _) (keeps_bind (keeps_platformRead h .word _ _) fun _ => keeps_pure _)

/-- The instruction that was fetched, from a state that neither waits nor traces. -/
theorem inv_runDecoded {s t u : State} (ht : Quiet t) (h : runDecoded s t = .next u) : Inv u := by
  have hstart : Executing { t with ir := (fetchWords s).headD 0, groupZero := false } :=
    ⟨⟨⟨ht.1.memory, ht.1.sr, fun hg => absurd hg (by simp)⟩, ht.2⟩, rfl⟩
  unfold runDecoded at h
  cases hd : decodeWords (fetchWords s) with
  | error e =>
    simp only [hd, Host.Outcome.next.injEq] at h
    exact h ▸ (quiet_lasting.takeException _ _ _ hstart.1).1
  | ok p =>
    obtain ⟨v, hv, hends⟩ := exec_ends executing_durable (fun _ => executing_governed) hstart p.1
    simp only [hd, hv, Host.Outcome.next.injEq] at h
    have hinv := inv_of_ends hends
    exact h ▸ ⟨hinv.memory, hinv.sr, hinv.group⟩

theorem inv_runInstruction {s t : State} (hs : Quiet s) (h : runInstruction s = .next t) : Inv t := by
  have hcount : Quiet (countFetch s) := by
    unfold countFetch
    split
    · exact hs
    · exact quiet_lasting.draws s _ hs
  have hend := keeps_fetchOpword quiet_lasting.toSteady _ hcount
  unfold runInstruction at h
  cases hf : fetchOpword (countFetch s) with
  | ok a u =>
    rw [hf] at h hend
    exact inv_runDecoded hend h
  | error e u =>
    rw [hf] at h hend
    simp only [Host.Outcome.next.injEq] at h
    exact h ▸ (quiet_lasting.abortEntry e hend).1

theorem inv_afterTrace {input : PlatformInput} {s t : State} (hs : Quiet s) (h : afterTrace input s = .next t) :
    Inv t := by
  have hsample : Quiet { s with prevIpl7 := input.ipl == 7 } := hs.of_same rfl rfl rfl rfl rfl
  unfold afterTrace at h
  split at h
  · simp only [Host.Outcome.next.injEq] at h
    exact h ▸ (quiet_takeInterrupt input hsample).1
  · dsimp only at h
    split at h
    · simp only [Host.Outcome.next.injEq] at h
      exact h ▸ hsample.1
    · exact inv_runInstruction hsample h

/-- Settles O8: what each part of a step keeps is `Quiet`, and while an instruction runs `Executing`. -/
theorem stepKeepsInvariant : Obligations.StepKeepsInvariant := by
  intro s t hs h
  have hdrop : Inv (dropInput s) := ⟨hs.memory, hs.sr, hs.group⟩
  unfold step stepOnce at h
  dsimp only at h
  split at h
  · cases h
    exact (quiet_doReset _ hdrop.memory).1
  · split at h
    · cases h
      exact hdrop
    · split at h
      · split at h
        · cases h
          exact (quiet_takeTrace hdrop).1
        · exact inv_afterTrace (quiet_takeTrace hdrop) h
      · next hpending => exact inv_afterTrace ⟨hdrop, by simpa using hpending⟩ h

/-- Settles O7: no byte of memory is listed, SR is 2700 hex, and nothing is stopped or tracing. -/
theorem invariantAtReset : Obligations.InvariantAtReset where
  memory := rfl
  sr := by simp [srReserved, State.reset, Config.srMask]
  group _ := ⟨rfl, rfl⟩

/-! User mode -/

/-- Unless it is in supervisor mode, the state has the SSP and the supervisor part of SR that `start` had (R22, R460). -/
def UserPart (start s : State) : Prop :=
  s.supervisor = false → s.ssp = start.ssp ∧ s.sr &&& 0xA700 = start.sr &&& 0xA700

theorem UserPart.of_same {start s t : State} (hs : UserPart start s) (hssp : t.ssp = s.ssp)
    (hsr : t.sr &&& 0xA700 = s.sr &&& 0xA700) (hmode : t.supervisor = s.supervisor) : UserPart start t := by
  intro ht
  rw [hssp, hsr]
  exact hs (hmode ▸ ht)

/-- Taking an exception leaves user mode (R436). -/
theorem entrySr_supervisor (s : State) (w : Word) (level : Option (BitVec 3)) :
    (s.setSr (entrySr w level)).supervisor = true := by
  cases level <;> simp [State.supervisor, entrySr, Config.srMask]

/-- Writing A7 in user mode writes USP (R22). -/
theorem setA_ssp_user (s : State) (n : RegNum) (v : Long) (h : s.supervisor = false) : (s.setA n v).ssp = s.ssp := by
  unfold State.setA
  split
  · rfl
  · simp [State.setSp, h]

theorem userPart_lasting (start : State) : Lasting (UserPart start) where
  draws _ _ hs := hs.of_same rfl rfl rfl
  record _ _ hs := hs.of_same rfl rfl rfl
  write _ _ _ _ hs := hs.of_same rfl rfl rfl
  setD _ _ _ hs := hs.of_same rfl rfl rfl
  setA s n v hs := fun hu => by
    rw [State.setA_supervisor] at hu
    rw [setA_ssp_user s n v hu, State.setA_sr]
    exact hs hu
  setPc _ _ hs := hs.of_same rfl rfl rfl
  setCcr s f hs := hs.of_same rfl ((SameBut.refl s [] [] []).setCcr f).status (by simp)
  setUsp _ _ hs := hs.of_same rfl rfl rfl
  enter s w level _ := fun hu => Bool.noConfusion ((entrySr_supervisor s w level).symm.trans hu)
  unstop _ hs := hs.of_same rfl rfl rfl
  entrySr s w _ := fun hu => Bool.noConfusion ((entrySr_supervisor s w none).symm.trans hu)
  groupZero _ hs := hs.of_same rfl rfl rfl
  halt _ hs := hs.of_same rfl rfl rfl

/-- Settles O9: every end of an instruction begun in user mode keeps `UserPart`. -/
theorem userModeKeepsSupervisorState : Obligations.UserModeKeepsSupervisorState := by
  intro i s t hs h ht
  have hl := userPart_lasting s
  obtain ⟨u, hexec, hends⟩ := exec_ends hl.toDurable (fun hsup => absurd hsup (by simp [hs])) (fun _ => ⟨rfl, rfl⟩) i
  have htu : t = u := by simpa using h.symm.trans hexec
  subst htu
  suffices UserPart s t from this ht
  cases hends with
  | completed u hu' => exact hu'.of_same (by simp) (by simp) (by simp)
  | abandoned u hu v acc => exact hl.enterGroupZero v acc true hu
  | excepted u hu v => exact hl.takeException v s.pc none hu

end Sys2Proof.Machine
end

section
/-! SUPPORT. Waiting, reset and the double fault: the halted and the stopped state wait (O17), a reset's result (O11), and
an odd SSP, with which no frame can be pushed (O16). -/

namespace Sys2Proof.Machine

open Sys2Proof.Safety

/-! Waiting and reset -/

/-- Settles O17: the branches of a step that a halted and a stopped processor take. -/
theorem haltedAndStoppedWait : Obligations.HaltedAndStoppedWait := by
  refine ⟨fun s hh hr => ?_, fun s hs hh ht hr ha => ?_⟩
  · have hd : (dropInput s).halted = true := hh
    simp [step, stepOnce, hr, hd]
  · have hd : (dropInput s).halted = false := hh
    have hdt : (dropInput s).pendingTrace = false := ht
    have hds : (dropInput s).stopped = true := hs
    have hda : acceptable (dropInput s) (nextInput s).ipl = false := ha
    simp [step, stepOnce, afterTrace, hr, hd, hdt, hds, hda]

/-- The reset sequence on plain memory: SSP and PC from the vectors 0 and 1 (R490). -/
theorem doReset_plain (ipl : BitVec 3) {s : State} (hm : s.memMap = []) :
    doReset ipl s = ((resetRegisters ipl s).setSsp (peek .long s.mem 0)).setPc (peek .long s.mem 4) := by
  have hvectors : resetVectors (resetRegisters ipl s) =
      .ok () (((resetRegisters ipl s).setSsp (peek .long s.mem 0)).setPc (peek .long s.mem 4)) := by
    unfold resetVectors
    rw [act_bind_ok (readMem_plain (by decide) (by simp [resetRegisters, hm]))]
    simp only [act_modify_bind]
    rw [act_bind_ok (readMem_plain (by decide) (by simp [resetRegisters, hm]))]
    rfl
  simp only [doReset, hvectors]

/-- SR after a reset, but for its condition codes: S = 1, T = 0, I = 7 (R491). -/
theorem resetRegisters_sr (ipl : BitVec 3) (s : State) : (resetRegisters ipl s).sr &&& 0xFFE0 = 0x2700 := by
  have hmask : ∀ w : Word, (((0x2700 ||| (w &&& 0x1F)) &&& Config.srMask) &&& 0xFFE0 : Word) = 0x2700 := by
    intro w
    rw [BitVec.and_assoc, BitVec.and_or_distrib_right, BitVec.and_assoc]
    simp [Config.srMask]
  exact hmask _

/-- Settles O11, by the reset sequence on plain memory, which asks nothing of the state before. -/
theorem resetSequence : Obligations.ResetSequence := by
  refine ⟨⟨rfl, rfl, rfl, rfl, rfl⟩, fun s ipl iack rest hm hin => ?_⟩
  have hnext : nextInput s = { reset := true, ipl := ipl, iack := iack } := by simp [nextInput, hin]
  have hdrop : dropInput s = { s with inputs := rest } := by simp [dropInput, hin]
  refine ⟨doReset ipl (dropInput s), by simp [step, stepOnce, hnext], ?_⟩
  rw [doReset_plain ipl (by exact hm), hdrop]
  exact ⟨resetRegisters_sr ipl _, rfl, rfl, rfl, rfl, rfl, rfl, rfl, rfl, rfl⟩

/-! An odd supervisor stack pointer -/

theorem odd_sub {a b : Long} (ha : a.getLsbD 0 = true) (hb : b.getLsbD 0 = false) : (a - b).getLsbD 0 = true := by
  have bit0 : ∀ x : Long, x.getLsbD 0 = x.toNat.testBit 0 := fun _ => rfl
  simp only [bit0, Nat.testBit_zero, decide_eq_true_eq, decide_eq_false_iff_not, BitVec.toNat_sub] at *
  omega

theorem odd_add {a b : Long} (ha : a.getLsbD 0 = true) (hb : b.getLsbD 0 = false) : (a + b).getLsbD 0 = true := by
  have bit0 : ∀ x : Long, x.getLsbD 0 = x.toNat.testBit 0 := fun _ => rfl
  simp only [bit0, Nat.testBit_zero, decide_eq_true_eq, decide_eq_false_iff_not, BitVec.toNat_add] at *
  omega

/-- An odd address is misaligned for a word or a longword (R70). -/
theorem misaligned_of_odd {sz : Size} {a : Long} (hsz : sz ≠ .byte) (h : a.getLsbD 0 = true) :
    misaligned sz a = true := by
  simp [misaligned, hsz, h]

/-- The effect is abandoned, in a state whose SSP is odd. -/
def OddAbort {α : Type} (x : Act α) (s : State) : Prop := ∃ e t, x s = .error e t ∧ t.ssp.getLsbD 0 = true

theorem oddAbort_bind {α β : Type} {x : Act α} {f : α → Act β} {s : State} (h : OddAbort x s) : OddAbort (x >>= f) s := by
  obtain ⟨e, t, hx, ht⟩ := h
  exact ⟨e, t, act_bind_error hx, ht⟩

theorem oddAbort_bind_ok {α β : Type} {x : Act α} {f : α → Act β} {s t : State} {a : α} (hx : x s = .ok a t)
    (h : OddAbort (f a) t) : OddAbort (x >>= f) s := by
  obtain ⟨e, u, hf, hu⟩ := h
  exact ⟨e, u, (act_bind_ok hx).trans hf, hu⟩

theorem oddAbort_readMem {sz : Size} {addr : Long} {program : Bool} {s : State} (hsz : sz ≠ .byte)
    (ha : addr.getLsbD 0 = true) (h : s.ssp.getLsbD 0 = true) : OddAbort (readMem sz addr program) s :=
  ⟨_, s, readMem_misaligned (misaligned_of_odd hsz ha), h⟩

theorem oddAbort_writeMem {sz : Size} {addr : Long} {v : BitVec sz.bits} {s : State} (hsz : sz ≠ .byte)
    (ha : addr.getLsbD 0 = true) (h : s.ssp.getLsbD 0 = true) : OddAbort (writeMem sz addr v) s :=
  ⟨_, s, writeMem_misaligned (misaligned_of_odd hsz ha), h⟩

theorem sp_of_supervisor {s : State} (hs : s.supervisor = true) : s.sp = s.ssp := by simp [State.sp, hs]

theorem setSp_ssp_of_supervisor {s : State} (hs : s.supervisor = true) (v : Long) : (s.setSp v).ssp = v := by
  simp [State.setSp, hs]

/-- A push on an odd supervisor stack is an address error, not performed (R441). -/
theorem push32_odd {v : Long} {s : State} (hs : s.supervisor = true) (h : s.ssp.getLsbD 0 = true) :
    ∃ acc t, push32 v s = .error (.addressError acc) t ∧ t.ssp.getLsbD 0 = true := by
  have hsp : (s.sp - 4).getLsbD 0 = true := odd_sub (by rwa [sp_of_supervisor hs]) (by decide)
  refine ⟨accessOf (s.setSp (s.sp - 4)) (s.sp - 4) true false false, s.setSp (s.sp - 4), ?_, by
    rwa [setSp_ssp_of_supervisor hs]⟩
  simp only [push32, act_modify_bind, act_get_bind, State.sp_setSp]
  exact writeMem_misaligned (misaligned_of_odd (by decide) hsp)

theorem oddAbort_push32 {v : Long} {s : State} (hs : s.supervisor = true) (h : s.ssp.getLsbD 0 = true) :
    OddAbort (push32 v) s := by
  obtain ⟨acc, t, hp, ht⟩ := push32_odd (v := v) hs h
  exact ⟨_, t, hp, ht⟩

theorem act_tryCatch_error {α : Type} {x : Act α} {f : Abort → Act α} {s t : State} {e : Abort} (h : x s = .error e t) :
    (tryCatch x f : Act α) s = f e t := by
  change EStateM.tryCatch x f s = _
  unfold EStateM.tryCatch
  rw [h]
  rfl

/-- No exception frame can be pushed on an odd supervisor stack (R495 e). -/
theorem exceptionEntry_odd (v : Nat) (p : Long) (level : Option (BitVec 3)) {s : State}
    (h : s.ssp.getLsbD 0 = true) :
    ∃ acc t, exceptionEntry v p level s = .error (.addressError acc) t ∧ t.ssp.getLsbD 0 = true := by
  obtain ⟨acc, t, hp, ht⟩ := push32_odd (v := p)
    (s := { s.setSr (entrySr s.readSr level) with groupZero := false, stale := [] }) (entrySr_supervisor s _ level) h
  refine ⟨acc, t, ?_, ht⟩
  simp only [exceptionEntry, act_get_bind, act_modify_bind]
  refine act_bind_error (act_bind_error ?_)
  rw [act_tryCatch_error hp]
  rfl

/-! The double fault -/

/-- A group 0 exception while another is being processed halts (R456). -/
theorem enterGroupZero_again_halts (v : Nat) (acc : Access) (executing : Bool) {s : State} (h : s.groupZero = true) :
    (enterGroupZero v acc executing s).halted = true := by
  simp [enterGroupZero, h]

/-- A group 0 exception whose frame an odd SSP prevents halts (R456, R490). -/
theorem enterGroupZero_odd_halts (v : Nat) (acc : Access) (executing : Bool) {s : State} (h : s.ssp.getLsbD 0 = true) :
    (enterGroupZero v acc executing s).halted = true := by
  have habort : OddAbort (groupZeroFrame v acc executing) { s with groupZero := true, stopped := false, stale := [] } := by
    simp only [groupZeroFrame]
    refine oddAbort_bind_ok rfl (oddAbort_bind_ok rfl (oddAbort_bind_ok rfl (oddAbort_bind (oddAbort_push32 ?_ h))))
    exact entrySr_supervisor s s.readSr none
  obtain ⟨e, t, hx, -⟩ := habort
  unfold enterGroupZero
  split
  · rfl
  · rw [hx]

theorem takeException_odd_halts (v : Nat) (p : Long) (level : Option (BitVec 3)) {s : State}
    (h : s.ssp.getLsbD 0 = true) : (takeException v p level s).halted = true := by
  obtain ⟨acc, t, hx, ht⟩ := exceptionEntry_odd v p level h
  simp only [takeException, hx, abortEntry]
  exact enterGroupZero_odd_halts _ _ _ ht

/-! Instructions that use an odd supervisor stack -/

/-- Supervisor mode, an odd SSP and plain memory. -/
structure OddStack (s : State) : Prop where
  supervisor : s.supervisor = true
  odd : s.ssp.getLsbD 0 = true
  plain : s.memMap = []

theorem OddStack.sp {s : State} (h : OddStack s) : s.sp.getLsbD 0 = true := by
  rw [sp_of_supervisor h.supervisor]
  exact h.odd

theorem OddStack.setPc {s : State} (h : OddStack s) (p : Long) : OddStack (s.setPc p) := ⟨h.supervisor, h.odd, h.plain⟩

theorem OddStack.setCcr {s : State} (h : OddStack s) (f : Ccr) : OddStack (s.setCcr f) :=
  ⟨by simpa using h.supervisor, h.odd, h.plain⟩

theorem OddStack.setSp {s : State} (h : OddStack s) {v : Long} (hv : v.getLsbD 0 = true) : OddStack (s.setSp v) :=
  ⟨by simpa using h.supervisor, by rwa [setSp_ssp_of_supervisor h.supervisor], by simpa using h.plain⟩

/-- An instruction that is abandoned with an odd SSP halts, whatever abandoned it (R495 e). -/
theorem runInstr_odd_halts {ext : Nat} {writes : List Dest} {act : Long → Act Unit} {s : State} (h : OddStack s)
    (hact : ∀ t, OddStack t → OddAbort (act s.pc) t) : (runInstr ext writes act s).halted = true := by
  have habort : OddAbort (do fetchExt ext; act s.pc) (s.setPc (s.pc + 2)) :=
    oddAbort_bind_ok (fetchExt_plain ext _ h.plain) (hact _ ((h.setPc _).setPc _))
  obtain ⟨e, t, hx, ht⟩ := habort
  have hfree := freeDests_ssp_odd s writes h.odd t ht
  unfold runInstr
  rw [hx]
  cases e with
  | addressError acc => exact enterGroupZero_odd_halts _ _ _ hfree
  | busError acc => exact enterGroupZero_odd_halts _ _ _ hfree
  | notExecuted v => exact takeException_odd_halts _ _ _ ht

theorem OddStack.push32 {s : State} (h : OddStack s) (v : Long) : OddAbort (push32 v) s :=
  oddAbort_push32 h.supervisor h.odd

theorem OddStack.pop32 {s : State} (h : OddStack s) : OddAbort pop32 s :=
  oddAbort_bind_ok rfl (oddAbort_bind (oddAbort_readMem (by decide) h.sp h.odd))

theorem OddStack.pop16 {s : State} (h : OddStack s) : OddAbort pop16 s :=
  oddAbort_bind_ok rfl (oddAbort_bind (oddAbort_readMem (by decide) h.sp h.odd))

theorem OddStack.raiseNext {s : State} (h : OddStack s) (v : Nat) : OddAbort (raiseNext v) s := by
  obtain ⟨acc, t, hx, ht⟩ := exceptionEntry_odd v s.pc none h.odd
  exact oddAbort_bind_ok (act_get s) ⟨_, t, hx, ht⟩

/-- A control mode's address changes no state, and any other mode abandons the instruction (R324). -/
theorem OddStack.controlEa_bind {s : State} (h : OddStack s) {pcx : Long} {ea : EA} {f : Long → Act Unit}
    (hf : ∀ addr, OddAbort (f addr) s) : OddAbort (controlEa pcx ea >>= f) s := by
  cases hl : eaLoc .long pcx ea s with
  | mem addr program => exact oddAbort_bind_ok (controlEa_mem hl) (hf addr)
  | _ =>
    refine oddAbort_bind ⟨.notExecuted 4, s, ?_, h.odd⟩
    simp only [controlEa, act_get_bind, hl]
    rfl

/-- Moving an address register by a longword keeps an odd SSP odd. -/
theorem OddStack.eaBump {s : State} (h : OddStack s) (ea : EA) : OddStack (eaBump .long ea s) := by
  have hset : ∀ (n : RegNum) (v : Long), (n = 7 → v.getLsbD 0 = true) → OddStack (s.setA n v) := by
    intro n v hv
    by_cases hn : n = 7
    · rw [hn, State.setA_seven]
      exact h.setSp (hv hn)
    · have hne : n.val ≠ 7 := fun e => hn (Fin.ext e)
      have hlt : n.val < 7 := by omega
      exact ⟨by simpa using h.supervisor, by simpa [State.setA, hlt] using h.odd, by simpa using h.plain⟩
  have hseven : (s.readA 7).getLsbD 0 = true := by
    rw [State.readA_seven]
    exact h.sp
  cases ea with
  | postInc n => exact hset n _ fun hn => by rw [hn]; exact odd_add hseven (by decide)
  | preDec n => exact hset n _ fun hn => by rw [hn]; exact odd_sub hseven (by decide)
  | _ => exact h

/-- A longword source in plain memory is read or is an address error; the SSP is odd after it as before. -/
theorem OddStack.readEa_bind {s : State} (h : OddStack s) {pcx : Long} {ea : EA} {f : Long → Act Unit}
    (hf : ∀ v, OddAbort (f v) (Machine.eaBump .long ea s)) : OddAbort (readEa .long pcx ea >>= f) s := by
  by_cases ha : locAligned .long (eaLoc .long pcx ea s) = true
  · exact oddAbort_bind_ok (readEa_plain h.plain ha) (hf _)
  · cases hl : eaLoc .long pcx ea s with
    | mem addr program =>
      have hodd : misaligned .long addr = true := by simpa [hl, locAligned] using ha
      refine oddAbort_bind (oddAbort_bind_ok (evalEa_eq .long pcx ea s) ?_)
      rw [hl]
      exact ⟨_, _, readMem_misaligned hodd, (h.eaBump ea).odd⟩
    | _ => simp [hl, locAligned] at ha

/-- MOVE.L to -(A7), whatever its source. -/
theorem OddStack.moveEa_halts {s : State} (h : OddStack s) (ea : EA) : (moveEa .long ea (.preDec 7) s).halted = true := by
  refine runInstr_odd_halts h fun t ht => ht.readEa_bind fun v => ?_
  have hsrc := ht.eaBump ea
  refine oddAbort_bind_ok (fetchExt_plain _ _ hsrc.plain) (oddAbort_bind_ok (evalEa_eq _ _ _ _) ?_)
  have hdst := hsrc.setPc ((Machine.eaBump .long ea t).pc + BitVec.ofNat 32 (2 * eaCount .long (.preDec 7)))
  refine oddAbort_bind_ok rfl (oddAbort_writeMem (by decide) ?_ ((hdst.eaBump (.preDec 7)).setCcr _).odd)
  rw [State.readA_seven]
  exact odd_sub hdst.sp (by decide)

theorem OddStack.rte_halts {s : State} (h : OddStack s) : ∃ t, exec .rte s = .next t ∧ t.halted = true := by
  refine ⟨_, rfl, ?_⟩
  rw [runPrivileged_supervisor h.supervisor]
  exact runInstr_odd_halts h fun t ht =>
    oddAbort_bind_ok rfl (oddAbort_bind (oddAbort_readMem (by decide) ht.odd ht.odd))

theorem OddStack.link_halts {s : State} (h : OddStack s) (an : RegNum) (d : Word) :
    ∃ t, exec (.link an d) s = .next t ∧ t.halted = true := by
  refine ⟨_, rfl, runInstr_odd_halts h fun t ht => ?_⟩
  have hpush : OddStack (t.setSp (t.sp - 4)) := ht.setSp (odd_sub ht.sp (by decide))
  exact oddAbort_bind_ok rfl (oddAbort_bind_ok rfl (oddAbort_bind (oddAbort_writeMem (by decide) hpush.sp hpush.odd)))

/-! The step at an odd PC -/

/-- An opword at an odd address is not fetched (R67, R70). -/
theorem fetchOpword_odd {s : State} (h : s.pc.getLsbD 0 = true) :
    fetchOpword s = .error (.addressError (accessOf s s.pc false true true)) s := by
  simp only [fetchOpword, act_get_bind, h, if_true]
  rfl

/-- With no input the platform presents nothing, and no level 0 is acceptable (R447). -/
theorem step_quiet {s : State} (hin : s.inputs = []) (hh : s.halted = false) (hst : s.stopped = false)
    (ht : s.pendingTrace = false) : step s = runInstruction { s with prevIpl7 := false } := by
  have hnext : nextInput s = {} := by simp [nextInput, hin]
  have hdrop : dropInput s = s := by simp only [dropInput, hin, List.tail_nil]; rw [← hin]
  simp [step, stepOnce, afterTrace, acceptable, hnext, hdrop, hh, ht, hst]

theorem countFetch_pc (s : State) : (countFetch s).pc = s.pc := by
  unfold countFetch
  split <;> rfl

theorem countFetch_groupZero (s : State) : (countFetch s).groupZero = s.groupZero := by
  unfold countFetch
  split <;> rfl

/-- Settles O16: each instruction that uses an odd supervisor stack is abandoned with SSP still odd. -/
theorem doubleFaultHalts : Obligations.DoubleFaultHalts := by
  refine ⟨fun v acc executing s h => enterGroupZero_again_halts v acc executing h,
    fun v acc executing s h => enterGroupZero_odd_halts v acc executing h, ?_, ?_⟩
  · intro s hin hh hst ht hg hpc
    have hodd : (countFetch { s with prevIpl7 := false }).pc.getLsbD 0 = true := by rwa [countFetch_pc]
    rw [step_quiet hin hh hst ht]
    simp only [runInstruction, fetchOpword_odd hodd]
    exact ⟨_, rfl, enterGroupZero_again_halts _ _ _ (by rwa [countFetch_groupZero])⟩
  · intro s d ea an w v hm hs hssp i hi
    have h : OddStack s := ⟨hs, hssp, hm⟩
    simp only [List.mem_cons, List.not_mem_nil, or_false] at hi
    rcases hi with rfl | rfl | rfl | rfl | rfl | rfl | rfl | rfl | rfl
    · exact ⟨_, rfl, runInstr_odd_halts h fun t ht => oddAbort_bind_ok rfl (oddAbort_bind (ht.push32 _))⟩
    · exact ⟨_, rfl, runInstr_odd_halts h fun t ht => ht.controlEa_bind fun _ =>
        oddAbort_bind_ok rfl (oddAbort_bind (ht.push32 _))⟩
    · exact ⟨_, rfl, runInstr_odd_halts h fun t ht => ht.controlEa_bind fun _ => ht.push32 _⟩
    · exact ⟨_, rfl, runInstr_odd_halts h fun t ht => oddAbort_bind ht.pop32⟩
    · exact ⟨_, rfl, runInstr_odd_halts h fun t ht => oddAbort_bind ht.pop16⟩
    · exact h.rte_halts
    · exact h.link_halts an w
    · exact ⟨_, rfl, runInstr_odd_halts h fun t ht => ht.raiseNext _⟩
    · exact ⟨_, rfl, h.moveEa_halts ea⟩

end Sys2Proof.Machine
end

section
/-! SUPPORT. What the condition codes of an addition, a subtraction and a compare say of the operands, at every width
(O20, O21, O22). The flag formulas are in the sign bits; each is settled by the operands' unsigned values and by whether the
result wrapped. -/

namespace Sys2Proof.Machine

section
variable {n : Nat}

/-! The sign bit and the signed value, from the unsigned value -/

theorem two_pow_succ_eq (n : Nat) : 2 ^ (n + 1) = 2 ^ n + 2 ^ n := by rw [Nat.pow_succ]; omega

theorem toNat_lt_double (x : BitVec (n + 1)) : x.toNat < 2 ^ n + 2 ^ n := two_pow_succ_eq n ▸ x.isLt

theorem msb_iff (x : BitVec (n + 1)) : x.msb = true ↔ 2 ^ n ≤ x.toNat := by
  simp [BitVec.msb_eq_decide]

/-- Two's complement: a value below half the range is itself, any other is the whole range less. -/
theorem toInt_cases (x : BitVec (n + 1)) :
    (x.toNat < 2 ^ n ∧ x.toInt = x.toNat) ∨ (2 ^ n ≤ x.toNat ∧ x.toInt = x.toNat - ((2 ^ n : Nat) + (2 ^ n : Nat))) := by
  have h := BitVec.toInt_eq_toNat_cond x
  rw [two_pow_succ_eq] at h
  split at h
  · exact .inl ⟨by omega, h⟩
  · exact .inr ⟨by omega, by rw [h]; push_cast; rfl⟩

/-! Wrapping -/

/-- `r` is `d + s`, or that less the whole range. -/
def WrapsSum (d s r : BitVec (n + 1)) : Prop :=
  r.toNat = d.toNat + s.toNat ∨ r.toNat + (2 ^ n + 2 ^ n) = d.toNat + s.toNat

/-- `r` is `d - s - b`, or that and the whole range. -/
def WrapsDifference (b : Nat) (d s r : BitVec (n + 1)) : Prop :=
  r.toNat + s.toNat + b = d.toNat ∨ r.toNat + s.toNat + b = d.toNat + (2 ^ n + 2 ^ n)

theorem wrapsSum_add (d s : BitVec (n + 1)) : WrapsSum d s (d + s) := by
  have hd := toNat_lt_double d
  have hs := toNat_lt_double s
  rw [WrapsSum, BitVec.toNat_add, two_pow_succ_eq]
  by_cases h : d.toNat + s.toNat < 2 ^ n + 2 ^ n
  · exact .inl (Nat.mod_eq_of_lt h)
  · rw [Nat.mod_eq_sub_mod (by omega), Nat.mod_eq_of_lt (by omega)]
    omega

theorem wrapsDifference_sub (d s : BitVec (n + 1)) : WrapsDifference 0 d s (d - s) := by
  have hd := toNat_lt_double d
  have h := wrapsSum_add (d - s) s
  rw [BitVec.sub_add_cancel] at h
  unfold WrapsSum at h
  unfold WrapsDifference
  omega

/-- X as a number of any size is the borrow. -/
theorem xValue_toNat (f : Ccr) : (xValue f : BitVec (n + 1)).toNat = if f.x then 1 else 0 := by
  unfold xValue
  split <;> simp

theorem borrow_le_one (f : Ccr) : (if f.x then 1 else 0 : Nat) ≤ 1 := by
  split <;> omega

theorem wrapsDifference_subx (old : Ccr) (d s : BitVec (n + 1)) :
    WrapsDifference (if old.x then 1 else 0) d s (d - s - xValue old) := by
  have hr := toNat_lt_double (d - s - xValue old)
  have hs := toNat_lt_double s
  have hb := borrow_le_one old
  have hfirst := wrapsDifference_sub d s
  have hsecond := wrapsDifference_sub (d - s) (xValue old)
  unfold WrapsDifference at *
  rw [xValue_toNat] at hsecond
  omega

/-! The flag formulas -/

theorem addC_eq {d s r : BitVec (n + 1)} (h : WrapsSum d s r) :
    addC s.msb d.msb r.msb = decide (2 ^ (n + 1) ≤ d.toNat + s.toNat) := by
  have hr := toNat_lt_double r
  have hd := toNat_lt_double d
  have hs := toNat_lt_double s
  unfold WrapsSum at h
  rw [Bool.eq_iff_iff]
  simp only [addC, Bool.or_eq_true, Bool.and_eq_true, Bool.not_eq_true', ← Bool.not_eq_true, msb_iff, decide_eq_true_eq,
    two_pow_succ_eq]
  omega

theorem addV_eq {d s r : BitVec (n + 1)} (h : WrapsSum d s r) :
    addV s.msb d.msb r.msb = decide (r.toInt ≠ d.toInt + s.toInt) := by
  have hr := toInt_cases r
  have hd := toInt_cases d
  have hs := toInt_cases s
  unfold WrapsSum at h
  rw [Bool.eq_iff_iff]
  simp only [addV, Bool.or_eq_true, Bool.and_eq_true, Bool.not_eq_true', ← Bool.not_eq_true, msb_iff, decide_eq_true_eq]
  omega

theorem subC_eq {b : Nat} {d s r : BitVec (n + 1)} (h : WrapsDifference b d s r) (hb : b ≤ 1) :
    subC s.msb d.msb r.msb = decide (d.toNat < s.toNat + b) := by
  have hr := toNat_lt_double r
  have hd := toNat_lt_double d
  have hs := toNat_lt_double s
  unfold WrapsDifference at h
  rw [Bool.eq_iff_iff]
  simp only [subC, Bool.or_eq_true, Bool.and_eq_true, Bool.not_eq_true', ← Bool.not_eq_true, msb_iff, decide_eq_true_eq]
  omega

theorem subV_eq {b : Nat} {d s r : BitVec (n + 1)} (h : WrapsDifference b d s r) (hb : b ≤ 1) :
    subV s.msb d.msb r.msb = decide (r.toInt ≠ d.toInt - s.toInt - b) := by
  have hlt := toNat_lt_double r
  have hr := toInt_cases r
  have hd := toInt_cases d
  have hs := toInt_cases s
  unfold WrapsDifference at h
  rw [Bool.eq_iff_iff]
  simp only [subV, Bool.or_eq_true, Bool.and_eq_true, Bool.not_eq_true', ← Bool.not_eq_true, msb_iff, decide_eq_true_eq]
  omega

/-! The obligations' parts -/

/-- The signed value of `D - S - X` wraps from the integers' difference. -/
theorem subx_toInt (old : Ccr) (d s : BitVec (n + 1)) :
    (d - s - xValue old).toInt = (d.toInt - s.toInt - ((if old.x then 1 else 0 : Nat) : Int)).bmod (2 ^ (n + 1)) := by
  rw [BitVec.toInt_sub, BitVec.toInt_sub, BitVec.toInt_eq_toNat_bmod (xValue old), xValue_toNat, Int.bmod_sub_bmod,
    Int.sub_bmod_bmod]

end

/-- Settles O20: the sum wraps at most once. -/
theorem addFlagsMean : Obligations.AddFlagsMean := fun _ s d =>
  ⟨addC_eq (wrapsSum_add d s), rfl, addV_eq (wrapsSum_add d s), rfl, rfl⟩

/-- Settles O21: the difference, with the borrow too, wraps at most once. -/
theorem subFlagsMean : Obligations.SubFlagsMean := by
  intro n old s d f b g
  have hb : b ≤ 1 := borrow_le_one old
  have h := wrapsDifference_sub d s
  have hx : WrapsDifference b d s (subxResult old s d).1 := wrapsDifference_subx old d s
  refine ⟨subC_eq h (by decide), rfl, ?_, rfl, ?_, subx_toInt old d s, subC_eq hx hb, rfl, rfl, subV_eq hx hb⟩
  · exact (subV_eq h (by decide)).trans (by rw [Nat.cast_zero, sub_zero])
  · exact decide_eq_decide.mpr sub_eq_zero

/-! Conditions -/

/-- After a compare N and V differ exactly when D is less than S, signed: V says that the result's sign is wrong. -/
theorem cmp_lt {n : Nat} (d s : BitVec (n + 1)) :
    ((d - s).msb != subV s.msb d.msb (d - s).msb) = decide (d.toInt < s.toInt) := by
  have h := wrapsDifference_sub d s
  have hd := toInt_cases d
  have hs := toInt_cases s
  have hr := toInt_cases (d - s)
  unfold WrapsDifference at h
  rw [subV_eq (wrapsDifference_sub d s) (by decide), Bool.eq_iff_iff, bne_iff_ne, Ne, Bool.eq_iff_iff]
  simp only [msb_iff, decide_eq_true_eq]
  omega

theorem condHolds_lt (f : Ccr) : condHolds f .lt = (f.n != f.v) := by
  cases hn : f.n <;> simp [condHolds, hn]

theorem condHolds_ge (f : Ccr) : condHolds f .ge = !(f.n != f.v) := by
  cases hn : f.n <;> simp [condHolds, hn]

theorem condHolds_gt (f : Ccr) : condHolds f .gt = (!(f.n != f.v) && !f.z) := by
  cases hn : f.n <;> simp [condHolds, hn]

theorem condHolds_le (f : Ccr) : condHolds f .le = (f.z || (f.n != f.v)) := by
  cases hn : f.n <;> simp [condHolds, hn]

/-- Settles O22: carry compares unsigned, N and V together compare signed, Z says that the operands are equal. -/
theorem conditionsCompare : Obligations.ConditionsCompare := by
  intro n old s d f
  have hc : f.c = decide (d.toNat < s.toNat) := subC_eq (wrapsDifference_sub d s) (by decide)
  have hz : f.z = decide (d = s) := decide_eq_decide.mpr sub_eq_zero
  have hlt : (f.n != f.v) = decide (d.toInt < s.toInt) := cmp_lt d s
  have hnat : d = s ↔ d.toNat = s.toNat := BitVec.toNat_inj.symm
  have hint : d = s ↔ d.toInt = s.toInt := BitVec.toInt_inj.symm
  refine ⟨?hi, ?ls, ?cc, hc, ?gt, ?le, ?ge, (condHolds_lt f).trans hlt, hz, ?ne, rfl⟩
  case hi =>
    simp only [condHolds, hc, hz, hnat, ← decide_not, ← Bool.decide_and, decide_eq_decide]
    omega
  case ls =>
    simp only [condHolds, hc, hz, hnat, ← Bool.decide_or, decide_eq_decide]
    omega
  case cc =>
    simp only [condHolds, hc, ← decide_not, decide_eq_decide]
    omega
  case gt =>
    rw [condHolds_gt, hlt, hz]
    simp only [hint, ← decide_not, ← Bool.decide_and, decide_eq_decide]
    omega
  case le =>
    rw [condHolds_le, hlt, hz]
    simp only [hint, ← Bool.decide_or, decide_eq_decide]
    omega
  case ge =>
    rw [condHolds_ge, hlt]
    simp only [← decide_not, decide_eq_decide]
    omega
  case ne => simp only [condHolds, hz, decide_not]

end Sys2Proof.Machine
end

section
/-! SUPPORT. A misaligned source (O14): the read is not performed, and what abandons an instruction on plain memory leads
to the address error's exception (R70, R437, R441). -/

namespace Sys2Proof.Machine

open Sys2Proof.Safety

/-- Extension words in plain memory, and then the effect, which finds PC past the instruction's words (R92). -/
theorem fetchExt_bind_plain (ext : Nat) (act : Act Unit) {s : State} (hm : s.memMap = []) :
    (do fetchExt ext; act : Act Unit) (s.setPc (s.pc + 2)) = act (s.setPc (s.pc + BitVec.ofNat 32 (2 + 2 * ext))) := by
  rw [act_bind_ok (fetchExt_plain ext (s.setPc (s.pc + 2)) hm), State.setPc_setPc, State.setPc_pc, BitVec.add_assoc,
    BitVec.ofNat_add]
  rfl

/-- An instruction in plain memory whose effect an address error abandons (R437, R441). -/
theorem runInstr_addressError {ext : Nat} {writes : List Dest} {act : Long → Act Unit} {s t : State} {acc : Access}
    (hm : s.memMap = [])
    (h : act s.pc (s.setPc (s.pc + BitVec.ofNat 32 (2 + 2 * ext))) = .error (.addressError acc) t) :
    runInstr ext writes act s = enterGroupZero 3 acc true (freeDests s writes t) := by
  have habort := (fetchExt_bind_plain ext (act s.pc) hm).trans h
  simp only [runInstr, habort]

/-- An access is described by its address, its kind and the mode it is made in (R62). -/
theorem accessOf_congr {s t : State} (h : t.supervisor = s.supervisor) (addr : Long) (write fetch program : Bool) :
    accessOf t addr write fetch program = accessOf s addr write fetch program := by
  simp only [accessOf, h]

/-- A misaligned operand is not read, after its mode has moved an address register (R70, R158). -/
theorem readEa_misaligned {sz : Size} {pcx addr : Long} {ea : EA} {program : Bool} {s : State}
    (hl : eaLoc sz pcx ea s = .mem addr program) (ha : misaligned sz addr = true) :
    readEa sz pcx ea s = .error (.addressError (accessOf s addr false false program)) (eaBump sz ea s) := by
  have hread : readLoc sz (eaLoc sz pcx ea s) (eaBump sz ea s) =
      .error (.addressError (accessOf (eaBump sz ea s) addr false false program)) (eaBump sz ea s) := by
    rw [hl]
    exact readMem_misaligned ha
  rw [readEa, act_bind_ok (evalEa_eq sz pcx ea s), hread, accessOf_congr (eaBump_supervisor sz ea s)]

/-- MOVE whose source is misaligned: the destination is not evaluated (R187, R70). -/
theorem moveEa_misaligned {sz : Size} {src : EA} (dst : EA) {s : State} {addr : Long} {program : Bool}
    (hm : s.memMap = []) (hl : operandLoc sz 0 src s = .mem addr program) (ha : misaligned sz addr = true) :
    moveEa sz src dst s = enterGroupZero 3 (accessOf s addr false false program) true
      (freeDests s (.ccr :: eaBumps src ++ eaWrites dst)
        (eaBump sz src (s.setPc (s.pc + BitVec.ofNat 32 (2 + 2 * eaCount sz src))))) := by
  have hsrc : eaLoc sz (eaBase s.pc 0) src (s.setPc (s.pc + BitVec.ofNat 32 (2 + 2 * eaCount sz src))) =
      .mem addr program := (eaLoc_setPc sz _ src s _).trans hl
  have hread := readEa_misaligned hsrc ha
  rw [accessOf_congr (State.setPc_supervisor s _)] at hread
  exact runInstr_addressError hm (act_bind_error hread)

/-- MOVE of each size has the one common effect (R187). -/
theorem exec_moveInstr (sz : Size) (src dst : EA) (s : State) :
    exec (moveInstr sz src dst) s = .next (moveEa sz src dst s) := by
  cases sz <;> rfl

/-- Settles O14: the read of the source abandons MOVE before anything is stored. -/
theorem misalignedMoveTakesAddressError : Obligations.MisalignedMoveTakesAddressError := by
  intro sz src dst s addr program hm hl ha
  rw [exec_moveInstr, moveEa_misaligned dst hm hl ha]

end Sys2Proof.Machine
end

section
/-! SUPPORT. The opcode table as a relation between an opword and a row: the opword selects at most one row (O4), and the
decoder's search finds exactly the row that the opword selects. An opword is read as `64 * h + l`, the bits 15..6 and the
bits 5..0, which a row constrains apart from each other. -/

namespace Sys2Proof

theorem field_eq (w lo len : Nat) : field w lo len = w / 2 ^ lo % 2 ^ len := by
  rw [field, Nat.shiftRight_eq_div_pow]

theorem field_line_lt (w : Nat) : field w 12 4 < 16 := Nat.mod_lt _ (by decide)

/-! One row -/

theorem Row.selects_iff {r : Row} {w : Nat} :
    r.selects w = true ↔ w &&& r.mask = r.pat
      ∧ (r.sized = true → field w 6 2 ≠ 3 ∧ ¬(r.ea.isSome = true ∧ field w 6 2 = 0 ∧ field w 3 3 = 1))
      ∧ eaAllowed r.ea (field w 3 3) (field w 0 3) = true ∧ eaAllowed r.dst (field w 6 3) (field w 9 3) = true
      ∧ (r.bcc = true → 2 ≤ field w 8 4) := by
  simp only [Row.selects]
  cases r.sized <;> cases r.bcc <;> cases r.ea <;> simp [and_assoc, or_iff_not_imp_left]

/-- What a row asks of bits 15..6 of an opword: the pattern, a size that is one, MOVE's destination, Bcc's condition. -/
def Row.high (r : Row) (h : Nat) : Bool :=
  (h &&& (r.mask / 64) == r.pat / 64) && (!r.sized || h % 4 != 3) && eaAllowed r.dst (h % 8) (h / 8 % 8)
    && (!r.bcc || 2 ≤ h / 4 % 16)

/-- What a row asks of bits 5..0: the pattern and the addressing mode. -/
def Row.low (r : Row) (l : Nat) : Bool := (l &&& (r.mask % 64) == r.pat % 64) && eaAllowed r.ea (l / 8) (l % 8)

/-- The one constraint across both parts: An at size byte, which no sized row with an operand accepts (R159). -/
def Row.byteAn (r : Row) (h l : Nat) : Bool := r.sized && r.ea.isSome && h % 4 == 0 && l / 8 == 1

theorem land_eq_iff_split (w m p : Nat) :
    w &&& m = p ↔ w / 64 &&& m / 64 = p / 64 ∧ w % 64 &&& m % 64 = p % 64 := by
  have hdiv : (w &&& m) / 64 = w / 64 &&& m / 64 := Nat.and_div_two_pow (n := 6)
  have hmod : (w &&& m) % 64 = w % 64 &&& m % 64 := Nat.and_mod_two_pow (n := 6)
  rw [← hdiv, ← hmod]
  omega

/-- The fields that a row reads lie in one of the two parts. -/
theorem Row.selects_eq (r : Row) {h l : Nat} (hl : l < 64) :
    r.selects (64 * h + l) = (r.high h && r.low l && !r.byteAn h l) := by
  have hmask : (64 * h + l &&& r.mask == r.pat) =
      ((h &&& r.mask / 64 == r.pat / 64) && (l &&& r.mask % 64 == r.pat % 64)) := by
    rw [Bool.eq_iff_iff]
    simp only [Bool.and_eq_true, beq_iff_eq]
    rw [land_eq_iff_split, show (64 * h + l) / 64 = h by omega, show (64 * h + l) % 64 = l by omega]
  have hsize : field (64 * h + l) 6 2 = h % 4 := by rw [field_eq]; omega
  have hmode : field (64 * h + l) 3 3 = l / 8 := by rw [field_eq]; omega
  have hreg : field (64 * h + l) 0 3 = l % 8 := by rw [field_eq]; omega
  have hdmode : field (64 * h + l) 6 3 = h % 8 := by rw [field_eq]; omega
  have hdreg : field (64 * h + l) 9 3 = h / 8 % 8 := by rw [field_eq]; omega
  have hcond : field (64 * h + l) 8 4 = h / 4 % 16 := by rw [field_eq]; omega
  simp only [Row.selects, Row.high, Row.low, Row.byteAn, hmask, hsize, hmode, hreg, hdmode, hdreg, hcond]
  grind

theorem Row.selects_split {r : Row} {w : Nat} :
    r.selects w = true ↔ r.high (w / 64) = true ∧ r.low (w % 64) = true ∧ r.byteAn (w / 64) (w % 64) = false := by
  conv_lhs => rw [show w = 64 * (w / 64) + w % 64 by omega, r.selects_eq (by omega)]
  simp only [Bool.and_eq_true, Bool.not_eq_true', and_assoc]

/-! Two rows -/

/-- No opword selects both rows: their patterns differ in a bit that both fix, or no bits 5..0 suit both, or no bits 15..6
of their line do. -/
def Row.clash (r₁ r₂ : Row) : Bool :=
  r₁.pat &&& r₂.mask != r₂.pat &&& r₁.mask
    || (List.range 64).all (fun l => !(r₁.low l && r₂.low l))
    || (List.range 64).all (fun k => !(r₁.high (r₁.pat / 4096 * 64 + k) && r₂.high (r₁.pat / 4096 * 64 + k)))

theorem Row.not_both_select {r₁ r₂ : Row} {w : Nat} (hc : r₁.clash r₂ = true) (hline : w / 4096 = r₁.pat / 4096)
    (h₁ : r₁.selects w = true) (h₂ : r₂.selects w = true) : False := by
  simp only [Row.clash, Bool.or_eq_true, bne_iff_ne, List.all_eq_true, List.mem_range, Bool.not_eq_true',
    Bool.and_eq_false_iff] at hc
  obtain ⟨hhigh₁, hlow₁, -⟩ := Row.selects_split.mp h₁
  obtain ⟨hhigh₂, hlow₂, -⟩ := Row.selects_split.mp h₂
  rcases hc with (hpat | hlow) | hhigh
  · refine hpat ?_
    rw [← (Row.selects_iff.mp h₁).1, ← (Row.selects_iff.mp h₂).1, Nat.land_assoc, Nat.land_assoc,
      Nat.land_comm r₁.mask]
  · simpa [hlow₁, hlow₂] using hlow (w % 64) (by omega)
  · have hw : r₁.pat / 4096 * 64 + w / 64 % 64 = w / 64 := by omega
    simpa [hw, hhigh₁, hhigh₂] using hhigh (w / 64 % 64) (by omega)

theorem rowsOf_pairwise_clash : ∀ line < 16, (rowsOf line).Pairwise fun r₁ r₂ => r₁.clash r₂ = true := by decide

/-- Every row fixes the four bits of its line. -/
theorem rowsOf_line : ∀ line < 16, ∀ r ∈ rowsOf line, r.mask / 4096 = 15 ∧ r.pat / 4096 = line := by decide

theorem line_of_mem {w : Nat} (hw : w < 65536) {r : Row} (hr : r ∈ rowsOf (field w 12 4)) : w / 4096 = r.pat / 4096 := by
  rw [(rowsOf_line _ (field_line_lt w) r hr).2, field_eq]
  omega

/-- Settles O4: any two rows of a line clash. -/
theorem opwordSelectsOneRow : Obligations.OpwordSelectsOneRow := by
  intro w hw r₁ h₁ r₂ h₂
  have hsymm : Std.Symm fun r₁ r₂ : Row => r₁.selects w = true → r₂.selects w = true → r₁ = r₂ :=
    ⟨fun _ _ h hs₂ hs₁ => (h hs₁ hs₂).symm⟩
  have hpair : (rowsOf (field w 12 4)).Pairwise fun r₁ r₂ => r₁.selects w = true → r₂.selects w = true → r₁ = r₂ :=
    (rowsOf_pairwise_clash _ (field_line_lt w)).imp_of_mem fun hr₁ _ hc hs₁ hs₂ =>
      (Row.not_both_select hc (line_of_mem hw hr₁) hs₁ hs₂).elim
  exact hpair.forall_of_forall (fun _ _ _ _ => rfl) h₁ h₂

/-! The row of a tag -/

/-- The row that stands for a constructor; the table has one for each (`rowOf_mem`, `rowOf_tag`). -/
def rowOf (t : Tag) : Row :=
  (((List.range 16).flatMap rowsOf).find? (·.tag == t)).getD { tag := t, mask := 0, pat := 1 }

theorem rowOf_tag_of_mem : ∀ line < 16, ∀ r ∈ rowsOf line, rowOf r.tag = r := by decide

theorem rowOf_mem (t : Tag) : (rowOf t).pat / 4096 < 16 ∧ rowOf t ∈ rowsOf ((rowOf t).pat / 4096) := by
  cases t <;> decide

theorem rowOf_tag (t : Tag) : (rowOf t).tag = t := by cases t <;> rfl

theorem rowOf_mem_line {t : Tag} {w : Nat} (hs : (rowOf t).selects w = true) : rowOf t ∈ rowsOf (field w 12 4) := by
  obtain ⟨hlt, hmem⟩ := rowOf_mem t
  obtain ⟨hmask, -⟩ := rowsOf_line _ hlt _ hmem
  have hline : field w 12 4 = (rowOf t).pat / 4096 := calc
    field w 12 4 = w / 4096 &&& 15 := by rw [field_eq]; exact (Nat.and_two_pow_sub_one_eq_mod _ 4).symm
    _ = (w &&& (rowOf t).mask) / 4096 := by rw [← hmask]; exact (Nat.and_div_two_pow (n := 12)).symm
    _ = (rowOf t).pat / 4096 := by rw [(Row.selects_iff.mp hs).1]
  rwa [hline]

/-- The decoder's search is the table's relation: since at most one row is selected, the order of the rows is of no
account (R122). -/
theorem decodeTag_eq_some_iff {w : Nat} (hw : w < 65536) {t : Tag} :
    decodeTag w = some t ↔ (rowOf t).selects w = true := by
  constructor
  · intro h
    obtain ⟨r, hfind, rfl⟩ := Option.map_eq_some_iff.mp h
    rw [rowOf_tag_of_mem _ (field_line_lt w) r (List.mem_of_find?_eq_some hfind)]
    exact List.find?_some (p := (Row.selects · w)) hfind
  · intro hs
    have hmem := rowOf_mem_line hs
    have hsome : ((rowsOf (field w 12 4)).find? (·.selects w)).isSome = true := List.find?_isSome.mpr ⟨_, hmem, hs⟩
    obtain ⟨r, hfind⟩ := Option.isSome_iff_exists.mp hsome
    have hr : r = rowOf t := opwordSelectsOneRow w hw r (List.mem_of_find?_eq_some hfind) _ hmem
      (List.find?_some (p := (Row.selects · w)) hfind) hs
    rw [decodeTag, hfind, hr, Option.map_some, rowOf_tag]

/-- What decodes was built for a row that the opword selects. -/
theorem selects_of_decodeWords {w : Word} {ws rest : List Word} {i : Instr}
    (h : decodeWords (w :: ws) = .ok (i, rest)) :
    ∃ t, (rowOf t).selects w.toNat = true ∧ build t w.toNat ws = some (i, rest) := by
  simp only [decodeWords] at h
  split at h
  · cases h
  · next t ht =>
    split at h
    · cases h
    · next r hb =>
      cases h
      exact ⟨t, (decodeTag_eq_some_iff w.isLt).mp ht, hb⟩

theorem decodeWords_of_selects {w : Word} {ws rest : List Word} {i : Instr} {t : Tag}
    (hs : (rowOf t).selects w.toNat = true) (hb : build t w.toNat ws = some (i, rest)) :
    decodeWords (w :: ws) = .ok (i, rest) := by
  simp only [decodeWords, (decodeTag_eq_some_iff w.isLt).mpr hs, hb]

end Sys2Proof
end

section
/-! SUPPORT. What decodes is well formed (O3): an operand read from an opword that a row selects has one of the row's modes
and an immediate that fits. One lemma per shape of extension words, in the order of the decoder. -/

namespace Sys2Proof

/-- An immediate operand fits the size; other operands have none. -/
def EA.immFits (sz : Size) : EA → Bool
  | .imm v => fitsSize sz v
  | _ => true

theorem EA.ok_iff {set : EaSet} {sz : Size} {ea : EA} :
    ea.ok set sz = true ↔
      set.accepts ea.kind = true ∧ ¬(sz = .byte ∧ ea.kind = .aReg) ∧ ea.immFits sz = true := by
  have h : ea.ok set sz = (set.accepts ea.kind && !(sz == .byte && ea.kind == .aReg) && ea.immFits sz) := rfl
  rw [h]
  simp only [Bool.and_eq_true, Bool.not_eq_true', Bool.and_eq_false_iff, beq_eq_false_iff_ne]
  tauto

/-- An immediate is taken zero-extended from the size (R97). -/
theorem takeImm_fits {sz : Size} {ws rest : List Word} {v : Long} (h : takeImm sz ws = some (v, rest)) :
    fitsSize sz v = true := by
  have hext : ∀ {n : Nat} (x : BitVec n), n ≤ 32 → (x.setWidth 32).toNat < 2 ^ n := fun x hn => by
    rw [BitVec.toNat_setWidth]
    exact (Nat.mod_le _ _).trans_lt x.isLt
  cases sz with
  | long => exact decide_eq_true v.isLt
  | _ =>
    obtain ⟨p, -, hp⟩ := Option.map_eq_some_iff.mp h
    cases hp
    simp only [fitsSize, decide_eq_true_eq]
    exact hext _ (by decide)

/-- An operand that was taken has the mode that the fields name. -/
theorem takeEa_eq_some {sz : Size} {mode reg : Nat} {ws rest : List Word} {ea : EA}
    (h : takeEa sz mode reg ws = some (ea, rest)) : eaKindOf mode reg = some ea.kind ∧ ea.immFits sz = true := by
  cases hk : eaKindOf mode reg with
  | none => simp [takeEa, hk] at h
  | some k =>
    cases k with
    | imm =>
      simp only [takeEa, hk, Option.map_eq_some_iff] at h
      obtain ⟨p, hp, he⟩ := h
      cases he
      exact ⟨rfl, takeImm_fits hp⟩
    | _ =>
      simp only [takeEa, hk, Option.map_eq_some_iff, Option.some.injEq, Prod.mk.injEq] at h
      grind [EA.kind, EA.immFits]

theorem eaKindOf_aReg {mode reg : Nat} (h : eaKindOf mode reg = some .aReg) : mode = 1 := by
  unfold eaKindOf at h
  split at h
  case h_2 => rfl
  case h_8 => split at h <;> cases h
  all_goals cases h

theorem EaSet.accepts_of_allows {set : EaSet} {mode reg : Nat} {k : EaKind} (h : set.allows mode reg = true)
    (hk : eaKindOf mode reg = some k) : set.accepts k = true := by
  simpa only [EaSet.allows, hk] using h

/-- An operand taken where a set allows the fields, with An excluded at byte size (R159). -/
theorem ok_of_takeEa {set : EaSet} {sz : Size} {mode reg : Nat} {ws rest : List Word} {ea : EA}
    (h : takeEa sz mode reg ws = some (ea, rest)) (hset : set.allows mode reg = true)
    (hbyte : sz = .byte → set.accepts .aReg = false ∨ mode ≠ 1) : ea.ok set sz = true := by
  obtain ⟨hkind, hfits⟩ := takeEa_eq_some h
  have hacc := EaSet.accepts_of_allows hset hkind
  refine EA.ok_iff.mpr ⟨hacc, fun ⟨hsz, han⟩ => ?_, hfits⟩
  rw [han] at hacc hkind
  rcases hbyte hsz with hno | hmode
  · simp [hno] at hacc
  · exact hmode (eaKindOf_aReg hkind)

theorem sizeField_byte {w : Nat} (h : sizeField w = .byte) : field w 6 2 = 0 := by
  unfold sizeField at h
  split at h
  · assumption
  · cases h
  · cases h

/-! The shapes of extension words. Each row's `build` is one of them, and `hwf` says what its constructor asks. -/

section
variable {t : Tag} {set : EaSet} {sz : Size} {w : Nat} {ws rest : List Word} {i : Instr}

/-- The operand in bits 5..0 of an opword that the row selects. At byte size either the row's modes exclude An or its size
field does (R159). -/
theorem source_ok {ea : EA} (hs : (rowOf t).selects w = true) (hset : (rowOf t).ea = some set)
    (hbyte : sz = .byte → set.accepts .aReg = false ∨ (rowOf t).sized = true ∧ sz = sizeField w)
    (h : takeEa sz (field w 3 3) (field w 0 3) ws = some (ea, rest)) : ea.ok set sz = true := by
  obtain ⟨-, hsized, hea, -, -⟩ := Row.selects_iff.mp hs
  rw [hset] at hsized hea
  refine ok_of_takeEa h hea fun hsz => (hbyte hsz).imp_right fun ⟨hrow, hw⟩ hmode => ?_
  exact (hsized hrow).2 ⟨rfl, sizeField_byte (hw.symm.trans hsz), hmode⟩

theorem wellFormed_of_takeEa1 {mk : EA → Instr} (hb : takeEa1 sz mk w ws = some (i, rest))
    (hs : (rowOf t).selects w = true) (hset : (rowOf t).ea = some set)
    (hbyte : sz = .byte → set.accepts .aReg = false ∨ (rowOf t).sized = true ∧ sz = sizeField w)
    (hwf : ∀ ea : EA, ea.ok set sz = true → (mk ea).wellFormed = true) :
    i.wellFormed = true := by
  obtain ⟨⟨ea, ws'⟩, hea, he⟩ := Option.bind_eq_some_iff.mp hb
  cases he
  exact hwf ea (source_ok hs hset hbyte hea)

theorem wellFormed_of_takeImmEa {mk : Size → Long → EA → Instr} (hb : takeImmEa mk w ws = some (i, rest))
    (hs : (rowOf t).selects w = true) (hset : (rowOf t).ea = some .dataAlterable)
    (hwf : ∀ (sz : Size) (imm : Long) (ea : EA), (fitsSize sz imm && ea.ok .dataAlterable sz) = true →
      (mk sz imm ea).wellFormed = true) : i.wellFormed = true := by
  obtain ⟨⟨imm, ws'⟩, himm, hb⟩ := Option.bind_eq_some_iff.mp hb
  obtain ⟨⟨ea, ws'⟩, hea, he⟩ := Option.bind_eq_some_iff.mp hb
  cases he
  refine hwf _ imm ea ?_
  rw [takeImm_fits himm, source_ok hs hset (fun _ => .inl rfl) hea]
  rfl

theorem wellFormed_of_takeBitEa {mk : BitVec 8 → EA → Instr} (hb : takeBitEa mk w ws = some (i, rest))
    (hs : (rowOf t).selects w = true) (hset : (rowOf t).ea = some set) (hdata : set.accepts .aReg = false)
    (hwf : ∀ (bit : BitVec 8) (ea : EA), ea.ok set .byte = true → (mk bit ea).wellFormed = true) :
    i.wellFormed = true := by
  obtain ⟨⟨bit, ws'⟩, -, hb⟩ := Option.bind_eq_some_iff.mp hb
  obtain ⟨⟨ea, ws'⟩, hea, he⟩ := Option.bind_eq_some_iff.mp hb
  cases he
  exact hwf bit ea (source_ok hs hset (fun _ => .inl hdata) hea)

theorem wellFormed_of_takeMove {mk : EA → EA → Instr} (hb : takeMove sz mk w ws = some (i, rest))
    (hs : (rowOf t).selects w = true) (hset : (rowOf t).ea = some set) (hbyte : sz = .byte → set.accepts .aReg = false)
    (hdst : (rowOf t).dst = some .dataAlterable)
    (hwf : ∀ src dst : EA, (src.ok .all sz && dst.ok .dataAlterable sz) = true → (mk src dst).wellFormed = true) :
    i.wellFormed = true := by
  obtain ⟨⟨src, ws'⟩, hsrc, hb⟩ := Option.bind_eq_some_iff.mp hb
  obtain ⟨⟨dst, ws'⟩, hea, he⟩ := Option.bind_eq_some_iff.mp hb
  cases he
  obtain ⟨-, hno, hfits⟩ := EA.ok_iff.mp (source_ok hs hset (fun hsz => .inl (hbyte hsz)) hsrc)
  obtain ⟨-, -, -, hallows, -⟩ := Row.selects_iff.mp hs
  rw [hdst] at hallows
  refine hwf src dst ?_
  rw [EA.ok_iff.mpr ⟨rfl, hno, hfits⟩, ok_of_takeEa hea hallows fun _ => .inl rfl]
  rfl

theorem wellFormed_of_takeMovem {mk : WordLong → Word → EA → Instr} (hb : takeMovem mk w ws = some (i, rest))
    (hs : (rowOf t).selects w = true) (hset : (rowOf t).ea = some set)
    (hwf : ∀ (sz : WordLong) (mask : Word) (ea : EA), ea.ok set sz.size = true → (mk sz mask ea).wellFormed = true) :
    i.wellFormed = true := by
  obtain ⟨⟨mask, ws'⟩, -, hb⟩ := Option.bind_eq_some_iff.mp hb
  obtain ⟨⟨ea, ws'⟩, hea, he⟩ := Option.bind_eq_some_iff.mp hb
  cases he
  refine hwf _ mask ea (source_ok hs hset (fun hsz => ?_) hea)
  cases hwl : wordLongField w <;> simp [hwl] at hsz

/-- The byte 0 selects the 16-bit form (R98). -/
theorem takeBranch_ok {d : BranchDisp} (h : takeBranch w ws = some (d, rest)) : d.ok = true := by
  unfold takeBranch at h
  split at h
  · obtain ⟨p, -, he⟩ := Option.map_eq_some_iff.mp h
    cases he
    rfl
  · next hne =>
    cases h
    rw [field_eq] at hne
    simpa [BranchDisp.ok, ← BitVec.toNat_inj] using hne

theorem wellFormed_of_map {α : Type} {x : Option (α × List Word)} {f : α → Instr}
    (hb : (x.map fun p => (f p.1, p.2)) = some (i, rest))
    (hwf : ∀ a ws, x = some (a, ws) → (f a).wellFormed = true) : i.wellFormed = true := by
  obtain ⟨⟨a, ws'⟩, hx, he⟩ := Option.map_eq_some_iff.mp hb
  cases he
  exact hwf a _ hx

theorem wellFormed_of_some {j : Instr} (hb : some (j, ws) = some (i, rest)) (hwf : j.wellFormed = true) :
    i.wellFormed = true := by
  cases hb
  exact hwf

end

/-- The codes of a branch condition name neither T nor F (R38). -/
theorem condOf_ne_t_f {k : Nat} (h : 2 ≤ k) : condOf k ≠ .t ∧ condOf k ≠ .f := by
  unfold condOf
  split <;> simp <;> omega

/-- What a row builds from an opword that selects it is well formed: the row's modes are those of `Instr.wellFormed`. -/
theorem build_wellFormed {t : Tag} {w : Nat} {ws rest : List Word} {i : Instr} (hs : (rowOf t).selects w = true)
    (hb : build t w ws = some (i, rest)) : i.wellFormed = true := by
  cases t <;> simp only [build] at hb
  case ori | andi | subi | addi | eori | cmpi => exact wellFormed_of_takeImmEa hb hs rfl fun _ _ _ h => h
  case btstImm | bchgImm | bclrImm | bsetImm => exact wellFormed_of_takeBitEa hb hs rfl rfl fun _ _ h => h
  case btstReg | bchgReg | bclrReg | bsetReg | nbcd | tas | scc =>
    exact wellFormed_of_takeEa1 hb hs rfl (fun _ => .inl rfl) fun _ h => h
  case moveB => exact wellFormed_of_takeMove hb hs rfl (fun _ => rfl) rfl fun _ _ h => h
  case moveL | moveW => exact wellFormed_of_takeMove hb hs rfl nofun rfl fun _ _ h => h
  case movemToMem | movemToRegs => exact wellFormed_of_takeMovem hb hs rfl fun _ _ _ h => h
  case negx | clr | neg | not | tst | addq | subq | orToReg | orToEa | subToReg | subToEa | cmp | eor | andToReg | andToEa
  | addToReg | addToEa => exact wellFormed_of_takeEa1 hb hs rfl (fun _ => .inr ⟨rfl, rfl⟩) fun _ h => h
  case moveaL | moveaW | moveFromSr | chk | lea | moveToCcr | moveToSr | pea | jsr | jmp | divu | divs | subaW | subaL
  | cmpaW | cmpaL | mulu | muls | addaW | addaL | asrMem | aslMem | lsrMem | lslMem | roxrMem | roxlMem | rorMem
  | rolMem => exact wellFormed_of_takeEa1 hb hs rfl nofun fun _ h => h
  case oriToCcr | oriToSr | andiToCcr | andiToSr | eoriToCcr | eoriToSr | movep | link | stop | dbcc =>
    exact wellFormed_of_map hb fun _ _ _ => rfl
  case bra | bsr => exact wellFormed_of_map hb fun _ _ h => takeBranch_ok h
  case bcc =>
    refine wellFormed_of_map hb fun d _ h => ?_
    obtain ⟨-, -, -, -, hcond⟩ := Row.selects_iff.mp hs
    obtain ⟨ht, hf⟩ := condOf_ne_t_f (hcond rfl)
    simp [Instr.wellFormed, ht, hf, takeBranch_ok h]
  case swap | extW | extL | illegal | trap | unlk | moveToUsp | moveFromUsp | reset | nop | rte | rts | trapv | rtr | moveq
  | sbcdReg | sbcdMem | subxReg | subxMem | cmpm | abcdReg | abcdMem | exgDD | exgAA | exgDA | addxReg | addxMem
  | asrReg | aslReg | lsrReg | lslReg | roxrReg | roxlReg | rorReg | rolReg => exact wellFormed_of_some hb rfl

/-- Settles O3: the decoder builds an instruction only for a row that the opword selects. -/
theorem decodedIsWellFormed : Obligations.DecodedIsWellFormed := by
  intro ws rest i h
  cases ws with
  | nil => cases h
  | cons w ws =>
    obtain ⟨t, hs, hb⟩ := selects_of_decodeWords h
    exact build_wellFormed hs hb

end Sys2Proof
end

section
/-! SUPPORT. The words that the encoder writes after the opword are those that the decoder takes: immediates, index words
and the extension words of every addressing mode (R91, R94, R95, R97). -/

namespace Sys2Proof

theorem takeLong_longWords (l : Long) (rest : List Word) : takeLong (longWords l ++ rest) = some (l, rest) := by
  have h : l.extractLsb' 16 16 ++ l.extractLsb' 0 16 = l := by
    rw [BitVec.extractLsb'_append_extractLsb'_eq_extractLsb' (by decide)]
    simp
  simp only [longWords, List.cons_append, List.nil_append, takeLong, h]

@[simp] theorem setWidth_byte_word (b : Byte) : (b.setWidth 16).setWidth 8 = b := by
  rw [BitVec.setWidth_setWidth_of_le b (by decide)]
  simp

/-- A value that fits is its own zero-extension. -/
theorem setWidth_setWidth_of_fits {v : Long} {n : Nat} (h : v.toNat < 2 ^ n) : (v.setWidth n).setWidth 32 = v := by
  apply BitVec.eq_of_toNat_eq
  simp only [BitVec.toNat_setWidth]
  rw [Nat.mod_eq_of_lt h, Nat.mod_eq_of_lt v.isLt]

theorem takeImm_immWords {sz : Size} {v : Long} (h : fitsSize sz v = true) (rest : List Word) :
    takeImm sz (immWords sz v ++ rest) = some (v, rest) := by
  rw [fitsSize, decide_eq_true_eq] at h
  cases sz with
  | long => exact takeLong_longWords v rest
  | _ => simp [takeImm, immWords, takeByte, takeWord, setWidth_setWidth_of_fits h]

/-- The fields of an index extension word, from its value: bits 15..12, bit 11 and the low byte (R95). -/
theorem indexOf_eq {w : Word} {r : Nat} {c : Bool} {d : BitVec 8} (hr : r < 16)
    (hw : w.toNat = r * 4096 + c.toNat * 2048 + d.toNat) :
    indexOf w = { reg := if 8 ≤ r then .a (Fin.ofNat 8 r) else .d (Fin.ofNat 8 r), long := c, disp := d } := by
  have hc := c.toNat_le
  have hbit : ∀ k, w.getLsbD k = decide (w.toNat / 2 ^ k % 2 = 1) := fun k => Nat.testBit_eq_decide_div_mod_eq
  have h15 : w.getLsbD 15 = decide (8 ≤ r) := by
    rw [hbit, decide_eq_decide]
    omega
  have h11 : w.getLsbD 11 = c := by
    rw [hbit, hw]
    cases c <;> simp <;> omega
  have hreg : regField w.toNat 12 = Fin.ofNat 8 r := by
    rw [regField, field_eq]
    exact Fin.ext (by simp only [Fin.ofNat]; omega)
  have hdisp : w.setWidth 8 = d := by
    apply BitVec.eq_of_toNat_eq
    rw [BitVec.toNat_setWidth]
    omega
  simp only [indexOf, h15, h11, hreg, hdisp, decide_eq_true_eq]

theorem indexOf_word (x : Index) : indexOf x.word = x := by
  obtain ⟨reg, long, disp⟩ := x
  have hlong : (if long = true then 2 ^ 11 else 0) = long.toNat * 2048 := by cases long <;> rfl
  have hle := long.toNat_le
  cases reg with
  | d n =>
    rw [indexOf_eq (r := n.val) (c := long) (d := disp) (by omega)]
    · have hn : ¬8 ≤ n.val := by omega
      simp [hn]
    · simp only [Index.word, hlong, BitVec.toNat_ofNat]
      omega
  | a n =>
    rw [indexOf_eq (r := 8 + n.val) (c := long) (d := disp) (by omega)]
    · have hn : Fin.ofNat 8 (8 + n.val) = n := Fin.ext (by simp only [Fin.ofNat]; omega)
      simp only [hn, Nat.le_add_right, if_true]
    · simp only [Index.word, hlong, BitVec.toNat_ofNat]
      omega

/-! Effective addresses -/

theorem EA.bits_lt (ea : EA) : ea.bits < 64 := by
  cases ea <;> simp only [EA.bits] <;> omega

theorem eaKindOf_bits (ea : EA) : eaKindOf (ea.bits / 8) (ea.bits % 8) = some ea.kind := by
  cases ea with
  | absW _ | absL _ | pcDisp _ | pcIndex _ | imm _ =>
    simp only [EA.bits, EA.kind]
    decide
  | dReg n | aReg n | ind n | postInc n | preDec n | disp n _ | index n _ =>
    simp only [EA.bits, EA.kind]
    revert n
    decide

/-- An operand is read back from its mode, its register and its extension words (R94). -/
theorem takeEa_ext {sz : Size} {ea : EA} (h : ea.immFits sz = true) (rest : List Word) :
    takeEa sz (ea.bits / 8) (ea.bits % 8) (ea.ext sz ++ rest) = some (ea, rest) := by
  have hreg : ∀ (k : Nat) (n : RegNum), k % 8 = 0 → Fin.ofNat 8 ((k + n.val) % 8) = n := fun k n hk =>
    Fin.ext (by simp only [Fin.ofNat]; omega)
  simp only [takeEa, eaKindOf_bits]
  cases ea with
  | absW _ | pcDisp _ => rfl
  | absL l => simp only [EA.kind, EA.ext, takeLong_longWords, Option.map_some]
  | pcIndex _ => simp [EA.kind, EA.ext, takeWord, indexOf_word]
  | imm _ =>
    simp only [EA.kind, EA.ext]
    rw [takeImm_immWords h]
    rfl
  | dReg n => simpa [EA.kind, EA.ext, EA.bits] using hreg 0 n rfl
  | aReg n | ind n | postInc n | preDec n | disp n _ | index n _ =>
    simp only [EA.kind, EA.ext, EA.bits, hreg, takeWord, indexOf_word, List.nil_append, List.cons_append, Option.map_some]

end Sys2Proof
end

section
/-! SUPPORT. The opword of an encoded instruction, as `base + b`: `base` holds bits 15..6, `b` is bits 5..0. A field above
bit 5 is read from `base` alone, and a row selects the opword when `base` opens it and `b` suits it. -/

namespace Sys2Proof

/-! The fields -/

/-- A field at `m` or above does not see what lies below. -/
theorem field_add_of_lt (m : Nat) {base b lo len : Nat} (hbase : base % 2 ^ m = 0) (hb : b < 2 ^ m) (hlo : m ≤ lo) :
    field (base + b) lo len = field base lo len := by
  obtain ⟨k, rfl⟩ := Nat.exists_eq_add_of_le hlo
  obtain ⟨q, rfl⟩ := Nat.dvd_of_mod_eq_zero hbase
  have hdiv : (2 ^ m * q + b) / 2 ^ m = 2 ^ m * q / 2 ^ m := by
    rw [Nat.mul_add_div (Nat.two_pow_pos m), Nat.div_eq_of_lt hb, Nat.mul_div_cancel_left _ (Nat.two_pow_pos m),
      Nat.add_zero]
  rw [field_eq, field_eq, Nat.pow_add, ← Nat.div_div_eq_div_mul, ← Nat.div_div_eq_div_mul, hdiv]

section
variable {base b : Nat} (hbase : base % 64 = 0) (hb : b < 64)
include hbase hb

theorem field_add_low {lo len : Nat} (hlo : 6 ≤ lo) : field (base + b) lo len = field base lo len :=
  field_add_of_lt 6 hbase hb hlo

theorem sizeField_add_low : sizeField (base + b) = sizeField base := by
  rw [sizeField, field_add_low hbase hb (by decide), ← sizeField]

theorem regField_add_low : regField (base + b) 9 = regField base 9 := by
  rw [regField, field_add_low hbase hb (by decide), ← regField]

theorem testBit_add_low {k : Nat} (hk : 6 ≤ k) : (base + b).testBit k = base.testBit k := by
  have h := field_add_low (len := 1) hbase hb hk
  simp only [field_eq, pow_one] at h
  rw [Nat.testBit_eq_decide_div_mod_eq, Nat.testBit_eq_decide_div_mod_eq, h]

theorem field_mode : field (base + b) 3 3 = b / 8 := by
  rw [field_eq]
  omega

end

theorem field_reg {base b : Nat} (hbase : base % 64 = 0) : field (base + b) 0 3 = b % 8 := by
  rw [field_eq]
  omega

theorem regField_low {base b : Nat} (hbase : base % 64 = 0) : regField (base + b) 0 = Fin.ofNat 8 b := by
  rw [regField, field_reg hbase]
  exact Fin.ext (Nat.mod_mod _ _)

theorem sizeField_zero {w : Nat} (h : field w 6 2 = 0) : sizeField w = .byte := by
  simp only [sizeField, h]

/-! Selection -/

/-- `base` holds bits 15..6 of opwords that the row selects. -/
def Row.opens (r : Row) (base : Nat) : Bool := base % 64 == 0 && decide (base < 65536) && r.high (base / 64)

theorem Row.opens_iff {r : Row} {base : Nat} :
    r.opens base = true ↔ base % 64 = 0 ∧ base < 65536 ∧ r.high (base / 64) = true := by
  simp [Row.opens, and_assoc]

theorem decodeWords_op {t : Tag} {base b : Nat} {ws rest : List Word} {i : Instr} (hopen : (rowOf t).opens base = true)
    (hb : b < 64) (hlow : (rowOf t).low b = true) (hbyte : (rowOf t).byteAn (base / 64) b = false)
    (hbuild : build t (base + b) ws = some (i, rest)) : decodeWords (op (base + b) :: ws) = .ok (i, rest) := by
  obtain ⟨hbase, hlt, hhigh⟩ := Row.opens_iff.mp hopen
  have hw : (op (base + b)).toNat = base + b := by
    rw [op, BitVec.toNat_ofNat]
    omega
  have hselects : (rowOf t).selects (base + b) = true := by
    rw [Row.selects_split, show (base + b) / 64 = base / 64 by omega, show (base + b) % 64 = b by omega]
    exact ⟨hhigh, hlow, hbyte⟩
  exact decodeWords_of_selects (by rwa [hw]) (by rwa [hw])

/-- The row has an operand of the set in bits 5..0. -/
def Row.operand (r : Row) (set : EaSet) : Bool := r.mask % 64 == 0 && r.pat % 64 == 0 && r.ea == some set

/-- The operand's bits suit the row, and are not An at size byte. -/
theorem operand_suits {r : Row} {set : EaSet} {sz : Size} {ea : EA} {base : Nat} (hrow : r.operand set = true)
    (hok : ea.ok set sz = true) (hsz : r.sized = true → sizeField base = sz) :
    r.low ea.bits = true ∧ r.byteAn (base / 64) ea.bits = false := by
  simp only [Row.operand, Bool.and_eq_true, beq_iff_eq] at hrow
  obtain ⟨⟨hmask, hpat⟩, hset⟩ := hrow
  obtain ⟨hacc, hbyte, -⟩ := EA.ok_iff.mp hok
  have hkind := eaKindOf_bits ea
  constructor
  · simp [Row.low, hmask, hpat, hset, eaAllowed, EaSet.allows, hkind, hacc]
  · by_contra han
    simp only [Row.byteAn, Bool.not_eq_false, Bool.and_eq_true, beq_iff_eq] at han
    obtain ⟨⟨⟨hsized, -⟩, hzero⟩, hone⟩ := han
    rw [hone] at hkind
    refine hbyte ⟨?_, (Option.some.inj hkind).symm⟩
    rw [← hsz hsized]
    exact sizeField_zero ((field_eq base 6 2).trans hzero)

theorem decodeWords_operand {t : Tag} {base : Nat} {set : EaSet} {sz : Size} {ea : EA} {ws rest : List Word} {i : Instr}
    (hopen : (rowOf t).opens base = true) (hrow : (rowOf t).operand set = true) (hok : ea.ok set sz = true)
    (hsz : (rowOf t).sized = true → sizeField base = sz) (hbuild : build t (base + ea.bits) ws = some (i, rest)) :
    decodeWords (op (base + ea.bits) :: ws) = .ok (i, rest) := by
  obtain ⟨hlow, hbyte⟩ := operand_suits (base := base) hrow hok hsz
  exact decodeWords_op hopen ea.bits_lt hlow hbyte hbuild

/-- A row without an operand has no An at size byte to exclude. -/
theorem byteAn_of_no_operand {r : Row} (h : r.ea = none) (hi lo : Nat) : r.byteAn hi lo = false := by
  simp [Row.byteAn, h]

/-! What a row reads from bits 15..6, for every value of the fields there -/

/-- The three sizes, to decide a fact for each of them. -/
def sizes : List Size := [.byte, .word, .long]

theorem mem_sizes (sz : Size) : sz ∈ sizes := by cases sz <;> decide

/-- A size in bits 7..6. -/
abbrev Row.TakesSize (r : Row) (base : Nat) : Prop :=
  ∀ sz ∈ sizes, r.opens (base + sz.code * 64) = true ∧ sizeField (base + sz.code * 64) = sz

/-- A register or quick data in bits 11..9. -/
abbrev Row.TakesReg (r : Row) (base : Nat) : Prop :=
  ∀ n : RegNum, r.opens (base + hiReg n) = true ∧ regField (base + hiReg n) 9 = n

/-- A register or quick data in bits 11..9 and a size in bits 7..6. -/
abbrev Row.TakesRegSize (r : Row) (base : Nat) : Prop :=
  ∀ sz ∈ sizes, ∀ n : RegNum, r.opens (base + hiReg n + sz.code * 64) = true
    ∧ regField (base + hiReg n + sz.code * 64) 9 = n ∧ sizeField (base + hiReg n + sz.code * 64) = sz

end Sys2Proof
end

section
/-! SUPPORT. One lemma per format of the encoder (R104): its words decode to the instruction, where the row of a tag builds
that format from its fields. What a lemma asks of the table is decided for every value of the opword's fields, bits 15..6
and bits 5..0 apart. -/

namespace Sys2Proof

/-! Formats with an operand in bits 5..0 -/

section
variable {base : Nat} {set : EaSet} {sz : Size} {ea : EA} {rest : List Word}

theorem takeEa_operand (hbase : base % 64 = 0) (hok : ea.ok set sz = true) :
    takeEa sz (field (base + ea.bits) 3 3) (field (base + ea.bits) 0 3) (ea.ext sz ++ rest) = some (ea, rest) := by
  obtain ⟨-, -, hfits⟩ := EA.ok_iff.mp hok
  rw [field_mode hbase ea.bits_lt, field_reg hbase, takeEa_ext hfits]

theorem takeEa1_operand {mk : EA → Instr} (hbase : base % 64 = 0) (hok : ea.ok set sz = true) :
    takeEa1 sz mk (base + ea.bits) (ea.ext sz ++ rest) = some (mk ea, rest) := by
  rw [takeEa1, takeEa_operand hbase hok]
  rfl

/-- Only an operand. -/
theorem decode_ea (t : Tag) (mk : EA → Instr) (hok : ea.ok set sz = true)
    (hrow : (rowOf t).operand set = true ∧ (rowOf t).sized = false ∧ (rowOf t).opens base = true := by decide)
    (hbuild : ∀ w ws, build t w ws = takeEa1 sz mk w ws := by intros; rfl) :
    decodeWords (encEa base sz ea ++ rest) = .ok (mk ea, rest) := by
  obtain ⟨hset, hsized, hopen⟩ := hrow
  obtain ⟨hbase, -, -⟩ := Row.opens_iff.mp hopen
  exact decodeWords_operand hopen hset hok (by simp [hsized]) ((hbuild _ _).trans (takeEa1_operand hbase hok))

/-- A register and an operand of a size that the row fixes. -/
theorem decode_regEa (t : Tag) (mk : RegNum → EA → Instr) {n : RegNum} (hok : ea.ok set sz = true)
    (hrow : (rowOf t).operand set = true ∧ (rowOf t).sized = false ∧ (rowOf t).TakesReg base := by decide)
    (hbuild : ∀ w ws, build t w ws = takeEa1 sz (mk (regField w 9)) w ws := by intros; rfl) :
    decodeWords (encEa (base + hiReg n) sz ea ++ rest) = .ok (mk n ea, rest) := by
  obtain ⟨hset, hsized, hreg⟩ := hrow
  obtain ⟨hopen, hn⟩ := hreg n
  obtain ⟨hbase, -, -⟩ := Row.opens_iff.mp hopen
  refine decodeWords_operand hopen hset hok (by simp [hsized]) ((hbuild _ _).trans ?_)
  rw [regField_add_low hbase ea.bits_lt, hn]
  exact takeEa1_operand hbase hok

/-- A size and an operand. -/
theorem decode_sizedEa (t : Tag) (mk : Size → EA → Instr) (hok : ea.ok set sz = true)
    (hrow : (rowOf t).operand set = true ∧ (rowOf t).TakesSize base := by decide)
    (hbuild : ∀ w ws, build t w ws = takeEa1 (sizeField w) (mk (sizeField w)) w ws := by intros; rfl) :
    decodeWords (encSizedEa base sz ea ++ rest) = .ok (mk sz ea, rest) := by
  obtain ⟨hset, hsize⟩ := hrow
  obtain ⟨hopen, hsz⟩ := hsize sz (mem_sizes sz)
  obtain ⟨hbase, -, -⟩ := Row.opens_iff.mp hopen
  refine decodeWords_operand hopen hset hok (fun _ => hsz) ((hbuild _ _).trans ?_)
  rw [sizeField_add_low hbase ea.bits_lt, hsz]
  exact takeEa1_operand hbase hok

/-- A register or quick data, a size and an operand. -/
theorem decode_regSizedEa (t : Tag) (mk : Size → RegNum → EA → Instr) {n : RegNum} (hok : ea.ok set sz = true)
    (hrow : (rowOf t).operand set = true ∧ (rowOf t).TakesRegSize base := by decide)
    (hbuild : ∀ w ws, build t w ws = takeEa1 (sizeField w) (mk (sizeField w) (regField w 9)) w ws := by intros; rfl) :
    decodeWords (encSizedEa (base + hiReg n) sz ea ++ rest) = .ok (mk sz n ea, rest) := by
  obtain ⟨hset, hfields⟩ := hrow
  obtain ⟨hopen, hn, hsz⟩ := hfields sz (mem_sizes sz) n
  obtain ⟨hbase, -, -⟩ := Row.opens_iff.mp hopen
  refine decodeWords_operand hopen hset hok (fun _ => hsz) ((hbuild _ _).trans ?_)
  rw [sizeField_add_low hbase ea.bits_lt, regField_add_low hbase ea.bits_lt, hsz, hn]
  exact takeEa1_operand hbase hok

/-- F_IMM_EA: a size, an immediate and an operand. -/
theorem decode_immEa (t : Tag) (mk : Size → Long → EA → Instr) {imm : Long}
    (hok : (fitsSize sz imm && ea.ok set sz) = true)
    (hrow : (rowOf t).operand set = true ∧ (rowOf t).TakesSize base := by decide)
    (hbuild : ∀ w ws, build t w ws = takeImmEa mk w ws := by intros; rfl) :
    decodeWords (encImmEa base sz imm ea ++ rest) = .ok (mk sz imm ea, rest) := by
  obtain ⟨himm, hok⟩ := Bool.and_eq_true_iff.mp hok
  obtain ⟨hset, hsize⟩ := hrow
  obtain ⟨hopen, hsz⟩ := hsize sz (mem_sizes sz)
  obtain ⟨hbase, -, -⟩ := Row.opens_iff.mp hopen
  rw [encImmEa, List.cons_append, List.append_assoc]
  refine decodeWords_operand hopen hset hok (fun _ => hsz) ((hbuild _ _).trans ?_)
  rw [takeImmEa, sizeField_add_low hbase ea.bits_lt, hsz, takeImm_immWords himm]
  simp only [Option.bind_eq_bind, Option.bind_some, takeEa_operand hbase hok]
  rfl

/-- F_BIT_IMM: a bit number in the first extension word, and an operand. -/
theorem decode_bitEa (t : Tag) (mk : BitVec 8 → EA → Instr) {bit : BitVec 8} (hok : ea.ok set .byte = true)
    (hrow : (rowOf t).operand set = true ∧ (rowOf t).sized = false ∧ (rowOf t).opens base = true := by decide)
    (hbuild : ∀ w ws, build t w ws = takeBitEa mk w ws := by intros; rfl) :
    decodeWords (encBitEa base bit ea ++ rest) = .ok (mk bit ea, rest) := by
  obtain ⟨hset, hsized, hopen⟩ := hrow
  obtain ⟨hbase, -, -⟩ := Row.opens_iff.mp hopen
  rw [encBitEa, List.cons_append, List.cons_append]
  refine decodeWords_operand hopen hset hok (by simp [hsized]) ((hbuild _ _).trans ?_)
  simp only [takeBitEa, takeByte, Option.bind_eq_bind, Option.bind_some, takeEa_operand hbase hok, setWidth_byte_word]
  rfl

/-- MOVEM: the mask in the first extension word, the size in bit 6, and an operand (R91, R102). -/
theorem decode_movem (t : Tag) (mk : WordLong → Word → EA → Instr) {sz : WordLong} {mask : Word}
    (hok : ea.ok set sz.size = true)
    (hrow : (rowOf t).operand set = true ∧ (rowOf t).sized = false := by decide)
    (hsize : ∀ sz ∈ [WordLong.word, .long], (rowOf t).opens (base + sz.code * 64) = true
      ∧ (base + sz.code * 64).testBit 6 = (sz == .long) := by decide)
    (hbuild : ∀ w ws, build t w ws = takeMovem mk w ws := by intros; rfl) :
    decodeWords (encMovem base sz mask ea ++ rest) = .ok (mk sz mask ea, rest) := by
  obtain ⟨hset, hsized⟩ := hrow
  obtain ⟨hopen, hsz⟩ := hsize sz (by cases sz <;> decide)
  obtain ⟨hbase, -, -⟩ := Row.opens_iff.mp hopen
  have hfield : wordLongField (base + sz.code * 64 + ea.bits) = sz := by
    rw [wordLongField, testBit_add_low hbase ea.bits_lt (by decide), hsz]
    cases sz <;> rfl
  rw [encMovem, List.cons_append, List.cons_append]
  refine decodeWords_operand hopen hset hok (by simp [hsized]) ((hbuild _ _).trans ?_)
  simp only [takeMovem, hfield, takeWord, Option.bind_eq_bind, Option.bind_some, takeEa_operand hbase hok]
  rfl

/-- MOVE: the destination's register and mode in bits 11..6, its extension words after the source's (R91, R93). -/
theorem decode_move (t : Tag) (mk : EA → EA → Instr) {src dst : EA} (hok : src.ok set sz = true)
    (hdst : dst.ok .dataAlterable sz = true)
    (hrow : (rowOf t).operand set = true ∧ (rowOf t).sized = false := by decide)
    (hfields : ∀ b < 64, EaSet.dataAlterable.allows (b / 8) (b % 8) = true →
      (rowOf t).opens (base + (b % 8 * 8 + b / 8) * 64) = true ∧ field (base + (b % 8 * 8 + b / 8) * 64) 6 3 = b / 8
        ∧ field (base + (b % 8 * 8 + b / 8) * 64) 9 3 = b % 8 := by decide)
    (hbuild : ∀ w ws, build t w ws = takeMove sz mk w ws := by intros; rfl) :
    decodeWords (encMove base sz src dst ++ rest) = .ok (mk src dst, rest) := by
  obtain ⟨hset, hsized⟩ := hrow
  obtain ⟨hacc, -, hfits⟩ := EA.ok_iff.mp hdst
  obtain ⟨hopen, hmode, hreg⟩ := hfields dst.bits dst.bits_lt (by simpa only [EaSet.allows, eaKindOf_bits] using hacc)
  obtain ⟨hbase, -, -⟩ := Row.opens_iff.mp hopen
  rw [encMove, EA.dstBits, List.cons_append, List.append_assoc]
  refine decodeWords_operand hopen hset hok (by simp [hsized]) ((hbuild _ _).trans ?_)
  rw [takeMove, takeEa_operand hbase hok, field_add_low hbase src.bits_lt (by decide),
    field_add_low hbase src.bits_lt (by decide), hmode, hreg]
  simp only [Option.bind_eq_bind, Option.bind_some, takeEa_ext hfits]
  rfl

/-- At byte size no operand is An, so that every mode of a byte source is a data mode (R159). -/
theorem ok_data_of_ok_byte (h : ea.ok .all .byte = true) : ea.ok .data .byte = true := by
  obtain ⟨-, hbyte, hfits⟩ := EA.ok_iff.mp h
  refine EA.ok_iff.mpr ⟨?_, hbyte, hfits⟩
  cases ea with
  | aReg n => exact absurd ⟨rfl, rfl⟩ hbyte
  | _ => rfl

/-- Scc: the condition's code in bits 11..8, and an operand (R38). -/
theorem decode_scc {c : Cond} (hok : ea.ok .dataAlterable .byte = true) :
    decodeWords (encEa (0x50C0 + c.code * 256) .byte ea ++ rest) = .ok (.scc c ea, rest) := by
  have hcond : (rowOf .scc).opens (0x50C0 + c.code * 256) = true ∧ condOf (field (0x50C0 + c.code * 256) 8 4) = c := by
    cases c <;> decide
  obtain ⟨hopen, hc⟩ := hcond
  obtain ⟨hbase, -, -⟩ := Row.opens_iff.mp hopen
  have hbuild : ∀ w ws, build .scc w ws = takeEa1 .byte (.scc (condOf (field w 8 4))) w ws := fun _ _ => rfl
  refine decodeWords_operand hopen rfl hok nofun ((hbuild _ _).trans ?_)
  rw [field_add_low hbase ea.bits_lt (by decide), hc]
  exact takeEa1_operand hbase hok

end

/-! Formats of registers -/

section
variable {base : Nat} {ws rest : List Word} {i : Instr}

/-- A byte in an extension word, after an opword without fields. -/
theorem decode_byteImm (t : Tag) (mk : Byte → Instr) {w : Word} {imm : Byte}
    (hselects : (rowOf t).selects w.toNat = true := by decide)
    (hbuild : ∀ ws, build t w.toNat ws = (takeByte ws).map fun p => (mk p.1, p.2) := by intros; rfl) :
    decodeWords (w :: imm.setWidth 16 :: rest) = .ok (mk imm, rest) := by
  refine decodeWords_of_selects hselects ((hbuild _).trans ?_)
  simp only [takeByte, Option.map_some, setWidth_byte_word]

/-- A register in bits 2..0. -/
theorem decode_lowReg (t : Tag) (mk : RegNum → Instr) {n : RegNum}
    (hreg : ∀ n : RegNum, (rowOf t).selects (op (base + n.val)).toNat = true
      ∧ regField (op (base + n.val)).toNat 0 = n := by decide)
    (hbuild : ∀ w, build t w ws = some (mk (regField w 0), rest) := by intros; rfl) :
    decodeWords (op (base + n.val) :: ws) = .ok (mk n, rest) := by
  obtain ⟨hselects, hn⟩ := hreg n
  refine decodeWords_of_selects hselects ((hbuild _).trans ?_)
  rw [hn]

/-- TRAP: the vector in bits 3..0 (R363). -/
theorem decode_trap (v : Fin 16) : decodeWords (op (0x4E40 + v.val) :: rest) = .ok (.trap v, rest) := by
  have hfield : ∀ v : Fin 16, (rowOf .trap).selects (op (0x4E40 + v.val)).toNat = true
      ∧ Fin.ofNat 16 (field (op (0x4E40 + v.val)).toNat 0 4) = v := by decide
  obtain ⟨hselects, hv⟩ := hfield v
  refine decodeWords_of_selects hselects ?_
  change some (Instr.trap (Fin.ofNat 16 (field (op (0x4E40 + v.val)).toNat 0 4)), rest) = _
  rw [hv]

/-- DBcc: the condition's code in bits 11..8, a register in bits 2..0, the displacement in an extension word (R38). -/
theorem decode_dbcc (c : Cond) (dn : RegNum) (d : Word) :
    decodeWords (op (0x50C8 + c.code * 256 + dn.val) :: d :: rest) = .ok (.dbcc c dn d, rest) := by
  have hcond : (rowOf .dbcc).opens (0x50C0 + c.code * 256) = true ∧ condOf (field (0x50C0 + c.code * 256) 8 4) = c := by
    cases c <;> decide
  have hlow : ∀ dn : RegNum, (rowOf .dbcc).low (8 + dn.val) = true ∧ Fin.ofNat 8 (8 + dn.val) = dn := by decide
  obtain ⟨hopen, hc⟩ := hcond
  obtain ⟨hlow, hdn⟩ := hlow dn
  obtain ⟨hbase, -, -⟩ := Row.opens_iff.mp hopen
  have hlt : 8 + dn.val < 64 := by omega
  have hbuild : ∀ w, build .dbcc w (d :: rest) = some (.dbcc (condOf (field w 8 4)) (regField w 0) d, rest) := fun _ => rfl
  rw [show 0x50C8 + c.code * 256 + dn.val = 0x50C0 + c.code * 256 + (8 + dn.val) by omega]
  refine decodeWords_op hopen hlt hlow rfl ((hbuild _).trans ?_)
  rw [field_add_low hbase hlt (by decide), regField_low hbase, hc, hdn]

/-- Two registers, in bits 11..9 and 2..0; `c` is the rest of bits 5..0. -/
theorem decode_twoRegs (t : Tag) (mk : RegNum → RegNum → Instr) (c : Nat) {x y : RegNum}
    (hrow : (rowOf t).ea = none ∧ (rowOf t).TakesReg base := by decide)
    (hlow : ∀ y : RegNum, c + y.val < 64 ∧ (rowOf t).low (c + y.val) = true ∧ Fin.ofNat 8 (c + y.val) = y := by decide)
    (hbuild : ∀ w ws, build t w ws = some (mk (regField w 9) (regField w 0), ws) := by intros; rfl) :
    decodeWords (op (base + c + hiReg x + y.val) :: rest) = .ok (mk x y, rest) := by
  obtain ⟨hea, hreg⟩ := hrow
  obtain ⟨hopen, hx⟩ := hreg x
  obtain ⟨hlt, hlow, hy⟩ := hlow y
  obtain ⟨hbase, -, -⟩ := Row.opens_iff.mp hopen
  rw [show base + c + hiReg x + y.val = base + hiReg x + (c + y.val) by omega]
  refine decodeWords_op hopen hlt hlow (byteAn_of_no_operand hea _ _) ((hbuild _ _).trans ?_)
  rw [regField_add_low hbase hlt, regField_low hbase, hx, hy]

/-- A register in bits 11..9 and a size in bits 7..6, read from the opword; `b` is bits 5..0. -/
theorem decode_regSized (t : Tag) {sz : Size} {x : RegNum} {b : Nat}
    (hrow : (rowOf t).ea = none ∧ (rowOf t).TakesRegSize base) (hb : b < 64) (hlow : (rowOf t).low b = true)
    (hbuild : ∀ w, sizeField w = sz → regField w 9 = x → regField w 0 = Fin.ofNat 8 b → w.testBit 5 = b.testBit 5 →
      build t w ws = some (i, rest)) :
    decodeWords (op (base + hiReg x + sz.code * 64 + b) :: ws) = .ok (i, rest) := by
  obtain ⟨hea, hfields⟩ := hrow
  obtain ⟨hopen, hx, hsz⟩ := hfields sz (mem_sizes sz) x
  obtain ⟨hbase, -, -⟩ := Row.opens_iff.mp hopen
  refine decodeWords_op hopen hb hlow (byteAn_of_no_operand hea _ _) (hbuild _ ?_ ?_ (regField_low hbase) ?_)
  · rw [sizeField_add_low hbase hb, hsz]
  · rw [regField_add_low hbase hb, hx]
  · simp only [Nat.testBit_eq_decide_div_mod_eq, decide_eq_decide]
    omega

/-- As `decode_twoRegs`, with a size in bits 7..6. -/
theorem decode_twoRegsSized (t : Tag) (mk : Size → RegNum → RegNum → Instr) (c : Nat) {sz : Size} {x y : RegNum}
    (hrow : (rowOf t).ea = none ∧ (rowOf t).TakesRegSize base := by decide)
    (hlow : ∀ y : RegNum, c + y.val < 64 ∧ (rowOf t).low (c + y.val) = true ∧ Fin.ofNat 8 (c + y.val) = y := by decide)
    (hbuild : ∀ w ws, build t w ws = some (mk (sizeField w) (regField w 9) (regField w 0), ws) := by intros; rfl) :
    decodeWords (op (base + c + hiReg x + sz.code * 64 + y.val) :: rest) = .ok (mk sz x y, rest) := by
  obtain ⟨hlt, hlow, hy⟩ := hlow y
  rw [show base + c + hiReg x + sz.code * 64 + y.val = base + hiReg x + sz.code * 64 + (c + y.val) by omega]
  refine decode_regSized t hrow hlt hlow fun w hsz hx hw _ => ?_
  rw [hbuild, hsz, hx, hw, hy]

/-- F_SHIFT_REG: the count in bits 11..9 and 5, a size and a register (R278); `c` is the rest of bits 5..0. -/
theorem decode_shift (t : Tag) (mk : Count → Size → RegNum → Instr) (c : Nat) {cnt : Count} {sz : Size} {dn : RegNum}
    (hrow : (rowOf t).ea = none ∧ (rowOf t).TakesRegSize base := by decide)
    (hlow : ∀ (r : Bool) (dn : RegNum), c + r.toNat * 32 + dn.val < 64 ∧ (rowOf t).low (c + r.toNat * 32 + dn.val) = true
      ∧ Fin.ofNat 8 (c + r.toNat * 32 + dn.val) = dn ∧ (c + r.toNat * 32 + dn.val).testBit 5 = r := by decide)
    (hbuild : ∀ w ws, build t w ws = some (mk (countField w) (sizeField w) (regField w 0), ws) := by intros; rfl) :
    decodeWords (encShift (base + c) cnt sz dn ++ rest) = .ok (mk cnt sz dn, rest) := by
  have key : ∀ (r : Bool) (x : RegNum), cnt = (if r = true then .reg x else .imm x) → cnt.bits = hiReg x + r.toNat * 32 →
      decodeWords (encShift (base + c) cnt sz dn ++ rest) = .ok (mk cnt sz dn, rest) := by
    intro r x hcnt hbits
    obtain ⟨hlt, hlow, hdn, hr⟩ := hlow r dn
    rw [encShift, hbits, List.singleton_append, show base + c + (hiReg x + r.toNat * 32) + sz.code * 64 + dn.val =
      base + hiReg x + sz.code * 64 + (c + r.toNat * 32 + dn.val) by omega]
    refine decode_regSized t hrow hlt hlow fun w hsz hx hw hbit => ?_
    rw [hbuild, countField, hbit, hr, hsz, hx, hw, hdn, hcnt]
  cases cnt with
  | imm q => exact key false q rfl (by simp only [Count.bits, hiReg, Bool.toNat_false]; omega)
  | reg n => exact key true n rfl (by simp only [Count.bits, hiReg, Bool.toNat_true])

/-- MOVEP: a register in bits 11..9 and 2..0, the direction in bit 7, the size in bit 6 (R191). -/
theorem decode_movep (dir : MovepDir) (sz : WordLong) (dn an : RegNum) (d : Word) :
    decodeWords (encode (.movep dir sz dn an d) ++ rest) = .ok (.movep dir sz dn an d, rest) := by
  have hhigh : ∀ (r l : Bool) (dn : RegNum), (rowOf .movep).opens (0x0100 + hiReg dn + r.toNat * 128 + l.toNat * 64) = true
      ∧ regField (0x0100 + hiReg dn + r.toNat * 128 + l.toNat * 64) 9 = dn
      ∧ (0x0100 + hiReg dn + r.toNat * 128 + l.toNat * 64).testBit 7 = r
      ∧ (0x0100 + hiReg dn + r.toNat * 128 + l.toNat * 64).testBit 6 = l := by decide
  have hlow : ∀ an : RegNum, (rowOf .movep).low (8 + an.val) = true ∧ Fin.ofNat 8 (8 + an.val) = an := by decide
  have key : ∀ (r l : Bool) (w : Nat), w = 0x0100 + hiReg dn + r.toNat * 128 + l.toNat * 64 + (8 + an.val) →
      decodeWords (op w :: d :: rest) =
        .ok (.movep (if r = true then .regToMem else .memToReg) (if l = true then .long else .word) dn an d, rest) := by
    rintro r l w rfl
    obtain ⟨hopen, hdn, hr, hl⟩ := hhigh r l dn
    obtain ⟨hlow, han⟩ := hlow an
    obtain ⟨hbase, -, -⟩ := Row.opens_iff.mp hopen
    have hlt : 8 + an.val < 64 := by omega
    have hbuild : ∀ w, build .movep w (d :: rest) = some (.movep (if w.testBit 7 then .regToMem else .memToReg)
      (wordLongField w) (regField w 9) (regField w 0) d, rest) := fun _ => rfl
    refine decodeWords_op hopen hlt hlow rfl ((hbuild _).trans ?_)
    rw [wordLongField, testBit_add_low hbase hlt (by decide), testBit_add_low hbase hlt (by decide),
      regField_add_low hbase hlt, regField_low hbase, hdn, hr, hl, han]
  cases dir <;> cases sz
  · exact key false false _ (by simp only [Bool.toNat_false, WordLong.code]; omega)
  · exact key false true _ (by simp only [Bool.toNat_false, Bool.toNat_true, WordLong.code]; omega)
  · exact key true false _ (by simp only [Bool.toNat_false, Bool.toNat_true, WordLong.code]; omega)
  · exact key true true _ (by simp only [Bool.toNat_true, WordLong.code]; omega)

/-! Formats with data in the opword's low byte -/

/-- A row that leaves bits 7..0 free. -/
theorem decode_lowByte (t : Tag) {v : Nat} (hv : v < 256) (hrow : (rowOf t).ea = none ∧ ∀ l < 64, (rowOf t).low l = true)
    (hopen : ∀ k < 4, (rowOf t).opens (base + k * 64) = true) (hbuild : build t (base + v) ws = some (i, rest)) :
    decodeWords (op (base + v) :: ws) = .ok (i, rest) := by
  obtain ⟨hea, hlow⟩ := hrow
  have hv' : base + v = base + v / 64 * 64 + v % 64 := by omega
  rw [hv'] at hbuild ⊢
  exact decodeWords_op (hopen _ (by omega)) (by omega) (hlow _ (by omega)) (byteAn_of_no_operand hea _ _) hbuild

/-- MOVEQ: a register in bits 11..9, the data in bits 7..0. -/
theorem decode_moveq (data : BitVec 8) (dn : RegNum) :
    decodeWords (op (0x7000 + hiReg dn + data.toNat) :: rest) = .ok (.moveq data dn, rest) := by
  have hreg : ∀ dn : RegNum, (∀ k < 4, (rowOf .moveq).opens (0x7000 + hiReg dn + k * 64) = true)
      ∧ (0x7000 + hiReg dn) % 256 = 0 ∧ regField (0x7000 + hiReg dn) 9 = dn := by decide
  obtain ⟨hopen, hbase, hdn⟩ := hreg dn
  have hdata : BitVec.ofNat 8 (0x7000 + hiReg dn + data.toNat) = data := BitVec.eq_of_toNat_eq (by
    rw [BitVec.toNat_ofNat]
    omega)
  have hbuild : ∀ w, build .moveq w rest = some (.moveq (BitVec.ofNat 8 w) (regField w 9), rest) := fun _ => rfl
  refine decode_lowByte .moveq data.isLt (by decide) hopen ((hbuild _).trans ?_)
  rw [hdata, regField, field_add_of_lt 8 hbase data.isLt (by decide), ← regField, hdn]

theorem BranchDisp.low_lt (d : BranchDisp) : d.low < 256 := by
  cases d with
  | short d => exact d.isLt
  | long d => exact Nat.zero_lt_succ _

/-- The byte 0 stands for the displacement in the extension word, and no other byte does (R98). -/
theorem takeBranch_ext {d : BranchDisp} {w : Nat} (hd : d.ok = true) (hw : w % 256 = d.low) :
    takeBranch w (d.ext ++ rest) = some (d, rest) := by
  have hfield : field w 0 8 = d.low := by rw [field_eq]; omega
  cases d with
  | short d =>
    have hne : d.toNat ≠ 0 := by simpa [BranchDisp.ok, ← BitVec.toNat_inj] using hd
    have hof : BitVec.ofNat 8 w = d := BitVec.eq_of_toNat_eq ((BitVec.toNat_ofNat _ _).trans hw)
    simp only [takeBranch, hfield, BranchDisp.low, hne, if_false, hof]
    rfl
  | long d =>
    simp only [takeBranch, hfield, BranchDisp.low, if_true]
    rfl

/-- A branch: its displacement in bits 7..0 or in the extension word. -/
theorem decode_branch (t : Tag) (mk : BranchDisp → Instr) {d : BranchDisp} (hd : d.ok = true)
    (hrow : (rowOf t).ea = none ∧ ∀ l < 64, (rowOf t).low l = true)
    (hopen : base % 256 = 0 ∧ ∀ k < 4, (rowOf t).opens (base + k * 64) = true)
    (hbuild : ∀ ws, build t (base + d.low) ws = (takeBranch (base + d.low) ws).map fun p => (mk p.1, p.2)) :
    decodeWords (op (base + d.low) :: (d.ext ++ rest)) = .ok (mk d, rest) := by
  obtain ⟨hbase, hopen⟩ := hopen
  have hlt := d.low_lt
  refine decode_lowByte t hlt hrow hopen ((hbuild _).trans ?_)
  rw [takeBranch_ext hd (by omega)]
  rfl

/-- Bcc: the condition's code in bits 11..8; T and F are BRA and BSR (R121). -/
theorem decode_bcc {c : Cond} {d : BranchDisp} (h : (Instr.bcc c d).wellFormed = true) :
    decodeWords (op (0x6000 + c.code * 256 + d.low) :: (d.ext ++ rest)) = .ok (.bcc c d, rest) := by
  simp only [Instr.wellFormed, Bool.and_eq_true, bne_iff_ne] at h
  obtain ⟨⟨ht, hf⟩, hd⟩ := h
  have hcode : ∀ k < 16, 2 ≤ k → (0x6000 + k * 256) % 256 = 0 ∧ field (0x6000 + k * 256) 8 4 = k
      ∧ ∀ j < 4, (rowOf .bcc).opens (0x6000 + k * 256 + j * 64) = true := by decide
  have hcond : c.code < 16 ∧ 2 ≤ c.code ∧ condOf c.code = c := by
    cases c with
    | t => exact absurd rfl ht
    | f => exact absurd rfl hf
    | _ => decide
  obtain ⟨hlt, hle, hc⟩ := hcond
  obtain ⟨hbase, hfield, hopen⟩ := hcode _ hlt hle
  refine decode_branch .bcc (.bcc c) hd (by decide) ⟨hbase, hopen⟩ fun ws => ?_
  have hbuild : ∀ w, build .bcc w ws = (takeBranch w ws).map fun p => (.bcc (condOf (field w 8 4)) p.1, p.2) :=
    fun _ => rfl
  rw [hbuild, field_add_of_lt 8 hbase d.low_lt (by decide), hfield, hc]

end

end Sys2Proof
end

section
/-! SUPPORT. Decoding what the encoder wrote (O2): each instruction by the lemma of its format. -/

namespace Sys2Proof

/-- Settles O2: the row of an instruction's own tag selects the opword, and builds the instruction from its words. -/
theorem decodeEncodeRoundTrip : Obligations.DecodeEncodeRoundTrip := by
  intro i rest h
  cases i with
  | oriToCcr => exact decode_byteImm .oriToCcr .oriToCcr
  | andiToCcr => exact decode_byteImm .andiToCcr .andiToCcr
  | eoriToCcr => exact decode_byteImm .eoriToCcr .eoriToCcr
  | oriToSr => exact decodeWords_of_selects (t := .oriToSr) (by decide) rfl
  | andiToSr => exact decodeWords_of_selects (t := .andiToSr) (by decide) rfl
  | eoriToSr => exact decodeWords_of_selects (t := .eoriToSr) (by decide) rfl
  | stop => exact decodeWords_of_selects (t := .stop) (by decide) rfl
  | illegal => exact decodeWords_of_selects (t := .illegal) (by decide) rfl
  | reset => exact decodeWords_of_selects (t := .reset) (by decide) rfl
  | nop => exact decodeWords_of_selects (t := .nop) (by decide) rfl
  | rte => exact decodeWords_of_selects (t := .rte) (by decide) rfl
  | rts => exact decodeWords_of_selects (t := .rts) (by decide) rfl
  | trapv => exact decodeWords_of_selects (t := .trapv) (by decide) rfl
  | rtr => exact decodeWords_of_selects (t := .rtr) (by decide) rfl
  | ori => exact decode_immEa .ori .ori h
  | andi => exact decode_immEa .andi .andi h
  | subi => exact decode_immEa .subi .subi h
  | addi => exact decode_immEa .addi .addi h
  | eori => exact decode_immEa .eori .eori h
  | cmpi => exact decode_immEa .cmpi .cmpi h
  | btstImm => exact decode_bitEa .btstImm .btstImm h
  | bchgImm => exact decode_bitEa .bchgImm .bchgImm h
  | bclrImm => exact decode_bitEa .bclrImm .bclrImm h
  | bsetImm => exact decode_bitEa .bsetImm .bsetImm h
  | btstReg => exact decode_regEa .btstReg .btstReg h
  | bchgReg => exact decode_regEa .bchgReg .bchgReg h
  | bclrReg => exact decode_regEa .bclrReg .bclrReg h
  | bsetReg => exact decode_regEa .bsetReg .bsetReg h
  | movep dir sz dn an d => exact decode_movep dir sz dn an d
  | moveB src dst =>
    obtain ⟨hsrc, hdst⟩ := Bool.and_eq_true_iff.mp h
    exact decode_move .moveB .moveB (ok_data_of_ok_byte hsrc) hdst
  | moveL src dst =>
    obtain ⟨hsrc, hdst⟩ := Bool.and_eq_true_iff.mp h
    exact decode_move .moveL .moveL hsrc hdst
  | moveW src dst =>
    obtain ⟨hsrc, hdst⟩ := Bool.and_eq_true_iff.mp h
    exact decode_move .moveW .moveW hsrc hdst
  | moveaL => exact decode_regEa .moveaL (fun n ea => .moveaL ea n) h
  | moveaW => exact decode_regEa .moveaW (fun n ea => .moveaW ea n) h
  | chk => exact decode_regEa .chk (fun n ea => .chk ea n) h
  | lea => exact decode_regEa .lea (fun n ea => .lea ea n) h
  | divu => exact decode_regEa .divu (fun n ea => .divu ea n) h
  | divs => exact decode_regEa .divs (fun n ea => .divs ea n) h
  | subaW => exact decode_regEa .subaW (fun n ea => .subaW ea n) h
  | subaL => exact decode_regEa .subaL (fun n ea => .subaL ea n) h
  | cmpaW => exact decode_regEa .cmpaW (fun n ea => .cmpaW ea n) h
  | cmpaL => exact decode_regEa .cmpaL (fun n ea => .cmpaL ea n) h
  | mulu => exact decode_regEa .mulu (fun n ea => .mulu ea n) h
  | muls => exact decode_regEa .muls (fun n ea => .muls ea n) h
  | addaW => exact decode_regEa .addaW (fun n ea => .addaW ea n) h
  | addaL => exact decode_regEa .addaL (fun n ea => .addaL ea n) h
  | moveFromSr => exact decode_ea .moveFromSr .moveFromSr h
  | moveToCcr => exact decode_ea .moveToCcr .moveToCcr h
  | moveToSr => exact decode_ea .moveToSr .moveToSr h
  | nbcd => exact decode_ea .nbcd .nbcd h
  | pea => exact decode_ea .pea .pea h
  | tas => exact decode_ea .tas .tas h
  | jsr => exact decode_ea .jsr .jsr h
  | jmp => exact decode_ea .jmp .jmp h
  | asrMem => exact decode_ea .asrMem .asrMem h
  | aslMem => exact decode_ea .aslMem .aslMem h
  | lsrMem => exact decode_ea .lsrMem .lsrMem h
  | lslMem => exact decode_ea .lslMem .lslMem h
  | roxrMem => exact decode_ea .roxrMem .roxrMem h
  | roxlMem => exact decode_ea .roxlMem .roxlMem h
  | rorMem => exact decode_ea .rorMem .rorMem h
  | rolMem => exact decode_ea .rolMem .rolMem h
  | negx => exact decode_sizedEa .negx .negx h
  | clr => exact decode_sizedEa .clr .clr h
  | neg => exact decode_sizedEa .neg .neg h
  | not => exact decode_sizedEa .not .not h
  | tst => exact decode_sizedEa .tst .tst h
  | addq => exact decode_regSizedEa .addq .addq h
  | subq => exact decode_regSizedEa .subq .subq h
  | orToEa => exact decode_regSizedEa .orToEa .orToEa h
  | subToEa => exact decode_regSizedEa .subToEa .subToEa h
  | eor => exact decode_regSizedEa .eor .eor h
  | andToEa => exact decode_regSizedEa .andToEa .andToEa h
  | addToEa => exact decode_regSizedEa .addToEa .addToEa h
  | orToReg => exact decode_regSizedEa .orToReg (fun sz n ea => .orToReg sz ea n) h
  | subToReg => exact decode_regSizedEa .subToReg (fun sz n ea => .subToReg sz ea n) h
  | cmp => exact decode_regSizedEa .cmp (fun sz n ea => .cmp sz ea n) h
  | andToReg => exact decode_regSizedEa .andToReg (fun sz n ea => .andToReg sz ea n) h
  | addToReg => exact decode_regSizedEa .addToReg (fun sz n ea => .addToReg sz ea n) h
  | movemToMem => exact decode_movem .movemToMem .movemToMem h
  | movemToRegs => exact decode_movem .movemToRegs .movemToRegs h
  | scc => exact decode_scc h
  | dbcc c dn d => exact decode_dbcc c dn d
  | bra => exact decode_branch .bra .bra h (by decide) (by decide) fun _ => rfl
  | bsr => exact decode_branch .bsr .bsr h (by decide) (by decide) fun _ => rfl
  | bcc => exact decode_bcc h
  | moveq data dn => exact decode_moveq data dn
  | trap v => exact decode_trap v
  | swap => exact decode_lowReg .swap .swap
  | extW => exact decode_lowReg .extW .extW
  | extL => exact decode_lowReg .extL .extL
  | unlk => exact decode_lowReg .unlk .unlk
  | moveToUsp => exact decode_lowReg .moveToUsp .moveToUsp
  | moveFromUsp => exact decode_lowReg .moveFromUsp .moveFromUsp
  | link => exact decode_lowReg .link (.link · _)
  | sbcdReg => exact decode_twoRegs (base := 0x8100) .sbcdReg (fun x y => .sbcdReg y x) 0
  | sbcdMem => exact decode_twoRegs (base := 0x8100) .sbcdMem (fun x y => .sbcdMem y x) 8
  | abcdReg => exact decode_twoRegs (base := 0xC100) .abcdReg (fun x y => .abcdReg y x) 0
  | abcdMem => exact decode_twoRegs (base := 0xC100) .abcdMem (fun x y => .abcdMem y x) 8
  | exgDD => exact decode_twoRegs (base := 0xC140) .exgDD .exgDD 0
  | exgAA => exact decode_twoRegs (base := 0xC140) .exgAA .exgAA 8
  | exgDA => exact decode_twoRegs (base := 0xC180) .exgDA .exgDA 8
  | subxReg => exact decode_twoRegsSized (base := 0x9100) .subxReg (fun sz x y => .subxReg sz y x) 0
  | subxMem => exact decode_twoRegsSized (base := 0x9100) .subxMem (fun sz x y => .subxMem sz y x) 8
  | cmpm => exact decode_twoRegsSized (base := 0xB100) .cmpm (fun sz x y => .cmpm sz y x) 8
  | addxReg => exact decode_twoRegsSized (base := 0xD100) .addxReg (fun sz x y => .addxReg sz y x) 0
  | addxMem => exact decode_twoRegsSized (base := 0xD100) .addxMem (fun sz x y => .addxMem sz y x) 8
  | asrReg => exact decode_shift (base := 0xE000) .asrReg .asrReg 0
  | aslReg => exact decode_shift (base := 0xE100) .aslReg .aslReg 0
  | lsrReg => exact decode_shift (base := 0xE000) .lsrReg .lsrReg 8
  | lslReg => exact decode_shift (base := 0xE100) .lslReg .lslReg 8
  | roxrReg => exact decode_shift (base := 0xE000) .roxrReg .roxrReg 16
  | roxlReg => exact decode_shift (base := 0xE100) .roxlReg .roxlReg 16
  | rorReg => exact decode_shift (base := 0xE000) .rorReg .rorReg 24
  | rolReg => exact decode_shift (base := 0xE100) .rolReg .rolReg 24

end Sys2Proof
end

section
/-! SUPPORT. An opword that selects no row (O6): what the step fetches from plain memory, and the exception it takes. -/

namespace Sys2Proof.Machine

open Sys2Proof.Safety

/-! The common exception sequence on plain memory -/

theorem act_tryCatch_ok {α : Type} {x : Act α} {f : Abort → Act α} {s t : State} {a : α} (h : x s = .ok a t) :
    (tryCatch x f : Act α) s = .ok a t := by
  change EStateM.tryCatch x f s = _
  unfold EStateM.tryCatch
  rw [h]

theorem setSp_of_supervisor {s : State} (h : s.supervisor = true) (v : Long) : s.setSp v = s.setSsp v := by
  simp [State.setSp, h]

/-- In supervisor mode the 6-byte frame lies on the supervisor stack, PC above SR (R436). -/
theorem pushFrame_plain {s : State} (p : Long) (sr : Word) (hm : s.memMap = []) (hs : s.supervisor = true)
    (hssp : s.ssp.getLsbD 0 = false) :
    pushFrame p sr s = .ok () ((s.setSsp (s.ssp - 6)).setMem
      (poke .word (poke .long s.mem (s.ssp - 4) p) (s.ssp - 6) sr)) := by
  have heven : (s.ssp - 4).getLsbD 0 = false := even_sub hssp (by decide)
  have hlong := push32_plain (v := p) hm (by rw [sp_of_supervisor hs]; exact aligned_of_even heven)
  rw [sp_of_supervisor hs, setSp_of_supervisor hs] at hlong
  have hs' : ((s.setSsp (s.ssp - 4)).setMem (poke .long s.mem (s.ssp - 4) p)).supervisor = true := hs
  have hword := push16_plain (s := (s.setSsp (s.ssp - 4)).setMem (poke .long s.mem (s.ssp - 4) p)) (v := sr) hm (by
    rw [sp_of_supervisor hs']
    exact aligned_of_even (even_sub heven (by decide)))
  rw [sp_of_supervisor hs', setSp_of_supervisor hs'] at hword
  have hsub : s.ssp - 4 - 2 = s.ssp - 6 := by rw [BitVec.sub_sub]; rfl
  rw [pushFrame, act_bind_ok (act_tryCatch_ok hlong), hword]
  simp only [State.setMem_ssp, State.setSsp_ssp, hsub]
  rfl

/-- `Exception(v, p)` on plain memory with an even SSP (R436). -/
theorem takeException_plain (v : Nat) (p : Long) (level : Option (BitVec 3)) {s : State} (hm : s.memMap = [])
    (hssp : s.ssp.getLsbD 0 = false) : takeException v p level s = entered v p level s := by
  have hframe := pushFrame_plain (s := { s.setSr (entrySr s.readSr level) with groupZero := false, stale := [] }) p
    s.readSr hm (entrySr_supervisor s _ level) hssp
  have hvector : (BitVec.ofNat 32 (4 * v)).getLsbD 0 = false := by
    rw [BitVec.getLsbD_ofNat, Nat.testBit_zero]
    simp
    omega
  have hentry : exceptionEntry v p level s = .ok () (entered v p level s) := by
    simp only [exceptionEntry, act_get_bind, act_modify_bind]
    rw [act_bind_ok hframe, act_bind_ok (readMem_plain (aligned_of_even hvector) (by simp [hm]))]
    rfl
  simp only [takeException, hentry]

/-! The fetch from plain memory -/

theorem fetchByte_plain {s : State} (k : Nat) (hm : s.memMap = []) (hstale : s.stale = []) :
    fetchByte s k = memRead s.mem (phys s.pc k) := by
  simp [fetchByte, isDevice, regionAt, staleByte, hm, hstale]

theorem countFetch_plain {s : State} (hm : s.memMap = []) (hstale : s.stale = []) : countFetch s = s := by
  simp [countFetch, hm, hstale]

theorem fetchOpword_plain {s : State} (hm : s.memMap = []) (hpc : s.pc.getLsbD 0 = false) :
    fetchOpword s = .ok () s := by
  simp only [fetchOpword, act_get_bind, hpc, hm, plainAt_nil]
  rfl

/-- An instruction at an even PC of plain memory is fetched without an effect. -/
theorem runInstruction_plain {s : State} (hm : s.memMap = []) (hstale : s.stale = []) (hpc : s.pc.getLsbD 0 = false) :
    runInstruction s = runDecoded s s := by
  simp only [runInstruction, countFetch_plain hm hstale, fetchOpword_plain hm hpc]

/-- The opword is the word at PC, and four more words follow it (R67, R90). -/
theorem fetchWords_plain {s : State} (hm : s.memMap = []) (hstale : s.stale = []) :
    ∃ ws, fetchWords s = (memRead s.mem (phys s.pc 0) ++ memRead s.mem (phys s.pc 1) : Word) :: ws := by
  refine ⟨wordsOfBytes ((List.range' 2 8).map (fetchByte s)), ?_⟩
  rw [← fetchByte_plain 0 hm hstale, ← fetchByte_plain 1 hm hstale]
  rfl

/-! The exception -/

/-- The line of the opword decides between the vectors 10, 11 and 4 (R123, R124). -/
theorem undecodedVector_undecodable (w : Word) :
    undecodedVector (undecodable w.toNat) =
      if w.extractLsb' 12 4 = 0xA then 10 else if w.extractLsb' 12 4 = 0xF then 11 else 4 := by
  have hline : field w.toNat 12 4 = (w.extractLsb' 12 4).toNat := rfl
  simp only [undecodable, hline]
  generalize w.extractLsb' 12 4 = line
  revert line
  decide

/-- An opword that selects no row is not executed: its exception saves its own address (R123, R442, R449). -/
theorem runDecoded_no_row {s t : State} {w : Word} {ws : List Word} (hwords : fetchWords s = w :: ws)
    (hw : decodeTag w.toNat = none) :
    runDecoded s t = .next (takeException (undecodedVector (undecodable w.toNat)) s.pc none
      { t with ir := w, groupZero := false }) := by
  simp only [runDecoded, hwords, decodeWords, hw, List.headD_cons]

/-- Settles O6: the fetch has no effect, the opword is not executed, and its exception is entered on plain memory. -/
theorem unknownOpwordTakesException : Obligations.UnknownOpwordTakesException := by
  intro s hin hh hst ht hm hstale hpc hssp w hw
  obtain ⟨ws, hwords⟩ := fetchWords_plain (s := { s with prevIpl7 := false }) hm hstale
  have hentered := takeException_plain (undecodedVector (undecodable w.toNat)) s.pc none
    (s := { s with ir := w, groupZero := false, prevIpl7 := false }) hm hssp
  rw [step_quiet hin hh hst ht, runInstruction_plain (s := { s with prevIpl7 := false }) hm hstale hpc,
    runDecoded_no_row hwords hw, ← undecodedVector_undecodable]
  exact congrArg Host.Outcome.next hentered

end Sys2Proof.Machine
end

section
/-! SUPPORT. The state that an instruction's effect begins in: `fetched i s` is `s` but for PC. A result statement follows
from the effect, run from there, and from the frame of what it leaves. -/

namespace Sys2Proof.Machine

open Sys2Proof.Safety

@[simp] theorem fetched_readD (i : Instr) (s : State) (n : RegNum) : (fetched i s).readD n = s.readD n :=
  State.readD_setPc _ _ _
@[simp] theorem fetched_readA (i : Instr) (s : State) (n : RegNum) : (fetched i s).readA n = s.readA n :=
  State.readA_setPc _ _ _
@[simp] theorem fetched_readX (i : Instr) (s : State) (r : XReg) : (fetched i s).readX r = s.readX r :=
  State.readX_setPc _ _ _
@[simp] theorem fetched_sp (i : Instr) (s : State) : (fetched i s).sp = s.sp := State.sp_setPc _ _
@[simp] theorem fetched_mem (i : Instr) (s : State) : (fetched i s).mem = s.mem := rfl
@[simp] theorem fetched_memMap (i : Instr) (s : State) : (fetched i s).memMap = s.memMap := rfl
@[simp] theorem fetched_sr (i : Instr) (s : State) : (fetched i s).sr = s.sr := rfl
@[simp] theorem fetched_readSr (i : Instr) (s : State) : (fetched i s).readSr = s.readSr := rfl
@[simp] theorem fetched_ccr (i : Instr) (s : State) : (fetched i s).ccr = s.ccr := rfl
@[simp] theorem eaLoc_fetched (sz : Size) (pcx : Long) (ea : EA) (i : Instr) (s : State) :
    eaLoc sz pcx ea (fetched i s) = eaLoc sz pcx ea s := eaLoc_setPc _ _ _ _ _

/-- Fetching an instruction changes PC only. -/
theorem sameBut_fetched (i : Instr) (s : State) (ds as : List RegNum) (bytes : List Nat) :
    SameBut s (fetched i s) ds as bytes :=
  (SameBut.refl s ds as bytes).setPc _

/-- An instruction whose effect completes, from the state with PC past its words, and keeps the codes. -/
theorem completesKeepingCcr_of_act {i : Instr} {ext : Nat} {writes : List Dest} {act : Long → Act Unit} {s t : State}
    {ds as : List RegNum} {bytes : List Nat} (hexec : exec i s = .next (runInstr ext writes act s))
    (hwords : i.words = 1 + ext) (hm : s.memMap = []) (hact : act s.pc (fetched i s) = .ok () t)
    (hframe : SameBut s t ds as bytes) (hccr : t.ccr = s.ccr) : CompletesKeepingCcr i s t ds as bytes := by
  rw [fetched, hwords] at hact
  exact ⟨⟨by rw [hexec, runInstr_ok hm hact], hframe⟩, hccr⟩

end Sys2Proof.Machine
end

section
/-! SUPPORT. Data movement through operands: MOVE (O27), MOVEA, ADDA and SUBA (O28), and CLR, Scc and MOVE from SR (O37).
Each is the shape of its operands run on plain memory; the frame follows the updates of the state backwards. -/

namespace Sys2Proof.Machine

open Sys2Proof.Safety

theorem moveInstr_words (sz : Size) (src dst : EA) :
    (moveInstr sz src dst).words = 1 + (eaCount sz src + eaCount sz dst) := by
  cases sz <;> exact encMove_length _ _ _ _

/-- MOVE's destination is data alterable (R159). -/
theorem moveInstr_dst_alterable {sz : Size} {src dst : EA} (h : (moveInstr sz src dst).wellFormed = true) :
    EaSet.dataAlterable.accepts dst.kind = true := by
  have hok : dst.ok .dataAlterable sz = true := by
    cases sz <;> exact (Bool.and_eq_true_iff.mp h).2
  exact (EA.ok_iff.mp hok).1

/-- Settles O27: MOVE's effect on plain memory, its two address registers moved in the frame. -/
theorem moveCopies : Obligations.MoveCopies := by
  intro sz src dst s hwf hm ha i v u loc hl
  have hu : u = eaBump sz src (s.past (1 + (eaCount sz src + eaCount sz dst))) := by
    simp only [u, i, fetched, moveInstr_words]
  refine ⟨?_, ?_⟩
  · have hmove := moveEa_plain hm (moveInstr_dst_alterable hwf) ha (hu ▸ hl)
    rw [exec_moveInstr, hmove, ← hu]
  · have hsrc : SameBut s u (locData loc) (movedRegs src ++ movedRegs dst) (locBytes sz loc) :=
      (sameBut_fetched i s _ _ _).eaBump sz fun n hn => List.mem_append_left _ hn
    have hdst := hsrc.eaBump sz (ea := dst) fun n hn => List.mem_append_right _ hn
    exact (hdst.setCcr _).locStore v (fun _ hn => hn) fun _ hb => hb

/-- An instruction whose meaning joins a source to all of An changes An, the moved register and PC (R188, R242, R392). -/
theorem completes_eaToAn {i : Instr} {sz : Size} {ea : EA} {an : RegNum} {f : Long → Long → Long} {s : State}
    (hexec : exec i s = .next (eaToAn sz ea an f s)) (hwords : i.words = 1 + eaCount sz ea) (hm : s.memMap = [])
    (ha : locAligned sz (operandLoc sz 0 ea s) = true) :
    let u := eaBump sz ea (fetched i s)
    CompletesKeepingCcr i s (u.setA an (f (sextTo sz (locValue sz (operandLoc sz 0 ea s) s)) (u.readA an))) []
      (an :: movedRegs ea) [] := by
  intro u
  refine ⟨⟨?_, ?_⟩, ?_⟩
  · rw [hexec, eaToAn_plain hm ha, ← hwords]
    rfl
  · have hu : SameBut s u [] (an :: movedRegs ea) [] :=
      (sameBut_fetched i s _ _ _).eaBump sz fun n hn => List.mem_cons_of_mem _ hn
    exact hu.setA List.mem_cons_self _
  · simp [u]

/-- Settles O28: each of the three is the one shape, at both sizes. -/
theorem addressRegisterOperations : Obligations.AddressRegisterOperations := by
  intro sz ea an s hm ha
  cases sz with
  | word =>
    exact ⟨completes_eaToAn (i := .moveaW ea an) rfl (encEa_length _ _ _) hm ha,
      completes_eaToAn (i := .addaW ea an) rfl (encEa_length _ _ _) hm ha,
      completes_eaToAn (i := .subaW ea an) rfl (encEa_length _ _ _) hm ha⟩
  | long =>
    exact ⟨completes_eaToAn (i := .moveaL ea an) rfl (encEa_length _ _ _) hm ha,
      completes_eaToAn (i := .addaL ea an) rfl (encEa_length _ _ _) hm ha,
      completes_eaToAn (i := .subaL ea an) rfl (encEa_length _ _ _) hm ha⟩

/-- An instruction whose meaning stores over its operand writes the location and moves a register (R158, R71). -/
theorem completes_overwriteEa {i : Instr} {sz : Size} {ea : EA} {value : State → BitVec sz.bits} {flags : State → State}
    {writes : List Dest} {s : State} (hexec : exec i s = .next (overwriteEa sz ea value flags writes s))
    (hwords : i.words = 1 + eaCount sz ea) (hm : s.memMap = []) (hkind : EaSet.dataAlterable.accepts ea.kind = true)
    (hmap : ∀ t, (flags t).memMap = t.memMap)
    (hframe : ∀ t ds as bytes, SameBut s t ds as bytes → SameBut s (flags t) ds as bytes)
    (ha : locAligned sz (operandLoc sz 0 ea s) = true) :
    let u := eaBump sz ea (fetched i s)
    let loc := operandLoc sz 0 ea s
    Completes i s (locStore sz loc (value u) (flags u)) (locData loc) (movedRegs ea) (locBytes sz loc) := by
  intro u loc
  refine ⟨?_, ?_⟩
  · rw [hexec, overwriteEa_plain hm hmap (eaLoc_writable _ _ _ _ hkind) ha, ← hwords]
    rfl
  · have hu : SameBut s u (locData loc) (movedRegs ea) (locBytes sz loc) :=
      (sameBut_fetched i s _ _ _).eaBump sz fun _ hn => hn
    exact (hframe _ _ _ _ hu).locStore _ (fun _ hn => hn) fun _ hb => hb

theorem locAligned_byte (loc : Loc) : locAligned .byte loc = true := by
  cases loc <;> rfl

/-- Settles O37: the three are one shape; CLR alone changes the codes. -/
theorem overwritingInstructions : Obligations.OverwritingInstructions := by
  intro sz cond ea s hm hkind
  refine ⟨fun ha => ?_, ⟨?_, ?_⟩, fun ha => ⟨?_, ?_⟩⟩
  · have hclr := completes_overwriteEa (i := .clr sz ea) rfl (encSizedEa_length _ _ _) hm hkind (fun _ => rfl)
      (fun _ _ _ _ h => h.setCcr _) ha
    simpa using hclr
  · have hscc := completes_overwriteEa (i := .scc cond ea) rfl (encEa_length _ _ _) hm hkind (fun _ => rfl)
      (fun _ _ _ _ h => h) (locAligned_byte _)
    simpa using hscc
  · simp
  · have hsr := completes_overwriteEa (i := .moveFromSr ea) rfl (encEa_length _ _ _) hm hkind (fun _ => rfl)
      (fun _ _ _ _ h => h) ha
    simpa using hsr
  · simp

end Sys2Proof.Machine
end

section
/-! SUPPORT. Words that stand for an instruction (O1, O29): a word list that the encoder writes decodes to the instruction, by
the round trip (O2). -/

namespace Sys2Proof

/-- The encoder's words decode to the instruction, with nothing after them (R104). -/
theorem decodeWords_of_encode {i : Instr} {ws : List Word} (henc : encode i = ws) (hwf : i.wellFormed = true) :
    decodeWords ws = .ok (i, []) := by
  have h := decodeEncodeRoundTrip i [] hwf
  rwa [List.append_nil, henc] at h

/-- Settles O1: the sample words are what the encoder writes. -/
theorem sampleWordsDecode : Obligations.SampleWordsDecode := by
  refine ⟨?_, ?_, ?_, ?_, ?_, ?_, ?_, ?_, ?_, ?_, ?_⟩
  all_goals exact decodeWords_of_encode (by decide) (by decide)

/-- A field above another one, as a sum. -/
theorem toNat_append_eq_add {m n : Nat} (x : BitVec m) (y : BitVec n) : (x ++ y).toNat = x.toNat * 2 ^ n + y.toNat := by
  rw [BitVec.toNat_append, ← Nat.shiftLeft_add_eq_or_of_lt y.isLt, Nat.shiftLeft_eq]

/-- MOVEQ's opword with bit 8 as given (R192). -/
theorem moveq_fields_toNat (x : RegNum) (b : BitVec 1) (data : BitVec 8) :
    (0b0111#4 ++ BitVec.ofNat 3 x.val ++ b ++ data : Word).toNat =
      0x7000 + hiReg x + b.toNat * 256 + data.toNat := by
  have hx : (BitVec.ofNat 3 x.val).toNat = x.val := by simp
  simp only [toNat_append_eq_add, hx, hiReg, BitVec.toNat_ofNat]
  omega

theorem encode_moveq (data : BitVec 8) (x : RegNum) :
    encode (.moveq data x) = [(0b0111#4 ++ BitVec.ofNat 3 x.val ++ 0#1 ++ data : Word)] := by
  refine congrArg (fun w => [w]) (BitVec.eq_of_toNat_eq ?_)
  have hx : hiReg x ≤ 7 * 512 := Nat.mul_le_mul_right _ (Nat.le_of_lt_succ x.isLt)
  have hdata := data.isLt
  rw [moveq_fields_toNat, op, BitVec.toNat_ofNat]
  simp only [BitVec.toNat_ofNat]
  omega

/-- Line 0111 has the one row of MOVEQ, which asks for a 0 in bit 8 (R192, R121). -/
theorem moveq_bit8_selects_no_row (data : BitVec 8) (x : RegNum) :
    decodeTag (0b0111#4 ++ BitVec.ofNat 3 x.val ++ 1#1 ++ data : Word).toNat = none := by
  have hhigh : ∀ x : RegNum, ∀ k < 4, ∀ r ∈ rowsOf 7, r.high (0x1C4 + 8 * x.val + k) = false := by decide
  have hdata := data.isLt
  rw [moveq_fields_toNat, show hiReg x = x.val * 512 from rfl, show (1#1).toNat = 1 from rfl]
  generalize hw : 0x7000 + x.val * 512 + 1 * 256 + data.toNat = w
  have hline : field w 12 4 = 7 := by rw [field_eq]; omega
  have hbits : w / 64 = 0x1C4 + 8 * x.val + data.toNat / 64 := by omega
  rw [decodeTag, Option.map_eq_none_iff, List.find?_eq_none, hline]
  intro r hr hsel
  obtain ⟨hselHigh, -, -⟩ := Row.selects_split.mp hsel
  rw [hbits, hhigh x _ (by omega) r hr] at hselHigh
  cases hselHigh

/-- The opwords of the register moves, by the words that the encoder writes (R182, R192, R194, R220). -/
theorem registerMoves_encode (x y : RegNum) :
    encode (.swap x) = [(0b0100100001000#13 ++ BitVec.ofNat 3 x.val : Word)] ∧
    encode (.extW x) = [(0b0100100010000#13 ++ BitVec.ofNat 3 x.val : Word)] ∧
    encode (.extL x) = [(0b0100100011000#13 ++ BitVec.ofNat 3 x.val : Word)] ∧
    encode (.exgDD x y) = [(0b1100#4 ++ BitVec.ofNat 3 x.val ++ 0b101000#6 ++ BitVec.ofNat 3 y.val : Word)] ∧
    encode (.exgAA x y) = [(0b1100#4 ++ BitVec.ofNat 3 x.val ++ 0b101001#6 ++ BitVec.ofNat 3 y.val : Word)] ∧
    encode (.exgDA x y) = [(0b1100#4 ++ BitVec.ofNat 3 x.val ++ 0b110001#6 ++ BitVec.ofNat 3 y.val : Word)] := by
  revert x y
  decide

end Sys2Proof

namespace Sys2Proof.Machine

open Sys2Proof.Safety

/-- A register operation that writes Dn and the codes, completed (R192, R194, R220). -/
theorem completes_setCcr_setD {i : Instr} {writes : List Dest} {g : State → State} {n : RegNum} {v : Long} {f : Ccr}
    {s : State} (hexec : exec i s = .next (runInstr 0 writes (fun _ => modify g) s)) (hm : s.memMap = [])
    (hg : g (s.past (1 + 0)) = ((fetched i s).setCcr f).setD n v) :
    Completes i s (((fetched i s).setCcr f).setD n v) [n] [] [] := by
  refine ⟨?_, ((sameBut_fetched i s _ _ _).setCcr f).setD List.mem_cons_self v⟩
  rw [hexec, runInstr_modify hm, hg]

@[simp] theorem State.setX_ccr (s : State) (r : XReg) (v : Long) : (s.setX r v).ccr = s.ccr := by
  cases r <;> simp only [State.setX, State.setD_ccr, State.setA_ccr]

/-- An exchange of two registers, completed: both are read before either is written (R182). -/
theorem completes_exchange {i : Instr} {writes : List Dest} {p q : XReg} {s : State} {ds as : List RegNum}
    (hexec : exec i s = .next (runInstr 0 writes
      (fun _ => modify fun t => (t.setX p (t.readX q)).setX q (t.readX p)) s))
    (hwords : i.words = 1) (hm : s.memMap = []) (hd : ∀ n, XReg.d n ∈ [p, q] → n ∈ ds)
    (ha : ∀ n, XReg.a n ∈ [p, q] → n ∈ as) :
    CompletesKeepingCcr i s (((fetched i s).setX p (s.readX q)).setX q (s.readX p)) ds as [] := by
  refine ⟨⟨?_, ?_⟩, by simp⟩
  · rw [hexec, runInstr_modify hm]
    simp only [fetched, hwords, State.readX_setPc, Nat.add_zero]
  · refine ((sameBut_fetched i s _ _ _).setX ?_ ?_ _).setX ?_ ?_ _
    · rintro n rfl; exact hd n (by simp)
    · rintro n rfl; exact ha n (by simp)
    · rintro n rfl; exact hd n (by simp)
    · rintro n rfl; exact ha n (by simp)

/-- EXT.W writes the low word of Dn, whose high word stays (R220). -/
theorem mergeLow_extW (d : Long) :
    mergeLow .word d ((d.setWidth 8 : Byte).signExtend 16) = d.extractLsb' 16 16 ++ (d.extractLsb' 0 8).signExtend 16 := by
  rw [← BitVec.setWidth_eq_extractLsb' (by decide)]
  rfl

/-- Settles O29: the opwords by the round trip, the results by the two shapes of a register operation. -/
theorem registerMoves : Obligations.RegisterMoves := by
  refine ⟨fun x y data => ?_, fun x y data s hm => ?_⟩
  · obtain ⟨hswap, hextW, hextL, hdd, haa, hda⟩ := registerMoves_encode x y
    exact ⟨decodeWords_of_encode (encode_moveq data x) rfl, moveq_bit8_selects_no_row data x,
      decodeWords_of_encode hswap rfl, decodeWords_of_encode hextW rfl, decodeWords_of_encode hextL rfl,
      decodeWords_of_encode hdd rfl, decodeWords_of_encode haa rfl, decodeWords_of_encode hda rfl⟩
  · refine ⟨completes_setCcr_setD (i := .moveq data x) rfl hm rfl, completes_setCcr_setD (i := .swap x) rfl hm rfl,
      completes_setCcr_setD (i := .extW x) rfl hm ?_, completes_setCcr_setD (i := .extL x) rfl hm ?_,
      completes_exchange (i := .exgDD x y) (p := .d x) (q := .d y) rfl rfl hm ?_ ?_,
      completes_exchange (i := .exgAA x y) (p := .a x) (q := .a y) rfl rfl hm ?_ ?_,
      completes_exchange (i := .exgDA x y) (p := .d x) (q := .a y) rfl rfl hm ?_ ?_⟩
    · rw [← mergeLow_extW, ← BitVec.setWidth_eq_extractLsb' (by decide)]
      rfl
    · rw [← BitVec.setWidth_eq_extractLsb' (by decide)]
      rfl
    all_goals simp

end Sys2Proof.Machine
end

section
/-! SUPPORT. Addresses and frames: LEA and PEA (O30), LINK and UNLK (O31), and UNLK after LINK (O32). -/

namespace Sys2Proof.Machine

open Sys2Proof.Safety

/-- A longword pushed on an even stack: SP moves and the bytes below it change (R15, R65). -/
theorem push32_even {s : State} (v : Long) (hm : s.memMap = []) (h : s.sp.getLsbD 0 = false) :
    push32 v s = .ok () ((s.setSp (s.sp - 4)).setMem (poke .long s.mem (s.sp - 4) v)) :=
  push32_plain hm (aligned_of_even (even_sub h (by decide)))

/-- The address of a control mode, PC past the instruction (R183, R150). -/
theorem controlEa_fetched {i : Instr} {ea : EA} {s : State} {addr : Long} {program : Bool}
    (hl : operandLoc .long 0 ea s = .mem addr program) :
    controlEa (eaBase s.pc 0) ea (fetched i s) = .ok addr (fetched i s) :=
  controlEa_mem ((eaLoc_fetched .long _ ea i s).trans hl)

/-- LEA's whole effect: An is the address, of which nothing is read (R183). -/
theorem completes_lea {ea : EA} {an : RegNum} {s : State} {addr : Long} {program : Bool} (hm : s.memMap = [])
    (hl : operandLoc .long 0 ea s = .mem addr program) :
    CompletesKeepingCcr (.lea ea an) s ((fetched (.lea ea an) s).setA an addr) [] [an] [] :=
  completesKeepingCcr_of_act rfl (encEa_length _ _ _) hm (act_bind_ok (controlEa_fetched hl))
    ((sameBut_fetched _ s _ _ _).setA List.mem_cons_self addr) (by simp)

/-- PEA's whole effect: the address is computed before SP moves (R193). -/
theorem completes_pea {ea : EA} {s : State} {addr : Long} {program : Bool} (hm : s.memMap = [])
    (hl : operandLoc .long 0 ea s = .mem addr program) (hsp : s.sp.getLsbD 0 = false) :
    CompletesKeepingCcr (.pea ea) s
      (((fetched (.pea ea) s).setSp (s.sp - 4)).setMem (poke .long s.mem (s.sp - 4) addr)) [] [7]
      (bytesAt .long (s.sp - 4)) := by
  refine completesKeepingCcr_of_act rfl (encEa_length _ _ _) hm ((act_bind_ok (controlEa_fetched hl)).trans ?_) ?_ (by simp)
  · rw [push32_even addr (by simpa using hm) (by simpa using hsp), fetched_sp, fetched_mem]
  · exact ((sameBut_fetched _ s _ _ _).setSp List.mem_cons_self _).poke (sz := .long) (m := s.mem) (fun _ _ => by simp) addr
      fun _ hb => hb

/-- Settles O30: the two effects, whose address is odd or even alike. -/
theorem leaAndPea : Obligations.LeaAndPea :=
  fun _ _ _ _ _ hm _ hl => ⟨completes_lea hm hl, fun hsp => completes_pea hm hl hsp⟩

/-- LINK's whole effect: An is read after SP has moved, which An = A7 shows (R184, U9). -/
theorem completes_link (an : RegNum) (d : Word) {s : State} (hm : s.memMap = []) (hsp : s.sp.getLsbD 0 = false) :
    let i := Instr.link an d
    let sp := s.sp - 4
    let pushed := if an = 7 then sp else s.readA an
    CompletesKeepingCcr i s
      (((((fetched i s).setSp sp).setMem (poke .long s.mem sp pushed)).setA an sp).setSp (sp + d.signExtend 32)) []
      [an, 7] (bytesAt .long sp) := by
  intro i sp pushed
  have hread : ((fetched i s).setSp sp).readA an = pushed := by
    by_cases h : an = 7
    · simp [pushed, h]
    · simp [pushed, h, State.readA_setSp_other]
  have hwrite : writeMem .long sp pushed ((fetched i s).setSp sp) =
      .ok () (((fetched i s).setSp sp).setMem (poke .long s.mem sp pushed)) := by
    have h := writeMem_plain (sz := .long) (v := pushed) (s := (fetched i s).setSp sp)
      (aligned_of_even (even_sub hsp (by decide) : sp.getLsbD 0 = false)) (by simp [hm])
    rwa [State.setSp_mem, fetched_mem] at h
  have hsp' : (((fetched i s).setSp sp).setMem (poke .long s.mem sp pushed)).sp = sp := by simp
  have hA : ∀ u : State, u.sp = sp → (u.setA an sp).sp = sp := by
    intro u hu
    by_cases h : an = 7
    · simp [h]
    · rw [State.sp_setA_other _ _ _ h, hu]
  refine completesKeepingCcr_of_act (ext := 1) rfl rfl hm ?_ ?_ (by simp)
  · simp only [act_modify_bind, act_get_bind, fetched_sp, State.sp_setSp]
    rw [hread]
    change (writeMem .long sp pushed >>= _) ((fetched i s).setSp sp) = _
    rw [act_bind_ok hwrite]
    simp only [act_modify_bind, act_modify, hsp', hA]
  · have hpush := ((sameBut_fetched i s [] [an, 7] (bytesAt .long sp)).setSp (by simp) sp).poke
      (m := s.mem) (fun _ _ => by simp) pushed fun _ hb => hb
    exact (hpush.setA (by simp) _).setSp (by simp) _

/-- UNLK moves SP to An and reads the longword there (R195). -/
theorem unlk_reads {an : RegNum} {s : State} (hm : s.memMap = []) (ha : (s.readA an).getLsbD 0 = false)  :
    readMem .long (s.setSp (s.readA an)).sp false (s.setSp (s.readA an)) =
      .ok (peek .long s.mem (s.readA an)) (s.setSp (s.readA an)) := by
  rw [State.sp_setSp, readMem_plain (aligned_of_even ha) (by simp [hm]), State.setSp_mem]

/-- UNLK of another register than A7 (R195). -/
theorem completes_unlk {an : RegNum} (hne : an ≠ 7) {s : State} (hm : s.memMap = [])
    (ha : (s.readA an).getLsbD 0 = false) :
    CompletesKeepingCcr (.unlk an) s
      (((fetched (.unlk an) s).setA an (peek .long s.mem (s.readA an))).setSp (s.readA an + 4)) [] [an, 7] [] := by
  refine completesKeepingCcr_of_act (ext := 0) rfl rfl hm ?_
    (((sameBut_fetched _ s _ _ _).setA List.mem_cons_self _).setSp (by simp) _) (by simp)
  have hread := unlk_reads (s := fetched (.unlk an) s) (by simpa using hm) (by simpa using ha)
  simp only [act_modify_bind, act_get_bind]
  rw [act_bind_ok hread]
  simp only [hne, if_false, act_modify, State.sp_setSp, fetched_readA, fetched_mem]
  rw [State.setA_setSp _ _ _ _ hne, State.setA_setSp _ _ _ _ hne, State.setSp_setSp]

theorem draw_eq_drew (s : State) : draw s = .ok (Config.freeLong s.draws) (drew 1 s) := rfl

theorem drew_setSp (k : Nat) (s : State) (v : Long) : (drew k s).setSp v = drew k (s.setSp v) := by
  unfold State.setSp
  change (if s.supervisor = true then _ else _) = _
  split <;> rfl

/-- UNLK A7: the longword is read, and SP is a free value (U10). -/
theorem completes_unlk_sp {s : State} (hm : s.memMap = []) (ha : (s.readA 7).getLsbD 0 = false) :
    CompletesKeepingCcr (.unlk 7) s
      (drew 1 ((fetched (.unlk 7) s).setSp (Config.freeLong s.draws))) [] [7] [] := by
  refine completesKeepingCcr_of_act (ext := 0) rfl rfl hm ?_
    (((sameBut_fetched _ s _ _ _).setSp List.mem_cons_self _).drew 1) (by simp)
  have hread := unlk_reads (an := 7) (s := fetched (.unlk 7) s) (by simpa using hm) (by simpa using ha)
  simp only [act_modify_bind, act_get_bind]
  rw [act_bind_ok hread]
  simp only [if_true, act_bind_ok (draw_eq_drew _), act_modify, drew_setSp, State.setSp_setSp, State.setSp_draws]
  rfl

/-- Settles O31: LINK, UNLK of another register, and UNLK A7. -/
theorem linkAndUnlk : Obligations.LinkAndUnlk := by
  refine fun an d s hm => ⟨completes_link an d hm, fun ha => ⟨fun hne => completes_unlk hne hm ha, ?_⟩⟩
  rintro rfl
  exact ⟨_, completes_unlk_sp hm ha⟩

/-- Settles O32: LINK leaves SP's old value less 4 in An, and there An's old value. -/
theorem unlkUndoesLink : Obligations.UnlkUndoesLink := by
  intro an d s t u hw hm hu hne hsp hlink hmem han
  obtain ⟨⟨hexec, -⟩, -⟩ := completes_link an d hm hsp
  obtain rfl := Host.Outcome.next.inj (hlink.symm.trans hexec)
  have haddr : u.readA an = s.sp - 4 := by
    simp [han, State.readA_setSp_other _ _ _ hne]
  have hpeek : peek .long u.mem (s.sp - 4) = s.readA an := by
    rw [hmem]
    simp [peek_poke, hw, hne]
  obtain ⟨⟨hunlk, -⟩, -⟩ := completes_unlk hne hu (by rw [haddr]; exact even_sub hsp (by decide))
  refine ⟨_, hunlk, ?_, ?_⟩
  · rw [afterInstr_readA, State.readA_setSp_other _ _ _ hne, State.readA_setA_self, haddr, hpeek]
  · rw [afterInstr_sp, State.sp_setSp, haddr, BitVec.sub_add_cancel]

end Sys2Proof.Machine
end

section
/-! SUPPORT. MOVEM: what it stores (O33) and loads (O34), and that loading a saved list restores it (O35). The loops are those
of the laws of MOVEM; here stand the addresses they end at, the frames, and the two orders of a register list. -/

namespace Sys2Proof.Machine

open Sys2Proof.Safety

@[simp] theorem storedUp_ccr (sz : Size) (regs : List XReg) (addr : Long) (s : State) :
    (storedUp sz regs addr s).ccr = s.ccr := congrArg ccrOfWord (storedUp_sr sz regs addr s)

@[simp] theorem storedDown_ccr (sz : Size) (regs : List XReg) (addr : Long) (s : State) :
    (storedDown sz regs addr s).ccr = s.ccr := congrArg ccrOfWord (storedDown_sr sz regs addr s)

@[simp] theorem loadedUp_ccr (sz : Size) (regs : List XReg) (addr : Long) (s : State) :
    (loadedUp sz regs addr s).ccr = s.ccr := congrArg ccrOfWord (loadedUp_sr sz regs addr s)

theorem movemToMem_words (sz : WordLong) (mask : Word) (ea : EA) :
    (Instr.movemToMem sz mask ea).words = 1 + (1 + eaCount sz.size ea) := encMovem_length _ _ _ _

theorem movemToRegs_words (sz : WordLong) (mask : Word) (ea : EA) :
    (Instr.movemToRegs sz mask ea).words = 1 + (1 + eaCount sz.size ea) := encMovem_length _ _ _ _

/-! Storing -/

/-- The place of an operand stored downward, counted upward from the last address. -/
theorem addrBefore_eq_addrAfter (sz : Size) (addr : Long) {j k : Nat} (h : j ≤ k) :
    addrBefore sz addr j = addrAfter sz (addrBefore sz addr k) (k - j) :=
  addrBefore_eq sz addr j k h

theorem addrAfter_addrBefore (sz : Size) (addr : Long) (k : Nat) : addrAfter sz (addrBefore sz addr k) k = addr :=
  BitVec.sub_add_cancel _ _

/-- Storing a list downward changes the bytes from the last address up to the first. -/
theorem storedDown_frame {sz : Size} (regs : List XReg) (addr : Long) {s t : State} {ds as : List RegNum}
    (h : SameBut s t ds as ((List.range (sz.bytes * regs.length)).map (phys (addrBefore sz addr regs.length)))) :
    SameBut s (storedDown sz regs addr t) ds as
      ((List.range (sz.bytes * regs.length)).map (phys (addrBefore sz addr regs.length))) := by
  refine storedDown_sameBut regs h fun j hj a ha => ?_
  rw [addrBefore_eq_addrAfter sz addr (Nat.succ_le_of_lt hj)] at ha
  exact bytesAt_addrAfter (by omega) a ha

/-- MOVEM to `-(An)`: stored downward from the initial An, which ends as the last address (R189). -/
theorem completes_movemToMem_preDec (sz : WordLong) (mask : Word) (n : RegNum) {s : State} (hm : s.memMap = [])
    (ha : (s.readA n).getLsbD 0 = false) :
    let i := Instr.movemToMem sz mask (.preDec n)
    let regs := maskRegsDown mask
    let last := addrBefore sz.size (s.readA n) regs.length
    CompletesKeepingCcr i s ((storedDown sz.size regs (s.readA n) (fetched i s)).setA n last) [] [n]
      ((List.range (sz.size.bytes * regs.length)).map (phys last)) := by
  intro i regs last
  refine completesKeepingCcr_of_act rfl (movemToMem_words _ _ _) hm ?_
    ((storedDown_frame regs _ (sameBut_fetched i s _ _ _)).setA List.mem_cons_self last) (by simp)
  have hstore := storeDown_plain (sz := sz.size) regs (s := fetched i s) (by simpa using hm) (aligned_of_even ha)
  simp only [act_get_bind, fetched_readA]
  rw [act_bind_ok hstore]
  rfl

/-- MOVEM to a control mode: stored upward from the address (R189). -/
theorem completes_movemToMem_control (sz : WordLong) (mask : Word) {ea : EA} {s : State} {addr : Long}
    (hm : s.memMap = []) (hl : operandLoc sz.size 1 ea s = .mem addr false) (hne : ∀ n, ea ≠ .preDec n)
    (ha : addr.getLsbD 0 = false) :
    let i := Instr.movemToMem sz mask ea
    let regs := maskRegs mask
    CompletesKeepingCcr i s (storedUp sz.size regs addr (fetched i s)) [] []
      ((List.range (sz.size.bytes * regs.length)).map (phys addr)) := by
  intro i regs
  have hloc : eaLoc sz.size (eaBase s.pc 1) ea (fetched i s) = .mem addr false := (eaLoc_fetched _ _ _ _ _).trans hl
  have hstore := storeUp_plain (sz := sz.size) regs (s := fetched i s) (by simpa using hm) (aligned_of_even ha)
  refine completesKeepingCcr_of_act rfl (movemToMem_words _ _ _) hm ?_
    (storedUp_sameBut regs (sameBut_fetched i s _ _ _) fun j hj => bytesAt_addrAfter hj) (by simp)
  cases ea with
  | preDec n => exact absurd rfl (hne n)
  | _ =>
    simp only [act_get_bind, hloc]
    rw [act_bind_ok hstore]
    rfl

/-- Settles O33: one lemma for `-(An)`, one for the control modes. -/
theorem movemStoresRegisters : Obligations.MovemStoresRegisters := by
  intro sz mask ea s hm _ i z
  refine ⟨?_, fun addr hl hne ha => completes_movemToMem_control sz mask hm hl hne ha⟩
  rintro n rfl ha
  exact completes_movemToMem_preDec sz mask n hm ha

/-! Loading -/

/-- Words and longwords take an even number of bytes. -/
theorem even_operands (sz : WordLong) (k : Nat) : (BitVec.ofNat 32 (sz.size.bytes * k)).getLsbD 0 = false := by
  have heven : sz.size.bytes * k % 2 = 0 := by
    cases sz with
    | word => exact Nat.mul_mod_right 2 k
    | long => change 4 * k % 2 = 0; omega
  rw [BitVec.getLsbD_ofNat, Nat.testBit_zero, heven]
  rfl

/-- Loading a list writes its data registers, by number, and its address registers. -/
theorem loadedUp_frame {sz : Size} (regs : List XReg) (addr : Long) {s t : State} {as : List RegNum} {bytes : List Nat}
    (h : SameBut s t ((List.finRange 8).filter fun n => regs.contains (.d n)) as bytes)
    (has : ∀ n, XReg.a n ∈ regs → n ∈ as) :
    SameBut s (loadedUp sz regs addr t) ((List.finRange 8).filter fun n => regs.contains (.d n)) as bytes :=
  loadedUp_sameBut regs h (fun n hn => by simpa using hn) has

/-- The loop of loads and the overshoot read, which on plain memory changes nothing (R190, R72). -/
theorem loadUp_overshoot_plain {sz : WordLong} {program : Bool} (regs : List XReg) {addr : Long} {s : State}
    (f : Long → Act Unit) (hm : s.memMap = []) (ha : addr.getLsbD 0 = false) :
    (do let last ← loadUp sz.size program regs addr
        let _ ← readMem .word last program
        f last : Act Unit) s =
      f (addrAfter sz.size addr regs.length) (loadedUp sz.size regs addr s) := by
  have hlast : (addrAfter sz.size addr regs.length).getLsbD 0 = false := even_add ha (even_operands sz _)
  rw [act_bind_ok (loadUp_plain regs hm (aligned_of_even ha)),
    act_bind_ok (readMem_plain (aligned_of_even hlast) (by simp [hm]))]

/-- MOVEM from `(An)+`: An ends as the final address, whether or not it is in the list (R190, U11). -/
theorem completes_movemToRegs_postInc (sz : WordLong) (mask : Word) (n : RegNum) {s : State} (hm : s.memMap = [])
    (ha : (s.readA n).getLsbD 0 = false) :
    let i := Instr.movemToRegs sz mask (.postInc n)
    let regs := maskRegs mask
    CompletesKeepingCcr i s
      ((loadedUp sz.size regs (s.readA n) (fetched i s)).setA n (addrAfter sz.size (s.readA n) regs.length))
      ((List.finRange 8).filter fun n => regs.contains (.d n))
      (n :: (List.finRange 8).filter fun n => regs.contains (.a n)) [] := by
  intro i regs
  refine completesKeepingCcr_of_act rfl (movemToRegs_words _ _ _) hm ?_
    ((loadedUp_frame regs _ (sameBut_fetched i s _ _ _) fun n hn => by simp [hn]).setA List.mem_cons_self _) (by simp)
  simp only [act_get_bind, fetched_readA]
  exact loadUp_overshoot_plain (sz := sz) (program := false) (s := fetched i s) regs
    (fun last => modify fun s => s.setA n last) (by simpa using hm) ha

/-- MOVEM from a control mode (R190). -/
theorem completes_movemToRegs_control (sz : WordLong) (mask : Word) {ea : EA} {s : State} {addr : Long} {program : Bool}
    (hm : s.memMap = []) (hl : operandLoc sz.size 1 ea s = .mem addr program) (hne : ∀ n, ea ≠ .postInc n)
    (ha : addr.getLsbD 0 = false) :
    let i := Instr.movemToRegs sz mask ea
    let regs := maskRegs mask
    CompletesKeepingCcr i s (loadedUp sz.size regs addr (fetched i s))
      ((List.finRange 8).filter fun n => regs.contains (.d n))
      ((List.finRange 8).filter fun n => regs.contains (.a n)) [] := by
  intro i regs
  have hloc : eaLoc sz.size (eaBase s.pc 1) ea (fetched i s) = .mem addr program := (eaLoc_fetched _ _ _ _ _).trans hl
  refine completesKeepingCcr_of_act rfl (movemToRegs_words _ _ _) hm ?_
    (loadedUp_frame regs _ (sameBut_fetched i s _ _ _) fun n hn => by simpa using hn) (by simp)
  cases ea with
  | postInc n => exact absurd rfl (hne n)
  | _ =>
    simp only [act_get_bind, hloc]
    exact loadUp_overshoot_plain regs (fun _ => pure ()) (by simpa using hm) ha

/-- Settles O34: one lemma for `(An)+`, one for the control modes. -/
theorem movemLoadsRegisters : Obligations.MovemLoadsRegisters := by
  intro sz mask ea s hm _ i regs ds as
  refine ⟨?_, fun addr program hl hne ha => completes_movemToRegs_control sz mask hm hl hne ha⟩
  rintro n rfl ha
  exact completes_movemToRegs_postInc sz mask n hm ha

/-! Saving and restoring -/

/-- The mask of `-(An)` is the reversed mask, and its order of transfer is the reversed order (R102, R186). -/
theorem maskRegsDown_reverse (mask : Word) : maskRegsDown mask.reverse = (maskRegs mask).reverse := by
  have hbit : ∀ i : Fin 16, mask.reverse.getLsbD i.val = mask.getLsbD i.rev.val := by
    intro i
    rw [BitVec.getLsbD_reverse, BitVec.getMsbD_eq_getLsbD]
    simp only [i.isLt, decide_true, Bool.true_and]
    rw [Fin.val_rev]
    congr 1
    omega
  have hrev : ∀ p : Fin 16 → Bool, ((List.finRange 16).filter fun i => p i.rev).map (fun i => maskReg i.rev) =
      (((List.finRange 16).filter p).map maskReg).reverse := by
    intro p
    rw [← List.map_reverse, ← List.filter_reverse, List.finRange_reverse, List.filter_map, List.map_map]
    rfl
  simp only [maskRegsDown, maskRegs, hbit]
  exact hrev fun i => mask.getLsbD i.val

theorem maskRegs_nodup (mask : Word) : (maskRegs mask).Nodup := by
  have hinj : Function.Injective maskReg := by
    unfold Function.Injective
    decide
  exact ((List.nodup_finRange 16).filter _).map hinj

theorem maskRegs_length_le (mask : Word) : (maskRegs mask).length ≤ 16 := by
  rw [maskRegs, List.length_map]
  exact (List.length_filter_le _ _).trans_eq (List.length_finRange)

/-- No list without bit 15 names A7. -/
theorem sp_not_mem_maskRegs {mask : Word} (h : mask.getLsbD 15 = false) : XReg.a 7 ∉ maskRegs mask := by
  have hseven : ∀ i : Fin 16, maskReg i = .a 7 → i = 15 := by decide
  simp only [maskRegs, List.mem_map, List.mem_filter, not_exists, not_and]
  rintro i ⟨-, hi⟩ he
  rw [hseven i he] at hi
  exact Bool.false_ne_true (h.symm.trans hi)

theorem State.readX_setSp_other (s : State) (v : Long) {r : XReg} (h : r ≠ .a 7) : (s.setSp v).readX r = s.readX r := by
  rw [← State.setA_seven]
  exact (State.readX_setX s (.a 7) r v).trans (if_neg h)

theorem sextTo_truncTo_long (v : Long) : sextTo .long (truncTo .long v) = v := by
  simp [sextTo, truncTo]

/-- A longword register stored downward in reversed order is loaded from the last address in order (R189, R190). -/
theorem loadedUp_storedDown (regs : List XReg) (addr : Long) (s u : State) (hw : s.mem.wf = true)
    (hlen : 4 * (regs.length + 1) ≤ 2 ^ Config.addrBits) (hnodup : regs.Nodup)
    (hmem : u.mem = (storedDown .long regs.reverse addr s).mem) (r : XReg) (hr : r ∈ regs) :
    (loadedUp .long regs (addrBefore .long addr regs.length) u).readX r = s.readX r := by
  obtain ⟨j, hj, rfl⟩ := List.getElem_of_mem hr
  have hplace : addrAfter .long (addrBefore .long addr regs.length) j = addrBefore .long addr (regs.length - 1 - j + 1) := by
    rw [addrBefore_eq_addrAfter .long addr (j := regs.length - 1 - j + 1) (k := regs.length) (by omega)]
    congr 1
    omega
  have hstored := peek_storedDown .long regs.reverse addr s hw (by simpa using hlen) (regs.length - 1 - j)
    (by rw [List.length_reverse]; omega)
  rw [loadedUp_readX .long regs _ u hnodup j hj, hplace, hmem, hstored, sextTo_truncTo_long, List.getElem_reverse]
  congr 2
  omega

/-- Settles O35: what the first instruction stores is what the second loads, and each moves SP by the list's length. -/
theorem movemSaveRestore : Obligations.MovemSaveRestore := by
  refine ⟨decodeWords_of_encode (by decide) (by decide), decodeWords_of_encode (by decide) (by decide), ?_⟩
  intro mask s h15 hw hm hsp
  have hspA : (s.readA 7).getLsbD 0 = false := by rwa [State.readA_seven]
  obtain ⟨⟨hsave, -⟩, -⟩ := completes_movemToMem_preDec .long mask.reverse 7 hm hspA
  refine ⟨_, hsave, fun u hmu hmem hspu => ?_⟩
  have hlen := maskRegs_length_le mask
  have hbytes : 4 * ((maskRegs mask).length + 1) ≤ 2 ^ Config.addrBits :=
    le_trans (Nat.mul_le_mul_left 4 (Nat.succ_le_succ hlen)) (by decide)
  simp only [maskRegsDown_reverse, List.length_reverse, State.readA_seven, State.setA_seven, afterInstr_sp, afterInstr_mem,
    State.sp_setSp, State.setSp_mem] at hmem hspu
  have heven : (u.readA 7).getLsbD 0 = false := by
    rw [State.readA_seven, hspu]
    exact even_sub hsp (even_operands .long _)
  obtain ⟨⟨hrestore, -⟩, -⟩ := completes_movemToRegs_postInc .long mask 7 hmu heven
  refine ⟨_, hrestore, ?_, fun i hi => ?_⟩
  · rw [afterInstr_sp, State.setA_seven, State.sp_setSp, State.readA_seven, hspu, addrAfter_addrBefore]
  · have hr : maskReg i ∈ maskRegs mask := List.mem_map.mpr ⟨i, List.mem_filter.mpr ⟨List.mem_finRange i, hi⟩, rfl⟩
    have hne : maskReg i ≠ .a 7 := fun he => sp_not_mem_maskRegs h15 (he ▸ hr)
    have hloaded := loadedUp_storedDown (maskRegs mask) s.sp (fetched (.movemToMem .long mask.reverse (.preDec 7)) s)
      (fetched (.movemToRegs .long mask (.postInc 7)) u) hw hbytes (maskRegs_nodup mask) hmem (maskReg i) hr
    rw [afterInstr_readX, State.setA_seven, State.readX_setSp_other _ _ hne, State.readA_seven, hspu, hloaded, fetched_readX]

end Sys2Proof.Machine
end

section
/-! SUPPORT. MOVEP: single bytes, so any address, in both directions and sizes (O36). -/

namespace Sys2Proof.Machine

open Sys2Proof.Safety

/-- A byte is read at any address (R66, R70). -/
theorem readMem_byte_bind {β : Type} {s : State} (addr : Long) (f : BitVec Size.byte.bits → Act β) (hm : s.memMap = []) :
    (readMem .byte addr >>= f) s = f (memRead s.mem (phys addr 0)) s :=
  act_bind_ok (readMem_plain rfl (by simp [hm]))

/-- A byte is written at any address (R66, R70). -/
theorem writeMem_byte {s : State} (addr : Long) (v : Byte) (hm : s.memMap = []) :
    writeMem .byte addr v s = .ok () (s.setMem (memWrite s.mem (phys addr 0) v)) :=
  writeMem_plain (sz := .byte) rfl (by simp [hm])

theorem writeMem_byte_bind {β : Type} {s : State} (addr : Long) (v : Byte) (f : Unit → Act β) (hm : s.memMap = []) :
    (writeMem .byte addr v >>= f) s = f () (s.setMem (memWrite s.mem (phys addr 0) v)) :=
  act_bind_ok (writeMem_byte addr v hm)

theorem phys_add_ofNat_zero (addr : Long) : phys (addr + BitVec.ofNat 32 (2 * 0)) 0 = phys addr 0 :=
  congrArg (phys · 0) (BitVec.add_zero addr)

/-- MOVEP to a register: the bytes in memory's order (R191). -/
theorem completes_movep_memToReg (sz : WordLong) (dn an : RegNum) (d : Word) {s : State} (hm : s.memMap = []) :
    let addr := s.readA an + d.signExtend 32
    let b := fun k : Nat => memRead s.mem (phys (addr + BitVec.ofNat 32 (2 * k)) 0)
    let i := Instr.movep .memToReg sz dn an d
    CompletesKeepingCcr i s ((fetched i s).setD dn (match sz with
      | .word => (s.readD dn).extractLsb' 16 16 ++ (b 0 ++ b 1)
      | .long => (b 0 ++ b 1) ++ (b 2 ++ b 3))) [dn] [] [] := by
  intro addr b i
  have hm' : (fetched i s).memMap = [] := hm
  refine completesKeepingCcr_of_act (ext := 1) rfl (by cases sz <;> rfl) hm ?_
    ((sameBut_fetched i s _ _ _).setD List.mem_cons_self _) (by simp)
  cases sz
  all_goals
    simp only [act_get_bind, readMem_byte_bind _ _ hm', b, phys_add_ofNat_zero]
    rfl

/-- A byte written among `bytes` leaves the others as they were. -/
theorem memRead_memWrite_outside {m m' : Memory} {bytes : List Nat} {a : Nat} (ha : a ∈ bytes) (b : Byte)
    (h : ∀ x, x ∉ bytes → memRead m' x = memRead m x) : ∀ x, x ∉ bytes → memRead (memWrite m' a b) x = memRead m x :=
  fun x hx => (memRead_memWrite_other m' a x b fun he => hx (he ▸ ha)).trans (h x hx)

/-- Settles O36: MOVEP to memory writes the register's bytes, the high-order one first. -/
theorem movepTransfersBytes : Obligations.MovepTransfersBytes := by
  intro sz dn an d s hm addr v at_
  refine ⟨completes_movep_memToReg sz dn an d hm, ?_⟩
  intro i
  have hplain : (fetched i s).memMap = [] := hm
  have hplain' : ∀ m, ((fetched i s).setMem m).memMap = [] := fun _ => hm
  cases sz with
  | word =>
    refine completesKeepingCcr_of_act (ext := 1) rfl rfl hm ?_ ?_ (by simp)
    · simp only [act_get_bind, writeMem_byte_bind _ _ _ hplain, writeMem_byte _ _ (hplain' _), State.setMem_mem,
        State.setMem_setMem, fetched_readA, fetched_readD, fetched_mem, at_, phys_add_ofNat_zero]
      rfl
    · refine (sameBut_fetched i s _ _ _).setMem (memRead_memWrite_outside ?_ _ (memRead_memWrite_outside ?_ _ fun _ _ => rfl))
      all_goals simp
  | long =>
    refine completesKeepingCcr_of_act (ext := 1) rfl rfl hm ?_ ?_ (by simp)
    · simp only [act_get_bind, writeMem_byte_bind _ _ _ hplain, writeMem_byte_bind _ _ _ (hplain' _),
        writeMem_byte _ _ (hplain' _), State.setMem_mem, State.setMem_setMem, fetched_readA, fetched_readD, fetched_mem,
        at_, phys_add_ofNat_zero]
      rfl
    · refine (sameBut_fetched i s _ _ _).setMem (memRead_memWrite_outside ?_ _ (memRead_memWrite_outside ?_ _
        (memRead_memWrite_outside ?_ _ (memRead_memWrite_outside ?_ _ fun _ _ => rfl))))
      all_goals simp

end Sys2Proof.Machine
end

section
/-! SUPPORT. Integer arithmetic through operands: operations to a data register (O38), to one location (O39, O40, O41, O42) and
compares (O43). Each instruction is one of three shapes, and each shape's whole effect is said once. -/

namespace Sys2Proof.Machine

open Sys2Proof.Safety

/-! The end of an instruction -/

/-- What `exec` answers when the effect completes, from the state with PC past the instruction's words (R25, R465). -/
theorem exec_of_act {i : Instr} {ext : Nat} {writes : List Dest} {act : Long → Act Unit} {s t : State}
    (hexec : exec i s = .next (runInstr ext writes act s)) (hwords : i.words = 1 + ext) (hm : s.memMap = [])
    (hact : act s.pc (fetched i s) = .ok () t) : exec i s = .next (afterInstr s t) := by
  rw [fetched, hwords] at hact
  rw [hexec, runInstr_ok hm hact]

/-- An operand in a register or in plain memory, read after the fetch of the instruction's words (R156). -/
theorem readEa_fetched {i : Instr} {sz : Size} {pre : Nat} {ea : EA} {s : State} (hm : s.memMap = [])
    (ha : locAligned sz (operandLoc sz pre ea s) = true) :
    readEa sz (eaBase s.pc pre) ea (fetched i s) =
      .ok (locValue sz (operandLoc sz pre ea s) s) (eaBump sz ea (fetched i s)) := by
  have hloc : eaLoc sz (eaBase s.pc pre) ea (fetched i s) = operandLoc sz pre ea s := eaLoc_fetched _ _ _ _ _
  have hread := readEa_plain (s := fetched i s) hm (hloc.symm ▸ ha)
  rwa [hloc, fetched, locValue_setPc] at hread

theorem encImmEa_words (base : Nat) (sz : Size) (imm : Long) (ea : EA) :
    (encImmEa base sz imm ea).length = 1 + immCount sz + eaCount sz ea := by
  rw [encImmEa_length, Nat.add_assoc]

/-! The three shapes, whose operation `f` gives the result `r` and the codes `c` -/

section
variable {i : Instr} {pre : Nat} {sz : Size} {ea : EA} {s : State} {r : BitVec sz.bits} {c : Ccr}

/-- An operation on a source and Dn changes Dn, the codes, the moved register and PC (R240, R256). -/
theorem completes_eaToDn {dn : RegNum} {f : Ccr → BitVec sz.bits → BitVec sz.bits → BitVec sz.bits × Ccr}
    (hexec : exec i s = .next (eaToDn sz ea dn f s)) (hwords : i.words = 1 + eaCount sz ea) (hm : s.memMap = [])
    (ha : locAligned sz (operandLoc sz 0 ea s) = true)
    (hf : f s.ccr (locValue sz (operandLoc sz 0 ea s) s) (truncTo sz (s.readD dn)) = (r, c)) :
    Completes i s (((eaBump sz ea (fetched i s)).setCcr c).setDn sz dn r) [dn] (movedRegs ea) [] := by
  refine ⟨?_, ?_⟩
  · rw [hexec, eaToDn_plain hm ha, ← hwords, hf]
    rfl
  · have hbump := (sameBut_fetched i s [dn] (movedRegs ea) []).eaBump sz fun _ hn => hn
    exact (hbump.setCcr c).setDn List.mem_cons_self r

/-- An operation on one location changes the location, the codes, the moved register and PC (R158). -/
theorem completes_updateEa {f : State → BitVec sz.bits → BitVec sz.bits × Ccr}
    (hexec : exec i s = .next (updateEa pre sz ea f s)) (hwords : i.words = 1 + pre + eaCount sz ea) (hm : s.memMap = [])
    (hkind : EaSet.dataAlterable.accepts ea.kind = true) (ha : locAligned sz (operandLoc sz pre ea s) = true)
    (hf : f (eaBump sz ea (fetched i s)) (locValue sz (operandLoc sz pre ea s) s) = (r, c)) :
    let loc := operandLoc sz pre ea s
    Completes i s (locStore sz loc r ((eaBump sz ea (fetched i s)).setCcr c)) (locData loc) (movedRegs ea)
      (locBytes sz loc) := by
  intro loc
  refine ⟨?_, ?_⟩
  · rw [hexec, updateEa_plain hm (eaLoc_writable _ _ _ _ hkind) ha, ← Nat.add_assoc, ← hwords]
    rw [fetched] at hf ⊢
    simp only [hf, loc]
  · have hbump := (sameBut_fetched i s (locData loc) (movedRegs ea) (locBytes sz loc)).eaBump sz fun _ hn => hn
    exact (hbump.setCcr c).locStore r (fun _ hn => hn) fun _ hb => hb

/-- An operation that only reads its operand changes the codes, the moved register and PC (R213, R246). -/
theorem completes_testEa {f : State → BitVec sz.bits → Ccr} (hexec : exec i s = .next (testEa pre sz ea f s))
    (hwords : i.words = 1 + pre + eaCount sz ea) (hm : s.memMap = [])
    (ha : locAligned sz (operandLoc sz pre ea s) = true)
    (hf : f (eaBump sz ea (fetched i s)) (locValue sz (operandLoc sz pre ea s) s) = c) :
    Completes i s ((eaBump sz ea (fetched i s)).setCcr c) [] (movedRegs ea) [] := by
  refine ⟨?_, ((sameBut_fetched i s _ _ _).eaBump sz fun _ hn => hn).setCcr c⟩
  rw [hexec, testEa_plain hm ha, ← Nat.add_assoc, ← hwords]
  rw [fetched] at hf ⊢
  simp only [hf]

end

/-! Operations -/

/-- Settles O38: the four are one shape, each with its result and codes. -/
theorem operationsToDataRegister : Obligations.OperationsToDataRegister := fun sz ea dn _ hm ha =>
  ⟨completes_eaToDn (i := .addToReg sz ea dn) rfl (encSizedEa_length _ _ _) hm ha rfl,
    completes_eaToDn (i := .subToReg sz ea dn) rfl (encSizedEa_length _ _ _) hm ha rfl,
    completes_eaToDn (i := .orToReg sz ea dn) rfl (encSizedEa_length _ _ _) hm ha rfl,
    completes_eaToDn (i := .andToReg sz ea dn) rfl (encSizedEa_length _ _ _) hm ha rfl⟩

/-- Settles O39: Dn and the codes are read after the operand, which has moved neither. -/
theorem operationsToOperand : Obligations.OperationsToOperand := fun sz dn ea _ hm hkind ha =>
  ⟨completes_updateEa (i := .addToEa sz dn ea) rfl (encSizedEa_length _ _ _) hm hkind ha (by simp [addResult]),
    completes_updateEa (i := .subToEa sz dn ea) rfl (encSizedEa_length _ _ _) hm hkind ha (by simp [subResult]),
    completes_updateEa (i := .orToEa sz dn ea) rfl (encSizedEa_length _ _ _) hm hkind ha (by simp [logicResult]),
    completes_updateEa (i := .andToEa sz dn ea) rfl (encSizedEa_length _ _ _) hm hkind ha (by simp [logicResult]),
    completes_updateEa (i := .eor sz dn ea) rfl (encSizedEa_length _ _ _) hm hkind ha (by simp [logicResult])⟩

/-- Settles O40: the same shape, the operand's extension words after the immediate's. -/
theorem immediateOperations : Obligations.ImmediateOperations := fun sz imm ea _ hm hkind ha =>
  ⟨completes_updateEa (i := .addi sz imm ea) rfl (encImmEa_words _ _ _ _) hm hkind ha rfl,
    completes_updateEa (i := .subi sz imm ea) rfl (encImmEa_words _ _ _ _) hm hkind ha rfl,
    completes_updateEa (i := .ori sz imm ea) rfl (encImmEa_words _ _ _ _) hm hkind ha (by simp [logicResult]),
    completes_updateEa (i := .andi sz imm ea) rfl (encImmEa_words _ _ _ _) hm hkind ha (by simp [logicResult]),
    completes_updateEa (i := .eori sz imm ea) rfl (encImmEa_words _ _ _ _) hm hkind ha (by simp [logicResult])⟩

/-- ADDQ to any operand but An is the operation on one location (R394). -/
theorem exec_addq {sz : Size} {q : Fin 8} {ea : EA} {s : State} (hkind : EaSet.dataAlterable.accepts ea.kind = true) :
    exec (.addq sz q ea) s =
      .next (updateEa 0 sz ea (fun _ v => addResult (BitVec.ofNat sz.bits (quickValue q)) v) s) := by
  cases ea with
  | aReg n => cases hkind
  | _ => rfl

/-- SUBQ to any operand but An is the operation on one location (R244). -/
theorem exec_subq {sz : Size} {q : Fin 8} {ea : EA} {s : State} (hkind : EaSet.dataAlterable.accepts ea.kind = true) :
    exec (.subq sz q ea) s =
      .next (updateEa 0 sz ea (fun _ v => subResult (BitVec.ofNat sz.bits (quickValue q)) v) s) := by
  cases ea with
  | aReg n => cases hkind
  | _ => rfl

/-- A quick operation on An changes An and PC, at any size (R244, R394). -/
theorem completes_quick_aReg {i : Instr} {writes : List Dest} {n : RegNum} {f : Long → Long} {s : State}
    (hexec : exec i s = .next (runInstr 0 writes (fun _ => modify fun t => t.setA n (f (t.readA n))) s))
    (hwords : i.words = 1) (hm : s.memMap = []) :
    CompletesKeepingCcr i s ((fetched i s).setA n (f (s.readA n))) [] [n] [] :=
  completesKeepingCcr_of_act hexec hwords hm (by rw [act_modify, fetched_readA])
    ((sameBut_fetched i s _ _ _).setA List.mem_cons_self _) (by simp)

/-- Settles O41: an address register is apart from every other operand. -/
theorem quickOperations : Obligations.QuickOperations := fun sz q _ hm =>
  ⟨fun _ hkind ha =>
    ⟨completes_updateEa (exec_addq hkind) (encSizedEa_length _ _ _) hm hkind ha rfl,
      completes_updateEa (exec_subq hkind) (encSizedEa_length _ _ _) hm hkind ha rfl⟩,
    fun n => completes_quick_aReg (i := .addq sz q (.aReg n)) (f := (· + BitVec.ofNat 32 (quickValue q))) rfl rfl hm,
    fun n => completes_quick_aReg (i := .subq sz q (.aReg n)) (f := (· - BitVec.ofNat 32 (quickValue q))) rfl rfl hm⟩

/-- Settles O42: a negation is 0 minus the operand; TAS sets the codes of the byte it read. -/
theorem singleOperandOperations : Obligations.SingleOperandOperations := fun sz ea _ hm hkind =>
  ⟨fun ha =>
    ⟨completes_updateEa (i := .neg sz ea) rfl (encSizedEa_length _ _ _) hm hkind ha rfl,
      completes_updateEa (i := .negx sz ea) rfl (encSizedEa_length _ _ _) hm hkind ha
        (by simp only [eaBump_ccr, fetched_ccr]; rfl),
      completes_updateEa (i := .not sz ea) rfl (encSizedEa_length _ _ _) hm hkind ha (by simp [logicResult])⟩,
    completes_updateEa (i := .tas ea) rfl (encEa_length _ _ _) hm hkind (locAligned_byte _) (by simp)⟩

/-! Compares -/

/-- CMPM's whole effect: the source is read and its register moved before the other register is read (R216). -/
theorem completes_cmpm (sz : Size) (ay ax : RegNum) {s : State} (hm : s.memMap = []) :
    let i := Instr.cmpm sz ay ax
    let u := (fetched i s).setA ay (s.readA ay + incAmount ay sz)
    let v := peek sz s.mem (s.readA ay)
    let d := peek sz s.mem (u.readA ax)
    misaligned sz (s.readA ay) = false → misaligned sz (u.readA ax) = false →
    Completes i s ((u.setA ax (u.readA ax + incAmount ax sz)).setCcr (cmpFlags s.ccr v d (d - v))) [] [ay, ax] [] := by
  intro i u v d hsrc hdst
  have hreadSrc : readEa sz 0 (.postInc ay) (fetched i s) = .ok v u := by
    have h := readEa_plain (s := fetched i s) (sz := sz) (pcx := 0) (ea := .postInc ay) hm
      (by simpa [eaLoc, locAligned] using hsrc)
    simpa [eaLoc, eaBump, locValue] using h
  have hreadDst : readEa sz 0 (.postInc ax) u = .ok d (u.setA ax (u.readA ax + incAmount ax sz)) := by
    have h := readEa_plain (s := u) (sz := sz) (pcx := 0) (ea := .postInc ax) (by simp [u, hm])
      (by simpa [eaLoc, locAligned] using hdst)
    simpa [eaLoc, eaBump, locValue, u] using h
  refine ⟨exec_of_act (ext := 0) rfl rfl hm ?_, ?_⟩
  · rw [act_bind_ok hreadSrc, act_bind_ok hreadDst]
    simp [u]
  · have hmoved := (sameBut_fetched i s [] [ay, ax] []).setA (n := ay) (by simp) (s.readA ay + incAmount ay sz)
    exact (hmoved.setA (by simp) _).setCcr _

/-- Settles O43: five are the shape that only reads; CMPM reads two operands. -/
theorem comparesSetFlagsOnly : Obligations.ComparesSetFlagsOnly := by
  intro sz ea imm n ay ax s hm
  refine ⟨fun ha => ⟨?cmp, ?tst⟩, fun ha => ?cmpi, fun wl ha => ?cmpa, completes_cmpm sz ay ax hm⟩
  case cmp => exact completes_testEa (i := .cmp sz ea n) rfl (encSizedEa_length _ _ _) hm ha (by simp)
  case tst => exact completes_testEa (i := .tst sz ea) rfl (encSizedEa_length _ _ _) hm ha (by simp)
  case cmpi => exact completes_testEa (i := .cmpi sz imm ea) rfl (encImmEa_words _ _ _ _) hm ha (by simp)
  case cmpa =>
    cases wl with
    | word => exact completes_testEa (i := .cmpaW ea n) rfl (encEa_length _ _ _) hm ha (by simp)
    | long => exact completes_testEa (i := .cmpaL ea n) rfl (encEa_length _ _ _) hm ha (by simp [sextTo])

end Sys2Proof.Machine
end

section
/-! SUPPORT. Products and quotients (O25, O48): the product of two words fits in a longword; a division is Euclid's, truncated
toward zero, and its remainder always fits in a word. -/

namespace Sys2Proof.Machine

open Sys2Proof.Safety

/-! Products -/

theorem mulu_toNat (d v : Word) : (d.setWidth 32 * v.setWidth 32 : Long).toNat = d.toNat * v.toNat := by
  have hlt : d.toNat * v.toNat < 2 ^ (16 * 2) := BitVec.toNat_mul_toNat_lt
  rw [BitVec.toNat_mul, BitVec.toNat_setWidth_of_le (by decide), BitVec.toNat_setWidth_of_le (by decide),
    Nat.mod_eq_of_lt hlt]

theorem muls_toInt (d v : Word) : (d.signExtend 32 * v.signExtend 32 : Long).toInt = d.toInt * v.toInt := by
  have hle : d.toInt * v.toInt ≤ 2 ^ (16 * 2 - 2) := BitVec.toInt_mul_toInt_le
  have hge : -2 ^ (16 * 2 - 2) ≤ d.toInt * v.toInt := BitVec.le_toInt_mul_toInt
  rw [BitVec.toInt_mul, BitVec.toInt_signExtend_of_le (by decide), BitVec.toInt_signExtend_of_le (by decide)]
  exact Int.bmod_eq_of_le (by omega) (by omega)

/-! Quotients -/

/-- DIVU's quotient is above the largest word exactly when the dividend's high word reaches the divisor (R218). -/
theorem divu_overflows_iff {v : Word} (hv : v ≠ 0) (d : Long) :
    d.toNat / v.toNat > 0xFFFF ↔ v.toNat ≤ d.toNat / 2 ^ 16 := by
  have hpos : 0 < v.toNat := Nat.pos_of_ne_zero fun h => hv (BitVec.eq_of_toNat_eq h)
  calc d.toNat / v.toNat > 0xFFFF
    _ ↔ 2 ^ 16 ≤ d.toNat / v.toNat := Iff.rfl
    _ ↔ 2 ^ 16 * v.toNat ≤ d.toNat := Nat.le_div_iff_mul_le hpos
    _ ↔ v.toNat ≤ d.toNat / 2 ^ 16 := by rw [Nat.le_div_iff_mul_le (by decide), Nat.mul_comm]

/-- What DIVU finds for a divisor that is not 0 (R218). -/
theorem divuResult_cases {v : Word} (hv : v ≠ 0) (d : Long) :
    (v.toNat ≤ d.toNat / 2 ^ 16 ∧ divuResult v d = .overflow) ∨
    (¬ v.toNat ≤ d.toNat / 2 ^ 16 ∧
      divuResult v d = .result (BitVec.ofNat 16 (d.toNat / v.toNat)) (BitVec.ofNat 16 (d.toNat % v.toNat))) := by
  rw [← divu_overflows_iff hv]
  by_cases h : d.toNat / v.toNat > 0xFFFF
  · exact .inl ⟨h, by rw [divuResult, if_neg hv, if_pos h]⟩
  · exact .inr ⟨h, by rw [divuResult, if_neg hv, if_neg h]⟩

/-- DIVS's quotient is no word (R217). -/
def DivsOverflows (v : Word) (d : Long) : Prop :=
  d.toInt.tdiv v.toInt < -32768 ∨ 32767 < d.toInt.tdiv v.toInt

/-- What DIVS finds for a divisor that is not 0 (R217). -/
theorem divsResult_cases {v : Word} (hv : v ≠ 0) (d : Long) :
    (DivsOverflows v d ∧ divsResult v d = .overflow) ∨
    (¬ DivsOverflows v d ∧
      divsResult v d = .result (BitVec.ofInt 16 (d.toInt.tdiv v.toInt)) (BitVec.ofInt 16 (d.toInt.tmod v.toInt))) := by
  by_cases h : DivsOverflows v d
  · exact .inl ⟨h, (if_neg hv).trans (if_pos h)⟩
  · exact .inr ⟨h, (if_neg hv).trans (if_neg h)⟩

/-- Euclid's equation and the remainder's bound for DIVU (R218). -/
theorem divu_euclid {v : Word} (hv : v ≠ 0) {d : Long} (hfit : ¬ v.toNat ≤ d.toNat / 2 ^ 16) :
    d.toNat = (BitVec.ofNat 16 (d.toNat / v.toNat)).toNat * v.toNat + (BitVec.ofNat 16 (d.toNat % v.toNat)).toNat ∧
    (BitVec.ofNat 16 (d.toNat % v.toNat)).toNat < v.toNat := by
  have hq := mt (divu_overflows_iff hv d).mp hfit
  have hr : d.toNat % v.toNat < v.toNat := Nat.mod_lt _ (Nat.pos_of_ne_zero fun h => hv (BitVec.eq_of_toNat_eq h))
  have hv' := v.isLt
  rw [BitVec.toNat_ofNat, BitVec.toNat_ofNat, Nat.mod_eq_of_lt (by omega : d.toNat / v.toNat < 2 ^ 16),
    Nat.mod_eq_of_lt (by omega : d.toNat % v.toNat < 2 ^ 16)]
  exact ⟨(Nat.div_add_mod' _ _).symm, hr⟩

/-- A truncated division's remainder is 0 or has the dividend's sign. -/
theorem tmod_neg_iff {a b : Int} (h : a.tmod b ≠ 0) : a.tmod b < 0 ↔ a < 0 := by
  have hsign := Int.sign_tmod a b
  rw [if_neg (fun hdvd => h (Int.tmod_eq_zero_of_dvd hdvd))] at hsign
  rw [← Int.sign_eq_neg_one_iff_neg, ← Int.sign_eq_neg_one_iff_neg, hsign]

/-- Euclid's equation, the remainder's bound and its sign for DIVS (R217). -/
theorem divs_euclid {v : Word} (hv : v ≠ 0) {d : Long} (hfit : ¬ DivsOverflows v d) :
    let q := BitVec.ofInt 16 (d.toInt.tdiv v.toInt)
    let r := BitVec.ofInt 16 (d.toInt.tmod v.toInt)
    d.toInt = q.toInt * v.toInt + r.toInt ∧ r.toInt.natAbs < v.toInt.natAbs ∧ (r = 0 ∨ (r.toInt < 0 ↔ d.toInt < 0)) := by
  intro q r
  have hpos : 0 < v.toInt.natAbs := Int.natAbs_pos.mpr fun h => hv (BitVec.eq_of_toInt_eq h)
  have hrem : (d.toInt.tmod v.toInt).natAbs < v.toInt.natAbs := by
    rw [Int.natAbs_tmod]
    exact Nat.mod_lt _ hpos
  have hvle : -2 ^ 15 ≤ v.toInt := BitVec.le_toInt v
  have hvlt : v.toInt < 2 ^ 15 := BitVec.toInt_lt
  unfold DivsOverflows at hfit
  have hq : q.toInt = d.toInt.tdiv v.toInt := BitVec.toInt_ofInt_eq_self (by decide) (by omega) (by omega)
  have hr : r.toInt = d.toInt.tmod v.toInt := BitVec.toInt_ofInt_eq_self (by decide) (by omega) (by omega)
  rw [hq, hr]
  refine ⟨(Int.tdiv_mul_add_tmod _ _).symm, hrem, ?_⟩
  by_cases h0 : d.toInt.tmod v.toInt = 0
  · exact .inl (BitVec.eq_of_toInt_eq (hr.trans h0))
  · exact .inr (tmod_neg_iff h0)

/-- DIVU's three answers (R218, R219). -/
theorem divuResult_meaning (v : Word) (d : Long) :
    (divuResult v d = .zeroDivide ↔ v = 0) ∧ (divuResult v d = .overflow ↔ v ≠ 0 ∧ v.toNat ≤ d.toNat / 2 ^ 16) ∧
    ∀ q r, divuResult v d = .result q r → d.toNat = q.toNat * v.toNat + r.toNat ∧ r.toNat < v.toNat := by
  by_cases hv : v = 0
  · subst hv
    exact ⟨iff_of_true rfl rfl, iff_of_false nofun fun h => h.1 rfl, nofun⟩
  · rcases divuResult_cases hv d with ⟨hover, h⟩ | ⟨hfit, h⟩
    · rw [h]
      exact ⟨iff_of_false nofun hv, iff_of_true rfl ⟨hv, hover⟩, nofun⟩
    · rw [h]
      refine ⟨iff_of_false nofun hv, iff_of_false nofun fun h => hfit h.2, ?_⟩
      rintro _ _ ⟨⟩
      exact divu_euclid hv hfit

/-- DIVS's three answers (R217, R219). -/
theorem divsResult_meaning (v : Word) (d : Long) :
    (divsResult v d = .zeroDivide ↔ v = 0) ∧ (divsResult v d = .overflow ↔ v ≠ 0 ∧ DivsOverflows v d) ∧
    ∀ q r, divsResult v d = .result q r → d.toInt = q.toInt * v.toInt + r.toInt ∧ r.toInt.natAbs < v.toInt.natAbs ∧
      (r = 0 ∨ (r.toInt < 0 ↔ d.toInt < 0)) := by
  by_cases hv : v = 0
  · subst hv
    exact ⟨iff_of_true rfl rfl, iff_of_false nofun fun h => h.1 rfl, nofun⟩
  · rcases divsResult_cases hv d with ⟨hover, h⟩ | ⟨hfit, h⟩
    · rw [h]
      exact ⟨iff_of_false nofun hv, iff_of_true rfl ⟨hv, hover⟩, nofun⟩
    · rw [h]
      refine ⟨iff_of_false nofun hv, iff_of_false nofun fun h => hfit h.2, ?_⟩
      rintro _ _ ⟨⟩
      exact divs_euclid hv hfit

/-- Settles O25: the answers of the two divisions. -/
theorem divisionResults : Obligations.DivisionResults := by
  intro v d
  obtain ⟨huZero, huOverflow, huResult⟩ := divuResult_meaning v d
  obtain ⟨hsZero, hsOverflow, hsResult⟩ := divsResult_meaning v d
  exact ⟨huZero, hsZero, huOverflow, hsOverflow, huResult, hsResult⟩

/-! Multiplications -/

/-- A multiplication's whole effect: Dn is the product, of the low words (R221, R222). -/
theorem completes_multiply {i : Instr} {ea : EA} {dn : RegNum} {f : Word → Word → Long} {s : State}
    (hexec : exec i s = .next (multiply ea dn f s)) (hwords : i.words = 1 + eaCount .word ea) (hm : s.memMap = [])
    (ha : locAligned .word (operandLoc .word 0 ea s) = true) :
    let r := f (locValue .word (operandLoc .word 0 ea s) s) ((s.readD dn).setWidth 16)
    Completes i s (((eaBump .word ea (fetched i s)).setCcr (logicFlags s.ccr r)).setD dn r) [dn] (movedRegs ea) [] := by
  intro r
  refine ⟨exec_of_act hexec hwords hm ?_, ?_⟩
  · rw [act_bind_ok (readEa_fetched hm ha), act_modify]
    simp only [eaBump_readD, eaBump_ccr, fetched_readD, fetched_ccr, r]
  · have hbump := (sameBut_fetched i s [dn] (movedRegs ea) []).eaBump .word fun _ hn => hn
    exact (hbump.setCcr _).setD List.mem_cons_self r

/-- Settles O48: both are one shape, and neither product wraps. -/
theorem multiplyGivesProduct : Obligations.MultiplyGivesProduct := by
  intro ea dn s hm ha v d done
  exact ⟨d.signExtend 32 * v.signExtend 32, d.setWidth 32 * v.setWidth 32, muls_toInt d v, mulu_toNat d v,
    completes_multiply (i := .muls ea dn) (f := fun v d => d.signExtend 32 * v.signExtend 32) rfl (encEa_length _ _ _)
      hm ha,
    completes_multiply (i := .mulu ea dn) (f := fun v d => d.setWidth 32 * v.setWidth 32) rfl (encEa_length _ _ _)
      hm ha⟩

end Sys2Proof.Machine
end

section
/-! SUPPORT. Operations with extend (O45), divisions (O49, O50) and CHK (O51): what each effect does after its operands are read,
and the traps that two of them take. -/

namespace Sys2Proof.Machine

open Sys2Proof.Safety

/-! With extend -/

section
variable {i : Instr} {sz : Size} {f : Ccr → BitVec sz.bits → BitVec sz.bits → BitVec sz.bits × Ccr} {src dst : RegNum}
  {s : State}

/-- An operation with extend on two data registers (R245, R395). -/
theorem completes_extendReg (hexec : exec i s = .next (extendReg sz f src dst s)) (hwords : i.words = 1)
    (hm : s.memMap = []) :
    let p := f s.ccr (truncTo sz (s.readD src)) (truncTo sz (s.readD dst))
    Completes i s (((fetched i s).setCcr p.2).setDn sz dst p.1) [dst] [] [] := by
  refine completes_setCcr_setD hexec hm ?_
  rw [fetched, hwords]
  simp only [State.setDn, State.setPc_ccr, State.readD_setPc, State.readD_setCcr, Nat.add_zero]

/-- An operation with extend on memory: source read, destination read at `da`, result stored there (R245, R395). -/
theorem completes_extendMem (hexec : exec i s = .next (extendMem sz f src dst s)) (hwords : i.words = 1)
    (hm : s.memMap = []) {da : Long} :
    let u := (fetched i s).setA src (s.readA src - incAmount src sz)
    let sa := s.readA src - incAmount src sz
    let p := f s.ccr (peek sz s.mem sa) (peek sz s.mem da)
    da = u.readA dst - incAmount dst sz → misaligned sz sa = false → misaligned sz da = false →
    Completes i s (((u.setA dst (u.readA dst - incAmount dst sz)).setCcr p.2).setMem (poke sz s.mem da p.1)) []
      [src, dst] (bytesAt sz da) := by
  intro u sa p haddr hsa hda
  rw [← haddr]
  have hread : readPreDecPair sz src dst (fetched i s) =
      .ok (peek sz s.mem sa, peek sz s.mem da, da) (u.setA dst da) := by
    subst haddr
    have h := readPreDecPair_plain (s := fetched i s) (src := src) (dst := dst) hm (by simpa using hsa) (by simpa using hda)
    simpa only [fetched_readA, fetched_mem] using h
  have hwrite : writeMem sz da p.1 ((u.setA dst da).setCcr p.2) =
      .ok () (((u.setA dst da).setCcr p.2).setMem (poke sz s.mem da p.1)) := by
    have h := writeMem_plain (v := p.1) (s := (u.setA dst da).setCcr p.2) hda (by simp [u, hm])
    simpa [u] using h
  have hccr : u.ccr = s.ccr := by simp [u]
  refine ⟨exec_of_act hexec hwords hm ?_, ?_⟩
  · rw [act_bind_ok hread]
    simp only [act_get_bind, setFlags, act_modify_bind, State.setA_ccr, hccr]
    exact hwrite
  · have hmoved := (sameBut_fetched i s [] [src, dst] (bytesAt sz da)).setA (n := src) (by simp) sa
    exact ((hmoved.setA (n := dst) (by simp) da).setCcr p.2).poke (fun _ _ => by simp) p.1 fun _ hb => hb

end

/-- The destination's address does not depend on the instruction's length: PC is no operand. -/
theorem preDec_addr_eq (i : Instr) (sz : Size) (src dst : RegNum) (s : State) (a : Long) :
    let u := fun j => (fetched j s).setA src a
    ((u .nop).setA dst ((u .nop).readA dst - incAmount dst sz)).readA dst = (u i).readA dst - incAmount dst sz := by
  intro u
  rw [State.readA_setA_self]
  by_cases h : dst = src
  · simp only [u, h, State.readA_setA_self]
  · simp only [u, State.readA_setA_other _ _ _ _ h, fetched_readA]

/-- Settles O45: the two shapes, each with the sum and the difference. -/
theorem extendedOperations : Obligations.ExtendedOperations := by
  intro sz src dst s hm x addF subF
  refine ⟨⟨?addReg, ?subReg⟩, ?mem⟩
  case addReg =>
    exact completes_extendReg (i := .addxReg sz src dst) (f := fun old v d => addxResult old v d) rfl rfl hm
  case subReg =>
    exact completes_extendReg (i := .subxReg sz src dst) (f := fun old v d => subxResult old v d) rfl rfl hm
  case mem =>
    intro moved sa da hsa hda v d done
    exact ⟨completes_extendMem (i := .addxMem sz src dst) (f := fun old v d => addxResult old v d) rfl rfl hm
        (preDec_addr_eq _ sz src dst s sa) hsa hda,
      completes_extendMem (i := .subxMem sz src dst) (f := fun old v d => subxResult old v d) rfl rfl hm
        (preDec_addr_eq _ sz src dst s sa) hsa hda⟩

/-! Traps -/

/-- A group 2 exception on plain memory with an even SSP saves the next instruction's address (R438, R443, R444). -/
theorem raiseNext_plain (v : Nat) {s : State} (hm : s.memMap = []) (hssp : s.ssp.getLsbD 0 = false) :
    raiseNext v s = .ok () (entered v s.pc none s) := by
  have hframe := pushFrame_plain (s := { s.setSr (entrySr s.readSr none) with groupZero := false, stale := [] }) s.pc
    s.readSr hm (entrySr_supervisor s _ none) hssp
  have heven : (BitVec.ofNat 32 (4 * v)).getLsbD 0 = false := by
    rw [BitVec.getLsbD_ofNat, Nat.testBit_zero]
    simp
    omega
  simp only [raiseNext, exceptionEntry, act_get_bind, act_modify_bind]
  rw [act_bind_ok hframe, act_bind_ok (readMem_plain (aligned_of_even heven) (by simp [hm]))]
  rfl

/-- The trap of an instruction that has set the codes to free values (R443, R444). -/
theorem raiseNext_drew_setCcr (v k : Nat) (f : Ccr) {u : State} (hm : u.memMap = []) (hssp : u.ssp.getLsbD 0 = false) :
    raiseNext v (drew k (u.setCcr f)) = .ok () (entered v u.pc none (drew k (u.setCcr f))) :=
  raiseNext_plain v hm hssp

/-! Divisions -/

theorem divideEffect_result (dn : RegNum) (q r : Word) (u : State) :
    divideEffect dn (.result q r) u = .ok () ((u.setCcr (logicFlags u.ccr q)).setD dn (r ++ q)) := rfl

/-- On overflow two codes are free values (R219, U2). -/
theorem divideEffect_overflow (dn : RegNum) (u : State) :
    ∃ n z : Bool, divideEffect dn .overflow u =
      .ok () (drew 2 (u.setCcr { x := u.ccr.x, n := n, z := z, v := true, c := false })) :=
  ⟨_, _, rfl⟩

/-- With a divisor of 0 three codes are free values, drawn before the trap saves SR (R443, U2). -/
theorem divideEffect_zeroDivide (dn : RegNum) (u : State) :
    ∃ n z v : Bool, divideEffect dn .zeroDivide u =
      raiseNext 5 (drew 3 (u.setCcr { x := u.ccr.x, n := n, z := z, v := v, c := false })) :=
  ⟨_, _, _, rfl⟩

section
variable {i : Instr} {ea : EA} {dn : RegNum} {f : Word → Long → Quotient} {s : State}

/-- A division's operand is read before its effect (R219). -/
theorem exec_divide {t : State} (hexec : exec i s = .next (divide ea dn f s)) (hwords : i.words = 1 + eaCount .word ea)
    (hm : s.memMap = []) (ha : locAligned .word (operandLoc .word 0 ea s) = true)
    (heffect : divideEffect dn (f (locValue .word (operandLoc .word 0 ea s) s) (s.readD dn))
      (eaBump .word ea (fetched i s)) = .ok () t) :
    exec i s = .next (afterInstr s t) := by
  refine exec_of_act hexec hwords hm ?_
  rw [act_bind_ok (readEa_fetched hm ha), act_get_bind, eaBump_readD, fetched_readD]
  exact heffect

/-- A division by a word that is not 0, whole (R217, R218, R219). -/
theorem completes_divide (hexec : exec i s = .next (divide ea dn f s)) (hwords : i.words = 1 + eaCount .word ea)
    (hm : s.memMap = []) (ha : locAligned .word (operandLoc .word 0 ea s) = true) :
    let u := eaBump .word ea (fetched i s)
    let res := f (locValue .word (operandLoc .word 0 ea s) s) (s.readD dn)
    (∀ q r : Word, res = .result q r →
      Completes i s ((u.setCcr (logicFlags s.ccr q)).setD dn (r ++ q)) [dn] (movedRegs ea) []) ∧
    (res = .overflow → ∃ n z : Bool,
      Completes i s (drew 2 (u.setCcr { x := s.ccr.x, n := n, z := z, v := true, c := false })) [] (movedRegs ea) []) := by
  intro u res
  have hccr : u.ccr = s.ccr := by rw [eaBump_ccr, fetched_ccr]
  have hframe : ∀ ds, SameBut s u ds (movedRegs ea) [] := fun ds =>
    (sameBut_fetched i s ds _ _).eaBump .word fun _ hn => hn
  refine ⟨fun q r hres => ⟨exec_divide hexec hwords hm ha ?_, ((hframe _).setCcr _).setD List.mem_cons_self _⟩,
    fun hres => ?_⟩
  · exact (congrArg (divideEffect dn · u) hres).trans (hccr ▸ divideEffect_result dn q r u)
  · obtain ⟨n, z, heffect⟩ := divideEffect_overflow dn u
    rw [hccr] at heffect
    exact ⟨n, z, exec_divide hexec hwords hm ha ((congrArg (divideEffect dn · u) hres).trans heffect),
      ((hframe _).setCcr _).drew 2⟩

end

/-- Settles O49: DIVS and DIVU differ in what they find, not in what they do with it. -/
theorem divideGivesQuotient : Obligations.DivideGivesQuotient := fun ea dn _ hm ha =>
  ⟨completes_divide (i := .divu ea dn) rfl (encEa_length _ _ _) hm ha,
    completes_divide (i := .divs ea dn) rfl (encEa_length _ _ _) hm ha⟩

/-- A division that finds a divisor of 0 takes vector 5 (R219, R443). -/
theorem exec_divide_zero {i : Instr} {ea : EA} {dn : RegNum} {f : Word → Long → Quotient} {s : State}
    (hexec : exec i s = .next (divide ea dn f s)) (hwords : i.words = 1 + eaCount .word ea) (hm : s.memMap = [])
    (ha : locAligned .word (operandLoc .word 0 ea s) = true)
    (hzero : f (locValue .word (operandLoc .word 0 ea s) s) (s.readD dn) = .zeroDivide) :
    let u := eaBump .word ea (fetched i s)
    u.ssp.getLsbD 0 = false →
    ∃ n z v : Bool, exec i s = .next (afterInstr s (entered 5 u.pc none
      (drew 3 (u.setCcr { x := s.ccr.x, n := n, z := z, v := v, c := false })))) := by
  intro u hssp
  obtain ⟨n, z, v, heffect⟩ := divideEffect_zeroDivide dn u
  rw [eaBump_ccr, fetched_ccr, raiseNext_drew_setCcr _ _ _ (by simpa [u] using hm) hssp] at heffect
  exact ⟨n, z, v, exec_divide hexec hwords hm ha ((congrArg (divideEffect dn · u) hzero).trans heffect)⟩

/-- Settles O50: both divisions find the zero divisor. -/
theorem zeroDivideTraps : Obligations.ZeroDivideTraps := by
  rintro ea dn i s (rfl | rfl) hm ha hv
  · exact exec_divide_zero rfl (encEa_length _ _ _) hm ha (if_pos hv)
  · exact exec_divide_zero rfl (encEa_length _ _ _) hm ha (if_pos hv)

/-! CHK -/

/-- What CHK does with the bound and the value: the codes, drawn before the trap, and outside the bounds the trap (R211,
R444). -/
def chkEffect (bound v : Word) : Act Unit := do
  let n ← drawBit
  let z ← drawBit
  let o ← drawBit
  let c ← drawBit
  modify fun s => s.setCcr
    { x := s.ccr.x, n := if v.toInt < 0 then true else if bound.toInt < v.toInt then false else n, z := z, v := o, c := c }
  if v.toInt < 0 ∨ bound.toInt < v.toInt then
    raiseNext 6

/-- Within the bounds four codes are free values (R211, U1). -/
theorem chkEffect_within {bound v : Word} (h : ¬ (v.toInt < 0 ∨ bound.toInt < v.toInt)) (u : State) :
    ∃ n z o c : Bool, chkEffect bound v u =
      .ok () (drew 4 (u.setCcr { x := u.ccr.x, n := n, z := z, v := o, c := c })) := by
  simp only [chkEffect, if_neg h]
  exact ⟨_, _, _, _, rfl⟩

/-- Outside them N tells below zero from above the bound, and the trap follows (R211, R444). -/
theorem chkEffect_outside {bound v : Word} (h : v.toInt < 0 ∨ bound.toInt < v.toInt) (u : State) :
    ∃ z o c : Bool, chkEffect bound v u =
      raiseNext 6 (drew 4 (u.setCcr { x := u.ccr.x, n := decide (v.toInt < 0), z := z, v := o, c := c })) := by
  have hn : ∀ n, (if v.toInt < 0 then true else if bound.toInt < v.toInt then false else n) = decide (v.toInt < 0) := by
    intro n
    by_cases hneg : v.toInt < 0
    · simp [hneg]
    · simp [hneg, h.resolve_left hneg]
  simp only [chkEffect, if_pos h, hn]
  exact ⟨_, _, _, rfl⟩

/-- CHK reads its bound before anything else (R211). -/
theorem exec_chk {ea : EA} {dn : RegNum} {s t : State} (hm : s.memMap = [])
    (ha : locAligned .word (operandLoc .word 0 ea s) = true)
    (heffect : chkEffect (locValue .word (operandLoc .word 0 ea s) s) ((s.readD dn).setWidth 16)
      (eaBump .word ea (fetched (.chk ea dn) s)) = .ok () t) :
    exec (.chk ea dn) s = .next (afterInstr s t) := by
  refine exec_of_act rfl (encEa_length _ _ _) hm ?_
  rw [act_bind_ok (readEa_fetched hm ha), act_get_bind, eaBump_readD, fetched_readD]
  exact heffect

/-- Settles O51: the two ways of CHK's effect. -/
theorem chkChecksBounds : Obligations.ChkChecksBounds := by
  intro ea dn s hm ha i u bound v
  have hccr : u.ccr = s.ccr := by rw [eaBump_ccr, fetched_ccr]
  refine ⟨fun hlow hhigh => ?_, fun hout hssp => ?_⟩
  · obtain ⟨n, z, o, c, heffect⟩ := chkEffect_within (by omega : ¬ (v.toInt < 0 ∨ bound.toInt < v.toInt)) u
    rw [hccr] at heffect
    have hbump : SameBut s u [] (movedRegs ea) [] := (sameBut_fetched i s _ _ _).eaBump .word fun _ hn => hn
    exact ⟨n, z, o, c, exec_chk hm ha heffect, (hbump.setCcr _).drew 4⟩
  · obtain ⟨z, o, c, heffect⟩ := chkEffect_outside hout u
    rw [hccr, raiseNext_drew_setCcr _ _ _ (by simpa [u] using hm) hssp] at heffect
    exact ⟨z, o, c, exec_chk hm ha heffect⟩


end Sys2Proof.Machine
end

section
/-! SUPPORT. A shift or rotate is a step repeated, and the shifts in closed form (O23). A step shifts the operand by one place,
so its repetition shifts by the count; C is what the last step moved out of the operand as it then was. -/

namespace Sys2Proof.Machine

/-! A step repeated -/

section
variable {n : Nat} {step : ShiftState n → ShiftState n}

theorem iterate_succ (step : ShiftState n → ShiftState n) (k : Nat) (t : ShiftState n) :
    iterate step (k + 1) t = step (iterate step k t) := by
  induction k generalizing t with
  | zero => rfl
  | succ k ih => exact ih (step t)

/-- What each step changes by `op` of 1 is changed by `op` of the count, when `op` adds its counts. -/
theorem iterate_closed {α : Type} (part : ShiftState n → α) (op : α → Nat → α) (hzero : ∀ a, op a 0 = a)
    (hadd : ∀ a k, op a (k + 1) = op (op a k) 1) (hstep : ∀ t, part (step t) = op (part t) 1) (cnt : Nat)
    (t : ShiftState n) : part (iterate step cnt t) = op (part t) cnt := by
  induction cnt with
  | zero => exact (hzero _).symm
  | succ k ih => rw [iterate_succ, hstep, ih, ← hadd]

/-- What no step changes. -/
theorem iterate_kept {α : Type} (part : ShiftState n → α) (hstep : ∀ t, part (step t) = part t) (cnt : Nat)
    (t : ShiftState n) : part (iterate step cnt t) = part t :=
  iterate_closed part (fun a _ => a) (fun _ => rfl) (fun _ _ => rfl) hstep cnt t

/-- What every step leaves true is true after a count that is not 0. -/
theorem iterate_of_pos (P : ShiftState n → Prop) (hstep : ∀ t, P (step t)) {cnt : Nat} (h : 1 ≤ cnt)
    (t : ShiftState n) : P (iterate step cnt t) := by
  obtain ⟨k, rfl⟩ := Nat.exists_eq_add_of_le' h
  rw [iterate_succ]
  exact hstep _

theorem iterate_x_eq_c (hstep : ∀ t, (step t).x = (step t).c) {cnt : Nat} (h : 1 ≤ cnt) (t : ShiftState n) :
    (iterate step cnt t).x = (iterate step cnt t).c :=
  iterate_of_pos (fun u => u.x = u.c) hstep h t

/-- V is cleared, unless a step sets it (R279). -/
theorem shiftResult_v (hstep : ∀ t, (step t).v = t.v) (c0 : Ccr → Bool) (cnt : Nat) (old : Ccr) (v : BitVec n) :
    (shiftResult step c0 cnt old v).2.v = false :=
  iterate_kept (·.v) hstep cnt _

/-- N and Z are the result's, for every step and count (R279). -/
theorem shiftResult_nz (step : ShiftState n → ShiftState n) (c0 : Ccr → Bool) (cnt : Nat) (old : Ccr) (v : BitVec n) :
    let r := shiftResult step c0 cnt old v
    r.2.n = r.1.msb ∧ r.2.z = decide (r.1 = 0) :=
  ⟨rfl, rfl⟩

end

/-! Shifts -/

section
variable {n : Nat} {step : ShiftState n → ShiftState n}

theorem iterate_val_shiftLeft (hval : ∀ t, (step t).val = t.val <<< 1) (cnt : Nat) (t : ShiftState n) :
    (iterate step cnt t).val = t.val <<< cnt :=
  iterate_closed (·.val) (· <<< ·) (fun _ => BitVec.shiftLeft_zero _) (fun _ _ => BitVec.shiftLeft_add _ _ _) hval cnt t

theorem iterate_lsrStep_val (cnt : Nat) (t : ShiftState n) : (iterate lsrStep cnt t).val = t.val >>> cnt :=
  iterate_closed (·.val) (· >>> ·) (fun _ => BitVec.ushiftRight_zero _) (fun _ _ => BitVec.shiftRight_add _ _ _)
    (fun _ => rfl) cnt t

theorem iterate_asrStep_val (cnt : Nat) (t : ShiftState n) : (iterate asrStep cnt t).val = t.val.sshiftRight cnt :=
  iterate_closed (·.val) BitVec.sshiftRight (fun _ => BitVec.sshiftRight_zero) (fun _ _ => BitVec.sshiftRight_add)
    (fun _ => rfl) cnt t

/-- ASR divides the signed operand, toward minus infinity (R402). -/
theorem iterate_asrStep_toInt (cnt : Nat) (t : ShiftState n) :
    (iterate asrStep cnt t).val.toInt = t.val.toInt / 2 ^ cnt := by
  rw [iterate_asrStep_val, BitVec.toInt_sshiftRight, Int.shiftRight_eq_div_pow, Int.natCast_pow, Nat.cast_ofNat]

/-- V of ASL is set when the sign changes at some step (R401). -/
theorem iterate_aslStep_v (cnt : Nat) (t : ShiftState n) :
    (iterate aslStep cnt t).v = true ↔
      t.v = true ∨ ∃ k < cnt, (t.val <<< k).msb ≠ (t.val <<< (k + 1)).msb := by
  induction cnt with
  | zero => simp [iterate]
  | succ k ih =>
    have hval : (iterate aslStep k t).val = t.val <<< k := iterate_val_shiftLeft (fun _ => rfl) k t
    rw [iterate_succ, aslStep, Bool.or_eq_true, ih, bne_iff_ne, hval, ← BitVec.shiftLeft_add, Nat.exists_lt_succ_right,
      or_assoc, ne_comm]

end

section
variable {n cnt : Nat} {step : ShiftState (n + 1) → ShiftState (n + 1)}

/-- The bit that leaves at the left in the last step (R271, R401). -/
theorem iterate_c_shiftLeft (hval : ∀ t, (step t).val = t.val <<< 1) (hc : ∀ t, (step t).c = t.val.msb) (h : 1 ≤ cnt)
    (t : ShiftState (n + 1)) : (iterate step cnt t).c = (decide (cnt ≤ n + 1) && t.val.getLsbD (n + 1 - cnt)) := by
  obtain ⟨k, rfl⟩ := Nat.exists_eq_add_of_le' h
  rw [iterate_succ, hc, iterate_val_shiftLeft hval, BitVec.msb_shiftLeft, BitVec.getMsbD_eq_getLsbD,
    Nat.add_sub_cancel, Nat.add_sub_add_right]
  rfl

/-- The bit that leaves at the right in the last step (R272). -/
theorem iterate_lsrStep_c (h : 1 ≤ cnt) (t : ShiftState n) : (iterate lsrStep cnt t).c = t.val.getLsbD (cnt - 1) := by
  obtain ⟨k, rfl⟩ := Nat.exists_eq_add_of_le' h
  rw [iterate_succ, lsrStep, iterate_lsrStep_val, BitVec.getLsbD_ushiftRight]
  rfl

/-- The bit that leaves at the right in the last step, the sign beyond the operand (R402). -/
theorem iterate_asrStep_c (h : 1 ≤ cnt) (t : ShiftState (n + 1)) :
    (iterate asrStep cnt t).c = if cnt ≤ n + 1 then t.val.getLsbD (cnt - 1) else t.val.msb := by
  obtain ⟨k, rfl⟩ := Nat.exists_eq_add_of_le' h
  rw [iterate_succ, asrStep, iterate_asrStep_val, BitVec.getLsbD_sshiftRight]
  simp

end

/-- Settles O23: each shift's operand, C and V after the count; X is C whenever a step was made. -/
theorem shiftsClosedForm : Obligations.ShiftsClosedForm := by
  intro n cnt old v ll lr al ar
  refine ⟨iterate_val_shiftLeft (fun _ => rfl) cnt _, iterate_lsrStep_val cnt _,
    iterate_val_shiftLeft (fun _ => rfl) cnt _, iterate_asrStep_toInt cnt _,
    shiftResult_v (step := lslStep) (fun _ => rfl) _ _ _ _, shiftResult_v (step := lsrStep) (fun _ => rfl) _ _ _ _,
    shiftResult_v (step := asrStep) (fun _ => rfl) _ _ _ _, ?aslOverflow, ?countZero,
    fun h => ⟨?leftCarry, iterate_lsrStep_c h _, iterate_x_eq_c (fun _ => rfl) h _, iterate_asrStep_c h _,
      iterate_x_eq_c (fun _ => rfl) h _⟩, ?resultCodes⟩
  case aslOverflow => exact (iterate_aslStep_v cnt _).trans (or_iff_right Bool.false_ne_true)
  case countZero =>
    rintro rfl
    simp only [List.forall_mem_cons]
    exact ⟨⟨rfl, rfl⟩, ⟨rfl, rfl⟩, ⟨rfl, rfl⟩, ⟨rfl, rfl⟩, nofun⟩
  case leftCarry =>
    simp only [List.forall_mem_cons]
    exact ⟨⟨iterate_c_shiftLeft (fun _ => rfl) (fun _ => rfl) h _, iterate_x_eq_c (fun _ => rfl) h _⟩,
      ⟨iterate_c_shiftLeft (fun _ => rfl) (fun _ => rfl) h _, iterate_x_eq_c (fun _ => rfl) h _⟩, nofun⟩
  case resultCodes =>
    simp only [List.forall_mem_cons]
    exact ⟨shiftResult_nz _ _ _ _ _, shiftResult_nz _ _ _ _ _, shiftResult_nz _ _ _ _ _, shiftResult_nz _ _ _ _ _,
      nofun⟩

end Sys2Proof.Machine
end

section
/-! SUPPORT. The rotates in closed form (O24). ROXL and ROXR are rotates too, of the operand with X above it, so all
four rest on what a rotate's bits are and on how two rotates add. -/

namespace Sys2Proof.Machine

/-! Rotates of a bit vector -/

/-- A rotate right reads its bits around the end of the word. -/
theorem getLsbD_rotateRight_mod {w : Nat} (x : BitVec w) (k i : Nat) :
    (x.rotateRight k).getLsbD i = (decide (i < w) && x.getLsbD ((k + i) % w)) := by
  by_cases hi : i < w
  · have hk : k % w < w := Nat.mod_lt _ (by omega)
    have hmod : (k + i) % w = if i < w - k % w then k % w + i else i - (w - k % w) := by
      rw [← Nat.mod_add_mod]
      split
      · exact Nat.mod_eq_of_lt (by omega)
      · rw [Nat.mod_eq_sub_mod (by omega), Nat.mod_eq_of_lt (by omega)]
        omega
    rw [BitVec.getLsbD_rotateRight, hmod]
    by_cases hlow : i < w - k % w <;> simp [hi, hlow]
  · rw [BitVec.getLsbD_of_ge _ _ (by omega), decide_eq_false hi, Bool.false_and]

theorem rotateLeft_add {w : Nat} (x : BitVec w) (k m : Nat) : x.rotateLeft (k + m) = (x.rotateLeft k).rotateLeft m := by
  apply BitVec.eq_of_getMsbD_eq
  intro i hi
  have hin : (m + i) % w < w := Nat.mod_lt _ (by omega)
  simp only [BitVec.getMsbD_rotateLeft, hi, hin, decide_true, Bool.true_and, Nat.add_mod_mod, Nat.add_assoc]

theorem rotateRight_add {w : Nat} (x : BitVec w) (k m : Nat) :
    x.rotateRight (k + m) = (x.rotateRight k).rotateRight m := by
  apply BitVec.eq_of_getLsbD_eq
  intro i hi
  have hin : (m + i) % w < w := Nat.mod_lt _ (by omega)
  simp only [getLsbD_rotateRight_mod, hi, hin, decide_true, Bool.true_and, Nat.add_mod_mod, Nat.add_assoc]

theorem rotateLeft_zero {w : Nat} (x : BitVec w) : x.rotateLeft 0 = x := by
  simp [BitVec.rotateLeft_def, BitVec.ushiftRight_eq_zero]

theorem rotateRight_zero {w : Nat} (x : BitVec w) : x.rotateRight 0 = x := by
  simp [BitVec.rotateRight_def]

/-! The steps -/

section
variable {n : Nat}

/-- A shift left by one with a bit put in at the right, from the left end. -/
theorem getMsbD_shiftLeft_insert (v : BitVec (n + 1)) (b : Bool) {i : Nat} (hi : i < n + 1) :
    (v <<< 1 ||| (BitVec.ofBool b).setWidth (n + 1)).getMsbD i = if i = n then b else v.getMsbD (i + 1) := by
  by_cases h : i = n
  · simp [h]
  · have hlt : ¬ n ≤ i := by omega
    simp [h, hlt]

/-- A shift right by one with a bit put in at the left. -/
theorem getLsbD_shiftRight_insert (v : BitVec (n + 1)) (b : Bool) {i : Nat} (hi : i < n + 1) :
    (v >>> 1 ||| (BitVec.ofBool b).setWidth (n + 1) <<< (n + 1 - 1)).getLsbD i =
      if i = n then b else v.getLsbD (i + 1) := by
  by_cases h : i = n
  · simp [h]
  · have hlt : i < n := by omega
    simp [h, hlt, Nat.add_comm 1]

/-- ROL's step rotates the operand by one (R273). -/
theorem rolStep_val (t : ShiftState (n + 1)) : (rolStep t).val = t.val.rotateLeft 1 := by
  apply BitVec.eq_of_getMsbD_eq
  intro i hi
  rw [rolStep, getMsbD_shiftLeft_insert _ _ hi, BitVec.getMsbD_rotateLeft, decide_eq_true hi, Bool.true_and,
    Nat.add_comm 1]
  by_cases h : i = n
  · rw [if_pos h, h, Nat.mod_self]
    rfl
  · rw [if_neg h, Nat.mod_eq_of_lt (by omega)]

/-- ROR's step rotates the operand by one (R274). -/
theorem rorStep_val (t : ShiftState (n + 1)) : (rorStep t).val = t.val.rotateRight 1 := by
  apply BitVec.eq_of_getLsbD_eq
  intro i hi
  rw [rorStep, getLsbD_shiftRight_insert _ _ hi, getLsbD_rotateRight_mod, decide_eq_true hi, Bool.true_and,
    Nat.add_comm 1]
  by_cases h : i = n
  · rw [if_pos h, h, Nat.mod_self]
  · rw [if_neg h, Nat.mod_eq_of_lt (by omega)]

/-- The operand with X above it. -/
def extended (t : ShiftState n) : BitVec (1 + n) := BitVec.ofBool t.x ++ t.val

theorem getMsbD_extended (t : ShiftState n) (i : Nat) :
    (extended t).getMsbD i = if 1 ≤ i then t.val.getMsbD (i - 1) else t.x := by
  rw [extended, BitVec.getMsbD_append]
  split
  · rfl
  · simp; omega

theorem getLsbD_extended (t : ShiftState n) {i : Nat} (hi : i < 1 + n) :
    (extended t).getLsbD i = if i < n then t.val.getLsbD i else t.x := by
  rw [extended, BitVec.getLsbD_append]
  split
  · rfl
  · simp; omega

/-- ROXL's step rotates X and the operand together (R275). -/
theorem extended_roxlStep (t : ShiftState (n + 1)) : extended (roxlStep t) = (extended t).rotateLeft 1 := by
  apply BitVec.eq_of_getMsbD_eq
  intro i hi
  rw [getMsbD_extended, BitVec.getMsbD_rotateLeft, decide_eq_true hi, Bool.true_and, getMsbD_extended]
  by_cases hx : 1 ≤ i
  · rw [if_pos hx, roxlStep, getMsbD_shiftLeft_insert _ _ (by omega)]
    by_cases h : i = n + 1
    · simp [h]
    · rw [if_neg (by omega), Nat.mod_eq_of_lt (by omega), if_pos (by omega)]
      congr 1; omega
  · obtain rfl : i = 0 := by omega
    rw [if_neg hx, Nat.mod_eq_of_lt (by omega)]
    rfl

/-- ROXR's step rotates X and the operand together (R276). -/
theorem extended_roxrStep (t : ShiftState (n + 1)) : extended (roxrStep t) = (extended t).rotateRight 1 := by
  apply BitVec.eq_of_getLsbD_eq
  intro i hi
  have hin : (1 + i) % (1 + (n + 1)) < 1 + (n + 1) := Nat.mod_lt _ (by omega)
  rw [getLsbD_extended _ hi, getLsbD_rotateRight_mod, decide_eq_true hi, Bool.true_and, getLsbD_extended _ hin]
  by_cases hx : i < n + 1
  · rw [if_pos hx, roxrStep, getLsbD_shiftRight_insert _ _ hx, Nat.mod_eq_of_lt (by omega)]
    by_cases h : i = n
    · rw [if_pos h, if_neg (by omega)]
    · rw [if_neg h, if_pos (by omega), Nat.add_comm 1]
  · obtain rfl : i = n + 1 := by omega
    rw [if_neg hx, Nat.add_comm 1, Nat.mod_self, if_pos (Nat.succ_pos _)]
    rfl

/-! The repetition -/

/-- The bit that goes around is the last one of the result (R273). -/
theorem rolStep_c (t : ShiftState (n + 1)) : (rolStep t).c = (rolStep t).val.getLsbD 0 := by
  simp [rolStep]

theorem rorStep_c (t : ShiftState (n + 1)) : (rorStep t).c = (rorStep t).val.msb := by
  rw [rorStep_val, BitVec.msb_eq_getLsbD_last, getLsbD_rotateRight_mod]
  simp [rorStep, Nat.add_comm 1]

variable (cnt : Nat) (t : ShiftState (n + 1))

theorem iterate_rolStep_val : (iterate rolStep cnt t).val = t.val.rotateLeft cnt :=
  iterate_closed (·.val) BitVec.rotateLeft rotateLeft_zero (fun a k => rotateLeft_add a k 1) rolStep_val cnt t

theorem iterate_rorStep_val : (iterate rorStep cnt t).val = t.val.rotateRight cnt :=
  iterate_closed (·.val) BitVec.rotateRight rotateRight_zero (fun a k => rotateRight_add a k 1) rorStep_val cnt t

theorem extended_iterate_roxlStep : extended (iterate roxlStep cnt t) = (extended t).rotateLeft cnt :=
  iterate_closed extended BitVec.rotateLeft rotateLeft_zero (fun a k => rotateLeft_add a k 1) extended_roxlStep cnt t

theorem extended_iterate_roxrStep : extended (iterate roxrStep cnt t) = (extended t).rotateRight cnt :=
  iterate_closed extended BitVec.rotateRight rotateRight_zero (fun a k => rotateRight_add a k 1) extended_roxrStep cnt t

end

/-- C is X after, when C was X before and every step makes it so (R275, R276). -/
theorem shiftResult_carryFromX {n : Nat} {step : ShiftState n → ShiftState n} (hstep : ∀ t, (step t).c = (step t).x)
    (cnt : Nat) (old : Ccr) (v : BitVec n) :
    (shiftResult step carryFromX cnt old v).2.c = (shiftResult step carryFromX cnt old v).2.x := by
  rcases Nat.eq_zero_or_pos cnt with rfl | h
  · rfl
  · exact iterate_of_pos (fun t => t.c = t.x) hstep h _

/-- Settles O24: each rotate's operand, with X in it or apart, and its C after the count. -/
theorem rotatesClosedForm : Obligations.RotatesClosedForm := by
  intro n cnt old v l r xl xr
  refine ⟨iterate_rolStep_val cnt _, iterate_rorStep_val cnt _,
    iterate_kept (step := rolStep) (·.x) (fun _ => rfl) cnt _,
    iterate_kept (step := rorStep) (·.x) (fun _ => rfl) cnt _, ?countZero,
    fun h => ⟨iterate_of_pos (fun t => t.c = t.val.getLsbD 0) rolStep_c h _,
      iterate_of_pos (fun t => t.c = t.val.msb) rorStep_c h _⟩,
    extended_iterate_roxlStep cnt _, extended_iterate_roxrStep cnt _, shiftResult_carryFromX (fun _ => rfl) cnt old v,
    shiftResult_carryFromX (fun _ => rfl) cnt old v, ?resultCodes⟩
  case countZero =>
    rintro rfl
    exact ⟨rfl, rfl⟩
  case resultCodes =>
    simp only [List.forall_mem_cons]
    exact ⟨⟨shiftResult_v (step := rolStep) (fun _ => rfl) _ _ _ _, shiftResult_nz _ _ _ _ _⟩,
      ⟨shiftResult_v (step := rorStep) (fun _ => rfl) _ _ _ _, shiftResult_nz _ _ _ _ _⟩,
      ⟨shiftResult_v (step := roxlStep) (fun _ => rfl) _ _ _ _, shiftResult_nz _ _ _ _ _⟩,
      ⟨shiftResult_v (step := roxrStep) (fun _ => rfl) _ _ _ _, shiftResult_nz _ _ _ _ _⟩, nofun⟩

end Sys2Proof.Machine
end

section
/-! SUPPORT. Shifts and rotates of a data register (O46) and of a word in memory (O47): each form
is one shape, whatever the step. -/

namespace Sys2Proof.Machine

open Sys2Proof.Safety

section
variable {i : Instr} {step : (n : Nat) → ShiftState n → ShiftState n} {c0 : Ccr → Bool} {s : State}

/-- A shift of Dn by its count: Dn, the codes and PC change (R277, R279). -/
theorem completes_shiftReg {cnt : Count} {sz : Size} {dn : RegNum}
    (hexec : exec i s = .next (shiftReg step c0 cnt sz dn s)) (hwords : i.words = 1) (hm : s.memMap = []) :
    let p := shiftResult (step sz.bits) c0 (countOf s cnt) s.ccr (truncTo sz (s.readD dn))
    Completes i s (((fetched i s).setCcr p.2).setDn sz dn p.1) [dn] [] [] := by
  refine completes_setCcr_setD hexec hm ?_
  have hcount : countOf (fetched i s) cnt = countOf s cnt := by cases cnt <;> simp [countOf]
  rw [fetched, hwords] at hcount ⊢
  simp only [State.setDn, State.setPc_ccr, State.readD_setPc, State.readD_setCcr, Nat.add_zero, hcount]

/-- A memory alterable mode is data alterable (R154). -/
theorem dataAlterable_of_memoryAlterable {k : EaKind} (h : EaSet.memoryAlterable.accepts k = true) :
    EaSet.dataAlterable.accepts k = true := by
  cases k with
  | dReg | aReg => cases h
  | _ => exact h

/-- Storing to a memory alterable mode writes no data register (R154, R157). -/
theorem locData_memoryAlterable {ea : EA} (h : EaSet.memoryAlterable.accepts ea.kind = true) (sz : Size) (pre : Nat)
    (s : State) : locData (operandLoc sz pre ea s) = [] := by
  cases ea with
  | dReg n => cases h
  | _ => rfl

/-- A shift of a word in memory by one place (R277, R279). -/
theorem completes_shiftMem {ea : EA} (hexec : exec i s = .next (shiftMem step c0 ea s))
    (hwords : i.words = 1 + eaCount .word ea) (hm : s.memMap = [])
    (hkind : EaSet.memoryAlterable.accepts ea.kind = true) (ha : locAligned .word (operandLoc .word 0 ea s) = true) :
    let loc := operandLoc .word 0 ea s
    let p := shiftResult (step 16) c0 1 s.ccr (locValue .word loc s)
    Completes i s (locStore .word loc p.1 ((eaBump .word ea (fetched i s)).setCcr p.2)) [] (movedRegs ea)
      (locBytes .word loc) := by
  intro loc p
  rw [← locData_memoryAlterable hkind .word 0 s]
  exact completes_updateEa hexec hwords hm (dataAlterable_of_memoryAlterable hkind) ha
    (by rw [eaBump_ccr, fetched_ccr])

end

/-- Settles O46: the eight are one shape, each with its step. -/
theorem registerShifts : Obligations.RegisterShifts := fun cnt sz dn _ hm =>
  ⟨completes_shiftReg (i := .asrReg cnt sz dn) rfl rfl hm, completes_shiftReg (i := .aslReg cnt sz dn) rfl rfl hm,
    completes_shiftReg (i := .lsrReg cnt sz dn) rfl rfl hm, completes_shiftReg (i := .lslReg cnt sz dn) rfl rfl hm,
    completes_shiftReg (i := .rorReg cnt sz dn) rfl rfl hm, completes_shiftReg (i := .rolReg cnt sz dn) rfl rfl hm,
    completes_shiftReg (i := .roxrReg cnt sz dn) rfl rfl hm, completes_shiftReg (i := .roxlReg cnt sz dn) rfl rfl hm⟩

/-- Settles O47: the eight are one shape, each with its step. -/
theorem memoryShifts : Obligations.MemoryShifts := fun ea _ hm hkind ha =>
  have hwords (base : Nat) : (encEa base .word ea).length = 1 + eaCount .word ea := encEa_length _ _ _
  ⟨completes_shiftMem (i := .asrMem ea) rfl (hwords _) hm hkind ha,
    completes_shiftMem (i := .aslMem ea) rfl (hwords _) hm hkind ha,
    completes_shiftMem (i := .lsrMem ea) rfl (hwords _) hm hkind ha,
    completes_shiftMem (i := .lslMem ea) rfl (hwords _) hm hkind ha,
    completes_shiftMem (i := .rorMem ea) rfl (hwords _) hm hkind ha,
    completes_shiftMem (i := .rolMem ea) rfl (hwords _) hm hkind ha,
    completes_shiftMem (i := .roxrMem ea) rfl (hwords _) hm hkind ha,
    completes_shiftMem (i := .roxlMem ea) rfl (hwords _) hm hkind ha⟩

end Sys2Proof.Machine
end

section
/-! SUPPORT. Single bits: what clearing, setting and changing one bit gives, and the bit instructions (O44), whose
operand's size depends on the mode: a data register's longword, else a byte (R298). -/

namespace Sys2Proof.Machine

open Sys2Proof.Safety

/-! One bit of a value -/

theorem bitMask_getLsbD {n k : Nat} (b : Nat) (hk : k < n) : (bitMask n b).getLsbD k = decide (k = b) := by
  have hpos : 0 < n := Nat.zero_lt_of_lt hk
  rw [Bool.eq_iff_iff]
  simp only [bitMask, BitVec.getLsbD_shiftLeft, BitVec.ofNat_eq_ofNat, BitVec.getLsbD_one, Bool.and_eq_true,
    Bool.not_eq_true', decide_eq_true_eq, decide_eq_false_iff_not]
  omega

theorem clearBit_getLsbD {n k : Nat} (v : BitVec n) (b : Nat) (hk : k < n) :
    (clearBit v b).getLsbD k = if k = b then false else v.getLsbD k := by
  rw [clearBit, BitVec.getLsbD_and, BitVec.getLsbD_not, bitMask_getLsbD b hk]
  by_cases hkb : k = b <;> simp [hkb, hk]

theorem setBit_getLsbD {n k : Nat} (v : BitVec n) (b : Nat) (hk : k < n) :
    (setBit v b).getLsbD k = if k = b then true else v.getLsbD k := by
  rw [setBit, BitVec.getLsbD_or, bitMask_getLsbD b hk]
  by_cases hkb : k = b <;> simp [hkb]

theorem changeBit_getLsbD {n k : Nat} (v : BitVec n) (b : Nat) (hk : k < n) :
    (changeBit v b).getLsbD k = if k = b then !v.getLsbD k else v.getLsbD k := by
  rw [changeBit, BitVec.getLsbD_xor, bitMask_getLsbD b hk]
  by_cases hkb : k = b <;> simp [hkb]

/-! The operand of a bit instruction -/

/-- The size of a bit instruction's operand (R298). -/
def bitSize (ea : EA) : Size := if ea.kind = .dReg then .long else .byte

/-- What the bit number is taken modulo (R298). -/
def bitModulus (ea : EA) : Nat := if ea.kind = .dReg then 32 else 8

theorem updateBit_eq (pre : Nat) (ea : EA) (raw : State → Nat) (f : (n : Nat) → BitVec n → Nat → BitVec n) (s : State) :
    updateBit pre ea raw f s = updateEa pre (bitSize ea) ea
      (fun t v => (f _ v (raw t % bitModulus ea), bitFlags t.ccr v (raw t % bitModulus ea))) s := by
  cases ea <;> rfl

theorem testBit_eq (pre : Nat) (ea : EA) (raw : State → Nat) (s : State) :
    testBit pre ea raw s = testEa pre (bitSize ea) ea (fun t v => bitFlags t.ccr v (raw t % bitModulus ea)) s := by
  cases ea <;> rfl

/-- Only a register is tested as a longword, so no address is misaligned (R70, R298). -/
theorem locAligned_bitSize (pre : Nat) (ea : EA) (s : State) :
    locAligned (bitSize ea) (operandLoc (bitSize ea) pre ea s) = true := by
  cases ea <;> rfl

/-- A data register takes no extension word, so the length is that of a byte's operand (R94). -/
theorem eaCount_bitSize (ea : EA) : eaCount (bitSize ea) ea = eaCount .byte ea := by
  cases ea <;> rfl

theorem encBitEa_words (base : Nat) (bit : BitVec 8) (ea : EA) :
    (encBitEa base bit ea).length = 1 + 1 + eaCount .byte ea := by
  rw [encBitEa_length, Nat.add_assoc]

/-! The two shapes, with the bit number `b` -/

section
variable {i : Instr} {pre : Nat} {ea : EA} {raw : State → Nat} {s : State} {b : Nat}

/-- BTST changes Z, the moved register and PC (R295, R296). -/
theorem completes_testBit (hexec : exec i s = .next (testBit pre ea raw s))
    (hwords : i.words = 1 + pre + eaCount .byte ea) (hm : s.memMap = [])
    (hraw : raw (eaBump (bitSize ea) ea (fetched i s)) = b) :
    let v := locValue (bitSize ea) (operandLoc (bitSize ea) pre ea s) s
    Completes i s ((eaBump (bitSize ea) ea (fetched i s)).setCcr (bitFlags s.ccr v (b % bitModulus ea))) []
      (movedRegs ea) [] :=
  completes_testEa (hexec.trans (by rw [testBit_eq])) (by rw [hwords, eaCount_bitSize]) hm (locAligned_bitSize pre ea s)
    (by simp only [hraw, eaBump_ccr, fetched_ccr])

/-- The others change their operand too, Z being that of the operand before (R291 to R294, R408, R409). -/
theorem completes_updateBit {f : (n : Nat) → BitVec n → Nat → BitVec n}
    (hexec : exec i s = .next (updateBit pre ea raw f s)) (hwords : i.words = 1 + pre + eaCount .byte ea)
    (hm : s.memMap = []) (hkind : EaSet.dataAlterable.accepts ea.kind = true)
    (hraw : raw (eaBump (bitSize ea) ea (fetched i s)) = b) :
    let loc := operandLoc (bitSize ea) pre ea s
    let v := locValue (bitSize ea) loc s
    Completes i s (locStore (bitSize ea) loc (f _ v (b % bitModulus ea))
        ((eaBump (bitSize ea) ea (fetched i s)).setCcr (bitFlags s.ccr v (b % bitModulus ea))))
      (locData loc) (movedRegs ea) (locBytes (bitSize ea) loc) :=
  completes_updateEa (hexec.trans (by rw [updateBit_eq])) (by rw [hwords, eaCount_bitSize]) hm hkind
    (locAligned_bitSize pre ea s) (by simp only [hraw, eaBump_ccr, fetched_ccr])

end

/-- Settles O44: bit by bit for the three operations, and the eight forms by their two shapes. -/
theorem bitOperations : Obligations.BitOperations := by
  refine ⟨fun n b old v _ => ⟨fun k hk => ?_, rfl⟩, fun bit dn ea s hm => ?_⟩
  · exact ⟨clearBit_getLsbD v b hk, setBit_getLsbD v b hk, changeBit_getLsbD v b hk⟩
  have hdn (i : Instr) : ((eaBump (bitSize ea) ea (fetched i s)).readD dn).toNat = (s.readD dn).toNat := by
    rw [eaBump_readD, fetched_readD]
  intro sz width tested updated
  refine ⟨?btstReg, fun _ => ?btstImm, fun hkind => ⟨?bchgReg, ?bchgImm, ?bclrReg, ?bclrImm, ?bsetReg, ?bsetImm⟩⟩
  case btstReg => exact completes_testBit (i := .btstReg dn ea) rfl (encEa_length _ _ _) hm (hdn _)
  case btstImm => exact completes_testBit (i := .btstImm bit ea) rfl (encBitEa_words _ _ _) hm rfl
  case bchgReg => exact completes_updateBit (i := .bchgReg dn ea) rfl (encEa_length _ _ _) hm hkind (hdn _)
  case bchgImm => exact completes_updateBit (i := .bchgImm bit ea) rfl (encBitEa_words _ _ _) hm hkind rfl
  case bclrReg => exact completes_updateBit (i := .bclrReg dn ea) rfl (encEa_length _ _ _) hm hkind (hdn _)
  case bclrImm => exact completes_updateBit (i := .bclrImm bit ea) rfl (encBitEa_words _ _ _) hm hkind rfl
  case bsetReg => exact completes_updateBit (i := .bsetReg dn ea) rfl (encEa_length _ _ _) hm hkind (hdn _)
  case bsetImm => exact completes_updateBit (i := .bsetImm bit ea) rfl (encBitEa_words _ _ _) hm hkind rfl

end Sys2Proof.Machine
end

section
/-! SUPPORT. Packed BCD (O26): packing a value below 100 and reading it back, and the decimal sum and difference
(R303, R390). -/

namespace Sys2Proof.Machine

theorem bcdPack_toNat {v : Nat} (hv : v < 100) : (bcdPack v).toNat = 16 * (v / 10) + v % 10 := by
  rw [bcdPack, BitVec.toNat_ofNat]
  omega

theorem bcdValid_iff (b : Byte) : bcdValid b = true ↔ b.toNat / 16 ≤ 9 ∧ b.toNat % 16 ≤ 9 := by
  simp only [bcdValid, Bool.and_eq_true, decide_eq_true_eq]

theorem bcdValid_bcdPack {v : Nat} (hv : v < 100) : bcdValid (bcdPack v) = true := by
  rw [bcdValid_iff, bcdPack_toNat hv]
  omega

theorem bcdValue_bcdPack {v : Nat} (hv : v < 100) : bcdValue (bcdPack v) = v := by
  rw [bcdValue, bcdPack_toNat hv]
  omega

theorem bcdValue_lt {b : Byte} (hb : bcdValid b = true) : bcdValue b < 100 := by
  obtain ⟨htens, hunits⟩ := (bcdValid_iff b).mp hb
  rw [bcdValue]
  omega

section
variable {d s : Byte} (hd : bcdValid d = true) (hs : bcdValid s = true) (x : Bool)
include hd hs

theorem bcdAdd_valid : bcdAdd d s x =
    let t := bcdValue d + bcdValue s + (if x then 1 else 0)
    some (bcdPack (t % 100), decide (t > 99)) := by
  simp only [bcdAdd, hd, hs, Bool.and_self, if_true]

theorem bcdSub_valid : bcdSub d s x =
    let t : Int := (bcdValue d : Int) - bcdValue s - (if x then 1 else 0)
    some (bcdPack (t % 100).toNat, decide (t < 0)) := by
  simp only [bcdSub, hd, hs, Bool.and_self, if_true]

/-- The decimal sum with X, modulo 100, and its carry (R390). -/
theorem bcdAdd_digits : ∃ r c, bcdAdd d s x = some (r, c) ∧ bcdValid r = true ∧
    bcdValue r + (if c then 100 else 0) = bcdValue d + bcdValue s + (if x then 1 else 0) := by
  have hdv := bcdValue_lt hd
  have hsv := bcdValue_lt hs
  have hmod : (bcdValue d + bcdValue s + (if x then 1 else 0)) % 100 < 100 := Nat.mod_lt _ (by decide)
  refine ⟨_, _, bcdAdd_valid hd hs x, bcdValid_bcdPack hmod, ?_⟩
  rw [bcdValue_bcdPack hmod]
  simp only [decide_eq_true_eq]
  split_ifs <;> omega

/-- The decimal difference with X, modulo 100, and its borrow (R303). -/
theorem bcdSub_digits : ∃ r b, bcdSub d s x = some (r, b) ∧ bcdValid r = true ∧
    bcdValue r + bcdValue s + (if x then 1 else 0) = bcdValue d + (if b then 100 else 0) := by
  have hdv := bcdValue_lt hd
  have hsv := bcdValue_lt hs
  have hmod : (((bcdValue d : Int) - bcdValue s - (if x then 1 else 0)) % 100).toNat < 100 := by omega
  refine ⟨_, _, bcdSub_valid hd hs x, bcdValid_bcdPack hmod, ?_⟩
  rw [bcdValue_bcdPack hmod]
  simp only [decide_eq_true_eq]
  split_ifs <;> omega

end

/-- A digit above 9 in either operand leaves no result (U3). -/
theorem bcd_none {d s : Byte} (h : bcdValid d = false ∨ bcdValid s = false) (x : Bool) :
    bcdAdd d s x = none ∧ bcdSub d s x = none := by
  have hinvalid : (bcdValid d && bcdValid s) = false := Bool.and_eq_false_iff.mpr h
  simp only [bcdAdd, bcdSub, hinvalid, Bool.false_eq_true, if_false, and_self]

/-- Settles O26: packing keeps a value below 100, which both results are after one carry or borrow. -/
theorem bcdArithmetic : Obligations.BcdArithmetic := fun _ _ x =>
  ⟨fun hd hs => ⟨bcdAdd_digits hd hs x, bcdSub_digits hd hs x⟩, fun h => bcd_none h x⟩

end Sys2Proof.Machine
end

section
/-! SUPPORT. ABCD, SBCD and NBCD (O52): their three forms find one operand pair each, and share what they do with the
result (R300, R301, R302, R390). -/

namespace Sys2Proof.Machine

open Sys2Proof.Safety

/-- The codes of a BCD operation with the byte and carry `p`: X = C, Z only cleared (R300, R301). -/
def bcdFlags (old : Ccr) (p : Byte × Bool) (n v : Bool) : Ccr :=
  { x := p.2, n := n, z := old.z && p.1 == 0#8, v := v, c := p.2 }

/-- What stands for a result with `k` free values used: the result, or free values when there is none (log 16). -/
def BcdFound (res : Option (Byte × Bool)) (p : Byte × Bool) (k : Nat) : Prop :=
  (res = some p ∧ k = 2) ∨ (res = none ∧ k = 3)

theorem bcdResult_found (res : Option (Byte × Bool)) (u : State) :
    ∃ p n v k, BcdFound res p k ∧ bcdResult res u = .ok p.1 (drew k (u.setCcr (bcdFlags u.ccr p n v))) := by
  cases res with
  | some p => exact ⟨p, _, _, 2, .inl ⟨rfl, rfl⟩, rfl⟩
  | none => exact ⟨(_, _), _, _, 3, .inr ⟨rfl, rfl⟩, rfl⟩

theorem locStore_byte_drew (k : Nat) (loc : Loc) (v : Byte) (s : State) :
    locStore .byte loc v (drew k s) = drew k (locStore .byte loc v s) := by
  cases loc <;> rfl

section
variable {i : Instr} {f : Byte → Byte → Bool → Option (Byte × Bool)} {src dst : RegNum} {s : State}

/-- A BCD operation on two data registers (R301, R390). -/
theorem completes_bcdReg (hexec : exec i s = .next (bcdReg f src dst s)) (hwords : i.words = 1) (hm : s.memMap = []) :
    ∃ p n v k, BcdFound (f (truncTo .byte (s.readD dst)) (truncTo .byte (s.readD src)) s.ccr.x) p k ∧
      Completes i s (drew k (((fetched i s).setCcr (bcdFlags s.ccr p n v)).setDn .byte dst p.1)) [dst] [] [] := by
  obtain ⟨p, n, v, k, hfound, hres⟩ := bcdResult_found
    (f (truncTo .byte (s.readD dst)) (truncTo .byte (s.readD src)) s.ccr.x) (fetched i s)
  refine ⟨p, n, v, k, hfound, exec_of_act hexec hwords hm ?_, ?_⟩
  · simp only [act_get_bind, fetched_readD, fetched_ccr]
    exact act_bind_ok hres
  · exact (((sameBut_fetched i s _ _ _).setCcr _).setDn (sz := .byte) List.mem_cons_self p.1).drew k

/-- A BCD operation on bytes of memory: source read, destination read at `da`, result stored there (R302, R390). -/
theorem completes_bcdMem (hexec : exec i s = .next (bcdMem f src dst s)) (hwords : i.words = 1) (hm : s.memMap = [])
    {da : Long} :
    let u := (fetched i s).setA src (s.readA src - incAmount src .byte)
    da = u.readA dst - incAmount dst .byte →
    ∃ p n v k,
      BcdFound (f (peek .byte s.mem da) (peek .byte s.mem (s.readA src - incAmount src .byte)) s.ccr.x) p k ∧
      Completes i s
        (drew k (((u.setA dst (u.readA dst - incAmount dst .byte)).setCcr (bcdFlags s.ccr p n v)).setMem
          (poke .byte s.mem da p.1))) [] [src, dst] (bytesAt .byte da) := by
  intro u haddr
  rw [← haddr]
  have hread : readPreDecPair .byte src dst (fetched i s) =
      .ok (peek .byte s.mem (s.readA src - incAmount src .byte), peek .byte s.mem da, da) (u.setA dst da) := by
    subst haddr
    have h := readPreDecPair_plain (sz := .byte) (s := fetched i s) (src := src) (dst := dst) hm rfl rfl
    simpa only [fetched_readA, fetched_mem] using h
  have hccr : (u.setA dst da).ccr = s.ccr := by simp [u]
  obtain ⟨p, n, v, k, hfound, hres⟩ := bcdResult_found
    (f (peek .byte s.mem da) (peek .byte s.mem (s.readA src - incAmount src .byte)) s.ccr.x) (u.setA dst da)
  rw [hccr] at hres
  have hwrite : writeMem .byte da p.1 (drew k ((u.setA dst da).setCcr (bcdFlags s.ccr p n v))) =
      .ok () (drew k (((u.setA dst da).setCcr (bcdFlags s.ccr p n v)).setMem (poke .byte s.mem da p.1))) := by
    rw [writeMem_plain rfl (by simp [u, hm])]
    simp only [u, drew_mem, State.setCcr_mem, State.setA_mem, fetched_mem]
    rfl
  refine ⟨p, n, v, k, hfound, exec_of_act hexec hwords hm ?_, ?_⟩
  · rw [act_bind_ok hread]
    simp only [act_get_bind, hccr]
    rw [act_bind_ok hres]
    exact hwrite
  · have hmoved := (sameBut_fetched i s [] [src, dst] (bytesAt .byte da)).setA (n := src) (by simp)
      (s.readA src - incAmount src .byte)
    have hcodes := (hmoved.setA (n := dst) (by simp) da).setCcr (bcdFlags s.ccr p n v)
    exact (hcodes.poke (sz := .byte) (fun _ _ => by simp) p.1 fun _ hb => hb).drew k

/-- NBCD: 0 minus the operand, read and written at one location (R300, R158). -/
theorem completes_nbcd {ea : EA} (hm : s.memMap = []) (hkind : EaSet.dataAlterable.accepts ea.kind = true) :
    let i := Instr.nbcd ea
    let loc := operandLoc .byte 0 ea s
    let u := eaBump .byte ea (fetched i s)
    ∃ p n v k, BcdFound (bcdSub 0 (locValue .byte loc s) s.ccr.x) p k ∧
      Completes i s
        (drew k (locStore .byte loc p.1 (u.setCcr (bcdFlags s.ccr p n v)))) (locData loc) (movedRegs ea)
        (locBytes .byte loc) := by
  intro i loc u
  have hccr : u.ccr = s.ccr := by simp [u]
  have heval : evalEa .byte (eaBase s.pc 0) ea (fetched i s) = .ok loc u := by
    rw [evalEa_eq, eaLoc_fetched]
    rfl
  have hvalue : locValue .byte loc u = locValue .byte loc s := by
    have h := locValue_eaBump .byte (eaBase s.pc 0) ea (fetched i s)
    rwa [eaLoc_fetched, fetched, locValue_setPc] at h
  have hread : readLoc .byte loc u = .ok (locValue .byte loc s) u := by
    rw [readLoc_plain (by simp [u, hm]) (locAligned_byte loc), hvalue]
  obtain ⟨p, n, v, k, hfound, hres⟩ := bcdResult_found (bcdSub 0 (locValue .byte loc s) s.ccr.x) u
  rw [hccr] at hres
  refine ⟨p, n, v, k, hfound, exec_of_act (ext := eaCount .byte ea) rfl (encEa_length _ _ _) hm ?_, ?_⟩
  · rw [act_bind_ok heval, act_bind_ok hread]
    simp only [act_get_bind, hccr]
    rw [act_bind_ok hres, writeLoc_plain (by simp [u, hm]) (locAligned_byte loc) (eaLoc_writable _ _ _ _ hkind),
      locStore_byte_drew]
  · have hbump := (sameBut_fetched i s (locData loc) (movedRegs ea) (locBytes .byte loc)).eaBump .byte fun _ hn => hn
    exact ((hbump.setCcr _).locStore p.1 (fun _ hn => hn) fun _ hb => hb).drew k

end

/-- Settles O52: ABCD and SBCD by their two forms, and NBCD. -/
theorem bcdInstructions : Obligations.BcdInstructions := by
  intro src dst ea s hm f found
  refine ⟨⟨?abcdReg, ?sbcdReg⟩, ⟨?abcdMem, ?sbcdMem⟩, fun hkind => completes_nbcd hm hkind⟩
  case abcdReg => exact completes_bcdReg (i := .abcdReg src dst) rfl rfl hm
  case sbcdReg => exact completes_bcdReg (i := .sbcdReg src dst) rfl rfl hm
  case abcdMem =>
    exact completes_bcdMem (i := .abcdMem src dst) rfl rfl hm (preDec_addr_eq _ .byte src dst s _)
  case sbcdMem =>
    exact completes_bcdMem (i := .sbcdMem src dst) rfl rfl hm (preDec_addr_eq _ .byte src dst s _)

end Sys2Proof.Machine
end

section
/-! SUPPORT. Branches and jumps (O53, O54): NOP, JMP, BRA and Bcc write PC only, DBcc also the low
word of its counter. -/

namespace Sys2Proof.Machine

open Sys2Proof.Safety

/-- A branch's displacement, sign-extended (R98). -/
def branchOffset : BranchDisp → Long
  | .short b => b.signExtend 32
  | .long b => b.signExtend 32

/-- A branch counts from the opword's address plus 2, with or without an extension word (R26, R98). -/
theorem branchTarget_eq_add (ipc : Long) (d : BranchDisp) : branchTarget ipc d = ipc + 2 + branchOffset d := by
  cases d <;> rfl

/-- An opword and a branch's extension word, if it has one (R98). -/
theorem branch_words_length (w : Word) (d : BranchDisp) : (w :: d.ext).length = 1 + branchCount d := by
  rw [List.length_cons, branch_ext_length, Nat.add_comm]

/-- Writing PC replaces the advance past the instruction's words. -/
@[simp] theorem fetched_setPc (i : Instr) (s : State) (dest : Long) : (fetched i s).setPc dest = s.setPc dest := rfl

section
variable {i : Instr} {ext : Nat} {writes : List Dest} {act : Long → Act Unit} {s : State} {dest : Long}

/-- An instruction whose effect writes PC goes to that address and changes nothing else. -/
theorem completes_jump (hexec : exec i s = .next (runInstr ext writes act s)) (hwords : i.words = 1 + ext)
    (hm : s.memMap = []) (hact : act s.pc (fetched i s) = .ok () ((fetched i s).setPc dest)) :
    CompletesKeepingCcr i s (s.setPc dest) [] [] [] :=
  completesKeepingCcr_of_act hexec hwords hm hact ((SameBut.refl s _ _ _).setPc dest) rfl

/-- An instruction without an effect goes on to the next one. -/
theorem completes_fetched (hexec : exec i s = .next (runInstr ext writes act s)) (hwords : i.words = 1 + ext)
    (hm : s.memMap = []) (hact : act s.pc (fetched i s) = .ok () (fetched i s)) :
    CompletesKeepingCcr i s (fetched i s) [] [] [] :=
  completesKeepingCcr_of_act hexec hwords hm hact (sameBut_fetched i s _ _ _) rfl

end

/-- BRA's whole effect (R321). -/
theorem completes_bra (d : BranchDisp) {s : State} (hm : s.memMap = []) :
    CompletesKeepingCcr (.bra d) s (s.setPc (s.pc + 2 + branchOffset d)) [] [] [] :=
  completes_jump rfl (branch_words_length _ d) hm (by rw [← branchTarget_eq_add]; rfl)

/-- Bcc's whole effect: it branches when its condition holds, and goes on when not (R407). -/
theorem completes_bcc (cond : Cond) (d : BranchDisp) {s : State} (hm : s.memMap = []) :
    let i := Instr.bcc cond d
    CompletesKeepingCcr i s (if condHolds s.ccr cond then s.setPc (s.pc + 2 + branchOffset d) else fetched i s)
      [] [] [] := by
  intro i
  by_cases hcond : condHolds s.ccr cond = true
  · rw [if_pos hcond, ← branchTarget_eq_add]
    exact completes_jump rfl (branch_words_length _ d) hm (by simp [hcond])
  · rw [if_neg hcond]
    exact completes_fetched rfl (branch_words_length _ d) hm (by simp [hcond])

/-- DBcc's whole effect: nothing when its condition holds; when not, the low word of Dn falls by one, and it branches
until that is $FFFF (R323). -/
theorem completes_dbcc (cond : Cond) (dn : RegNum) (w : Word) {s : State} (hm : s.memMap = []) :
    let n : Word := (s.readD dn).setWidth 16 - 1
    CompletesKeepingCcr (.dbcc cond dn w) s
      (if condHolds s.ccr cond then s.setPc (s.pc + 4)
       else if n = 0xFFFF then (s.setPc (s.pc + 4)).setDn .word dn n
       else (s.setPc (s.pc + 2 + w.signExtend 32)).setDn .word dn n) [dn] [] [] := by
  intro n
  have hcount : ∀ dest, SameBut s ((s.setPc dest).setDn .word dn n) [dn] [] [] := fun dest =>
    ((SameBut.refl s _ _ _).setPc dest).setDn (sz := .word) List.mem_cons_self n
  refine completesKeepingCcr_of_act (ext := 1) rfl rfl hm ?effect ?frame ?codes
  case effect =>
    simp only [act_modify, fetched_ccr, fetched_readD]
    split_ifs <;> rfl
  case frame =>
    split_ifs
    · exact (SameBut.refl s _ _ _).setPc _
    · exact hcount _
    · exact hcount _
  case codes => split_ifs <;> rfl

/-- Settles O53: the three effects, each by its condition and its count. -/
theorem branchesJump : Obligations.BranchesJump :=
  fun cond d dn w _ hm => ⟨completes_bra d hm, completes_bcc cond d hm, completes_dbcc cond dn w hm⟩

end Sys2Proof.Machine
end

section
/-! SUPPORT. Calls and returns (O54): a call pushes PC and writes it, a return pulls it; BSR and JSR end as one
call, RTS and RTR as one return. -/

namespace Sys2Proof.Machine

open Sys2Proof.Safety

/-- How BSR and JSR end: PC pushed, then the target in PC (R322, R325). -/
def callTo (dest : Long) : Act Unit := do
  let s ← get
  push32 s.pc
  modify fun s => s.setPc dest

/-- How RTS and RTR end: PC pulled (R328, R327). -/
def pullPc : Act Unit := do
  let p ← pop32
  modify fun s => s.setPc p

theorem callTo_even {s : State} (dest : Long) (hm : s.memMap = []) (hsp : s.sp.getLsbD 0 = false) :
    callTo dest s = .ok () (((s.setPc dest).setSp (s.sp - 4)).setMem (poke .long s.mem (s.sp - 4) s.pc)) := by
  have hpush := push32_even s.pc hm hsp
  simp only [callTo, act_get_bind, act_bind_ok hpush, act_modify]
  rw [← State.setSp_setPc]
  rfl

theorem pullPc_even {s : State} (hm : s.memMap = []) (hsp : s.sp.getLsbD 0 = false) :
    pullPc s = .ok () ((s.setPc (peek .long s.mem s.sp)).setSp (s.sp + 4)) := by
  have hpull := pop32_plain hm (aligned_of_even hsp)
  simp only [pullPc, act_bind_ok hpull, act_modify, State.setSp_setPc]

/-- An instruction that ends as a call pushes the address past its own words (R322, R325). -/
theorem completes_call {i : Instr} {ext : Nat} {writes : List Dest} {act : Long → Act Unit} {s : State} {dest : Long}
    (hexec : exec i s = .next (runInstr ext writes act s)) (hwords : i.words = 1 + ext) (hm : s.memMap = [])
    (hsp : s.sp.getLsbD 0 = false) (hact : act s.pc (fetched i s) = callTo dest (fetched i s)) :
    CompletesKeepingCcr i s
      (((s.setPc dest).setSp (s.sp - 4)).setMem (poke .long s.mem (s.sp - 4) (fetched i s).pc)) [] [7]
      (bytesAt .long (s.sp - 4)) := by
  have hcall := callTo_even dest ((fetched_memMap i s).trans hm) (by rwa [fetched_sp])
  rw [fetched_setPc, fetched_sp, fetched_mem] at hcall
  refine completesKeepingCcr_of_act hexec hwords hm (hact.trans hcall) ?_ (by simp)
  exact (((SameBut.refl s _ _ _).setPc dest).setSp List.mem_cons_self _).poke (sz := .long) (m := s.mem)
    (fun _ _ => by simp) _ fun _ hb => hb

/-- RTS's whole effect (R328). -/
theorem completes_rts {s : State} (hm : s.memMap = []) (hsp : s.sp.getLsbD 0 = false) :
    CompletesKeepingCcr .rts s ((s.setPc (peek .long s.mem s.sp)).setSp (s.sp + 4)) [] [7] [] := by
  refine completesKeepingCcr_of_act (ext := 0) rfl rfl hm ?_
    (((SameBut.refl s _ _ _).setPc _).setSp List.mem_cons_self _) (by simp)
  have hpull := pullPc_even (s := fetched .rts s) hm (by rwa [fetched_sp])
  rwa [fetched_setPc, fetched_sp] at hpull

/-- RTR's whole effect: the five codes from the word at SP, PC from the longword above it (R327). -/
theorem completes_rtr {s : State} (hm : s.memMap = []) (hsp : s.sp.getLsbD 0 = false) :
    Completes .rtr s
      (((s.setCcr (ccrOfWord (peek .word s.mem s.sp))).setPc (peek .long s.mem (s.sp + 2))).setSp (s.sp + 6)) []
      [7] [] := by
  refine ⟨exec_of_act (ext := 0) rfl rfl hm ?_,
    (((SameBut.refl s _ _ _).setCcr _).setPc _).setSp List.mem_cons_self _⟩
  have hword := pop16_plain (s := fetched .rtr s) hm (aligned_of_even (by rwa [fetched_sp]))
  rw [fetched_sp, fetched_mem] at hword
  generalize hcodes : ccrOfWord (peek .word s.mem s.sp) = f
  have hpull := pullPc_even (s := ((fetched .rtr s).setSp (s.sp + 2)).setCcr f) (by simpa using hm)
    (by simpa using even_add hsp (by decide))
  calc (pop16 >>= fun w => setFlags (ccrOfWord w) >>= fun _ => pullPc) (fetched .rtr s)
      = pullPc (((fetched .rtr s).setSp (s.sp + 2)).setCcr f) := by
        rw [act_bind_ok hword, ← hcodes]
        rfl
    _ = .ok () (((s.setCcr f).setPc (peek .long s.mem (s.sp + 2))).setSp (s.sp + 6)) := by
        rw [hpull]
        simp only [State.setSp_setCcr, State.setSp_setPc, State.setSp_setSp, State.sp_setSp,
          State.setSp_mem, BitVec.add_assoc]
        rfl

/-- The opwords of NOP, RTS and RTR are what the encoder writes (R326, R328, R327). -/
theorem nop_rts_rtr_decode :
    decodeWords [0x4E71] = .ok (.nop, []) ∧ decodeWords [0x4E75] = .ok (.rts, []) ∧
      decodeWords [0x4E77] = .ok (.rtr, []) :=
  ⟨decodeWords_of_encode rfl rfl, decodeWords_of_encode rfl rfl, decodeWords_of_encode rfl rfl⟩

/-- Settles O54: NOP and JMP write PC only; BSR and JSR are calls, RTS and RTR returns. -/
theorem callsAndReturns : Obligations.CallsAndReturns := by
  refine ⟨nop_rts_rtr_decode, fun d ea s hm => ⟨?nop, fun addr program hl => ?jmp, fun hsp =>
    ⟨?bsr, fun addr program hl => ?jsr, completes_rts hm hsp, completes_rtr hm hsp⟩⟩⟩
  case nop => exact completes_jump (i := .nop) (ext := 0) rfl rfl hm rfl
  case jmp => exact completes_jump (i := .jmp ea) rfl (encEa_length _ _ _) hm (act_bind_ok (controlEa_fetched hl))
  case bsr =>
    have hcall := completes_call (i := .bsr d) rfl (branch_words_length _ d) hm hsp rfl
    rwa [branchTarget_eq_add] at hcall
  case jsr =>
    exact completes_call (i := .jsr ea) rfl (encEa_length _ _ _) hm hsp (act_bind_ok (controlEa_fetched hl))

end Sys2Proof.Machine
end

section
/-! SUPPORT. What the system control instructions share: privileged instructions trap in user mode (O10), and in supervisor
mode run as any other. With these, the instructions on CCR (O55) and on SR, MOVE USP and RESET (O56). -/

namespace Sys2Proof.Machine

open Sys2Proof.Safety

/-! The privilege check -/

/-- The meaning of every privileged instruction begins with the privilege check (R366, R461). -/
theorem exec_eq_runPrivileged {i : Instr} (hp : privileged i = true) (s : State) :
    ∃ ext writes act, exec i s = .next (runPrivileged ext writes act s) := by
  cases i with
  | oriToSr | andiToSr | eoriToSr | moveToSr | moveToUsp | moveFromUsp | reset | rte | stop => exact ⟨_, _, _, rfl⟩
  | _ => cases hp

/-- In user mode the check is all there is (R366). -/
theorem exec_privileged_user {i : Instr} {s : State} (hp : privileged i = true) (hs : s.supervisor = false) :
    exec i s = .next (takeException 8 s.pc none s) := by
  obtain ⟨ext, writes, act, hexec⟩ := exec_eq_runPrivileged hp s
  rw [hexec, runPrivileged_user hs]

/-- Settles O10: the privilege check, and the one row of MOVE to SR, which takes no An. -/
theorem privilegedTrapsInUserMode : Obligations.PrivilegedTrapsInUserMode :=
  ⟨fun _ _ => exec_privileged_user, by decide⟩

/-- In supervisor mode a privileged instruction completes when its effect does (R366). -/
theorem exec_privileged_of_act {i : Instr} {ext : Nat} {writes : List Dest} {act : Long → Act Unit} {s t : State}
    (hexec : exec i s = .next (runPrivileged ext writes act s)) (hwords : i.words = 1 + ext) (hm : s.memMap = [])
    (hs : s.supervisor = true) (hact : act s.pc (fetched i s) = .ok () t) : exec i s = .next (afterInstr s t) :=
  exec_of_act (hexec.trans (congrArg _ (runPrivileged_supervisor hs))) hwords hm hact

/-! The instructions on CCR -/

/-- An immediate combined with the five codes changes them and PC only (R351, R353, R399). -/
theorem completes_immToCcr {i : Instr} {f : Word → Word → Word} {imm : BitVec 8} {s : State}
    (hexec : exec i s = .next (immToCcr f imm s)) (hwords : i.words = 1 + 1) (hm : s.memMap = []) :
    Completes i s ((fetched i s).setCcr (ccrOfWord (f s.sr (imm.setWidth 16)))) [] [] [] :=
  ⟨exec_of_act hexec hwords hm rfl, (sameBut_fetched i s _ _ _).setCcr _⟩

/-- MOVE to CCR changes the five codes, the register that its operand moves, and PC (R355). -/
theorem completes_moveToCcr {ea : EA} {s : State} (hm : s.memMap = [])
    (ha : locAligned .word (operandLoc .word 0 ea s) = true) :
    let i := Instr.moveToCcr ea
    Completes i s ((eaBump .word ea (fetched i s)).setCcr (ccrOfWord (locValue .word (operandLoc .word 0 ea s) s))) []
      (movedRegs ea) [] := by
  intro i
  have hbump : SameBut s (eaBump .word ea (fetched i s)) [] (movedRegs ea) [] :=
    (sameBut_fetched i s _ _ _).eaBump .word fun _ hn => hn
  exact ⟨exec_of_act rfl (encEa_length _ _ _) hm (act_bind_ok (readEa_fetched hm ha)), hbump.setCcr _⟩

/-- Settles O55: three operations of one shape, and MOVE. -/
theorem ccrInstructions : Obligations.CcrInstructions := fun imm _ _ hm =>
  ⟨completes_immToCcr (i := .oriToCcr imm) rfl rfl hm, completes_immToCcr (i := .andiToCcr imm) rfl rfl hm,
    completes_immToCcr (i := .eoriToCcr imm) rfl rfl hm, completes_moveToCcr hm⟩

/-! The instructions on SR, MOVE USP and RESET -/

/-- The opwords of MOVE USP, by the words that the encoder writes (R359, R360). -/
theorem moveUsp_encode (an : RegNum) :
    encode (.moveToUsp an) = [(0b0100111001100#13 ++ BitVec.ofNat 3 an.val : Word)] ∧
    encode (.moveFromUsp an) = [(0b0100111001101#13 ++ BitVec.ofNat 3 an.val : Word)] := by
  revert an
  decide

/-- What the privileged instructions that do not stop leave alone, whatever they do with the address registers and SR:
the data registers, the processor's own states, memory. -/
def DataKept (s t : State) : Prop :=
  t.d = s.d ∧ t.stopped = s.stopped ∧ t.halted = s.halted ∧ ∀ a, memRead t.mem a = memRead s.mem a

/-- An immediate combined with SR changes its implemented bits and PC only (R352, R354, R400, R367). -/
theorem exec_immToSr {i : Instr} {f : Word → Word → Word} {imm : Word} {s : State}
    (hexec : exec i s = .next (immToSr f imm s)) (hwords : i.words = 1 + 1) (hm : s.memMap = [])
    (hs : s.supervisor = true) :
    let t := (fetched i s).setSr (f s.sr imm)
    exec i s = .next (afterInstr s t) ∧ DataKept s t ∧ t.a = s.a ∧ t.usp = s.usp ∧ t.ssp = s.ssp ∧
      t.history = s.history :=
  ⟨exec_privileged_of_act hexec hwords hm hs rfl, ⟨rfl, rfl, rfl, fun _ => rfl⟩, rfl, rfl, rfl, rfl⟩

/-- MOVE to SR reads its operand under the old SR, so in supervisor mode, whose A7 is SSP (R357, R22). -/
theorem exec_moveToSr {ea : EA} {s : State} (hm : s.memMap = []) (hs : s.supervisor = true)
    (ha : locAligned .word (operandLoc .word 0 ea s) = true) :
    let u := eaBump .word ea (fetched (.moveToSr ea) s)
    let t := u.setSr (locValue .word (operandLoc .word 0 ea s) s)
    exec (.moveToSr ea) s = .next (afterInstr s t) ∧ DataKept s t ∧ t.usp = s.usp ∧ t.history = s.history ∧
      t.a = u.a ∧ t.ssp = u.ssp ∧ ∀ n, n ∉ movedRegs ea → u.readA n = s.readA n := by
  intro u t
  have hbump : SameBut s u [] (movedRegs ea) [] := (sameBut_fetched _ s _ _ _).eaBump .word fun _ hn => hn
  have husp : u.usp = s.usp := by simpa [hs] using hbump.otherStack
  have hexec : exec (.moveToSr ea) s = .next (afterInstr s t) :=
    exec_privileged_of_act rfl (encEa_length _ _ _) hm hs (act_bind_ok (readEa_fetched hm ha))
  exact ⟨hexec, ⟨eaBump_d _ _ _, hbump.stopped, hbump.halted, fun a => hbump.memory a List.not_mem_nil⟩, husp,
    hbump.history, rfl, rfl, hbump.address⟩

/-- MOVE An,USP changes USP and PC only (R359). -/
theorem exec_moveToUsp {an : RegNum} {s : State} (hm : s.memMap = []) (hs : s.supervisor = true) :
    let t := (s.setPc (s.pc + 2)).setUsp (s.readA an)
    exec (.moveToUsp an) s = .next (afterInstr s t) ∧ DataKept s t ∧ t.a = s.a ∧ t.ssp = s.ssp ∧ t.sr = s.sr ∧
      t.history = s.history := by
  intro t
  have hact : (fetched (.moveToUsp an) s).setUsp ((fetched (.moveToUsp an) s).readA an) = t := by
    rw [fetched_readA]
    rfl
  exact ⟨exec_privileged_of_act (ext := 0) rfl rfl hm hs (congrArg (EStateM.Result.ok ()) hact),
    ⟨rfl, rfl, rfl, fun _ => rfl⟩, rfl, rfl, rfl, rfl⟩

/-- MOVE USP,An changes An, SSP when that is A7, and PC only (R360). -/
theorem exec_moveFromUsp {an : RegNum} {s : State} (hm : s.memMap = []) (hs : s.supervisor = true) :
    let t := (s.setPc (s.pc + 2)).setA an s.usp
    exec (.moveFromUsp an) s = .next (afterInstr s t) ∧ DataKept s t ∧ (∀ n, n ≠ an → t.readA n = s.readA n) ∧
      t.usp = s.usp ∧ t.sr = s.sr ∧ t.history = s.history := by
  intro t
  have hframe : SameBut s t [] [an] [] := ((SameBut.refl s _ _ _).setPc _).setA List.mem_cons_self _
  have husp : t.usp = s.usp := by simpa [hs] using hframe.otherStack
  exact ⟨exec_privileged_of_act (ext := 0) rfl rfl hm hs rfl,
    ⟨State.setA_d _ _ _, hframe.stopped, hframe.halted, fun a => hframe.memory a List.not_mem_nil⟩,
    fun n hn => hframe.address n (by simpa using hn), husp, State.setA_sr _ _ _, hframe.history⟩

/-- RESET records its pulse and advances PC (R361). -/
theorem exec_reset {s : State} (hm : s.memMap = []) (hs : s.supervisor = true) :
    let t := (s.setPc (s.pc + 2)).record .resetPulse
    exec .reset s = .next (afterInstr s t) ∧ DataKept s t ∧ t.a = s.a ∧ t.usp = s.usp ∧ t.ssp = s.ssp ∧ t.sr = s.sr :=
  ⟨exec_privileged_of_act (ext := 0) rfl rfl hm hs rfl, ⟨rfl, rfl, rfl, fun _ => rfl⟩, rfl, rfl, rfl, rfl⟩

/-- Settles O56: the opwords by the round trip, the traps by the privilege check, and each instruction's effect. -/
theorem privilegedInstructions : Obligations.PrivilegedInstructions := by
  refine ⟨fun an => ?opwords, fun imm ea an s hm hs => ?effects⟩
  case opwords =>
    obtain ⟨hto, hfrom⟩ := moveUsp_encode an
    refine ⟨decodeWords_of_encode hto rfl, decodeWords_of_encode hfrom rfl, decodeWords_of_encode rfl rfl,
      fun s hs i hi => exec_privileged_user ?_ hs⟩
    simp only [List.mem_cons, List.not_mem_nil, or_false] at hi
    rcases hi with rfl | rfl | rfl <;> rfl
  case effects =>
    exact ⟨exec_immToSr (i := .oriToSr imm) rfl rfl hm hs, exec_immToSr (i := .andiToSr imm) rfl rfl hm hs,
      exec_immToSr (i := .eoriToSr imm) rfl rfl hm hs, exec_moveToSr hm hs, exec_moveToUsp hm hs,
      exec_moveFromUsp hm hs, exec_reset hm hs⟩

end Sys2Proof.Machine
end

section
/-! SUPPORT. The instructions that leave the usual course: STOP (O57), RTE (O58) and the traps (O59). An exception pushes
the PC it is given, so the PC of the state it is taken from is of no account. -/

namespace Sys2Proof.Machine

open Sys2Proof.Safety

/-- The handler's address replaces PC (R436). -/
theorem entered_setPc (v : Nat) (p q : Long) (level : Option (BitVec 3)) (s : State) :
    entered v p level (s.setPc q) = entered v p level s := rfl

/-! STOP -/

/-- A privileged instruction that its effect refuses to execute takes the exception at its own address, not traced
(R438, R452). -/
theorem exec_privileged_of_notExecuted {i : Instr} {ext v : Nat} {writes : List Dest} {act : Long → Act Unit}
    {s t : State} (hexec : exec i s = .next (runPrivileged ext writes act s)) (hwords : i.words = 1 + ext)
    (hm : s.memMap = []) (hs : s.supervisor = true) (hact : act s.pc (fetched i s) = .error (.notExecuted v) t) :
    exec i s = .next (takeException v s.pc none t) := by
  have hpc : (s.setPc (s.pc + 2)).past ext = fetched i s := by
    simp only [fetched, hwords, State.past, State.setPc_setPc, State.setPc_pc, BitVec.add_assoc, Nat.mul_add,
      BitVec.ofNat_add]
    rfl
  have hrun : (do fetchExt ext; act s.pc : Act Unit) (s.setPc (s.pc + 2)) = .error (.notExecuted v) t :=
    (act_bind_ok (fetchExt_plain ext (s.setPc (s.pc + 2)) hm)).trans ((congrArg (act s.pc) hpc).trans hact)
  rw [hexec, runPrivileged_supervisor hs]
  simp only [runInstr, hrun]

/-- With bit 13 of its immediate set, STOP loads SR and stops (R364). -/
theorem exec_stop_set {imm : Word} {s : State} (hbit : imm.getLsbD 13 = true) (hm : s.memMap = [])
    (hs : s.supervisor = true) :
    exec (.stop imm) s = .next (afterInstr s { (s.setPc (s.pc + 4)).setSr imm with stopped := true }) := by
  refine exec_privileged_of_act (ext := 1) rfl rfl hm hs ?_
  rw [if_pos hbit]
  rfl

/-- With it clear, STOP takes the privilege violation, SR not loaded (R364, R445). -/
theorem exec_stop_clear {imm : Word} {s : State} (hbit : imm.getLsbD 13 = false) (hm : s.memMap = [])
    (hs : s.supervisor = true) (hssp : s.ssp.getLsbD 0 = false) :
    exec (.stop imm) s = .next (entered 8 s.pc none s) := by
  have hexec : exec (.stop imm) s = .next (takeException 8 s.pc none (fetched (.stop imm) s)) :=
    exec_privileged_of_notExecuted (ext := 1) rfl rfl hm hs (by rw [hbit]; rfl)
  rw [hexec, takeException_plain 8 s.pc none (s := fetched (.stop imm) s) hm hssp, fetched, entered_setPc]

/-- Settles O57: STOP's effect on either value of bit 13. -/
theorem stopStops : Obligations.StopStops := fun _ _ hm hs =>
  ⟨fun hbit => ⟨exec_stop_set hbit hm hs, rfl, rfl, rfl, rfl, rfl, fun _ => rfl⟩,
    fun hbit hssp => exec_stop_clear hbit hm hs hssp⟩

/-! RTE -/

/-- RTE pulls SR and PC from the supervisor stack, then writes them (R362, R455). -/
theorem exec_rte {s : State} (hm : s.memMap = []) (hs : s.supervisor = true) (hssp : s.ssp.getLsbD 0 = false) :
    exec .rte s = .next (afterInstr s
      (((s.setSsp (s.ssp + 6)).setSr (peek .word s.mem s.ssp)).setPc (peek .long s.mem (s.ssp + 2)))) := by
  let u := fetched .rte s
  have hsr : readMem .word u.ssp false u = .ok (peek .word u.mem u.ssp) u :=
    readMem_plain (aligned_of_even hssp) (by simp [u, hm])
  have hpc : readMem .long (u.ssp + 2) false u = .ok (peek .long u.mem (u.ssp + 2)) u :=
    readMem_plain (aligned_of_even (even_add hssp (by decide))) (by simp [u, hm])
  exact exec_privileged_of_act (ext := 0) rfl rfl hm hs ((act_bind_ok hsr).trans ((act_bind_ok hpc).trans rfl))

/-- Settles O58: the opword by the round trip, the privilege check, and RTE's effect. -/
theorem rteReturns : Obligations.RteReturns :=
  ⟨decodeWords_of_encode rfl rfl, fun _ => exec_privileged_user rfl, fun _ hm hs hssp =>
    ⟨exec_rte hm hs hssp, rfl, rfl, rfl, rfl, rfl, fun _ => rfl⟩⟩

/-! Traps -/

/-- TRAP's opwords, by the words that the encoder writes (R363). -/
theorem trap_encode (v : Fin 16) : encode (.trap v) = [(0b010011100100#12 ++ BitVec.ofNat 4 v.val : Word)] := by
  revert v
  decide

/-- An instruction of one word that raises an exception saves the next instruction's address (R363, R446). -/
theorem exec_raiseNext {i : Instr} {v : Nat} {writes : List Dest} {act : Long → Act Unit} {s : State}
    (hexec : exec i s = .next (runInstr 0 writes act s)) (hwords : i.words = 1) (hm : s.memMap = [])
    (hssp : s.ssp.getLsbD 0 = false) (hact : act s.pc (fetched i s) = raiseNext v (fetched i s)) :
    exec i s = .next (afterInstr s (entered v (s.pc + 2) none s)) := by
  have hpc : (fetched i s).pc = s.pc + 2 := by
    rw [fetched, hwords]
    rfl
  have hraise := raiseNext_plain v (s := fetched i s) hm hssp
  rw [hpc, fetched, entered_setPc] at hraise
  exact exec_of_act hexec hwords hm (hact.trans hraise)

/-- TRAPV looks at V: it traps, or has no effect (R365). -/
theorem trapv_act {s : State} :
    (do let s ← get
        if s.ccr.v then raiseNext 7 : Act Unit) s = if s.ccr.v then raiseNext 7 s else .ok () s := by
  rw [act_get_bind]
  split <;> rfl

/-- Settles O59: the opwords by the round trip; TRAP and TRAPV trap as the next instruction's, ILLEGAL at its own
address; TRAPV with V = 0 has no effect. -/
theorem trapsTaken : Obligations.TrapsTaken := by
  refine ⟨⟨fun v => decodeWords_of_encode (trap_encode v) rfl, decodeWords_of_encode rfl rfl,
    decodeWords_of_encode rfl rfl⟩, fun v s hm => ⟨fun hssp => ⟨?trap, fun hv => ?trapv, ?illegal⟩, fun hv => ?passed⟩⟩
  case trap => exact exec_raiseNext rfl rfl hm hssp rfl
  case trapv => exact exec_raiseNext rfl rfl hm hssp (trapv_act.trans (if_pos hv))
  case illegal => exact congrArg Host.Outcome.next (takeException_plain 4 s.pc none hm hssp)
  case passed =>
    exact completes_fetched (i := .trapv) (ext := 0) rfl rfl hm (trapv_act.trans (if_neg (Bool.not_eq_true _ ▸ hv)))

end Sys2Proof.Machine
end

section
/-! SUPPORT. A step at an instruction boundary (R450, R465): running the instruction fetched (O5), taking an interrupt
(O18), taking the trace exception that is due (O19). -/

namespace Sys2Proof.Machine

open Sys2Proof.Safety

/-! The instruction fetched -/

/-- Plain memory with no stale byte is fetched as it is (R67, R80). -/
theorem fetchWords_eq_memRead {s : State} (hm : s.memMap = []) (hstale : s.stale = []) :
    fetchWords s = wordsOfBytes ((List.range 10).map fun k => memRead s.mem (phys s.pc k)) := by
  have hbyte : fetchByte s = fun k => memRead s.mem (phys s.pc k) := funext fun k => fetchByte_plain k hm hstale
  rw [fetchWords, hbyte]

/-- Words that decode are executed, with `ir` the opword and no group 0 processing begun (R465, R437). -/
theorem runDecoded_ok {s t : State} {i : Instr} {rest : List Word} (h : decodeWords (fetchWords s) = .ok (i, rest)) :
    runDecoded s t =
      match exec i { t with ir := (fetchWords s).headD 0, groupZero := false } with
      | .next u => .next (noteStores s (5 - rest.length) u)
      | .fault r => .fault r
      | .refused r => .refused r := by
  simp only [runDecoded, h] <;> rfl

/-- Settles O5: the step is quiet, its fetch has no effect and sees memory as it is. -/
theorem stepRunsDecodedInstruction : Obligations.StepRunsDecodedInstruction := by
  intro s i rest hin hh hst ht hm hstale hpc ws hdec
  let u : State := { s with prevIpl7 := false }
  have hwords : fetchWords u = ws := fetchWords_eq_memRead hm hstale
  have hrun : runInstruction u = runDecoded u u := runInstruction_plain hm hstale hpc
  rw [step_quiet hin hh hst ht, hrun, runDecoded_ok (hwords ▸ hdec), hwords]
  rfl

/-! Interrupts -/

/-- With nothing more urgent, a step goes on to the interrupt, the stopped state or the instruction (R465). -/
theorem step_untraced {s : State} (hr : (nextInput s).reset = false) (hh : s.halted = false)
    (ht : s.pendingTrace = false) : step s = afterTrace (nextInput s) (dropInput s) := by
  have hdh : (dropInput s).halted = false := hh
  have hdt : (dropInput s).pendingTrace = false := ht
  simp [step, stepOnce, hr, hdh, hdt]

/-- Which levels are accepted: those above the mask, and a transition to 7 (R447). -/
theorem acceptable_iff (s : State) (ipl : BitVec 3) :
    acceptable s ipl = true ↔ s.intMask.toNat < ipl.toNat ∨ (ipl = 7 ∧ s.prevIpl7 = false) := by
  simp [acceptable, BitVec.lt_def]

/-- An accepted level is taken before anything else is looked at (R450, R463). -/
theorem afterTrace_acceptable {input : PlatformInput} {s : State} (h : acceptable s input.ipl = true) :
    afterTrace input s = .next (takeInterrupt input { s with prevIpl7 := input.ipl == 7 }) := by
  simp [afterTrace, h]

/-- Whether the processor was stopped is of no account after an exception's entry (R436). -/
theorem entered_unstopped (v : Nat) (p : Long) (level : Option (BitVec 3)) (s : State) :
    entered v p level { s with stopped := false } = entered v p level s := rfl

theorem takeInterrupt_plain (input : PlatformInput) {s : State} (hm : s.memMap = []) (hssp : s.ssp.getLsbD 0 = false) :
    takeInterrupt input s = entered (interruptVector input.ipl input.iack) s.pc (some input.ipl) s := by
  rw [takeInterrupt, takeException_plain _ _ _ (s := { s with stopped := false }) hm hssp, entered_unstopped]

/-- Settles O18: the level is acceptable, and the interrupt's exception is entered on plain memory. -/
theorem interruptTaken : Obligations.InterruptTaken := by
  intro s ipl iack rest hm hssp hh ht hin hlevel
  have hnext : nextInput s = { reset := false, ipl := ipl, iack := iack } := by simp [nextInput, hin]
  have hdrop : dropInput s = { s with inputs := rest } := by simp [dropInput, hin]
  have hacc : acceptable (dropInput s) ipl = true := (acceptable_iff (dropInput s) ipl).mpr hlevel
  rw [step_untraced (by rw [hnext]) hh ht, hnext, afterTrace_acceptable hacc, hdrop,
    takeInterrupt_plain _ (s := { s with inputs := rest, prevIpl7 := ipl == 7 }) hm hssp]
  cases iack <;> rfl

/-! Trace -/

/-- A step begun with a trace due takes it first, and goes on unless that ended in group 0 processing (R465). -/
theorem step_traced {s : State} (hr : (nextInput s).reset = false) (hh : s.halted = false) (ht : s.pendingTrace = true)
    (hth : (takeTrace (dropInput s)).halted = false) (htg : (takeTrace (dropInput s)).groupZero = false) :
    step s = afterTrace (nextInput s) (takeTrace (dropInput s)) := by
  have hdh : (dropInput s).halted = false := hh
  have hdt : (dropInput s).pendingTrace = true := ht
  simp [step, stepOnce, hr, hdh, hdt, hth, htg]

theorem takeTrace_plain {s : State} (hm : s.memMap = []) (hssp : s.ssp.getLsbD 0 = false) :
    takeTrace s = entered 9 s.pc none { s with pendingTrace := false } :=
  takeException_plain _ _ _ (s := { s with pendingTrace := false, stopped := false }) hm hssp

/-- The end of a completed instruction makes the trace due when T was 1 at its beginning (R452). -/
theorem afterInstr_pendingTrace (s t : State) : (afterInstr s t).pendingTrace = (s.traceBit || t.pendingTrace) := by
  unfold afterInstr
  split
  · next h => simp [h]
  · next h => simp [h]

/-- Nothing but the end of a completed instruction, and a reset or the trace itself, touches a pending trace (R452). -/
theorem pendingTrace_lasting (b : Bool) : Lasting (fun s => s.pendingTrace = b) where
  draws _ _ hs := hs
  record _ _ hs := hs
  write _ _ _ _ hs := hs
  setD _ _ _ hs := hs
  setA s n v hs := (State.setA_pendingTrace s n v).trans hs
  setPc _ _ hs := hs
  setCcr _ _ hs := hs
  setUsp _ _ hs := hs
  enter _ _ _ hs := hs
  unstop _ hs := hs
  entrySr _ _ hs := hs
  groupZero _ hs := hs
  halt _ hs := hs

theorem takeException_pendingTrace (v : Nat) (p : Long) (level : Option (BitVec 3)) (s : State) :
    (takeException v p level s).pendingTrace = s.pendingTrace :=
  (pendingTrace_lasting s.pendingTrace).takeException v p level rfl

/-- An instruction that is illegal, or privileged in user mode, only takes its exception (R358, R366). -/
theorem exec_notExecuted {i : Instr} {s : State}
    (hi : i = .illegal ∨ (privileged i = true ∧ s.supervisor = false)) :
    ∃ v, exec i s = .next (takeException v s.pc none s) := by
  rcases hi with rfl | ⟨hp, hs⟩
  · exact ⟨4, rfl⟩
  · exact ⟨8, exec_privileged_user hp hs⟩

/-- Settles O19: the end of an instruction, the exceptions that keep a pending trace, and the step that takes it. -/
theorem traceTaken : Obligations.TraceTaken := by
  refine ⟨afterInstr_pendingTrace, fun i s t hi hexec => ?_, fun s hm hssp hh ht hr => ?_⟩
  · obtain ⟨v, hv⟩ := exec_notExecuted hi
    obtain rfl := Host.Outcome.next.inj (hexec.symm.trans hv)
    exact takeException_pendingTrace v s.pc none s
  · have htrace := takeTrace_plain (s := dropInput s) hm hssp
    have hrun := step_traced hr hh ht (by rw [htrace]; exact hh) (by rw [htrace]; rfl)
    rw [hrun, htrace]
    rfl

end Sys2Proof.Machine
end

section
/-! SUPPORT. Stack frames as fields above one address, and what taking an exception leaves: the 6-byte frame (O12), RTE
after it (O13), and the 14-byte frame of a bus or address error (O15). -/

namespace Sys2Proof.Machine

open Sys2Proof.Safety

/-! Fields -/

/-- One field of a stack frame: its distance from the frame's address, its size and its value. -/
structure FrameField where
  offset : Nat
  size : Size
  value : BitVec size.bits

/-- The first byte after a field, from the frame's address. -/
def FrameField.past (f : FrameField) : Nat := f.offset + f.size.bytes

/-- Two fields that share no byte. -/
def FrameField.Apart (f g : FrameField) : Prop := f.past ≤ g.offset ∨ g.past ≤ f.offset

/-- Memory with the fields of a frame at `base` stored, the last of the list first, as pushes store them (R65). -/
@[irreducible] def storeFields (base : Long) (fs : List FrameField) (m : Memory) : Memory :=
  fs.foldr (fun f m => poke f.size m (base + BitVec.ofNat 32 f.offset) f.value) m

theorem storeFields_nil (base : Long) (m : Memory) : storeFields base [] m = m := by
  rw [storeFields, List.foldr_nil]

theorem storeFields_cons (base : Long) (f : FrameField) (fs : List FrameField) (m : Memory) :
    storeFields base (f :: fs) m =
      poke f.size (storeFields base fs m) (base + BitVec.ofNat 32 f.offset) f.value := by
  simp only [storeFields, List.foldr_cons]

theorem storeFields_wf (base : Long) (fs : List FrameField) {m : Memory} (hw : m.wf = true) :
    (storeFields base fs m).wf = true := by
  induction fs with
  | nil => rwa [storeFields_nil]
  | cons f fs ih =>
    rw [storeFields_cons]
    exact poke_wf _ _ _ _ ih

/-- The bytes of a field lie in the frame. -/
theorem bytesAt_field {base : Long} {f : FrameField} {n a : Nat} (hf : f.past ≤ n)
    (ha : a ∈ bytesAt f.size (base + BitVec.ofNat 32 f.offset)) : ∃ k < n, a = phys base k := by
  simp only [bytesAt, List.mem_map, List.mem_range] at ha
  obtain ⟨k, hk, rfl⟩ := ha
  refine ⟨f.offset + k, by unfold FrameField.past at hf; omega, ?_⟩
  simp only [phys, Config.addrBits, BitVec.toNat_add, BitVec.toNat_ofNat]
  omega

/-- Storing a frame changes no byte outside it (R65). -/
theorem memRead_storeFields {base : Long} {fs : List FrameField} {n a : Nat} (m : Memory)
    (hfit : ∀ f ∈ fs, f.past ≤ n) (ha : ∀ k < n, a ≠ phys base k) : memRead (storeFields base fs m) a = memRead m a := by
  induction fs with
  | nil => rw [storeFields_nil]
  | cons f fs ih =>
    obtain ⟨hf, hfs⟩ := List.forall_mem_cons.mp hfit
    have hout : a ∉ bytesAt f.size (base + BitVec.ofNat 32 f.offset) := fun hin =>
      let ⟨k, hk, hak⟩ := bytesAt_field hf hin
      ha k hk hak
    rw [storeFields_cons, memRead_poke_other f.size _ _ f.value a hout, ih hfs]

/-- Every field of a frame whose fields share no byte reads back (R64, R65). -/
theorem peek_storeFields {base : Long} {fs : List FrameField} {m : Memory} (hw : m.wf = true)
    (hfit : ∀ f ∈ fs, f.past ≤ 2 ^ Config.addrBits) (hapart : fs.Pairwise FrameField.Apart) {f : FrameField}
    (hf : f ∈ fs) :
    peek f.size (storeFields base fs m) (base + BitVec.ofNat 32 f.offset) = f.value := by
  induction fs with
  | nil => exact absurd hf List.not_mem_nil
  | cons g fs ih =>
    obtain ⟨hg, hfs⟩ := List.forall_mem_cons.mp hfit
    obtain ⟨hgf, hrest⟩ := List.pairwise_cons.mp hapart
    rw [storeFields_cons]
    rcases List.mem_cons.mp hf with rfl | hin
    · exact peek_poke _ _ _ _ (storeFields_wf base fs hw)
    · have hother := peek_poke_other f.size g.size (storeFields base fs m) (base + BitVec.ofNat 32 f.offset)
        (base + BitVec.ofNat 32 g.offset) g.value
        (bytesAt_disjoint base f.size g.size f.offset g.offset (hgf f hin).symm (hfs f hin) hg)
      exact hother.trans (ih hfs hrest hin)

/-! SR at an exception's entry -/

/-- T is cleared (R436). -/
theorem entrySr_traceBit (s : State) (w : Word) (level : Option (BitVec 3)) :
    (s.setSr (entrySr w level)).traceBit = false := by
  cases level <;> simp [entrySr]

/-- I becomes an interrupt's level, and is kept otherwise (R436). -/
theorem entrySr_intMask (s : State) (level : Option (BitVec 3)) :
    (s.setSr (entrySr s.readSr level)).intMask = level.getD s.intMask := by
  cases level <;>
  · ext i hi
    interval_cases i <;> simp [State.intMask, entrySr, State.readSr, Config.srMask]

/-- The condition codes are kept (R436). -/
theorem entrySr_ccr (s : State) (level : Option (BitVec 3)) : (s.setSr (entrySr s.readSr level)).ccr = s.ccr := by
  cases level <;> simp [State.ccr, ccrOfWord, entrySr, State.readSr, Config.srMask]

/-- SR as read holds implemented bits only (R31). -/
theorem readSr_and_srMask (s : State) : s.readSr &&& Config.srMask = s.readSr := by
  rw [State.readSr, BitVec.and_assoc, BitVec.and_self]

/-! The 6-byte frame -/

/-- SR, and PC above it (R436). -/
def shortFrame (sr : Word) (p : Long) : List FrameField := [⟨0, .word, sr⟩, ⟨2, .long, p⟩]

theorem shortFrame_fits (sr : Word) (p : Long) : ∀ f ∈ shortFrame sr p, f.past ≤ 6 := by
  simp [shortFrame, FrameField.past, Size.bytes]

theorem shortFrame_apart (sr : Word) (p : Long) : (shortFrame sr p).Pairwise FrameField.Apart := by
  simp [shortFrame, FrameField.Apart, FrameField.past, Size.bytes]

/-- Exception entry stores the 6-byte frame below SSP (R436). -/
theorem entered_mem (v : Nat) (p : Long) (level : Option (BitVec 3)) (s : State) :
    (entered v p level s).mem = storeFields (s.ssp - 6) (shortFrame s.readSr p) s.mem := by
  have hsr : s.ssp - 6 + BitVec.ofNat 32 0 = s.ssp - 6 := BitVec.add_zero _
  have hpc : s.ssp - 6 + BitVec.ofNat 32 2 = s.ssp - 4 := by bv_omega
  simp only [storeFields_cons, storeFields_nil, shortFrame, hsr, hpc]
  rfl

/-- The fields of the 6-byte frame read back from SSP up (R436). -/
theorem entered_fields (v : Nat) (p : Long) (level : Option (BitVec 3)) {s : State} (hw : s.mem.wf = true) :
    peek .word (entered v p level s).mem (s.ssp - 6) = s.readSr ∧
      peek .long (entered v p level s).mem (s.ssp - 6 + 2) = p := by
  have hfields : ∀ f ∈ shortFrame s.readSr p,
      peek f.size (entered v p level s).mem (s.ssp - 6 + BitVec.ofNat 32 f.offset) = f.value := fun f hf => by
    rw [entered_mem]
    exact peek_storeFields hw (fun f hf => (shortFrame_fits _ _ f hf).trans (by decide)) (shortFrame_apart _ _) hf
  simp only [shortFrame, List.forall_mem_cons, BitVec.add_zero] at hfields
  obtain ⟨hsr, hpc, -⟩ := hfields
  exact ⟨hsr, hpc⟩

/-- Settles O12: the pushes on plain memory, the fields of the frame, and the parts of SR. `exceptionEntry` is the
model's own name. -/
theorem exceptionEntry_holds : Obligations.ExceptionEntry := by
  intro v p level s hm hssp
  refine ⟨takeException_plain v p level hm hssp, fun hw => ?_⟩
  obtain ⟨hsr, hpc⟩ := entered_fields v p level hw
  refine ⟨entrySr_supervisor s _ level, entrySr_traceBit s _ level, entrySr_intMask s level, entrySr_ccr s level, rfl,
    hsr, hpc, rfl, rfl, rfl, rfl, rfl, rfl, rfl, fun a ha => ?_⟩
  rw [entered_mem]
  exact memRead_storeFields s.mem (shortFrame_fits _ _) ha

/-- Settles O13: RTE reads the frame's two fields, and SSP is back above them. -/
theorem rteUndoesException : Obligations.RteUndoesException := by
  intro v p s u hw hm hssp hum hus hmem husp
  rw [takeException_plain v p none hm hssp] at hmem husp
  have hbase : u.ssp = s.ssp - 6 := husp
  obtain ⟨hsr, hpc⟩ := entered_fields v p none hw
  rw [← hmem, ← hbase] at hsr hpc
  refine ⟨_, exec_rte hum hus (by rw [hbase]; exact even_sub hssp (by decide)), ?_, ?_, ?_⟩
  · rw [afterInstr_pc, State.setPc_pc, hpc]
  · rw [afterInstr_sr, State.setPc_sr, State.setSr_sr, hsr, readSr_and_srMask]
  · rw [afterInstr_ssp, State.setPc_ssp, State.setSr_ssp, State.setSsp_ssp, hbase, BitVec.sub_add_cancel]

/-! Pushes on the supervisor stack -/

/-- Supervisor mode, an even SSP and plain memory: what is pushed lies on the supervisor stack. -/
structure EvenStack (s : State) : Prop where
  supervisor : s.supervisor = true
  even : s.ssp.getLsbD 0 = false
  plain : s.memMap = []

/-- The state with a longword pushed on the supervisor stack (R15). -/
def State.pushedLong (s : State) (v : Long) : State :=
  (s.setSsp (s.ssp - 4)).setMem (poke .long s.mem (s.ssp - 4) v)

/-- The state with a word pushed on the supervisor stack (R15). -/
def State.pushedWord (s : State) (v : Word) : State :=
  (s.setSsp (s.ssp - 2)).setMem (poke .word s.mem (s.ssp - 2) v)

@[simp] theorem State.pushedLong_ssp (s : State) (v : Long) : (s.pushedLong v).ssp = s.ssp - 4 := rfl
@[simp] theorem State.pushedLong_mem (s : State) (v : Long) :
    (s.pushedLong v).mem = poke .long s.mem (s.ssp - 4) v := rfl
@[simp] theorem State.pushedLong_ir (s : State) (v : Long) : (s.pushedLong v).ir = s.ir := rfl
@[simp] theorem State.pushedWord_ssp (s : State) (v : Word) : (s.pushedWord v).ssp = s.ssp - 2 := rfl
@[simp] theorem State.pushedWord_mem (s : State) (v : Word) :
    (s.pushedWord v).mem = poke .word s.mem (s.ssp - 2) v := rfl
@[simp] theorem State.pushedWord_ir (s : State) (v : Word) : (s.pushedWord v).ir = s.ir := rfl
@[simp] theorem drew_ssp (k : Nat) (s : State) : (drew k s).ssp = s.ssp := rfl
@[simp] theorem drew_ir (k : Nat) (s : State) : (drew k s).ir = s.ir := rfl

theorem EvenStack.pushedLong {s : State} (h : EvenStack s) (v : Long) : EvenStack (s.pushedLong v) :=
  ⟨h.supervisor, even_sub h.even (by decide), h.plain⟩

theorem EvenStack.pushedWord {s : State} (h : EvenStack s) (v : Word) : EvenStack (s.pushedWord v) :=
  ⟨h.supervisor, even_sub h.even (by decide), h.plain⟩

theorem EvenStack.drew {s : State} (h : EvenStack s) (k : Nat) : EvenStack (drew k s) :=
  ⟨h.supervisor, h.even, h.plain⟩

theorem EvenStack.push32 {s : State} (h : EvenStack s) (v : Long) : push32 v s = .ok () (s.pushedLong v) := by
  have hsp : s.sp = s.ssp := sp_of_supervisor h.supervisor
  rw [push32_plain h.plain (aligned_of_even (even_sub (by rw [hsp]; exact h.even) (by decide))), hsp,
    setSp_of_supervisor h.supervisor]
  rfl

theorem EvenStack.push16 {s : State} (h : EvenStack s) (v : Word) : push16 v s = .ok () (s.pushedWord v) := by
  have hsp : s.sp = s.ssp := sp_of_supervisor h.supervisor
  rw [push16_plain h.plain (aligned_of_even (even_sub (by rw [hsp]; exact h.even) (by decide))), hsp,
    setSp_of_supervisor h.supervisor]
  rfl

/-! The 14-byte frame -/

/-- The information word of a bus or address error; `bits` is free (R437). -/
def informationWord (bits : Long) (acc : Access) : Word :=
  (bits.setWidth 11 : BitVec 11) ++ BitVec.ofBool (!acc.write) ++ BitVec.ofBool (!acc.fetch) ++ functionCode acc

/-- Its bit 4 is set for a read (R437). -/
theorem informationWord_read (bits : Long) (acc : Access) : (informationWord bits acc).getLsbD 4 = !acc.write := by
  simp only [informationWord, BitVec.getLsbD_append]
  simp

/-- Its bit 3 is set when no instruction is fetched (R437). -/
theorem informationWord_notFetch (bits : Long) (acc : Access) : (informationWord bits acc).getLsbD 3 = !acc.fetch := by
  simp only [informationWord, BitVec.getLsbD_append]
  simp

/-- The information word, the address of the access, the opword, SR, PC (R437). -/
def groupZeroFields (info : Word) (addr : Long) (ir sr : Word) (pc : Long) : List FrameField :=
  [⟨0, .word, info⟩, ⟨2, .long, addr⟩, ⟨6, .word, ir⟩, ⟨8, .word, sr⟩, ⟨10, .long, pc⟩]

theorem groupZeroFields_fits (info : Word) (addr : Long) (ir sr : Word) (pc : Long) :
    ∀ f ∈ groupZeroFields info addr ir sr pc, f.past ≤ 14 := by
  simp [groupZeroFields, FrameField.past, Size.bytes]

theorem groupZeroFields_apart (info : Word) (addr : Long) (ir sr : Word) (pc : Long) :
    (groupZeroFields info addr ir sr pc).Pairwise FrameField.Apart := by
  simp [groupZeroFields, FrameField.Apart, FrameField.past, Size.bytes]

/-- The state after the pushes of the 14-byte frame: PC, SR, the opword, the address, the information word (R437). -/
def pushedFields (acc : Access) (sr : Word) (s : State) : State :=
  let saved := ((drew 1 s).pushedLong (Config.freeLong s.draws)).pushedWord sr
  let described := ((drew 1 saved).pushedWord s.ir).pushedLong acc.addr
  (drew 1 described).pushedWord (informationWord (Config.freeLong (s.draws + 2)) acc)

theorem EvenStack.pushedFields {s : State} (h : EvenStack s) (acc : Access) (sr : Word) :
    EvenStack (pushedFields acc sr s) :=
  ((((((h.drew 1).pushedLong _).pushedWord _).drew 1).pushedWord _).pushedLong _ |>.drew 1).pushedWord _

/-- A vector's longword in plain memory is read, its address being even (R436, R437). -/
theorem readMem_vector (v : Nat) {s : State} (hm : s.memMap = []) :
    readMem .long (BitVec.ofNat 32 (4 * v)) false s = .ok (peek .long s.mem (BitVec.ofNat 32 (4 * v))) s := by
  have heven : (BitVec.ofNat 32 (4 * v)).getLsbD 0 = false := by
    rw [BitVec.getLsbD_ofNat, Nat.testBit_zero]
    simp
    omega
  exact readMem_plain (aligned_of_even heven) (by rw [hm, plainAt_nil])

/-- The frame pushed, PC the handler's (R437). -/
theorem groupZeroFrame_plain (v : Nat) (acc : Access) {s : State} (hm : s.memMap = [])
    (hssp : s.ssp.getLsbD 0 = false) :
    groupZeroFrame v acc true s =
      let t := pushedFields acc s.readSr (s.setSr (entrySr s.readSr none))
      .ok () (t.setPc (peek .long t.mem (BitVec.ofNat 32 (4 * v)))) := by
  have hstart : EvenStack (s.setSr (entrySr s.readSr none)) := ⟨entrySr_supervisor s _ none, hssp, hm⟩
  have hpc := (hstart.drew 1).pushedLong (Config.freeLong s.draws)
  have hsr := (hpc.pushedWord s.readSr).drew 1
  have hir := hsr.pushedWord s.ir
  have haddr := (hir.pushedLong acc.addr).drew 1
  have hread := readMem_vector v (hstart.pushedFields acc s.readSr).plain
  simp only [groupZeroFrame, act_get_bind, act_modify_bind, if_true]
  rw [act_bind_ok (draw_eq_drew _), State.setSr_draws, act_bind_ok ((hstart.drew 1).push32 _),
    act_bind_ok (hpc.push16 _), act_bind_ok (draw_eq_drew _), act_get_bind, act_bind_ok (hsr.push16 _)]
  simp only [drew_ir, State.pushedWord_ir, State.pushedLong_ir, State.setSr_ir]
  rw [act_bind_ok (hir.push32 _), act_bind_ok (draw_eq_drew _), act_bind_ok (haddr.push16 _)]
  exact act_bind_ok hread

/-- The pushes store the 14-byte frame below SSP (R437). -/
theorem pushedFields_mem (acc : Access) (sr : Word) (s : State) :
    (pushedFields acc sr s).mem =
      storeFields (s.ssp - 14)
        (groupZeroFields (informationWord (Config.freeLong (s.draws + 2)) acc) acc.addr s.ir sr
          (Config.freeLong s.draws))
        s.mem := by
  have hpc : s.ssp - 14 + BitVec.ofNat 32 10 = s.ssp - 4 := by bv_omega
  have hsr : s.ssp - 14 + BitVec.ofNat 32 8 = s.ssp - 4 - 2 := by bv_omega
  have hir : s.ssp - 14 + BitVec.ofNat 32 6 = s.ssp - 4 - 2 - 2 := by bv_omega
  have haddr : s.ssp - 14 + BitVec.ofNat 32 2 = s.ssp - 4 - 2 - 2 - 4 := by bv_omega
  have hinfo : s.ssp - 14 + BitVec.ofNat 32 0 = s.ssp - 4 - 2 - 2 - 4 - 2 := by bv_omega
  simp only [storeFields_cons, storeFields_nil, groupZeroFields, hpc, hsr, hir, haddr, hinfo, pushedFields,
    State.pushedLong_mem, State.pushedWord_mem, State.pushedLong_ssp, State.pushedWord_ssp, drew_mem, drew_ssp]

theorem pushedFields_ssp (acc : Access) (sr : Word) (s : State) : (pushedFields acc sr s).ssp = s.ssp - 14 := by
  simp only [pushedFields, State.pushedLong_ssp, State.pushedWord_ssp, drew_ssp, BitVec.sub_sub]
  rfl

/-- The pushes change SSP, memory and the free values used only. -/
theorem pushedFields_eq (acc : Access) (sr : Word) (s : State) :
    pushedFields acc sr s =
      { s with
        ssp := (pushedFields acc sr s).ssp
        mem := (pushedFields acc sr s).mem
        draws := s.draws + 3 } := by
  simp only [pushedFields, State.pushedLong, State.pushedWord, State.setSsp, State.setMem, drew]

/-- The 14-byte frame pushed for an access: SR and the opword are the state's, PC and bits 15..5 of the information word
free (R437). -/
def accessFrame (acc : Access) (s : State) : List FrameField :=
  groupZeroFields (informationWord (Config.freeLong (s.draws + 2)) acc) acc.addr s.ir s.readSr (Config.freeLong s.draws)

/-- The state after bus or address error processing on plain memory (R437). -/
def groupZeroEntered (v : Nat) (acc : Access) (s : State) : State :=
  let m := storeFields (s.ssp - 14) (accessFrame acc s) s.mem
  { s with
    sr := entrySr s.readSr none &&& Config.srMask
    ssp := s.ssp - 14
    mem := m
    pc := peek .long m (BitVec.ofNat 32 (4 * v))
    stopped := false
    groupZero := true
    stale := []
    draws := s.draws + 3 }

/-- A bus or address error on plain memory with an even SSP, no group 0 processing begun (R437). -/
theorem enterGroupZero_plain (v : Nat) (acc : Access) {s : State} (hm : s.memMap = []) (hg : s.groupZero = false)
    (hssp : s.ssp.getLsbD 0 = false) : enterGroupZero v acc true s = groupZeroEntered v acc s := by
  have hframe := groupZeroFrame_plain v acc (s := { s with groupZero := true, stopped := false, stale := [] }) hm hssp
  rw [pushedFields_eq, pushedFields_mem, pushedFields_ssp] at hframe
  simp only [enterGroupZero, hg, hframe]
  rfl

theorem groupZeroEntered_mem (v : Nat) (acc : Access) (s : State) :
    (groupZeroEntered v acc s).mem = storeFields (s.ssp - 14) (accessFrame acc s) s.mem := rfl

theorem accessFrame_fits (acc : Access) (s : State) : ∀ f ∈ accessFrame acc s, f.past ≤ 14 :=
  groupZeroFields_fits _ _ _ _ _

/-- The fields of the 14-byte frame read back from SSP up (R437). -/
theorem groupZeroEntered_fields (v : Nat) (acc : Access) {s : State} (hw : s.mem.wf = true) :
    ∀ f ∈ accessFrame acc s,
      peek f.size (groupZeroEntered v acc s).mem (s.ssp - 14 + BitVec.ofNat 32 f.offset) = f.value := fun f hf => by
  rw [groupZeroEntered_mem]
  exact peek_storeFields hw (fun f hf => (accessFrame_fits acc s f hf).trans (by decide))
    (groupZeroFields_apart _ _ _ _ _) hf

/-- Settles O15: the pushes on plain memory, the fields of the frame, and the parts of SR. -/
theorem longFrame : Obligations.LongFrame := by
  intro v acc s hw hm hg hssp
  rw [enterGroupZero_plain v acc hm hg hssp]
  have hfields := groupZeroEntered_fields v acc hw
  simp only [accessFrame, groupZeroFields, List.forall_mem_cons, BitVec.add_zero] at hfields
  obtain ⟨hinfo, haddr, hir, hsr, -⟩ := hfields
  refine ⟨rfl, entrySr_supervisor s _ none, entrySr_traceBit s _ none, entrySr_intMask s none, rfl, ?read, ?notFetch,
    haddr, hir, hsr, rfl, rfl, rfl, rfl, rfl, fun a ha => ?outside⟩
  case read => exact (congrArg (BitVec.getLsbD · 4) hinfo).trans (informationWord_read _ acc)
  case notFetch => exact (congrArg (BitVec.getLsbD · 3) hinfo).trans (informationWord_notFetch _ acc)
  case outside =>
    rw [groupZeroEntered_mem]
    exact memRead_storeFields s.mem (accessFrame_fits acc s) ha

end Sys2Proof.Machine
end
